-- ==== Sys2Proof/Word.lean ====
section
/-!
DEFINITION. The byte of the two serial links and the saturating sums that the LX62's counters use
(Introduction 5.8: a saturating counter that would pass its largest value holds that value).
-/

namespace Sys2Proof

/-- A byte on the control link or the tender link. -/
abbrev Byte := BitVec 8

/-- A text field: its characters as they travel. -/
abbrev Text := List Byte

/-- The largest value of a 32-bit unsigned total. -/
def maxU32 : Nat := 4294967295

/-- `a + b`, held at `top`. -/
def satAdd (top a b : Nat) : Nat := min top (a + b)

/-- Saturating 32-bit addition. -/
def addU32 (a b : Nat) : Nat := satAdd maxU32 a b

/-- Saturating addition of one to a 16-bit counter. -/
def incU16 (a : Nat) : Nat := satAdd 65535 a 1

end Sys2Proof
end

