-- ==== Sys2Proof/Config.lean ====
section
/-!
DEFINITION. What the manual leaves open and the model leaves free.
-/

namespace Sys2Proof.Config

/-- The n-th free value of a run: whether retained memory still agrees with its check value after
VBAT has fallen below the level that holds it while VSUP is absent (R164, R165). The manual says
that the level "holds the clock and retained memory" and not what the contents are below it.
No body: nothing can be proved of its value. Log 12. -/
opaque batteryLossSpares : Nat → Bool

/-- The n-th free value of a run: whether a byte is being received on CL_RX at the moment a new rate takes
effect, which loses it (R168). The line decides it, and no row of the table carries it. No body: nothing can
be proved of its value. Log 13. -/
opaque byteBeingReceived : Nat → Bool

end Sys2Proof.Config
end

