-- ==== Sys2Proof/Syntax.lean ====
section
/-!
DEFINITION. The commands of the LX62: one constructor of `Instr` for each row of
spec/opcode_table.json. Operands of a host request are the values of its body as they travel
(R177): enumerations, sets and numbers as naturals, so that a value outside its field can be given
and is refused by the request's own rule. Operands of an event are what the event itself fixes.
-/

namespace Sys2Proof

/-- The four seats, in seat order (Introduction 5.4). -/
inductive Seat where
  | f | l | c | r
deriving DecidableEq, Repr

/-- The three lamps of the roof sign. -/
inductive Lamp where
  | free | panel | share
deriving DecidableEq, Repr

/-- The two sides of the partition. -/
inductive Side where
  | front | rear
deriving DecidableEq, Repr

/-- The two speakers. -/
inductive Speaker where
  | front | rear
deriving DecidableEq, Repr

/-- A reference: one attempt of one payment (R62). -/
structure Ref where
  payment : Nat
  attempt : Nat
deriving DecidableEq, Repr

/-- The stage of a T_PROGRESS (Table 5-3). -/
inductive Stage where
  | cardSeen | pinEntry | online
deriving DecidableEq, Repr

/-- The readiness a T_STATUS carries (Table 5-3). -/
inductive Readiness where
  | ready | busy
deriving DecidableEq, Repr

/-- A control link frame that passed its checks, without start byte, length and CRC (R169). -/
structure Frame where
  kind : Byte
  tag  : Byte
  body : List Byte
deriving DecidableEq, Repr

/-- The fields of TARIFF_WRITE after the tariff number (Table 2-1). -/
structure TariffFields where
  isDefined        : Nat
  name             : Text
  flagFall         : Nat
  stepAmount       : Nat
  distanceStep     : Nat
  timeStep         : Nat
  includedDistance : Nat
  mode             : Nat
  sharePermitted   : Nat
  manualSelectable : Nat
deriving DecidableEq, Repr

/-- The fields of PAY_SETTINGS_WRITE (Table 4-1). An empty currency text is an absent code. -/
structure SettingsFields where
  currency : Text
  feeBp    : Nat
  feeCap   : Nat
  preset1  : Nat
  preset2  : Nat
  preset3  : Nat
  preset4  : Nat
  ceiling  : Nat
  limit    : Nat
  cashUnit : Nat
deriving DecidableEq, Repr

/-- The commands, in the order of spec/opcode_table.json. -/
inductive Instr where
  -- distance pulses, the clock's ticks and calibration
  | dpulseChange (level : Bool)
  | filterWindowExpiry
  | secondTick
  | clockWrap
  | minuteBoundary
  | odoStatus
  | dpulseConfig (polarity window : Nat)
  | calSetK (k : Nat)
  | calMeasureStart
  | calMeasureStop
  -- tariffs
  | tariffWrite (number : Nat) (fields : TariffFields)
  | tariffRead (number : Nat)
  | scheduleWrite (entry days startMinute tariff : Nat)
  | scheduleRead
  | extraKindWrite (number isDefined : Nat) (name : Text) (amount limit : Nat)
  | extraKindRead (number : Nat)
  | calStatus
  | calenChange (level : Bool)
  -- legs
  | legStart (seats tariff consent : Nat)
  | legStop (slot : Nat)
  | legResume (slot : Nat)
  | legVoid (slot : Nat)
  | legTariff (slot tariff : Nat)
  | legExtraAdd (slot kind amount : Nat)
  | legExtraRemove (slot : Nat)
  | legRead (slot : Nat)
  | shareSet (enabled : Nat)
  -- settlement
  | paySettingsWrite (fields : SettingsFields)
  | paySettingsRead
  | payBegin (legs tender tipOffer : Nat)
  | payTip (selector value : Nat)
  | payAuthorise
  | payCash
  | payCancel
  | payStatus
  | tipTimerExpiry
  | responseTimerExpiry
  | abortTimerExpiry
  | retryIdleTimerExpiry
  | resendTimerExpiry (entry : Nat)
  -- tender link
  | tlByteArrival (byte : Byte) (afterGap : Bool)
  | frameReaderTake
  | tProgress (ref : Ref) (stage : Stage)
  | tApproved (ref : Ref) (amount : Nat) (authCode : Text)
  | tDeclined (ref : Ref) (reason : Nat)
  | tAborted (ref : Ref)
  | tReversed (ref : Ref)
  | tStatus (readiness : Readiness) (askNumber : Nat)
  | heartbeatExpiry
  | tlCtsChange (level : Bool)
  | tlFrameSent
  | sendTimerExpiry
  | terminalStatus (clear : Nat)
  -- shifts
  | shiftOpen (driver : Text)
  | shiftClose
  | shiftRead
  | reportList
  | reportRead (number : Nat)
  -- trip journal
  | tripRead (number : Nat)
  | tripNextUnread
  | journalStatus
  -- roof sign
  | signMode (mode choice : Nat)
  | patternPhaseEnd (lamp : Lamp)
  | lampSenseChange (lamp : Lamp) (level : Bool)
  | darkTimerExpiry (lamp : Lamp)
  | signStatus
  | lampTest
  | lampFaultClear (lamps : Nat)
  | patternWrite (name onUnits offUnits burst gap mode : Nat)
  | emergencyRaise
  | emergencyClear
  | emergChange (level : Bool)
  | emergHold1s
  | clearWindowEnd
  -- partition intercom
  | voxChange (side : Side) (level : Bool)
  | attackExpiry (side : Side)
  | pttPress
  | pttRelease
  | hangTimerExpiry
  | maxTalkExpiry
  | intercomMode (mode : Nat)
  | intercomSettings (attack hang maxTalk : Nat)
  | intercomDefaults
  | intercomStatus
  | callButtonChange (seat : Seat) (level : Bool)
  | callPressTaken (seat : Seat)
  | callAnswer
  | callClear
  | callWindowEnd
  -- speakers
  | tonePhaseEnd (speaker : Speaker)
  | tonePlay (speaker level pitch onTime : Nat) (offTime : Int) (repeats : Nat)
  | toneStop (which : Nat)
  | speakerStatus
  -- clock, supply and retained memory
  | clockSet (year month day hour minute second : Nat)
  | clockRead
  | supplyFail
  | resetnAssert
  | batteryFail
  | restart
  | retainedStatus
  | factoryClear
  | partIdent
  -- control link
  | controlFrameReceived (frame : Frame)
  | controlGap
  | lineBreak (midFrame : Bool)
  | unlistedKind (kind : Byte)
  | frameEcho (frame : Frame)
  | replySent
  | linkConfig (rate : Nat)
  | linkRateSwitch
  | linkStatus (clear : Nat)
  | linkReset
  | linkResetApply
  | noticeMode (mode : Nat)
  | noticeMask (operation kinds : Nat)
  | noticeFetch
  | noticeFrameStart
  | noticeFrameEnd
  | echoOn
  | echoModeBegin
  | echoOff
  | controlFrameDiscard (bytes : List Byte)
deriving DecidableEq, Repr

end Sys2Proof
end

