-- ==== Sys2Proof/Machine/State.lean ====
section
/-!
DEFINITION. The state of the LX62 as plain data: every piece the blocks of Table 3-1 own, the pins,
the frames and notices of the two links, and the queue of waiting commands. Field by field this is
the list under "State" of INVENTORY.md. Multi-valued things are named; numbers are naturals with the
ranges of the rules kept by the operations (saturation, clamping).
-/

namespace Sys2Proof.Machine

/-! ### Why a step could stop -/

/-- No command of the LX62 faults: the rules answer a request that cannot be carried out with a
reply code, and discard and count damaged frames. -/
inductive Fault where
  /-- Raised by no command: the part has no fault that stops it. Safe. -/
  | noStop
deriving DecidableEq, Repr

/-- Why a step is refused. -/
inductive Refusal where
  /-- Raised by a dispatch arm whose command has no meaning in the model. Safe. No arm raises it. -/
  | notModelled (mnemonic : String)
deriving DecidableEq, Repr

/-! ### Things of which there is one for each seat, lamp, side, speaker, slot or level -/

/-- One for each seat. -/
structure PerSeat (α : Type) where
  f : α
  l : α
  c : α
  r : α
deriving DecidableEq, Repr

/-- One for each lamp. -/
structure PerLamp (α : Type) where
  free  : α
  panel : α
  share : α
deriving DecidableEq, Repr

/-- One for each side. -/
structure PerSide (α : Type) where
  front : α
  rear  : α
deriving DecidableEq, Repr

/-- One for each speaker. -/
structure PerSpeaker (α : Type) where
  front : α
  rear  : α
deriving DecidableEq, Repr

/-- The four slots of the leg table (Introduction 5.4). -/
inductive Slot where
  | s1 | s2 | s3 | s4
deriving DecidableEq, Repr

/-- One for each slot. -/
structure PerSlot (α : Type) where
  s1 : α
  s2 : α
  s3 : α
  s4 : α
deriving DecidableEq, Repr

/-- The four tone levels, 0 to 3. -/
inductive Level where
  | l0 | l1 | l2 | l3
deriving DecidableEq, Repr

/-- One for each level. -/
structure PerLevel (α : Type) where
  l0 : α
  l1 : α
  l2 : α
  l3 : α
deriving DecidableEq, Repr

/-- A set of seats. -/
abbrev SeatSet := PerSeat Bool

/-- A set of lamps. -/
abbrev LampSet := PerLamp Bool

/-! ### Replies and notices as fields on the wire (R177) -/

/-- One field of a reply or notice body: an unsigned integer of 1, 2, 3, 4 or 8 bytes, a signed one
of 4 bytes, or characters. -/
inductive Field where
  | u8  (n : Nat)
  | u16 (n : Nat)
  | u24 (n : Nat)
  | u32 (n : Nat)
  | u64 (n : Nat)
  | i8  (z : Int)
  | i32 (z : Int)
  | raw (bytes : List Byte)
deriving DecidableEq, Repr

/-- The reply codes of Table 12-1. -/
inductive ReplyCode where
  | ok | adjusted | unknownKind | badLength | badValue | wrongState | noShift | calLocked
  | uncalibrated | legLocked | seatTaken | noSlot | moving | terminalDown | terminalBusy
  | journalFull | reportsFull | tooLate | limit | notFound | notPermitted
deriving DecidableEq, Repr

/-- What a block answers a request: the reply code, and after OK or ADJUSTED the fields the
request's rule names (R171). -/
structure Answer where
  code : ReplyCode
  body : List Field
deriving DecidableEq, Repr

/-- The 20 notice kinds, in the order of Table 12-4. -/
inductive NoticeKind where
  | fareStep | legState | tariffChanged | motion | sensorImplausible | paymentState | lateApproval
  | terminalLink | call | talkLimit | intercomState | signState | lampFault | emergency
  | journalHigh | shiftState | powerRestored | storeLost | toneDropped | fareCap
deriving DecidableEq, Repr

/-- A notice: its kind and the payload of its latest raise (Introduction 5.11). -/
structure Notice where
  kind    : NoticeKind
  payload : List Field
deriving DecidableEq, Repr

/-! ### Supply and input pins -/

/-- Whether the part runs, is stopped by supply fail, or is held by RESETn (R164). -/
inductive Power where
  | running | supplyFailed | resetHeld
deriving DecidableEq, Repr

/-- The levels of the input pins of Table 4-1: `true` is asserted (or high, for DPULSE). -/
structure Pins where
  dpulse : Bool
  calen  : Bool
  emerg  : Bool
  ptt    : Bool
  voxF   : Bool
  voxR   : Bool
  cts    : Bool
  call   : PerSeat Bool
  sense  : PerLamp Bool
deriving DecidableEq, Repr

/-! ### Odometry unit (Table 1-1) -/

/-- The edge that marks a pulse. -/
inductive Polarity where
  | rising | falling
deriving DecidableEq, Repr

/-- The filter windows: OFF, 0.5, 1, 2 and 4 ms. -/
inductive FilterWindow where
  | off | ms05 | ms1 | ms2 | ms4
deriving DecidableEq, Repr

/-- The motion state (R7). -/
inductive Motion where
  | moving | stationary
deriving DecidableEq, Repr

/-- The measurement states of Table 1-4. -/
inductive Measurement where
  | idle | starting | running | stopping | stopped
deriving DecidableEq, Repr

/-- The odometry unit. -/
structure Odometry where
  polarity       : Polarity
  window         : FilterWindow
  /-- The accepted input level. -/
  accepted       : Bool
  /-- The filter timing in progress, with the base steps that have passed in it. -/
  timing         : Option Nat
  /-- The calibration constant K. -/
  k              : Nat
  /-- The metre accumulator R. -/
  r              : Nat
  intervalMetres : Nat
  lastMetres     : Nat
  zeroCloses     : Nat
  motion         : Motion
  totalDistance  : Nat
  hiredDistance  : Nat
  measurement    : Measurement
  measurePulses  : Nat
  measureSeconds : Nat
deriving DecidableEq, Repr

/-! ### Fare engine -/

/-- How distance and time combine in one second (Table 2-1). -/
inductive TariffMode where
  | single | double
deriving DecidableEq, Repr

/-- A tariff record (Table 2-1). -/
structure Tariff where
  isDefined        : Bool
  name             : Text
  flagFall         : Nat
  stepAmount       : Nat
  distanceStep     : Nat
  timeStep         : Nat
  includedDistance : Nat
  mode             : TariffMode
  sharePermitted   : Bool
  manualSelectable : Bool
deriving DecidableEq, Repr

/-- The seven days, MON first. -/
structure Weekdays where
  mon : Bool
  tue : Bool
  wed : Bool
  thu : Bool
  fri : Bool
  sat : Bool
  sun : Bool
deriving DecidableEq, Repr

/-- A schedule entry (Table 2-5). -/
structure ScheduleEntry where
  days        : Weekdays
  startMinute : Nat
  tariff      : Nat
deriving DecidableEq, Repr

/-- An extras kind (Table 2-6). -/
structure ExtraKind where
  isDefined : Bool
  name      : Text
  amount    : Nat
  limit     : Nat
deriving DecidableEq, Repr

/-- The states of a leg (Table 3-2). -/
inductive LegState where
  | free | hired | stopping | stopped | paying
deriving DecidableEq, Repr

/-- How a leg's tariff is chosen. -/
inductive Selection where
  | scheduled | fixed
deriving DecidableEq, Repr

/-- A tariff segment (R49); tariff 0 is MIXED. -/
structure Segment where
  tariff  : Nat
  metres  : Nat
  seconds : Nat
  fare    : Nat
deriving DecidableEq, Repr

/-- An extras item (R36). -/
structure Extra where
  kind   : Nat
  amount : Nat
deriving DecidableEq, Repr

/-- A leg context (Table 3-1). -/
structure Leg where
  state       : LegState
  selection   : Selection
  tariff      : Nat
  flagFall    : Nat
  /-- The progress accumulator Q. -/
  q           : Int
  fare        : Nat
  seconds     : Nat
  metres      : Nat
  startTime   : Nat
  stopTime    : Option Nat
  seats       : SeatSet
  share       : Bool
  capped      : Bool
  powerGap    : Bool
  paymentId   : Option Nat
  extras      : List Extra
  extrasTotal : Nat
  segments    : List Segment
deriving DecidableEq, Repr

/-- The fare engine. -/
structure FareEngine where
  tariffs  : Vector Tariff 8
  schedule : Vector ScheduleEntry 12
  kinds    : Vector ExtraKind 12
  legs     : PerSlot Leg
  seatMap  : PerSeat (Option Slot)
deriving DecidableEq, Repr

/-! ### Settlement unit -/

/-- The business settings (Table 4-1). -/
structure Settings where
  currency : Option Text
  feeBp    : Nat
  feeCap   : Nat
  preset1  : Nat
  preset2  : Nat
  preset3  : Nat
  preset4  : Nat
  ceiling  : Nat
  limit    : Nat
  cashUnit : Nat
deriving DecidableEq, Repr

/-- The states of the payment session (Table 4-2). -/
inductive SessionState where
  | none | tipWait | authorising | aborting | retryWait | settled | failed | cancelled
deriving DecidableEq, Repr

/-- How a session is paid. -/
inductive Tender where
  | card | cash
deriving DecidableEq, Repr

/-- Why an abort was asked for. -/
inductive AbortCause where
  | cancel | timeout | restart
deriving DecidableEq, Repr

/-- Why an attempt ended without approval. -/
inductive DeclineReason where
  | terminal (code : Nat) | amountMismatch | timeout | uncertain
deriving DecidableEq, Repr

/-- Why a session closed. -/
inductive CloseCause where
  | approved | cash | declines | host | tipRestart | idle
deriving DecidableEq, Repr

/-- One leg of a session with its due. -/
structure LegDue where
  slot : Slot
  due  : Nat
deriving DecidableEq, Repr

/-- The payment session (Table 4-2), with the clamp marks of R66. The leg set is in ascending slot
order. -/
structure Session where
  state          : SessionState
  paymentId      : Nat
  legs           : List LegDue
  due            : Nat
  fee            : Nat
  tip            : Nat
  total          : Nat
  tender         : Tender
  tipOffered     : Bool
  attempt        : Option Nat
  outstanding    : Option Ref
  abortCause     : Option AbortCause
  stage          : Option Stage
  authCode       : Option Text
  declineReason  : Option DeclineReason
  closeCause     : Option CloseCause
  cashAdjustment : Option Int
  beginTime      : Nat
  closeTime      : Option Nat
  tipCeiled      : Bool
  tipLimited     : Bool
deriving DecidableEq, Repr

/-- An entry of the reversal list with the base steps left of its resend timer (R79). -/
structure Reversal where
  ref    : Ref
  amount : Nat
  left   : Nat
deriving DecidableEq, Repr

/-- Which session timer runs. -/
inductive SessionTimerKind where
  | tip | response | abort | retryIdle
deriving DecidableEq, Repr

/-- The one session timer running (R82), with the base steps left. -/
structure SessionTimer where
  kind : SessionTimerKind
  left : Nat
deriving DecidableEq, Repr

/-- The settlement unit. -/
structure Settlement where
  settings  : Settings
  sharing   : Bool
  session   : Session
  nextId    : Nat
  reversals : List Reversal
  stale     : List Ref
  unheld    : Nat
  timer     : Option SessionTimer
  /-- Base steps left to 180 s after the T_SALE of the attempt (R71). -/
  saleLeft  : Nat
deriving DecidableEq, Repr

/-! ### Tender link -/

/-- A byte of the receive ring with its break mark (R88). -/
structure RingByte where
  byte    : Byte
  broken  : Bool
deriving DecidableEq, Repr

/-- A receiver of frames: hunting, or assembling with the bytes taken after the start byte (R88,
R170). -/
inductive Reader where
  | hunting
  | assembling (taken : List Byte)
deriving DecidableEq, Repr

/-- A message from the terminal (Table 5-3). -/
inductive TermMsg where
  | progress (ref : Ref) (stage : Stage)
  | approved (ref : Ref) (amount : Nat) (authCode : Text)
  | declined (ref : Ref) (reason : Nat)
  | aborted  (ref : Ref)
  | reversed (ref : Ref)
  | status   (readiness : Readiness) (askNumber : Nat)
deriving DecidableEq, Repr

/-- A message to the terminal (Table 5-3). -/
inductive PartMsg where
  | sale      (ref : Ref) (amount : Nat) (currency : Text)
  | abort     (ref : Ref)
  | reverse   (ref : Ref) (amount : Nat)
  | statusAsk (askNumber : Nat)
deriving DecidableEq, Repr

/-- The tender link. -/
structure TenderLink where
  ring         : List RingByte
  /-- TL_RTS. -/
  rts          : Bool
  /-- Base steps since the last byte arrived, up to 6; none before the first since restart. -/
  sinceByte    : Option Nat
  /-- A byte was dropped since the last that entered the ring. -/
  dropSince    : Bool
  reader       : Reader
  /-- The complete message handed on and not yet taken by the settlement unit. -/
  handedOn     : Option TermMsg
  queue        : List PartMsg
  /-- How many bytes of the head frame have been started on TL_TX (R93). -/
  headStarted  : Nat
  /-- Base steps left of the head frame's send timer. -/
  sendLeft     : Nat
  /-- Terminal status UP. -/
  up           : Bool
  unanswered   : Nat
  /-- The heartbeat period has been answered. -/
  answered     : Bool
  heartbeat    : Nat
  askNumber    : Nat
  readiness    : Option Readiness
  lastAnswered : Option Nat
  /-- Base steps since the last valid or malformed frame. -/
  sinceFrame   : Option Nat
  overflow     : Bool
  stalled      : Bool
  droppedBytes    : Nat
  discardedBytes  : Nat
  gapDiscards     : Nat
  lengthDiscards  : Nat
  crcDiscards     : Nat
  malformed       : Nat
  txDiscards      : Nat
deriving DecidableEq, Repr

/-! ### Shift accounts -/

/-- A bucket of metres, seconds and fare. -/
structure Bucket where
  metres  : Nat
  seconds : Nat
  fare    : Nat
deriving DecidableEq, Repr

/-- The totals of a shift (R100): every field of Table 6-1 from trips settled on. Bucket 0 is the
mixed bucket, bucket n that of tariff n. -/
structure Totals where
  tripsSettled       : Nat
  tripsVoided        : Nat
  cardDeclines       : Nat
  lateApprovals      : Nat
  reversalsRequested : Nat
  hiredMetres        : Nat
  totalMetres        : Nat
  hiredSeconds       : Nat
  fare               : Nat
  extras             : Nat
  cardFee            : Nat
  tips               : Nat
  cashTaken          : Nat
  cardTaken          : Nat
  cashRounding       : Int
  buckets            : Vector Bucket 9
deriving DecidableEq, Repr

/-- The shift record (Table 6-1). -/
structure ShiftRecord where
  /-- State OPEN. -/
  isOpen        : Bool
  number        : Nat
  driver        : Text
  openTime      : Option Nat
  closeTime     : Option Nat
  odometerOpen  : Option Nat
  odometerClose : Option Nat
  calCountOpen  : Nat
  totals        : Totals
deriving DecidableEq, Repr

/-- A shift report (R109). -/
structure Report where
  record : ShiftRecord
  isRead : Bool
deriving DecidableEq, Repr

/-- The shift accounts. -/
structure ShiftAccounts where
  record  : ShiftRecord
  reports : List Report
deriving DecidableEq, Repr

/-! ### Trip journal -/

/-- How a finished leg was paid, with the fields of Table 7-1 that the tender brings. -/
inductive TripTender where
  | card (paymentId fee tip : Nat) (authCode : Text)
  | cash (adjustment : Int)
  | void
deriving DecidableEq, Repr

/-- The contents of a trip record as the settlement unit gives them (R114). -/
structure Trip where
  shiftNumber : Nat
  slot        : Slot
  seats       : SeatSet
  startTime   : Nat
  endTime     : Nat
  seconds     : Nat
  metres      : Nat
  fare        : Nat
  extrasTotal : Nat
  tender      : TripTender
  segments    : List Segment
  extras      : List Extra
  powerGap    : Bool
deriving DecidableEq, Repr

/-- A trip record in the ring: the sequence number, closed mark and read flag are the journal's. -/
structure TripRecord where
  seq    : Nat
  trip   : Trip
  closed : Bool
  isRead : Bool
deriving DecidableEq, Repr

/-- The trip journal; the ring is oldest first. -/
structure Journal where
  ring : List TripRecord
  next : Nat
deriving DecidableEq, Repr

/-! ### Sign controller (Table 8-1) -/

/-- The sign modes. -/
inductive SignMode where
  | auto | forceOffDuty | forceOnCall
deriving DecidableEq, Repr

/-- The on-call pattern choice. -/
inductive OnCallChoice where
  | standard | user
deriving DecidableEq, Repr

/-- The derived sign states. -/
inductive SignState where
  | offDuty | onCall | free | share | hired
deriving DecidableEq, Repr

/-- The named patterns that a generator runs (Table 8-5, without P_STEADY). -/
inductive PatternName where
  | onCall | freeFallback | alarm | lampTest | user
deriving DecidableEq, Repr

/-- A lamp demand (R128). -/
inductive Demand where
  | off | steady
  | pattern (name : PatternName)
deriving DecidableEq, Repr

/-- Whether a pattern's burst repeats. -/
inductive PatternMode where
  | continuous | oneShot
deriving DecidableEq, Repr

/-- The fields of a pattern (Table 8-4), times in base steps. -/
structure Pattern where
  onUnits  : Nat
  offUnits : Nat
  burst    : Nat
  gap      : Nat
  mode     : PatternMode
deriving DecidableEq, Repr

/-- The phases of a pattern generator (R130). -/
inductive Phase where
  | on | off | gap | rest
deriving DecidableEq, Repr

/-- A pattern generator with the values it loaded (R130, R131). -/
structure Generator where
  phase   : Phase
  flash   : Nat
  /-- Base steps left of ON or OFF. -/
  left    : Nat
  gapLow  : Nat
  gapHigh : Nat
  loaded  : Pattern
deriving DecidableEq, Repr

/-- What raised the emergency. -/
inductive EmergencyCause where
  | emerg | host
deriving DecidableEq, Repr

/-- A hold of the EMERG switch in progress (R135, R136). -/
structure Hold where
  /-- Base steps since its first sample, up to 100. -/
  held        : Nat
  /-- It has lasted 1 s. -/
  reached     : Bool
  /-- It is the raising hold. -/
  raising     : Bool
  /-- It began while the state was ACTIVE. -/
  begunActive : Bool
deriving DecidableEq, Repr

/-- The sign controller. -/
structure Sign where
  mode        : SignMode
  choice      : OnCallChoice
  derived     : SignState
  /-- The seat-count digit; absent is blank. -/
  digit       : Option Nat
  demand      : PerLamp Demand
  generator   : PerLamp Generator
  pUser       : Pattern
  fault       : PerLamp Bool
  dark        : PerLamp Nat
  /-- A lamp test runs. -/
  testRunning : Bool
  /-- The emergency state is ACTIVE. -/
  active      : Bool
  cause       : Option EmergencyCause
  raiseTime   : Option Nat
  hold        : Option Hold
  /-- The clear window: absent, or the base steps left. -/
  clearWindow : Option Nat
deriving DecidableEq, Repr

/-! ### Intercom controller (Table 9-1) -/

/-- The intercom modes. -/
inductive IntercomMode where
  | openMode | driverPtt | privateMode | offMode
deriving DecidableEq, Repr

/-- The condition of a VOX qualifier, with the base steps left of an attack. -/
inductive Qualifier where
  | low
  | attack (left : Nat)
  | qualified
deriving DecidableEq, Repr

/-- The channel states, in the order of Table 9-1; Table 9-3 has another (log 17). -/
inductive Channel where
  | quiet | frontTalk | rearTalk | hangFront | hangRear
deriving DecidableEq, Repr

/-- The max-talk timer running: base steps left, and the time in seconds it began with. -/
structure TalkTimer where
  left    : Nat
  seconds : Nat
deriving DecidableEq, Repr

/-- The press qualifier of a call button, with the base steps left of a press. -/
inductive Press where
  | released
  | pressing (left : Nat)
  | taken
deriving DecidableEq, Repr

/-- The intercom controller. -/
structure Intercom where
  mode     : IntercomMode
  /-- Attack and hang time in ms, max talk in s. -/
  attack   : Nat
  hang     : Nat
  maxTalk  : Nat
  vox      : PerSide Qualifier
  channel  : Channel
  hangLeft : Option Nat
  talk     : Option TalkTimer
  heldOff  : PerSide Bool
  calls    : SeatSet
  pointer  : Seat
  /-- The call window: closed, or the base steps left. -/
  window   : Option Nat
  press    : PerSeat Press
deriving DecidableEq, Repr

/-! ### Speaker arbiter -/

/-- The tone kinds of Table 10-1. -/
inductive ToneKind where
  | callChime | fareStart | tariffBeep | paymentPrompt | approved | declined | talkLimit | host
deriving DecidableEq, Repr

/-- A tone: kind, level, pitch in hertz and cadence in base steps. -/
structure Tone where
  kind    : ToneKind
  level   : Level
  pitch   : Nat
  onTime  : Nat
  offTime : Nat
  repeats : Nat
deriving DecidableEq, Repr

/-- A tone in service: the repeat now playing (from 1), whether its on phase sounds, and the base
steps left of the phase. -/
structure Playing where
  tone    : Tone
  current : Nat
  onPhase : Bool
  left    : Nat
deriving DecidableEq, Repr

/-- The speech states of a speaker. -/
inductive Speech where
  | none | speaking | muted
deriving DecidableEq, Repr

/-- The arbitration of one speaker. -/
structure SpeakerState where
  service : Option Playing
  hold    : PerLevel (Option Tone)
  speech  : Speech
deriving DecidableEq, Repr

/-! ### Clock and retained memory -/

/-- The calendar clock. -/
structure Clock where
  count       : Nat
  valid       : Bool
  /-- The battery-fail latch. -/
  batteryFail : Bool
  /-- The base period of the second, 0 to 99. -/
  period      : Nat
  /-- The model's own: the second tick has fallen and not been taken. -/
  secondDue   : Bool
  /-- The model's own: a minute boundary has fallen and not been taken. -/
  minuteDue   : Bool
  /-- The model's own: the boundary of the coming tick has been taken ahead of it. -/
  minuteTaken : Bool
deriving DecidableEq, Repr

/-- What retained memory itself owns (Table 11-1), and the figures of the last restart. -/
structure Retained where
  calCount      : Nat
  calStamp      : Nat
  failCount     : Option Nat
  recorded      : Bool
  formatVersion : Nat
  /-- The check value agrees with the contents. -/
  checkAgrees   : Bool
  lastValid     : Bool
  lastBattery   : Bool
  /-- The gap reported at the last restart; absent is unknown. -/
  lastGap       : Option Nat
deriving DecidableEq, Repr

/-! ### Control link -/

/-- What is being sent for the frame in the handling place. -/
inductive Sending where
  | answer (a : Answer)
  | echo
deriving DecidableEq, Repr

/-- The handling place: the kind of the frame held, its tag and body (absent where the request was
given to its block as a command, log 7), and what is being sent for it. -/
structure Handling where
  kind    : Nat
  frame   : Option Frame
  sending : Sending
deriving DecidableEq, Repr

/-- What takes place when the reply being sent has been sent whole. -/
inductive AfterReply where
  | nothing
  | rateSwitch (rate : Nat)
  | linkReset
  | echoBegin
deriving DecidableEq, Repr

/-- The control link. -/
structure ControlLink where
  rate          : Nat
  receiver      : Reader
  /-- Base steps since the last byte arrived, up to 3. -/
  quiet         : Nat
  handling      : Option Handling
  waiting       : Option Frame
  after         : AfterReply
  /-- The notice queue, oldest first. -/
  queue         : List Notice
  /-- The enabled set: bit n - 1 for kind n of Table 12-4. -/
  enabled       : BitVec 20
  /-- Delivery mode STREAM. -/
  stream        : Bool
  echo          : Bool
  overrun       : Bool
  gapCount      : Nat
  lengthCount   : Nat
  crcCount      : Nat
  overrunCount  : Nat
  /-- The notice whose frame is being sent. -/
  noticeFrame   : Option Notice
deriving DecidableEq, Repr

/-! ### The whole part -/

/-- The state of the LX62 and the queue of waiting commands. -/
structure State where
  power     : Power
  pins      : Pins
  odo       : Odometry
  fare      : FareEngine
  settle    : Settlement
  tender    : TenderLink
  shifts    : ShiftAccounts
  journal   : Journal
  sign      : Sign
  intercom  : Intercom
  speakers  : PerSpeaker SpeakerState
  clock     : Clock
  retained  : Retained
  link      : ControlLink
  /-- The commands waiting, first in, first out. -/
  pending   : List Instr
  /-- The model's own: how many free values have been used. -/
  freeCount : Nat
deriving DecidableEq, Repr

/-! ### The values after reset -/

/-- The contents of an undefined tariff record (R16). -/
def Tariff.blank : Tariff where
  isDefined        := false
  name             := []
  flagFall         := 0
  stepAmount       := 1
  distanceStep     := 1
  timeStep         := 1
  includedDistance := 0
  mode             := .single
  sharePermitted   := false
  manualSelectable := false

/-- The contents of an unused schedule entry (R29). -/
def ScheduleEntry.unused : ScheduleEntry where
  days        := ⟨false, false, false, false, false, false, false⟩
  startMinute := 0
  tariff      := 0

/-- The contents of an undefined extras kind (R35). -/
def ExtraKind.blank : ExtraKind where
  isDefined := false
  name      := []
  amount    := 0
  limit     := 1

/-- No seat. -/
def SeatSet.empty : SeatSet := ⟨false, false, false, false⟩

/-- A FREE leg: the third column of Table 3-1 (R38). -/
def Leg.blank : Leg where
  state       := .free
  selection   := .scheduled
  tariff      := 0
  flagFall    := 0
  q           := 0
  fare        := 0
  seconds     := 0
  metres      := 0
  startTime   := 0
  stopTime    := none
  seats       := SeatSet.empty
  share       := false
  capped      := false
  powerGap    := false
  paymentId   := none
  extras      := []
  extrasTotal := 0
  segments    := []

/-- The fare engine after factory clear or store loss (R16, R29, R35, R38, R39). -/
def FareEngine.cleared : FareEngine where
  tariffs  := Vector.replicate 8 Tariff.blank
  schedule := Vector.replicate 12 ScheduleEntry.unused
  kinds    := Vector.replicate 12 ExtraKind.blank
  legs     := ⟨Leg.blank, Leg.blank, Leg.blank, Leg.blank⟩
  seatMap  := ⟨none, none, none, none⟩

/-- The business settings after factory clear (last column of Table 4-1). -/
def Settings.cleared : Settings where
  currency := none
  feeBp    := 0
  feeCap   := 99999
  preset1  := 0
  preset2  := 10
  preset3  := 15
  preset4  := 20
  ceiling  := 30
  limit    := 500000
  cashUnit := 1

/-- The session NONE. The manual gives its other fields no value: empty or 0 (log 31). -/
def Session.blank : Session where
  state          := .none
  paymentId      := 0
  legs           := []
  due            := 0
  fee            := 0
  tip            := 0
  total          := 0
  tender         := .card
  tipOffered     := false
  attempt        := none
  outstanding    := none
  abortCause     := none
  stage          := none
  authCode       := none
  declineReason  := none
  closeCause     := none
  cashAdjustment := none
  beginTime      := 0
  closeTime      := none
  tipCeiled      := false
  tipLimited     := false

/-- The settlement unit after factory clear or store loss (R85, and R40 for the sharing setting). -/
def Settlement.cleared : Settlement where
  settings  := Settings.cleared
  sharing   := false
  session   := Session.blank
  nextId    := 1
  reversals := []
  stale     := []
  unheld    := 0
  timer     := none
  saleLeft  := 0

/-- The tender link at restart, before any frame is given to it (R99). -/
def TenderLink.restarted : TenderLink where
  ring         := []
  rts          := true
  sinceByte    := none
  dropSince    := false
  reader       := .hunting
  handedOn     := none
  queue        := []
  headStarted  := 0
  sendLeft     := 0
  up           := false
  unanswered   := 0
  answered     := false
  heartbeat    := 1000
  askNumber    := 0
  readiness    := none
  lastAnswered := none
  sinceFrame   := none
  overflow     := false
  stalled      := false
  droppedBytes    := 0
  discardedBytes  := 0
  gapDiscards     := 0
  lengthDiscards  := 0
  crcDiscards     := 0
  malformed       := 0
  txDiscards      := 0

/-- Totals of 0. -/
def Totals.zero : Totals where
  tripsSettled       := 0
  tripsVoided        := 0
  cardDeclines       := 0
  lateApprovals      := 0
  reversalsRequested := 0
  hiredMetres        := 0
  totalMetres        := 0
  hiredSeconds       := 0
  fare               := 0
  extras             := 0
  cardFee            := 0
  tips               := 0
  cashTaken          := 0
  cardTaken          := 0
  cashRounding       := 0
  buckets            := Vector.replicate 9 ⟨0, 0, 0⟩

/-- The shift accounts after factory clear or store loss (R100, R109). -/
def ShiftAccounts.cleared : ShiftAccounts where
  record :=
    { isOpen := false, number := 0, driver := [], openTime := none, closeTime := none,
      odometerOpen := none, odometerClose := none, calCountOpen := 0, totals := Totals.zero }
  reports := []

/-- The trip journal after factory clear or store loss (R125). -/
def Journal.cleared : Journal := { ring := [], next := 1 }

/-- The default contents of P_USER (Table 8-5). -/
def Pattern.userDefault : Pattern := ⟨50, 50, 1, 0, .continuous⟩

/-- A generator in REST with nothing counted. -/
def Generator.atRest : Generator where
  phase   := .rest
  flash   := 0
  left    := 0
  gapLow  := 0
  gapHigh := 0
  loaded  := ⟨0, 0, 0, 0, .continuous⟩

/-- The sign controller at restart before the derivation, with no emergency held (R139). -/
def Sign.restarted : Sign where
  mode        := .auto
  choice      := .standard
  derived     := .offDuty
  digit       := none
  demand      := ⟨.off, .off, .off⟩
  generator   := ⟨Generator.atRest, Generator.atRest, Generator.atRest⟩
  pUser       := Pattern.userDefault
  fault       := ⟨false, false, false⟩
  dark        := ⟨0, 0, 0⟩
  testRunning := false
  active      := false
  cause       := none
  raiseTime   := none
  hold        := none
  clearWindow := none

/-- The intercom controller at restart with every input deasserted (last column of Table 9-1). -/
def Intercom.restarted : Intercom where
  mode     := .driverPtt
  attack   := 60
  hang     := 1000
  maxTalk  := 60
  vox      := ⟨.low, .low⟩
  channel  := .quiet
  hangLeft := none
  talk     := none
  heldOff  := ⟨false, false⟩
  calls    := SeatSet.empty
  pointer  := .f
  window   := none
  press    := ⟨.released, .released, .released, .released⟩

/-- A speaker with nothing in service or held (R160). -/
def SpeakerState.idle : SpeakerState where
  service := none
  hold    := ⟨none, none, none, none⟩
  speech  := .none

/-- Both speakers at restart (R160). -/
def speakersRestarted : PerSpeaker SpeakerState := ⟨SpeakerState.idle, SpeakerState.idle⟩

/-- The control link at restart (R176). -/
def ControlLink.restarted : ControlLink where
  rate         := 57600
  receiver     := .hunting
  quiet        := 0
  handling     := none
  waiting      := none
  after        := .nothing
  queue        := []
  enabled      := BitVec.allOnes 20
  stream       := false
  echo         := false
  overrun      := false
  gapCount     := 0
  lengthCount  := 0
  crcCount     := 0
  overrunCount := 0
  noticeFrame  := none

/-- The machine right after reset: the end of a restart (R165) at first power-up, which found the
battery-fail latch set and retained memory invalid (log 1), with every input deasserted (log 2).
The tender link's first T_STATUS_ASK waits (R99); STORE_LOST and POWER_RESTORED are queued. -/
def State.reset : State where
  power := .running
  pins :=
    { dpulse := false, calen := false, emerg := false, ptt := false, voxF := false, voxR := false,
      cts := false, call := ⟨false, false, false, false⟩, sense := ⟨false, false, false⟩ }
  odo :=
    { polarity := .rising, window := .ms1, accepted := false, timing := none, k := 0, r := 0,
      intervalMetres := 0, lastMetres := 0, zeroCloses := 0, motion := .moving,
      totalDistance := 0, hiredDistance := 0, measurement := .idle, measurePulses := 0,
      measureSeconds := 0 }
  fare := FareEngine.cleared
  settle := Settlement.cleared
  tender := { TenderLink.restarted with queue := [.statusAsk 0], sendLeft := 200 }
  shifts := ShiftAccounts.cleared
  journal := Journal.cleared
  sign := Sign.restarted
  intercom := Intercom.restarted
  speakers := speakersRestarted
  clock :=
    { count := 0, valid := false, batteryFail := false, period := 0, secondDue := false,
      minuteDue := false, minuteTaken := false }
  retained :=
    { calCount := 0, calStamp := 0, failCount := none, recorded := false, formatVersion := 1,
      checkAgrees := true, lastValid := false, lastBattery := true, lastGap := some 0 }
  link :=
    { ControlLink.restarted with
      queue := [⟨.storeLost, []⟩, ⟨.powerRestored, [.u32 0, .u8 0, .u8 0, .u8 1]⟩] }
  pending := []
  freeCount := 0

end Sys2Proof.Machine
end

