-- ==== Sys2Proof/Machine/Ops.lean ====
section
/-!
DEFINITION. The operations that every block uses: reading and writing the things of which there is
one for each seat, lamp, side, speaker, slot or level; laying fields out as bytes (R177); answering;
raising a notice (R172); and acting only while the part runs (R164).
-/

namespace Sys2Proof.Machine

/-! ### One for each … -/

/-- The entry of a seat. -/
def PerSeat.get {α : Type} (p : PerSeat α) : Seat → α
  | .f => p.f
  | .l => p.l
  | .c => p.c
  | .r => p.r

/-- Replace the entry of a seat. -/
def PerSeat.set {α : Type} (p : PerSeat α) (x : α) : Seat → PerSeat α
  | .f => { p with f := x }
  | .l => { p with l := x }
  | .c => { p with c := x }
  | .r => { p with r := x }

/-- The entry of a lamp. -/
def PerLamp.get {α : Type} (p : PerLamp α) : Lamp → α
  | .free  => p.free
  | .panel => p.panel
  | .share => p.share

/-- Replace the entry of a lamp. -/
def PerLamp.set {α : Type} (p : PerLamp α) (x : α) : Lamp → PerLamp α
  | .free  => { p with free := x }
  | .panel => { p with panel := x }
  | .share => { p with share := x }

/-- The entry of a side. -/
def PerSide.get {α : Type} (p : PerSide α) : Side → α
  | .front => p.front
  | .rear  => p.rear

/-- Replace the entry of a side. -/
def PerSide.set {α : Type} (p : PerSide α) (x : α) : Side → PerSide α
  | .front => { p with front := x }
  | .rear  => { p with rear := x }

/-- The entry of a speaker. -/
def PerSpeaker.get {α : Type} (p : PerSpeaker α) : Speaker → α
  | .front => p.front
  | .rear  => p.rear

/-- Replace the entry of a speaker. -/
def PerSpeaker.set {α : Type} (p : PerSpeaker α) (x : α) : Speaker → PerSpeaker α
  | .front => { p with front := x }
  | .rear  => { p with rear := x }

/-- The entry of a slot. -/
def PerSlot.get {α : Type} (p : PerSlot α) : Slot → α
  | .s1 => p.s1
  | .s2 => p.s2
  | .s3 => p.s3
  | .s4 => p.s4

/-- Replace the entry of a slot. -/
def PerSlot.set {α : Type} (p : PerSlot α) (x : α) : Slot → PerSlot α
  | .s1 => { p with s1 := x }
  | .s2 => { p with s2 := x }
  | .s3 => { p with s3 := x }
  | .s4 => { p with s4 := x }

/-- Apply a function to the entry of each slot. -/
def PerSlot.map {α β : Type} (p : PerSlot α) (g : α → β) : PerSlot β :=
  ⟨g p.s1, g p.s2, g p.s3, g p.s4⟩

/-- The entries in slot order. -/
def PerSlot.toList {α : Type} (p : PerSlot α) : List α := [p.s1, p.s2, p.s3, p.s4]

/-- The entry of a level. -/
def PerLevel.get {α : Type} (p : PerLevel α) : Level → α
  | .l0 => p.l0
  | .l1 => p.l1
  | .l2 => p.l2
  | .l3 => p.l3

/-- Replace the entry of a level. -/
def PerLevel.set {α : Type} (p : PerLevel α) (x : α) : Level → PerLevel α
  | .l0 => { p with l0 := x }
  | .l1 => { p with l1 := x }
  | .l2 => { p with l2 := x }
  | .l3 => { p with l3 := x }

/-- The seats in seat order. -/
def allSeats : List Seat := [.f, .l, .c, .r]

/-- The slots in order. -/
def Slot.all : List Slot := [.s1, .s2, .s3, .s4]

/-- The number of a slot, 1 to 4. -/
def Slot.number : Slot → Nat
  | .s1 => 1
  | .s2 => 2
  | .s3 => 3
  | .s4 => 4

/-- The number of a level, 0 to 3. -/
def Level.number : Level → Nat
  | .l0 => 0
  | .l1 => 1
  | .l2 => 2
  | .l3 => 3

/-! ### Fields as bytes (R177) -/

/-- `n` as `width` bytes, high byte first. -/
def bytesOf : (width n : Nat) → List Byte
  | 0, _ => []
  | w + 1, n => bytesOf w (n / 256) ++ [BitVec.ofNat 8 n]

/-- The number that bytes give, high byte first. -/
def numberOf (bs : List Byte) : Nat := bs.foldl (fun n b => n * 256 + b.toNat) 0

/-- The bytes of a field: big-endian, two's complement where signed (R177). -/
def Field.bytes : Field → List Byte
  | .u8 n   => bytesOf 1 n
  | .u16 n  => bytesOf 2 n
  | .u24 n  => bytesOf 3 n
  | .u32 n  => bytesOf 4 n
  | .u64 n  => bytesOf 8 n
  | .i8 z   => bytesOf 1 (z % 256).toNat
  | .i32 z  => bytesOf 4 (z % 4294967296).toNat
  | .raw bs => bs

/-- A yes/no field: no is 0 and yes is 1. -/
def yesNo (b : Bool) : Field := .u8 (if b then 1 else 0)

/-- A field whose table lists the asserted (or latched) value first. -/
def firstWhen (b : Bool) : Field := .u8 (if b then 0 else 1)

/-- A text field: a count byte and the characters. -/
def textField (t : Text) : List Field := [.u8 t.length, .raw t]

/-- An optional number of one byte for which 0 is legal: the presence flag stands before it
(log 17). -/
def optU8 (o : Option Nat) : List Field := [yesNo o.isSome, .u8 (o.getD 0)]

/-- An optional number of four bytes for which 0 is legal. -/
def optU32 (o : Option Nat) : List Field := [yesNo o.isSome, .u32 (o.getD 0)]

/-- A list of bodies with a count byte before it (log 17). -/
def countedList {α : Type} (body : α → List Field) (xs : List α) : List Field :=
  .u8 xs.length :: xs.flatMap body

/-- The bits of a list of members, bit 0 for the first. -/
def bitsOf : List Bool → Nat
  | [] => 0
  | b :: bs => (if b then 1 else 0) + 2 * bitsOf bs

/-- A seat set in one byte: F, L, C, R. -/
def SeatSet.bits (p : SeatSet) : Nat := bitsOf [p.f, p.l, p.c, p.r]

/-- A lamp set in one byte: FREE, PANEL, SHARE. -/
def LampSet.bits (p : LampSet) : Nat := bitsOf [p.free, p.panel, p.share]

/-- A weekday set in one byte: MON to SUN. -/
def Weekdays.bits (d : Weekdays) : Nat := bitsOf [d.mon, d.tue, d.wed, d.thu, d.fri, d.sat, d.sun]

/-- A reference in three bytes: the payment id, then the attempt. -/
def refFields (r : Ref) : List Field := [.u16 r.payment, .u8 r.attempt]

/-- The code of a stage in a T_PROGRESS body. -/
def stageCode : Stage → Nat
  | .cardSeen  => 1
  | .pinEntry  => 2
  | .online    => 3

/-! ### Answers -/

/-- The byte of a reply code (Table 12-1). -/
def ReplyCode.code : ReplyCode → Nat
  | .ok           => 0x00
  | .adjusted     => 0x01
  | .unknownKind  => 0x10
  | .badLength    => 0x11
  | .badValue     => 0x12
  | .wrongState   => 0x13
  | .noShift      => 0x14
  | .calLocked    => 0x15
  | .uncalibrated => 0x16
  | .legLocked    => 0x17
  | .seatTaken    => 0x18
  | .noSlot       => 0x19
  | .moving       => 0x1A
  | .terminalDown => 0x1B
  | .terminalBusy => 0x1C
  | .journalFull  => 0x1D
  | .reportsFull  => 0x1E
  | .tooLate      => 0x1F
  | .limit        => 0x20
  | .notFound     => 0x21
  | .notPermitted => 0x22

/-- The reply OK with its fields. -/
def Answer.ok (body : List Field) : Answer := ⟨.ok, body⟩

/-- The reply OK, or ADJUSTED where a value was clamped. -/
def Answer.okOr (clamped : Bool) (body : List Field) : Answer :=
  ⟨if clamped then .adjusted else .ok, body⟩

/-- A refusal: the code alone (R171). -/
def Answer.refusal (code : ReplyCode) : Answer := ⟨code, []⟩

/-- What taking a request gives: the state after its event and the answer. -/
abbrev Taken := State × Answer

/-- A refused request leaves all state as it was (Introduction 5.9). -/
def refuse (code : ReplyCode) (s : State) : Taken := (s, .refusal code)

/-- A readout changes nothing. -/
def report (body : List Field) (s : State) : Taken := (s, .ok body)

/-! ### Notices (R172) -/

/-- The code of a notice kind (Table 12-4). -/
def NoticeKind.code : NoticeKind → Nat
  | .fareStep          => 1
  | .legState          => 2
  | .tariffChanged     => 3
  | .motion            => 4
  | .sensorImplausible => 5
  | .paymentState      => 6
  | .lateApproval      => 7
  | .terminalLink      => 8
  | .call              => 9
  | .talkLimit         => 10
  | .intercomState     => 11
  | .signState         => 12
  | .lampFault         => 13
  | .emergency         => 14
  | .journalHigh       => 15
  | .shiftState        => 16
  | .powerRestored     => 17
  | .storeLost         => 18
  | .toneDropped       => 19
  | .fareCap           => 20

/-- Whether the enabled set holds a kind (R173). -/
def ControlLink.isEnabled (l : ControlLink) (k : NoticeKind) : Bool := l.enabled.getLsbD (k.code - 1)

/-- Put a notice in the queue: in place of the one of its kind, else at the end (R172). -/
def putNotice (n : Notice) : List Notice → List Notice
  | [] => [n]
  | m :: ms => if m.kind = n.kind then n :: ms else m :: putNotice n ms

/-- A raise at the control link (R172). -/
def ControlLink.raise (l : ControlLink) (k : NoticeKind) (payload : List Field) : ControlLink :=
  if l.isEnabled k then { l with queue := putNotice ⟨k, payload⟩ l.queue } else l

/-- Raise a notice with its payload (R172). -/
def raise (k : NoticeKind) (payload : List Field) (s : State) : State :=
  { s with link := s.link.raise k payload }

/-- Raise a notice where a condition holds. -/
def raiseIf (c : Bool) (k : NoticeKind) (payload : List Field) (s : State) : State :=
  if c then raise k payload s else s

/-! ### Acting while the part runs -/

/-- A block acts only while the part runs (R164, log 10). -/
def whileRunning (g : State → State) (s : State) : State :=
  match s.power with
  | .running => g s
  | _ => s

/-- The next state, with nothing else. -/
abbrev Res := Host.Outcome State Fault Refusal

end Sys2Proof.Machine
end

