-- ==== Sys2Proof/Decode.lean ====
section
/-!
DEFINITION. Request frames as commands: the kind codes of Table 12-3, the layout of each request body
(R177), the decoder from kind and body to a command, and the encoder back. The command table gives no
bits to any row, so `decodeTableWord` reads no command from a word.
-/

namespace Sys2Proof

/-- The kinds of Table 12-3, in code order. -/
inductive ReqKind where
  | odoStatus | dpulseConfig | calSetK | calMeasureStart | calMeasureStop
  | tariffWrite | tariffRead | scheduleWrite | scheduleRead | extraKindWrite | extraKindRead | calStatus
  | legStart | legStop | legResume | legVoid | legTariff | legExtraAdd | legExtraRemove | legRead
  | shareSet
  | payBegin | payTip | payAuthorise | payCash | payCancel | payStatus | paySettingsWrite
  | paySettingsRead | terminalStatus
  | shiftOpen | shiftClose | shiftRead | reportList | reportRead
  | tripRead | tripNextUnread | journalStatus
  | signMode | signStatus | lampTest | lampFaultClear | patternWrite | emergencyRaise | emergencyClear
  | intercomMode | intercomSettings | intercomDefaults | intercomStatus | callAnswer | callClear
  | tonePlay | toneStop | speakerStatus
  | clockSet | clockRead | retainedStatus | factoryClear | partIdent
  | linkConfig | linkStatus | linkReset | noticeMode | noticeMask | noticeFetch | echoOn | echoOff
deriving DecidableEq, Repr

/-- The code of a kind (Table 12-3). -/
def ReqKind.code : ReqKind → Nat
  | .odoStatus => 0x01
  | .dpulseConfig => 0x02
  | .calSetK => 0x03
  | .calMeasureStart => 0x04
  | .calMeasureStop => 0x05
  | .tariffWrite => 0x08
  | .tariffRead => 0x09
  | .scheduleWrite => 0x0A
  | .scheduleRead => 0x0B
  | .extraKindWrite => 0x0C
  | .extraKindRead => 0x0D
  | .calStatus => 0x0E
  | .legStart => 0x10
  | .legStop => 0x11
  | .legResume => 0x12
  | .legVoid => 0x13
  | .legTariff => 0x14
  | .legExtraAdd => 0x15
  | .legExtraRemove => 0x16
  | .legRead => 0x17
  | .shareSet => 0x18
  | .payBegin => 0x20
  | .payTip => 0x21
  | .payAuthorise => 0x22
  | .payCash => 0x23
  | .payCancel => 0x24
  | .payStatus => 0x25
  | .paySettingsWrite => 0x26
  | .paySettingsRead => 0x27
  | .terminalStatus => 0x28
  | .shiftOpen => 0x30
  | .shiftClose => 0x31
  | .shiftRead => 0x32
  | .reportList => 0x33
  | .reportRead => 0x34
  | .tripRead => 0x38
  | .tripNextUnread => 0x39
  | .journalStatus => 0x3A
  | .signMode => 0x40
  | .signStatus => 0x41
  | .lampTest => 0x42
  | .lampFaultClear => 0x43
  | .patternWrite => 0x44
  | .emergencyRaise => 0x45
  | .emergencyClear => 0x46
  | .intercomMode => 0x48
  | .intercomSettings => 0x49
  | .intercomDefaults => 0x4A
  | .intercomStatus => 0x4B
  | .callAnswer => 0x4C
  | .callClear => 0x4D
  | .tonePlay => 0x50
  | .toneStop => 0x51
  | .speakerStatus => 0x52
  | .clockSet => 0x58
  | .clockRead => 0x59
  | .retainedStatus => 0x5A
  | .factoryClear => 0x5B
  | .partIdent => 0x5C
  | .linkConfig => 0x60
  | .linkStatus => 0x61
  | .linkReset => 0x62
  | .noticeMode => 0x63
  | .noticeMask => 0x64
  | .noticeFetch => 0x65
  | .echoOn => 0x66
  | .echoOff => 0x67

/-- The kinds by the high digit of their code. -/
def kindRow : Nat → List ReqKind
  | 0x0 => [.odoStatus, .dpulseConfig, .calSetK, .calMeasureStart, .calMeasureStop, .tariffWrite,
      .tariffRead, .scheduleWrite, .scheduleRead, .extraKindWrite, .extraKindRead, .calStatus]
  | 0x1 => [.legStart, .legStop, .legResume, .legVoid, .legTariff, .legExtraAdd, .legExtraRemove,
      .legRead, .shareSet]
  | 0x2 => [.payBegin, .payTip, .payAuthorise, .payCash, .payCancel, .payStatus, .paySettingsWrite,
      .paySettingsRead, .terminalStatus]
  | 0x3 => [.shiftOpen, .shiftClose, .shiftRead, .reportList, .reportRead, .tripRead, .tripNextUnread,
      .journalStatus]
  | 0x4 => [.signMode, .signStatus, .lampTest, .lampFaultClear, .patternWrite, .emergencyRaise,
      .emergencyClear, .intercomMode, .intercomSettings, .intercomDefaults, .intercomStatus,
      .callAnswer, .callClear]
  | 0x5 => [.tonePlay, .toneStop, .speakerStatus, .clockSet, .clockRead, .retainedStatus,
      .factoryClear, .partIdent]
  | 0x6 => [.linkConfig, .linkStatus, .linkReset, .noticeMode, .noticeMask, .noticeFetch, .echoOn,
      .echoOff]
  | _ => []

/-- The request kind of a code, none where Table 12-3 lists no request. -/
def reqKind? (code : Nat) : Option ReqKind := (kindRow (code / 16)).find? (fun k => k.code == code)

/-! ### Layouts (R177) -/

/-- One field of a request body: an unsigned integer of a width in bytes, a signed one of two bytes,
or a text. -/
inductive Lay where
  | num (width : Nat)
  | signed
  | text
deriving DecidableEq, Repr

/-- A field's value. -/
inductive Val where
  | num (n : Nat)
  | signed (z : Int)
  | text (t : Text)
deriving DecidableEq, Repr

/-- The layout of a request body (R177, log 18). DESIGN CHOICE (log 17): among what R177 leaves open, the cash
rounding unit of PAY_SETTINGS_WRITE is its number in one byte. -/
def ReqKind.layout : ReqKind → List Lay
  | .dpulseConfig => [.num 1, .num 1]
  | .calSetK => [.num 2]
  | .tariffWrite => [.num 1, .num 1, .text, .num 4, .num 2, .num 2, .num 2, .num 2, .num 1, .num 1, .num 1]
  | .tariffRead => [.num 1]
  | .scheduleWrite => [.num 1, .num 1, .num 2, .num 1]
  | .extraKindWrite => [.num 1, .num 1, .text, .num 4, .num 1]
  | .extraKindRead => [.num 1]
  | .legStart => [.num 1, .num 1, .num 1]
  | .legStop => [.num 1]
  | .legResume => [.num 1]
  | .legVoid => [.num 1]
  | .legTariff => [.num 1, .num 1]
  | .legExtraAdd => [.num 1, .num 1, .num 4]
  | .legExtraRemove => [.num 1]
  | .legRead => [.num 1]
  | .shareSet => [.num 1]
  | .payBegin => [.num 1, .num 1, .num 1]
  | .payTip => [.num 1, .num 4]
  | .paySettingsWrite =>
    [.text, .num 2, .num 4, .num 1, .num 1, .num 1, .num 1, .num 1, .num 4, .num 1]
  | .terminalStatus => [.num 1]
  | .shiftOpen => [.text]
  | .reportRead => [.num 2]
  | .tripRead => [.num 4]
  | .signMode => [.num 1, .num 1]
  | .lampFaultClear => [.num 1]
  | .patternWrite => [.num 1, .num 1, .num 1, .num 1, .num 2, .num 1]
  | .intercomMode => [.num 1]
  | .intercomSettings => [.num 1, .num 2, .num 2]
  | .tonePlay => [.num 1, .num 1, .num 2, .num 2, .signed, .num 1]
  | .toneStop => [.num 1]
  | .clockSet => [.num 2, .num 1, .num 1, .num 1, .num 1, .num 1]
  | .linkConfig => [.num 4]
  | .linkStatus => [.num 1]
  | .noticeMode => [.num 1]
  | .noticeMask => [.num 1, .num 4]
  | .odoStatus | .calMeasureStart | .calMeasureStop | .scheduleRead | .calStatus | .payAuthorise
  | .payCash | .payCancel | .payStatus | .paySettingsRead | .shiftClose | .shiftRead | .reportList
  | .tripNextUnread | .journalStatus | .signStatus | .lampTest | .emergencyRaise | .emergencyClear
  | .intercomDefaults | .intercomStatus | .callAnswer | .callClear | .speakerStatus | .clockRead
  | .retainedStatus | .factoryClear | .partIdent | .linkReset | .noticeFetch | .echoOn | .echoOff => []

/-- Two bytes read in two's complement. -/
def signedOf (n : Nat) : Int := if n < 32768 then n else (n : Int) - 65536

/-- A signed number as two bytes in two's complement. -/
def unsignedOf (z : Int) : Nat := (z % 65536).toNat

/-- Read one field from the front of a body. -/
def readVal : Lay → List Byte → Option (Val × List Byte)
  | .num w, bs =>
    if w ≤ bs.length then some (.num (Machine.numberOf (bs.take w)), bs.drop w) else none
  | .signed, bs =>
    if 2 ≤ bs.length then some (.signed (signedOf (Machine.numberOf (bs.take 2))), bs.drop 2) else none
  | .text, [] => none
  | .text, n :: bs =>
    if n.toNat ≤ bs.length then some (.text (bs.take n.toNat), bs.drop n.toNat) else none

/-- Read the fields of a layout; none where the length does not fit (R171). -/
def readVals : List Lay → List Byte → Option (List Val)
  | [], [] => some []
  | [], _ :: _ => none
  | l :: ls, bs =>
    match readVal l bs with
    | some (v, rest) => (readVals ls rest).map (v :: ·)
    | none => none

/-- The bytes of a field's value. -/
def valBytes : Lay → Val → List Byte
  | .num w, .num n => Machine.bytesOf w n
  | .signed, .signed z => Machine.bytesOf 2 (unsignedOf z)
  | .text, .text t => Machine.bytesOf 1 t.length ++ t
  | _, _ => []

/-- The bytes of a body's values. -/
def valsBytes : List Lay → List Val → List Byte
  | l :: ls, v :: vs => valBytes l v ++ valsBytes ls vs
  | _, _ => []

/-! ### Values and commands -/

/-- A command of no field. -/
def of0 (c : Instr) : List Val → Option Instr
  | [] => some c
  | _ => none

/-- A command of one number. -/
def of1 (f : Nat → Instr) : List Val → Option Instr
  | [.num a] => some (f a)
  | _ => none

/-- A command of two numbers. -/
def of2 (f : Nat → Nat → Instr) : List Val → Option Instr
  | [.num a, .num b] => some (f a b)
  | _ => none

/-- A command of three numbers. -/
def of3 (f : Nat → Nat → Nat → Instr) : List Val → Option Instr
  | [.num a, .num b, .num c] => some (f a b c)
  | _ => none

/-- A command of four numbers. -/
def of4 (f : Nat → Nat → Nat → Nat → Instr) : List Val → Option Instr
  | [.num a, .num b, .num c, .num d] => some (f a b c d)
  | _ => none

/-- A command of six numbers. -/
def of6 (f : Nat → Nat → Nat → Nat → Nat → Nat → Instr) : List Val → Option Instr
  | [.num a, .num b, .num c, .num d, .num e, .num g] => some (f a b c d e g)
  | _ => none

/-- A command of one text. -/
def ofText (f : Text → Instr) : List Val → Option Instr
  | [.text t] => some (f t)
  | _ => none

/-- The fields of a TARIFF_WRITE. -/
def ofTariff : List Val → Option Instr
  | [.num number, .num d, .text t, .num f, .num a, .num ds, .num ts, .num inc, .num m, .num sp, .num ms] =>
    some (.tariffWrite number ⟨d, t, f, a, ds, ts, inc, m, sp, ms⟩)
  | _ => none

/-- The fields of an EXTRA_KIND_WRITE. -/
def ofKind : List Val → Option Instr
  | [.num number, .num d, .text t, .num a, .num l] => some (.extraKindWrite number d t a l)
  | _ => none

/-- The fields of a PAY_SETTINGS_WRITE. -/
def ofSettings : List Val → Option Instr
  | [.text t, .num bp, .num cap, .num p1, .num p2, .num p3, .num p4, .num c, .num l, .num u] =>
    some (.paySettingsWrite ⟨t, bp, cap, p1, p2, p3, p4, c, l, u⟩)
  | _ => none

/-- The fields of a TONE_PLAY. -/
def ofTone : List Val → Option Instr
  | [.num x, .num n, .num p, .num on, .signed off, .num r] => some (.tonePlay x n p on off r)
  | _ => none

/-- The command of a kind and its values. -/
def ReqKind.command : ReqKind → List Val → Option Instr
  | .odoStatus => of0 .odoStatus
  | .dpulseConfig => of2 .dpulseConfig
  | .calSetK => of1 .calSetK
  | .calMeasureStart => of0 .calMeasureStart
  | .calMeasureStop => of0 .calMeasureStop
  | .tariffWrite => ofTariff
  | .tariffRead => of1 .tariffRead
  | .scheduleWrite => of4 .scheduleWrite
  | .scheduleRead => of0 .scheduleRead
  | .extraKindWrite => ofKind
  | .extraKindRead => of1 .extraKindRead
  | .calStatus => of0 .calStatus
  | .legStart => of3 .legStart
  | .legStop => of1 .legStop
  | .legResume => of1 .legResume
  | .legVoid => of1 .legVoid
  | .legTariff => of2 .legTariff
  | .legExtraAdd => of3 .legExtraAdd
  | .legExtraRemove => of1 .legExtraRemove
  | .legRead => of1 .legRead
  | .shareSet => of1 .shareSet
  | .payBegin => of3 .payBegin
  | .payTip => of2 .payTip
  | .payAuthorise => of0 .payAuthorise
  | .payCash => of0 .payCash
  | .payCancel => of0 .payCancel
  | .payStatus => of0 .payStatus
  | .paySettingsWrite => ofSettings
  | .paySettingsRead => of0 .paySettingsRead
  | .terminalStatus => of1 .terminalStatus
  | .shiftOpen => ofText .shiftOpen
  | .shiftClose => of0 .shiftClose
  | .shiftRead => of0 .shiftRead
  | .reportList => of0 .reportList
  | .reportRead => of1 .reportRead
  | .tripRead => of1 .tripRead
  | .tripNextUnread => of0 .tripNextUnread
  | .journalStatus => of0 .journalStatus
  | .signMode => of2 .signMode
  | .signStatus => of0 .signStatus
  | .lampTest => of0 .lampTest
  | .lampFaultClear => of1 .lampFaultClear
  | .patternWrite => of6 .patternWrite
  | .emergencyRaise => of0 .emergencyRaise
  | .emergencyClear => of0 .emergencyClear
  | .intercomMode => of1 .intercomMode
  | .intercomSettings => of3 .intercomSettings
  | .intercomDefaults => of0 .intercomDefaults
  | .intercomStatus => of0 .intercomStatus
  | .callAnswer => of0 .callAnswer
  | .callClear => of0 .callClear
  | .tonePlay => ofTone
  | .toneStop => of1 .toneStop
  | .speakerStatus => of0 .speakerStatus
  | .clockSet => of6 .clockSet
  | .clockRead => of0 .clockRead
  | .retainedStatus => of0 .retainedStatus
  | .factoryClear => of0 .factoryClear
  | .partIdent => of0 .partIdent
  | .linkConfig => of1 .linkConfig
  | .linkStatus => of1 .linkStatus
  | .linkReset => of0 .linkReset
  | .noticeMode => of1 .noticeMode
  | .noticeMask => of2 .noticeMask
  | .noticeFetch => of0 .noticeFetch
  | .echoOn => of0 .echoOn
  | .echoOff => of0 .echoOff

/-- What the kind and body of a frame spell (R171). -/
inductive Decoded where
  | request (c : Instr)
  | unknownKind
  | badLength
deriving DecidableEq, Repr

/-- Decode a request frame's kind and body. -/
def decodeRequest (kind : Byte) (body : List Byte) : Decoded :=
  match reqKind? kind.toNat with
  | none => .unknownKind
  | some k =>
    match (readVals k.layout body).bind k.command with
    | some c => .request c
    | none => .badLength

/-! ### Encoding -/

/-- The kind of a host request and the values of its body; none for a command that is an event. -/
def requestParts : Instr → Option (ReqKind × List Val)
  | .odoStatus => some (.odoStatus, [])
  | .dpulseConfig a b => some (.dpulseConfig, [.num a, .num b])
  | .calSetK a => some (.calSetK, [.num a])
  | .calMeasureStart => some (.calMeasureStart, [])
  | .calMeasureStop => some (.calMeasureStop, [])
  | .tariffWrite n f =>
    some (.tariffWrite, [.num n, .num f.isDefined, .text f.name, .num f.flagFall, .num f.stepAmount,
      .num f.distanceStep, .num f.timeStep, .num f.includedDistance, .num f.mode, .num f.sharePermitted,
      .num f.manualSelectable])
  | .tariffRead a => some (.tariffRead, [.num a])
  | .scheduleWrite a b c d => some (.scheduleWrite, [.num a, .num b, .num c, .num d])
  | .scheduleRead => some (.scheduleRead, [])
  | .extraKindWrite a b t c d => some (.extraKindWrite, [.num a, .num b, .text t, .num c, .num d])
  | .extraKindRead a => some (.extraKindRead, [.num a])
  | .calStatus => some (.calStatus, [])
  | .legStart a b c => some (.legStart, [.num a, .num b, .num c])
  | .legStop a => some (.legStop, [.num a])
  | .legResume a => some (.legResume, [.num a])
  | .legVoid a => some (.legVoid, [.num a])
  | .legTariff a b => some (.legTariff, [.num a, .num b])
  | .legExtraAdd a b c => some (.legExtraAdd, [.num a, .num b, .num c])
  | .legExtraRemove a => some (.legExtraRemove, [.num a])
  | .legRead a => some (.legRead, [.num a])
  | .shareSet a => some (.shareSet, [.num a])
  | .paySettingsWrite f =>
    some (.paySettingsWrite, [.text f.currency, .num f.feeBp, .num f.feeCap, .num f.preset1,
      .num f.preset2, .num f.preset3, .num f.preset4, .num f.ceiling, .num f.limit, .num f.cashUnit])
  | .paySettingsRead => some (.paySettingsRead, [])
  | .payBegin a b c => some (.payBegin, [.num a, .num b, .num c])
  | .payTip a b => some (.payTip, [.num a, .num b])
  | .payAuthorise => some (.payAuthorise, [])
  | .payCash => some (.payCash, [])
  | .payCancel => some (.payCancel, [])
  | .payStatus => some (.payStatus, [])
  | .terminalStatus a => some (.terminalStatus, [.num a])
  | .shiftOpen t => some (.shiftOpen, [.text t])
  | .shiftClose => some (.shiftClose, [])
  | .shiftRead => some (.shiftRead, [])
  | .reportList => some (.reportList, [])
  | .reportRead a => some (.reportRead, [.num a])
  | .tripRead a => some (.tripRead, [.num a])
  | .tripNextUnread => some (.tripNextUnread, [])
  | .journalStatus => some (.journalStatus, [])
  | .signMode a b => some (.signMode, [.num a, .num b])
  | .signStatus => some (.signStatus, [])
  | .lampTest => some (.lampTest, [])
  | .lampFaultClear a => some (.lampFaultClear, [.num a])
  | .patternWrite a b c d e f =>
    some (.patternWrite, [.num a, .num b, .num c, .num d, .num e, .num f])
  | .emergencyRaise => some (.emergencyRaise, [])
  | .emergencyClear => some (.emergencyClear, [])
  | .intercomMode a => some (.intercomMode, [.num a])
  | .intercomSettings a b c => some (.intercomSettings, [.num a, .num b, .num c])
  | .intercomDefaults => some (.intercomDefaults, [])
  | .intercomStatus => some (.intercomStatus, [])
  | .callAnswer => some (.callAnswer, [])
  | .callClear => some (.callClear, [])
  | .tonePlay a b c d z e => some (.tonePlay, [.num a, .num b, .num c, .num d, .signed z, .num e])
  | .toneStop a => some (.toneStop, [.num a])
  | .speakerStatus => some (.speakerStatus, [])
  | .clockSet a b c d e f => some (.clockSet, [.num a, .num b, .num c, .num d, .num e, .num f])
  | .clockRead => some (.clockRead, [])
  | .retainedStatus => some (.retainedStatus, [])
  | .factoryClear => some (.factoryClear, [])
  | .partIdent => some (.partIdent, [])
  | .linkConfig a => some (.linkConfig, [.num a])
  | .linkStatus a => some (.linkStatus, [.num a])
  | .linkReset => some (.linkReset, [])
  | .noticeMode a => some (.noticeMode, [.num a])
  | .noticeMask a b => some (.noticeMask, [.num a, .num b])
  | .noticeFetch => some (.noticeFetch, [])
  | .echoOn => some (.echoOn, [])
  | .echoOff => some (.echoOff, [])
  | .dpulseChange _ | .filterWindowExpiry | .secondTick | .clockWrap | .minuteBoundary
  | .calenChange _ | .tipTimerExpiry | .responseTimerExpiry | .abortTimerExpiry
  | .retryIdleTimerExpiry | .resendTimerExpiry _ | .tlByteArrival _ _ | .frameReaderTake
  | .tProgress _ _ | .tApproved _ _ _ | .tDeclined _ _ | .tAborted _ | .tReversed _ | .tStatus _ _
  | .heartbeatExpiry | .tlCtsChange _ | .tlFrameSent | .sendTimerExpiry | .patternPhaseEnd _
  | .lampSenseChange _ _ | .darkTimerExpiry _ | .emergChange _ | .emergHold1s | .clearWindowEnd
  | .voxChange _ _ | .attackExpiry _ | .pttPress | .pttRelease | .hangTimerExpiry | .maxTalkExpiry
  | .callButtonChange _ _ | .callPressTaken _ | .callWindowEnd | .tonePhaseEnd _ | .supplyFail
  | .resetnAssert | .batteryFail | .restart | .controlFrameReceived _ | .controlGap | .lineBreak _
  | .unlistedKind _ | .frameEcho _ | .replySent | .linkRateSwitch | .linkResetApply
  | .noticeFrameStart | .noticeFrameEnd | .echoModeBegin | .controlFrameDiscard _ => none

/-- The request frame, with a tag, that spells a host request. -/
def encodeRequest (tag : Byte) (c : Instr) : Option Frame :=
  match requestParts c with
  | some (k, vs) => some ⟨BitVec.ofNat 8 k.code, tag, valsBytes k.layout vs⟩
  | none => none

/-! ### The command table -/

/-- The command that a word spells by the table's bits: the table gives no row any. -/
def decodeTableWord (_nbits _w : Nat) : Option Instr := none

end Sys2Proof
end

