-- ==== Sys2Proof/Machine/Operands.lean ====
section
/-!
DEFINITION. The operand forms of the requests: what a byte, number, set or text of a request body
names (R177), with `none` where the value has no meaning in its field.
-/

namespace Sys2Proof.Machine

/-- A yes/no byte: 0 or 1. -/
def yesNo? : Nat → Option Bool
  | 0 => some false
  | 1 => some true
  | _ => none

/-- A slot number 1 to 4. -/
def slot? : Nat → Option Slot
  | 1 => some .s1
  | 2 => some .s2
  | 3 => some .s3
  | 4 => some .s4
  | _ => none

/-- Bit `i` of a set byte. -/
def bit (n i : Nat) : Bool := n / 2 ^ i % 2 = 1

/-- A seat set byte; bits above R name no seat. -/
def seatSet? (n : Nat) : Option SeatSet :=
  if n < 16 then some ⟨bit n 0, bit n 1, bit n 2, bit n 3⟩ else none

/-- A lamp set byte; bits above SHARE name no lamp. -/
def lampSet? (n : Nat) : Option LampSet :=
  if n < 8 then some ⟨bit n 0, bit n 1, bit n 2⟩ else none

/-- A weekday set byte; bits above SUN name no day. -/
def weekdays? (n : Nat) : Option Weekdays :=
  if n < 128 then some ⟨bit n 0, bit n 1, bit n 2, bit n 3, bit n 4, bit n 5, bit n 6⟩ else none

/-- A slot set byte of PAY_BEGIN as slots in ascending order. DESIGN CHOICE (log 17): bit 0 is slot 1. -/
def slotSet? (n : Nat) : Option (List Slot) :=
  if n < 16 then
    some ((if bit n 0 then [.s1] else []) ++ (if bit n 1 then [.s2] else [])
      ++ (if bit n 2 then [.s3] else []) ++ (if bit n 3 then [.s4] else []))
  else none

/-- The index of a tariff number 1 to 8. -/
def tariffIndex? (n : Nat) : Option (Fin 8) :=
  if h : 1 ≤ n ∧ n ≤ 8 then some ⟨n - 1, by omega⟩ else none

/-- The index of a schedule entry or extras kind number 1 to 12. -/
def index12? (n : Nat) : Option (Fin 12) :=
  if h : 1 ≤ n ∧ n ≤ 12 then some ⟨n - 1, by omega⟩ else none

/-- A printable character, codes 0x20 to 0x7E. -/
def printable (b : Byte) : Bool := 0x20 ≤ b.toNat && b.toNat ≤ 0x7E

/-- A printable text of at most `most` characters. -/
def textWithin (most : Nat) (t : Text) : Bool := t.length ≤ most && t.all printable

/-- A letter A to Z. -/
def capital (b : Byte) : Bool := 0x41 ≤ b.toNat && b.toNat ≤ 0x5A

/-- An edge polarity. -/
def polarity? : Nat → Option Polarity
  | 0 => some .rising
  | 1 => some .falling
  | _ => none

/-- A filter window. -/
def filterWindow? : Nat → Option FilterWindow
  | 0 => some .off
  | 1 => some .ms05
  | 2 => some .ms1
  | 3 => some .ms2
  | 4 => some .ms4
  | _ => none

/-- A tariff mode. -/
def tariffMode? : Nat → Option TariffMode
  | 0 => some .single
  | 1 => some .double
  | _ => none

/-- The tariff of a LEG_START: 0 asks for SCHEDULED. -/
inductive TariffChoice where
  | scheduled
  | named (i : Fin 8)
deriving DecidableEq, Repr

/-- A LEG_START's tariff byte (R177). -/
def tariffChoice? (n : Nat) : Option TariffChoice :=
  if n = 0 then some .scheduled else (tariffIndex? n).map .named

/-- A tender. -/
def tender? : Nat → Option Tender
  | 0 => some .card
  | 1 => some .cash
  | _ => none

/-- A sign mode. -/
def signMode? : Nat → Option SignMode
  | 0 => some .auto
  | 1 => some .forceOffDuty
  | 2 => some .forceOnCall
  | _ => none

/-- An on-call pattern choice. -/
def onCallChoice? : Nat → Option OnCallChoice
  | 0 => some .standard
  | 1 => some .user
  | _ => none

/-- A pattern mode. -/
def patternMode? : Nat → Option PatternMode
  | 0 => some .continuous
  | 1 => some .oneShot
  | _ => none

/-- An intercom mode. -/
def intercomMode? : Nat → Option IntercomMode
  | 0 => some .openMode
  | 1 => some .driverPtt
  | 2 => some .privateMode
  | 3 => some .offMode
  | _ => none

/-- A speaker. -/
def speaker? : Nat → Option Speaker
  | 0 => some .front
  | 1 => some .rear
  | _ => none

/-- The speakers a TONE_STOP names: FRONT, REAR or BOTH. -/
def speakers? : Nat → Option (List Speaker)
  | 0 => some [.front]
  | 1 => some [.rear]
  | 2 => some [.front, .rear]
  | _ => none

/-- A tone level. -/
def level? : Nat → Option Level
  | 0 => some .l0
  | 1 => some .l1
  | 2 => some .l2
  | 3 => some .l3
  | _ => none

/-- A rate of the control link (R168). -/
def rateAllowed (n : Nat) : Bool := [9600, 19200, 38400, 57600, 115200].contains n

/-- A cash rounding unit (Table 4-1). DESIGN CHOICE (log 17): the byte that carries it is the number itself, and
not its place in the table's list. -/
def cashUnitAllowed (n : Nat) : Bool := [1, 5, 10, 25, 50, 100].contains n

/-- `n` brought into `lo` to `hi`. -/
def clamp (lo hi n : Nat) : Nat := min hi (max lo n)

end Sys2Proof.Machine
end

