-- ==== Sys2Proof/Machine/Flags.lean ====
section
/-!
DEFINITION. The derived conditions: what the rules compute from the state and do not store. Among
them are the output pins.
-/

namespace Sys2Proof.Machine

/-! ### Shift, calibration and session -/

/-- A shift is open (R100). -/
def shiftOpen (s : State) : Bool := s.shifts.record.isOpen

/-- A tariff record by its number; the default contents outside 1 to 8. -/
def FareEngine.tariff (e : FareEngine) (n : Nat) : Tariff :=
  match tariffIndex? n with
  | some i => e.tariffs[i]
  | none => Tariff.blank

/-- The part is calibrated (R19). -/
def calibrated (s : State) : Bool := s.odo.k != 0 && (s.fare.tariff 1).isDefined

/-- Calibration open holds (R166). -/
def calibrationOpen (s : State) : Bool := s.pins.calen && !shiftOpen s

/-- The session is open (R62). -/
def SessionState.isOpen : SessionState → Bool
  | .tipWait | .authorising | .aborting | .retryWait => true
  | .none | .settled | .failed | .cancelled => false

/-! ### Legs and seats -/

/-- A leg is active (R38). -/
def Leg.active (l : Leg) : Bool := l.state != .free

/-- A leg is accrued at an interval close (Table 3-2). -/
def Leg.runs (l : Leg) : Bool := l.state == .hired || l.state == .stopping

/-- How many legs are active. -/
def activeLegs (s : State) : Nat := (s.fare.legs.toList.filter Leg.active).length

/-- Every leg is FREE. -/
def allFree (s : State) : Bool := s.fare.legs.toList.all (fun l => !l.active)

/-- Some leg is HIRED or STOPPING. -/
def anyRuns (s : State) : Bool := s.fare.legs.toList.any Leg.runs

/-- The number of unheld seats (R39). -/
def unheldSeats (s : State) : Nat :=
  (allSeats.filter (fun x => (s.fare.seatMap.get x).isNone)).length

/-- The number of the slot that holds a seat, 0 where none does (R148). -/
def holderNumber (s : State) (x : Seat) : Nat :=
  match s.fare.seatMap.get x with
  | some i => i.number
  | none => 0

/-! ### Journal (R117, R119, R120) -/

/-- A record is overwritable. -/
def TripRecord.overwritable (t : TripRecord) : Bool := t.closed && t.isRead

/-- The overwritable run. -/
def Journal.run (j : Journal) : Nat := (j.ring.takeWhile TripRecord.overwritable).length

/-- The room of the journal. -/
def Journal.room (j : Journal) : Nat := min (128 - j.ring.length + j.run) (4294967296 - j.next)

/-- The held-back records. -/
def Journal.heldBack (j : Journal) : Nat := (j.ring.filter (fun t => !t.overwritable)).length

/-! ### Sign drivers (R128, R130) -/

/-- A lamp's driver is asserted: LMP_FREE, LMP_PANEL, LMP_SHARE. -/
def Sign.driver (g : Sign) (x : Lamp) : Bool :=
  match g.demand.get x with
  | .off => false
  | .steady => true
  | .pattern _ => (g.generator.get x).phase == .on

/-- The set of lamps whose fault flags are latched. -/
def Sign.faults (g : Sign) : LampSet := g.fault

/-- The digit lines SEATDIG0, SEATDIG1 and SEATDIG2. -/
def Sign.digitLines (g : Sign) : Bool × Bool × Bool :=
  (g.digit == some 1, g.digit == some 2, g.digit == some 3)

/-! ### Intercom voices and switches (R140, R146) -/

/-- The front voice is active under the mode (Table 9-2). -/
def frontVoice (s : State) : Bool :=
  match s.intercom.mode with
  | .openMode | .privateMode => s.pins.ptt || s.intercom.vox.front == .qualified
  | .driverPtt => s.pins.ptt
  | .offMode => false

/-- The rear voice is active under the mode (Table 9-2). -/
def rearVoice (s : State) : Bool :=
  match s.intercom.mode with
  | .openMode | .driverPtt => s.intercom.vox.rear == .qualified
  | .privateMode => s.intercom.vox.rear == .qualified && s.intercom.window.isSome
  | .offMode => false

/-- The voice of a side. -/
def voice (s : State) : Side → Bool
  | .front => frontVoice s
  | .rear => rearVoice s

/-- Some source of a side is asserted (R145). -/
def sourceAsserted (s : State) : Side → Bool
  | .front => s.pins.ptt || s.pins.voxF
  | .rear => s.pins.voxR

/-- The side whose turn the channel holds. -/
def Channel.side? : Channel → Option Side
  | .quiet => none
  | .frontTalk | .hangFront => some .front
  | .rearTalk | .hangRear => some .rear

/-- The channel is in a TALK state of a side. -/
def Channel.talks (c : Channel) : Side → Bool
  | .front => c == .frontTalk
  | .rear => c == .rearTalk

/-- The channel is in the HANG state of a side. -/
def Channel.hangs (c : Channel) : Side → Bool
  | .front => c == .hangFront
  | .rear => c == .hangRear

/-- The speaker that a side's speech path feeds: AP_F2R feeds REAR, AP_R2F feeds FRONT. -/
def fedBy : Side → Speaker
  | .front => .rear
  | .rear => .front

/-- The channel demands a side's switch (Table 9-3). -/
def switchDemanded (s : State) (x : Side) : Bool := s.intercom.channel.side? == some x

/-- A side's speech path switch is closed: AP_F2R for the front, AP_R2F for the rear (R146). -/
def switchClosed (s : State) (x : Side) : Bool :=
  switchDemanded s x && (s.speakers.get (fedBy x)).speech == .speaking

/-! ### Tone outputs (R153) -/

/-- The tone in service of a speaker is in an on phase. -/
def SpeakerState.sounds (p : SpeakerState) : Bool :=
  match p.service with
  | some t => t.onPhase
  | none => false

/-- The level number of the tone in service, 0 where there is none. -/
def SpeakerState.level (p : SpeakerState) : Nat :=
  match p.service with
  | some t => t.tone.level.number
  | none => 0

/-- The speaker that holds TONE_OUT now, or none. -/
def toneOwner (p : PerSpeaker SpeakerState) : Option Speaker :=
  match p.front.sounds, p.rear.sounds with
  | false, false => none
  | true, false => some .front
  | false, true => some .rear
  | true, true => if p.front.level < p.rear.level then some .rear else some .front

/-- A speaker's routing line: AP_TONE_F or AP_TONE_R. -/
def routed (p : PerSpeaker SpeakerState) (x : Speaker) : Bool := toneOwner p == some x

/-- The pitch on TONE_OUT, or none. -/
def toneOut (p : PerSpeaker SpeakerState) : Option Nat :=
  match toneOwner p with
  | some x => (p.get x).service.map (fun t => t.tone.pitch)
  | none => none

/-! ### Link -/

/-- CL_ATTN is asserted (R172). -/
def attention (s : State) : Bool := !s.link.queue.isEmpty

end Sys2Proof.Machine
end

