-- ==== Sys2Proof/Machine/Speakers.lean ====
section
/-!
DEFINITION. The speaker arbiter: the tone table, requests, hold slots, cadence and the meeting of
tones with speech (chapter Speakers and Tones, R152 to R160).
-/

namespace Sys2Proof.Machine

/-- The fixed tones of Table 10-1, times in base steps. A host tone carries its own values. -/
def fixedTone : ToneKind → Tone
  | .callChime     => ⟨.callChime, .l1, 1000, 20, 10, 2⟩
  | .fareStart     => ⟨.fareStart, .l0, 1200, 10, 10, 1⟩
  | .tariffBeep    => ⟨.tariffBeep, .l0, 1500, 5, 5, 2⟩
  | .paymentPrompt => ⟨.paymentPrompt, .l2, 800, 30, 20, 2⟩
  | .approved      => ⟨.approved, .l3, 1800, 15, 5, 3⟩
  | .declined      => ⟨.declined, .l3, 400, 50, 20, 2⟩
  | .talkLimit     => ⟨.talkLimit, .l1, 600, 10, 10, 3⟩
  | .host          => ⟨.host, .l0, 200, 1, 0, 1⟩

/-- The speaker of a fixed tone (Table 10-1). -/
def fixedSpeaker : ToneKind → Speaker
  | .callChime | .talkLimit => .front
  | _ => .rear

/-- Why a tone was lost (R159). -/
inductive DropCause where
  | replaced | discarded | cut
deriving DecidableEq, Repr

/-- A tone lost and why. -/
structure Dropped where
  tone  : Tone
  cause : DropCause
deriving DecidableEq, Repr

/-- What became of a tone request (R158). -/
inductive ToneOutcome where
  | inService | held | preEmpting
deriving DecidableEq, Repr

/-- A tone enters service in its first on phase (R153). -/
def Playing.start (t : Tone) : Playing := ⟨t, 1, true, t.onTime⟩

/-- Put a tone in service. -/
def SpeakerState.enter (p : SpeakerState) (t : Tone) : SpeakerState :=
  { p with service := some (Playing.start t) }

/-- A requested tone waits in the hold slot of its level: placed, merged with one of its fixed kind,
or in place of the tone held, which is lost as REPLACED (R154). -/
def SpeakerState.wait (p : SpeakerState) (t : Tone) : SpeakerState × Option Dropped :=
  match p.hold.get t.level with
  | none => ({ p with hold := p.hold.set (some t) t.level }, none)
  | some h =>
    if h.kind = t.kind ∧ t.kind ≠ .host then (p, none)
    else ({ p with hold := p.hold.set (some t) t.level }, some ⟨h, .replaced⟩)

/-- A tone taken out of service by a higher one goes to the hold slot of its own level, or is lost as
DISCARDED where the slot is occupied (R154). -/
def SpeakerState.putBack (p : SpeakerState) (t : Tone) : SpeakerState × Option Dropped :=
  match p.hold.get t.level with
  | none => ({ p with hold := p.hold.set (some t) t.level }, none)
  | some _ => (p, some ⟨t, .discarded⟩)

/-- A tone enters service over whatever is in service. -/
def SpeakerState.preempt (p : SpeakerState) (t : Tone) :
    SpeakerState × ToneOutcome × Option Dropped :=
  match p.service with
  | none => (p.enter t, .inService, none)
  | some old =>
    let (p', lost) := p.putBack old.tone
    (p'.enter t, .preEmpting, lost)

/-- The tone in service is at or above a level. -/
def SpeakerState.serves (p : SpeakerState) (n : Nat) : Bool :=
  match p.service with
  | some t => n ≤ t.tone.level.number
  | none => false

/-- A tone request at one speaker: R154 with no speech path demanded, R157 with one. -/
def SpeakerState.request (p : SpeakerState) (t : Tone) :
    SpeakerState × ToneOutcome × Option Dropped :=
  match p.speech with
  | .none =>
    if p.serves t.level.number then
      let (p', lost) := p.wait t
      (p', .held, lost)
    else p.preempt t
  | _ =>
    if t.level = .l3 ∧ p.serves 3 = false then
      let (p', out, lost) := p.preempt t
      ({ p' with speech := .muted }, out, lost)
    else
      let (p', lost) := p.wait t
      (p', .held, lost)

/-- The highest level whose hold slot is occupied. -/
def SpeakerState.highestHeld (p : SpeakerState) : Option Level :=
  [Level.l3, .l2, .l1, .l0].find? (fun n => (p.hold.get n).isSome)

/-- The held tone of a level enters service and leaves its slot. -/
def SpeakerState.promote (p : SpeakerState) (n : Level) : SpeakerState :=
  match p.hold.get n with
  | some t => { p with hold := p.hold.set none n, service := some (Playing.start t) }
  | none => { p with service := none }

/-- The held tone of the highest level enters service; idle where every slot is empty. -/
def SpeakerState.promoteHighest (p : SpeakerState) : SpeakerState :=
  match p.highestHeld with
  | some n => p.promote n
  | none => { p with service := none }

/-- The tone in service completes and the speaker is handed on (R155). -/
def SpeakerState.handOn (p : SpeakerState) : SpeakerState :=
  match p.speech with
  | .none => p.promoteHighest
  | .muted =>
    if (p.hold.get .l3).isSome then p.promote .l3
    else { p with service := none, speech := .speaking }
  | .speaking => { p with service := none }

/-- A speech path opens toward a speaker (R156). -/
def SpeakerState.openPath (p : SpeakerState) : SpeakerState × Option Dropped :=
  match p.service with
  | none => ({ p with speech := .speaking }, none)
  | some t =>
    if 2 ≤ t.tone.level.number then ({ p with speech := .muted }, none)
    else ({ p with service := none, speech := .speaking }, some ⟨t.tone, .cut⟩)

/-- A speech path closes toward a speaker (R157). -/
def SpeakerState.closePath (p : SpeakerState) : SpeakerState :=
  match p.service with
  | some _ => { p with speech := .none }
  | none => { p with speech := .none }.promoteHighest

/-- The end of an off phase: the next on phase, or completion (R153). -/
def SpeakerState.endOff (p : SpeakerState) (t : Playing) : SpeakerState :=
  if t.current < t.tone.repeats then
    { p with service := some { t with current := t.current + 1, onPhase := true, left := t.tone.onTime } }
  else p.handOn

/-- The end of a phase of the tone in service (R153). An off time of 0 is passed at once (log 28). -/
def SpeakerState.endPhase (p : SpeakerState) : SpeakerState :=
  match p.service with
  | none => p
  | some t =>
    if t.onPhase then
      if t.tone.offTime = 0 then p.endOff t
      else { p with service := some { t with onPhase := false, left := t.tone.offTime } }
    else p.endOff t

/-- The four hold slots without their host tones. -/
def dropHostTones (h : PerLevel (Option Tone)) : PerLevel (Option Tone) :=
  let keep (o : Option Tone) : Option Tone := o.filter (fun t => t.kind != .host)
  ⟨keep h.l0, keep h.l1, keep h.l2, keep h.l3⟩

/-- How many hold slots hold a host tone. -/
def hostTonesHeld (h : PerLevel (Option Tone)) : Nat :=
  ([h.l0, h.l1, h.l2, h.l3].filter (fun o => o.any (fun t => t.kind == .host))).length

/-- A host tone is in service. -/
def SpeakerState.hostInService (p : SpeakerState) : Bool :=
  p.service.any (fun t => t.tone.kind == .host)

/-- End the host tones of one speaker: the held ones are removed, then one in service is handed on as
if it had completed (R158, log 29). Also the number ended. -/
def SpeakerState.stopHost (p : SpeakerState) : SpeakerState × Nat :=
  let p' := { p with hold := dropHostTones p.hold }
  if p.hostInService then (p'.handOn, hostTonesHeld p.hold + 1) else (p', hostTonesHeld p.hold)

/-! ### On the state -/

/-- Replace one speaker's arbitration. -/
def State.setSpeaker (s : State) (x : Speaker) (p : SpeakerState) : State :=
  { s with speakers := s.speakers.set p x }

/-- The payload of TONE_DROPPED (R159). -/
def droppedPayload (x : Speaker) (d : Dropped) : List Field :=
  [.u8 x.ctorIdx, .u8 d.tone.kind.ctorIdx, .u8 d.tone.level.number, .u8 d.cause.ctorIdx]

/-- Raise TONE_DROPPED for a tone lost. -/
def raiseDropped (x : Speaker) (lost : Option Dropped) (s : State) : State :=
  match lost with
  | some d => raise .toneDropped (droppedPayload x d) s
  | none => s

/-- A tone request reaches the arbiter (R154, R157). -/
def requestTone (x : Speaker) (t : Tone) (s : State) : State × ToneOutcome :=
  let (p, out, lost) := (s.speakers.get x).request t
  (raiseDropped x lost (s.setSpeaker x p), out)

/-- A neighbour asks for a fixed tone (R152). -/
def askTone (k : ToneKind) (s : State) : State := (requestTone (fixedSpeaker k) (fixedTone k) s).1

/-- A speech path opens toward a speaker (R156). -/
def pathOpens (x : Speaker) (s : State) : State :=
  let (p, lost) := (s.speakers.get x).openPath
  raiseDropped x lost (s.setSpeaker x p)

/-- A speech path closes toward a speaker (R157). -/
def pathCloses (x : Speaker) (s : State) : State :=
  s.setSpeaker x (s.speakers.get x).closePath

/-- A phase of a speaker's tone ends (R153). -/
def tonePhaseEnds (x : Speaker) (s : State) : State :=
  s.setSpeaker x (s.speakers.get x).endPhase

/-! ### Requests -/

/-- The host tone of a TONE_PLAY after clamping (R158). -/
def hostTone (n : Level) (pitch onTime : Nat) (offTime : Int) (repeats : Nat) : Tone where
  kind    := .host
  level   := n
  pitch   := clamp 200 4000 pitch
  onTime  := clamp 10 2550 onTime / 10
  offTime := min 2550 offTime.toNat / 10
  repeats := clamp 1 255 repeats

/-- TONE_PLAY (R158). DESIGN CHOICE (log 17): the values used in the reply are all six of the request,
the speaker and level as well as the four that are clamped. -/
def takeTonePlay (speaker level pitch onTime : Nat) (offTime : Int) (repeats : Nat) (s : State) :
    Taken :=
  match speaker? speaker, level? level with
  | some x, some n =>
    let t := hostTone n pitch onTime offTime repeats
    let clamped := t.pitch != pitch || t.onTime * 10 != onTime || ((t.offTime * 10 : Nat) : Int) != offTime
      || t.repeats != repeats
    let (s', out) := requestTone x t s
    (s', .okOr clamped
      [.u8 x.ctorIdx, .u8 n.number, .u16 t.pitch, .u16 (t.onTime * 10), .u16 (t.offTime * 10),
       .u8 t.repeats, .u8 out.ctorIdx])
  | _, _ => refuse .badValue s

/-- End the host tones of one speaker of the state. -/
def stopHostOn (x : Speaker) (s : State) : State × Nat :=
  let (p, n) := (s.speakers.get x).stopHost
  (s.setSpeaker x p, n)

/-- TONE_STOP (R158). -/
def takeToneStop (which : Nat) (s : State) : Taken :=
  match speakers? which with
  | some xs =>
    let (s', n) := xs.foldl (fun a x => let (t, m) := stopHostOn x a.1; (t, a.2 + m)) (s, 0)
    (s', .ok [.u8 n])
  | none => refuse .badValue s

/-- The readout of a tone in service: kind, level, repeat, phase and time left, or none. -/
def servicePart (o : Option Playing) : List Field :=
  match o with
  | some t =>
    [yesNo true, .u8 t.tone.kind.ctorIdx, .u8 t.tone.level.number, .u8 t.current,
     .u8 (if t.onPhase then 0 else 1), .u8 t.left]
  | none => [yesNo false, .u8 0, .u8 0, .u8 0, .u8 0, .u8 0]

/-- The readout of a hold slot: the kind held, or empty. -/
def holdPart (o : Option Tone) : List Field := optU8 (o.map (fun t => t.kind.ctorIdx))

/-- The readout of one speaker (R159). -/
def speakerPart (p : PerSpeaker SpeakerState) (x : Speaker) : List Field :=
  servicePart (p.get x).service ++ holdPart (p.get x).hold.l0 ++ holdPart (p.get x).hold.l1
    ++ holdPart (p.get x).hold.l2 ++ holdPart (p.get x).hold.l3
    ++ [.u8 (p.get x).speech.ctorIdx, yesNo (routed p x)]

/-- How many base steps a tone plays to its end: its repeats of an on and an off phase (Table 10-1). -/
def Tone.length (t : Tone) : Nat := t.repeats * (t.onTime + t.offTime)

/-- A row of Table 10-1 as SPEAKER_STATUS carries it, in the order of its columns: kind, speaker, level,
pitch, on and off in ms, repeats, length in ms. DESIGN CHOICE (log 17): Off and Length take 2 bytes each,
though Table 10-1 leaves the range of neither to be read. -/
def tonePart (k : ToneKind) : List Field :=
  let t := fixedTone k
  [.u8 k.ctorIdx, .u8 (fixedSpeaker k).ctorIdx, .u8 t.level.number, .u16 t.pitch, .u16 (t.onTime * 10),
   .u16 (t.offTime * 10), .u8 t.repeats, .u16 (t.length * 10)]

/-- SPEAKER_STATUS (R159). DESIGN CHOICE (log 17): what may be none has a presence flag before it. -/
def takeSpeakerStatus (s : State) : Taken :=
  report (speakerPart s.speakers .front ++ speakerPart s.speakers .rear
    ++ optU8 ((toneOwner s.speakers).map Speaker.ctorIdx)
    ++ [ToneKind.callChime, .fareStart, .tariffBeep, .paymentPrompt, .approved, .declined,
        .talkLimit].flatMap tonePart) s

/-- TONE_PHASE_END: a phase of a speaker's tone ends and its cadence advances (R153). -/
def execTonePhaseEnd (x : Speaker) (s : State) : Res := .next (whileRunning (tonePhaseEnds x) s)

end Sys2Proof.Machine
end

