-- ==== Sys2Proof/Machine/IntercomController.lean ====
section
/-!
DEFINITION. The intercom controller: voice qualifiers, the half-duplex channel with its hang and
max-talk timers, modes, settings, seat calls and the call window (chapter Partition Intercom, R140 to
R151).
-/

namespace Sys2Proof.Machine

/-! ### State updates and the notice (R150) -/

/-- Change the intercom controller. -/
def setIntercom (g : Intercom → Intercom) (s : State) : State := { s with intercom := g s.intercom }

/-- The payload of INTERCOM_STATE. -/
def intercomPayload (n : Intercom) : List Field :=
  [.u8 n.mode.ctorIdx, .u8 n.channel.ctorIdx, yesNo n.heldOff.front, yesNo n.heldOff.rear,
   .u8 (SeatSet.bits n.calls), .u8 n.pointer.ctorIdx, yesNo n.window.isSome]

/-- Raise INTERCOM_STATE. -/
def raiseIntercom (s : State) : State := raise .intercomState (intercomPayload s.intercom) s

/-! ### The channel (R142 to R146) -/

/-- The TALK state of a side. -/
def talkState : Side → Channel
  | .front => .frontTalk
  | .rear => .rearTalk

/-- The HANG state of a side. -/
def hangState : Side → Channel
  | .front => .hangFront
  | .rear => .hangRear

/-- A fresh max-talk timer (R142). -/
def Intercom.freshTalk (n : Intercom) : TalkTimer := ⟨n.maxTalk * 100, n.maxTalk⟩

/-- A side's turn begins: the max-talk timer starts and the side's switch is demanded (R142, R144). -/
def beginTurn (x : Side) (s : State) : State :=
  pathOpens (fedBy x) (setIntercom (fun n => { n with
    channel := talkState x, hangLeft := none, talk := some n.freshTalk }) s)

/-- A side takes the channel from QUIET. -/
def enterTalk (x : Side) (s : State) : State := raiseIntercom (beginTurn x s)

/-- A side may take a QUIET channel (R142). -/
def mayTake (s : State) (x : Side) : Bool := voice s x && !s.intercom.heldOff.get x

/-- The entry rule: a QUIET channel is taken by the front where it may, else by the rear (R142). -/
def takeChannel (s : State) : State :=
  match s.intercom.channel with
  | .quiet =>
    if mayTake s .front then enterTalk .front s
    else if mayTake s .rear then enterTalk .rear s
    else s
  | _ => s

/-- The demand of the side that holds the channel ends (R146). -/
def endDemand (s : State) : State :=
  match s.intercom.channel.side? with
  | some x => pathCloses (fedBy x) s
  | none => s

/-- The channel enters QUIET: both timers stop and the switch demand ends. -/
def goQuiet (s : State) : State :=
  setIntercom (fun n => { n with channel := .quiet, hangLeft := none, talk := none }) (endDemand s)

/-- The channel enters QUIET, INTERCOM_STATE is raised and the entry rule applied. -/
def quietThenTake (s : State) : State := takeChannel (raiseIntercom (goQuiet s))

/-- A side's voice has ended in its TALK state: the channel hangs (R143). -/
def hangIfSilent (x : Side) (s : State) : State :=
  if s.intercom.channel.talks x && !voice s x then
    raiseIntercom (setIntercom (fun n => { n with channel := hangState x, hangLeft := some (n.hang / 10) }) s)
  else s

/-- A side returns from its HANG to its TALK; the turn goes on (R143). -/
def returnToTalk (x : Side) (s : State) : State :=
  raiseIntercom (setIntercom (fun n => { n with channel := talkState x, hangLeft := none }) s)

/-- A side's hold-off ends where none of its sources is asserted, and the entry rule is applied
(R145, R142). -/
def endHoldOff (x : Side) (s : State) : State :=
  if s.intercom.heldOff.get x && !sourceAsserted s x then
    takeChannel (setIntercom (fun n => { n with heldOff := n.heldOff.set false x }) s)
  else s

/-! ### Voice activity lines (R140, R143) -/

/-- The level of a side's VOX line. -/
def voxLine (p : Pins) : Side → Bool
  | .front => p.voxF
  | .rear => p.voxR

/-- Set the level of a side's VOX line. -/
def setVoxLine (p : Pins) (level : Bool) : Side → Pins
  | .front => { p with voxF := level }
  | .rear => { p with voxR := level }

/-- The mode lets a side speak by its VOX line (Table 9-2). -/
def voxAllowed (n : Intercom) : Side → Bool
  | .front => n.mode == .openMode || n.mode == .privateMode
  | .rear => n.mode == .openMode || n.mode == .driverPtt || (n.mode == .privateMode && n.window.isSome)

/-- Set a side's qualifier. -/
def setQualifier (x : Side) (q : Qualifier) (s : State) : State :=
  setIntercom (fun n => { n with vox := n.vox.set q x }) s

/-- A VOX line rises: in its own side's hang it ends the hang, else it begins an attack. -/
def voxRises (x : Side) (s : State) : State :=
  if s.intercom.channel.hangs x && voxAllowed s.intercom x then
    returnToTalk x (setQualifier x .qualified s)
  else setQualifier x (.attack (s.intercom.attack / 10)) s

/-- A VOX line falls. -/
def voxFalls (x : Side) (s : State) : State := endHoldOff x (hangIfSilent x (setQualifier x .low s))

/-- VOX_CHANGE: a sample finds a VOX line changed (R140). DESIGN CHOICE (log 47): the row is that sample. -/
def execVoxChange (x : Side) (level : Bool) (s : State) : Res :=
  .next (if voxLine s.pins x = level then s
    else whileRunning (if level then voxRises x else voxFalls x)
      { s with pins := setVoxLine s.pins level x })

/-- A side's voice has become active: its own hang ends, a QUIET channel is taken, and the other
side's turn goes on (R142, R143). -/
def voiceRises (x : Side) (s : State) : State :=
  if s.intercom.channel.hangs x && voice s x then returnToTalk x s else takeChannel s

/-- An attack has run its time (R140). -/
def attackExpires (x : Side) (s : State) : State :=
  match s.intercom.vox.get x with
  | .attack _ => voiceRises x (setQualifier x .qualified s)
  | .low | .qualified => s

/-- ATTACK_EXPIRY: a VOX line asserted for the attack time becomes QUALIFIED. -/
def execAttackExpiry (x : Side) (s : State) : Res := .next (whileRunning (attackExpires x) s)

/-! ### Push-to-talk (R143, R144) -/

/-- The driver override: the rear turn ends and the front's begins in one event. -/
def overrideRear (s : State) : State :=
  raiseIntercom (beginTurn .front (pathCloses (fedBy .rear) s))

/-- A PTT press, with the input asserted (R144). -/
def pttPresses (s : State) : State :=
  if s.intercom.mode = .offMode ∨ s.intercom.heldOff.front = true then s
  else
    match s.intercom.channel with
    | .quiet => takeChannel s
    | .frontTalk => s
    | .hangFront => returnToTalk .front s
    | .rearTalk | .hangRear => overrideRear s

/-- PTT_PRESS: a sample finds PTT asserted (R140, log 47). -/
def execPttPress (s : State) : Res :=
  .next (if s.pins.ptt then s
    else whileRunning pttPresses { s with pins := { s.pins with ptt := true } })

/-- PTT_RELEASE: a sample finds PTT deasserted (R140, log 47); the front voice may end, and so may its
hold-off. -/
def execPttRelease (s : State) : Res :=
  .next (if s.pins.ptt then
      whileRunning (fun t => endHoldOff .front (hangIfSilent .front t))
        { s with pins := { s.pins with ptt := false } }
    else s)

/-! ### Hang and max talk (R143, R145) -/

/-- The hang timer expires (R143). -/
def hangExpires (s : State) : State :=
  match s.intercom.channel with
  | .hangFront | .hangRear => quietThenTake s
  | .quiet | .frontTalk | .rearTalk => s

/-- HANG_TIMER_EXPIRY: the hang ends and the entry rule is applied. -/
def execHangTimerExpiry (s : State) : Res := .next (whileRunning hangExpires s)

/-- The seconds a max-talk timer began with. -/
def talkSeconds (n : Intercom) : Nat :=
  match n.talk with
  | some t => t.seconds
  | none => n.maxTalk

/-- The side a turn is taken from is held off while any of its sources is asserted (R145). -/
def holdOff (x : Side) (s : State) : State :=
  setIntercom (fun n => { n with heldOff := n.heldOff.set (sourceAsserted s x) x }) s

/-- The max-talk timer expires (R145). -/
def maxTalkExpires (s : State) : State :=
  match s.intercom.channel.side? with
  | some x =>
    takeChannel (askTone .talkLimit
      (raise .talkLimit [.u8 x.ctorIdx, .u16 (talkSeconds s.intercom)]
        (raiseIntercom (holdOff x (goQuiet s)))))
  | none => s

/-- MAX_TALK_EXPIRY: the turn is cut. -/
def execMaxTalkExpiry (s : State) : Res := .next (whileRunning maxTalkExpires s)

/-! ### Mode (R141) -/

/-- The new mode sends the channel to QUIET. -/
def modeQuiets (s : State) : Bool :=
  match s.intercom.channel with
  | .quiet => false
  | .frontTalk => !frontVoice s
  | .rearTalk => !rearVoice s
  | .hangFront => s.intercom.mode == .offMode
  | .hangRear =>
    s.intercom.mode == .offMode || (s.intercom.mode == .privateMode && s.intercom.window.isNone)

/-- The effects of a change of mode. -/
def changeMode (m : IntercomMode) (s : State) : State :=
  let s1 := setIntercom (fun n => { n with mode := m, window := none }) s
  takeChannel (raiseIntercom (if modeQuiets s1 then goQuiet s1 else s1))

/-- INTERCOM_MODE (R141). A change away from PRIVATE closes the window, and into it finds none open. -/
def takeIntercomMode (mode : Nat) (s : State) : Taken :=
  match intercomMode? mode with
  | none => refuse .badValue s
  | some m =>
    let s' := if m = s.intercom.mode then s else changeMode m s
    (s', .ok [.u8 m.ctorIdx, .u8 s'.intercom.channel.ctorIdx])

/-! ### Settings (R147) -/

/-- A value brought into its range and rounded down to its step. -/
def settle (lo hi step n : Nat) : Nat := clamp lo hi n / step * step

/-- Store the three settings; INTERCOM_STATE follows a change. -/
def storeTimes (attack hang maxTalk : Nat) (s : State) : State :=
  let same := s.intercom.attack == attack && s.intercom.hang == hang && s.intercom.maxTalk == maxTalk
  let s' := setIntercom (fun n => { n with attack := attack, hang := hang, maxTalk := maxTalk }) s
  if same then s' else raiseIntercom s'

/-- INTERCOM_SETTINGS (R147). -/
def takeIntercomSettings (attack hang maxTalk : Nat) (s : State) : Taken :=
  let a := settle 20 200 10 attack
  let h := settle 300 3000 100 hang
  let m := clamp 10 300 maxTalk
  (storeTimes a h m s, .okOr (a != attack || h != hang || m != maxTalk) [.u8 a, .u16 h, .u16 m])

/-- INTERCOM_DEFAULTS (R147). -/
def takeIntercomDefaults (s : State) : Taken := (storeTimes 60 1000 60 s, .ok [.u8 60, .u16 1000, .u16 60])

/-! ### Seat calls (R148, R149) -/

/-- CALL_BUTTON_CHANGE: a sample finds a seat call button changed, which begins or abandons a press (R148,
log 47). -/
def execCallButtonChange (x : Seat) (level : Bool) (s : State) : Res :=
  .next (if s.pins.call.get x = level then s
    else whileRunning
      (setIntercom (fun n => { n with press := n.press.set (if level then .pressing 5 else .released) x }))
      { s with pins := { s.pins with call := s.pins.call.set level x } })

/-- The payload of CALL. -/
def callPayload (x : Seat) (s : State) : List Field :=
  [.u8 x.ctorIdx, .u8 (holderNumber s x), .u8 (SeatSet.bits s.intercom.calls)]

/-- A call from a seat that is not pending. -/
def raiseCall (x : Seat) (s : State) : State :=
  let s1 := setIntercom (fun n => { n with calls := n.calls.set true x }) s
  let s2 := raise .call (callPayload x s1) s1
  if s.intercom.mode = .offMode then s2 else askTone .callChime s2

/-- A button has been held for 50 ms (R148). -/
def pressTaken (x : Seat) (s : State) : State :=
  match s.intercom.press.get x with
  | .pressing _ =>
    let s1 := setIntercom (fun n => { n with press := n.press.set .taken x }) s
    if s.intercom.calls.get x then s1 else raiseCall x s1
  | .released | .taken => s

/-- CALL_PRESS_TAKEN: a press of a seat call button is taken. -/
def execCallPressTaken (x : Seat) (s : State) : Res := .next (whileRunning (pressTaken x) s)

/-- The seat after a seat in the cycle. -/
def seatAfter : Seat → Seat
  | .f => .l
  | .l => .c
  | .c => .r
  | .r => .f

/-- The seats in the cycle from one. -/
def cycleFrom (x : Seat) : List Seat :=
  [x, seatAfter x, seatAfter (seatAfter x), seatAfter (seatAfter (seatAfter x))]

/-- The next pending call in rotation. -/
def Intercom.nextCall (n : Intercom) : Option Seat := (cycleFrom n.pointer).find? (fun x => n.calls.get x)

/-- The effects of an answer (R149). -/
def answersCall (x : Seat) (s : State) : State :=
  takeChannel (raiseIntercom (setIntercom (fun n => { n with
    calls := n.calls.set false x
    pointer := seatAfter x
    window := if n.mode = .privateMode then some 3000 else n.window }) s))

/-- CALL_ANSWER (R149). -/
def takeCallAnswer (s : State) : Taken :=
  match s.intercom.nextCall with
  | some x =>
    let s' := answersCall x s
    (s', .ok [.u8 x.ctorIdx, .u8 (holderNumber s x), .u8 (SeatSet.bits s'.intercom.calls)])
  | none => refuse .notFound s

/-- The number of seats in a set. -/
def seatCount (p : SeatSet) : Nat := (allSeats.filter (fun x => p.get x)).length

/-- CALL_CLEAR (R149). -/
def takeCallClear (s : State) : Taken :=
  (raiseIntercom (setIntercom (fun n => { n with calls := SeatSet.empty }) s),
    .ok [.u8 (seatCount s.intercom.calls)])

/-- The call window's end (R149). -/
def windowEnds (s : State) : State :=
  match s.intercom.window with
  | none => s
  | some _ =>
    let s1 := setIntercom (fun n => { n with window := none }) s
    match s.intercom.channel with
    | .rearTalk | .hangRear => quietThenTake s1
    | .quiet | .frontTalk | .hangFront => raiseIntercom s1

/-- CALL_WINDOW_END: the call window closes. -/
def execCallWindowEnd (s : State) : Res := .next (whileRunning windowEnds s)

/-! ### Readout (R150) -/

/-- An optional number of two bytes for which 0 is legal. -/
def optU16 (o : Option Nat) : List Field := [yesNo o.isSome, .u16 (o.getD 0)]

/-- A qualifier as a number: LOW, ATTACK, QUALIFIED. -/
def Qualifier.code : Qualifier → Nat
  | .low => 0
  | .attack _ => 1
  | .qualified => 2

/-- INTERCOM_STATUS (R150). DESIGN CHOICE (log 17): each switch is one byte, 1 closed and 0 open, whether
held open by the arbiter or not demanded; the switch demanded is a presence flag, then 0 for AP_F2R and 1
for AP_R2F. -/
def takeIntercomStatus (s : State) : Taken :=
  let n := s.intercom
  report ([.u8 n.mode.ctorIdx, .u8 n.attack, .u16 n.hang, .u16 n.maxTalk, .u8 n.channel.ctorIdx]
    ++ optU16 n.hangLeft ++ optU16 (n.talk.map TalkTimer.left)
    ++ [yesNo n.heldOff.front, yesNo n.heldOff.rear, .u8 n.vox.front.code, .u8 n.vox.rear.code,
        yesNo s.pins.ptt]
    ++ optU8 (n.channel.side?.map Side.ctorIdx)
    ++ [yesNo (switchClosed s .front), yesNo (switchClosed s .rear), .u8 (SeatSet.bits n.calls),
        .u8 n.pointer.ctorIdx]
    ++ optU16 n.window) s

/-! ### Restart (R151) -/

/-- A qualifier at restart, from its line. -/
def qualifierAtRestart (level : Bool) : Qualifier := if level then .attack 6 else .low

/-- A press qualifier at restart, from its button. -/
def pressAtRestart (level : Bool) : Press := if level then .pressing 5 else .released

/-- The controller at restart with the inputs as they stand. -/
def Intercom.atRestart (p : Pins) : Intercom :=
  { Intercom.restarted with
    vox := ⟨qualifierAtRestart p.voxF, qualifierAtRestart p.voxR⟩
    press := ⟨pressAtRestart p.call.f, pressAtRestart p.call.l, pressAtRestart p.call.c,
      pressAtRestart p.call.r⟩ }

/-- The intercom's part of a restart: PTT asserted is pressed, and takes the channel without a notice
of its own. -/
def restartIntercom (s : State) : State :=
  let s1 := { s with intercom := Intercom.atRestart s.pins }
  if s.pins.ptt then beginTurn .front s1 else s1

end Sys2Proof.Machine
end

