-- ==== Sys2Proof/Machine/Calendar.lean ====
section
/-!
DEFINITION. The calendar of the clock count (R162), the value of a date and time (R163), and the
schedule entry in force (R31).
-/

namespace Sys2Proof.Machine

/-! ### Dates (R162) -/

/-- A date and time of day. -/
structure DateTime where
  year   : Nat
  month  : Nat
  day    : Nat
  hour   : Nat
  minute : Nat
  second : Nat
deriving DecidableEq, Repr

/-- The last count of the calendar, 2099-12-31 23:59:59. -/
def lastCount : Nat := 3155759999

/-- Every year divisible by 4 is a leap year. -/
def isLeap (year : Nat) : Bool := year % 4 == 0

/-- The lengths of the months of a year. -/
def monthLengths (year : Nat) : List Nat :=
  [31, if isLeap year then 29 else 28, 31, 30, 31, 30, 31, 31, 30, 31, 30, 31]

/-- The days from 2000-01-01 to the first day of a year. -/
def daysToYear (year : Nat) : Nat := (year - 2000) * 365 + (year - 2000 + 3) / 4

/-- The year of a day number. Four years hold 1461 days, the first of them being the leap year. -/
def yearOf (days : Nat) : Nat :=
  let r := days % 1461
  2000 + 4 * (days / 1461) + (if r < 366 then 0 else (r - 366) / 365 + 1)

/-- The month and day of month of a day of the year counted from 0, from the lengths of the months
that are left. -/
def monthDay : (lengths : List Nat) → (month dayOfYear : Nat) → Nat × Nat
  | [], m, d => (m, d + 1)
  | n :: ns, m, d => if d < n then (m, d + 1) else monthDay ns (m + 1) (d - n)

/-- The date and time of a clock count. -/
def dateOf (count : Nat) : DateTime :=
  let days := count / 86400
  let year := yearOf days
  let md := monthDay (monthLengths year) 1 (days - daysToYear year)
  { year, month := md.1, day := md.2, hour := count % 86400 / 3600, minute := count % 3600 / 60,
    second := count % 60 }

/-- The day of week, MON as 0: the days since 2000-01-01 plus 5, modulo 7. -/
def dayOfWeek (count : Nat) : Nat := (count / 86400 + 5) % 7

/-- The minute of day. -/
def minuteOfDay (count : Nat) : Nat := count % 86400 / 60

/-- The length of a month, 0 where there is no such month. -/
def monthLength (year month : Nat) : Nat :=
  match month with
  | 0 => 0
  | m + 1 => (monthLengths year).getD m 0

/-- A date that exists in the calendar with a time of day (R163). -/
def DateTime.exists (t : DateTime) : Bool :=
  2000 ≤ t.year && t.year ≤ 2099 && 1 ≤ t.day && t.day ≤ monthLength t.year t.month
    && t.hour ≤ 23 && t.minute ≤ 59 && t.second ≤ 59

/-- The clock count of a date and time. -/
def DateTime.count (t : DateTime) : Nat :=
  (daysToYear t.year + ((monthLengths t.year).take (t.month - 1)).sum + (t.day - 1)) * 86400
    + t.hour * 3600 + t.minute * 60 + t.second

/-! ### The entry in force (R31) -/

/-- A weekday set holds a day, MON as 0. -/
def Weekdays.holds (d : Weekdays) (day : Nat) : Bool := bit d.bits day

/-- An entry is used (R29). -/
def ScheduleEntry.used (e : ScheduleEntry) : Bool := e.days.bits != 0 && e.tariff != 0

/-- An entry with its number. -/
structure Numbered where
  number : Nat
  entry  : ScheduleEntry
deriving DecidableEq, Repr

/-- The entries of the schedule with their numbers, 1 to 12. -/
def FareEngine.entries (e : FareEngine) : List Numbered :=
  e.schedule.toList.mapIdx (fun i x => ⟨i + 1, x⟩)

/-- Of two candidates in entry order, the one with the later start; the later number on a tie. -/
def laterStart (best : Option Numbered) (x : Numbered) : Option Numbered :=
  match best with
  | none => some x
  | some b => if b.entry.startMinute ≤ x.entry.startMinute then some x else some b

/-- The entry with the latest start on a day, among those not after a minute. -/
def latestOn (entries : List Numbered) (day bound : Nat) : Option Numbered :=
  (entries.filter (fun x => x.entry.used && x.entry.days.holds day && x.entry.startMinute ≤ bound)).foldl
    laterStart none

/-- The entry in force at a count: today up to now, then each day further back, down to today's own
day one week earlier. -/
def FareEngine.entryInForce (e : FareEngine) (count : Nat) : Option Numbered :=
  let today := dayOfWeek count
  [0, 1, 2, 3, 4, 5, 6, 7].findSome? (fun back =>
    latestOn e.entries ((today + 7 - back) % 7) (if back = 0 then minuteOfDay count else 1439))

/-- The entry in force, while the clock is valid. -/
def scheduled (s : State) (count : Nat) : Option Numbered :=
  if s.clock.valid then s.fare.entryInForce count else none

end Sys2Proof.Machine
end

