-- ==== Sys2Proof/Machine/Journal.lean ====
section
/-!
DEFINITION. The trip journal: placing records, marking them at a shift close, fetching them and its
readout (chapter Trip Journal, R114 to R125).
-/

namespace Sys2Proof.Machine

/-! ### Placing and marking -/

/-- Place a record at the newest end, with the next sequence number and both flags clear; the oldest
record leaves where the ring is full (R118). -/
def Journal.place (j : Journal) (t : Trip) : Journal where
  ring := (if 128 ≤ j.ring.length then j.ring.drop 1 else j.ring) ++ [⟨j.next, t, false, false⟩]
  next := j.next + 1

/-- Mark every record closed (R117). -/
def Journal.markClosed (j : Journal) : Journal :=
  { j with ring := j.ring.map (fun r => { r with closed := true }) }

/-- The payload of JOURNAL_HIGH (R120). -/
def journalPayload (j : Journal) (number : Nat) : List Field :=
  [.u8 j.heldBack, .u8 j.ring.length, .u8 j.room, .u32 number]

/-- Write one record, and raise JOURNAL_HIGH where 112 or more are held back (R118, R120). -/
def placeRecord (t : Trip) (s : State) : State :=
  let j := s.journal.place t
  raiseIf (112 ≤ j.heldBack) .journalHigh (journalPayload j s.journal.next) { s with journal := j }

/-! ### Fetching -/

/-- A segment in a record body. -/
def segmentFields (g : Segment) : List Field := [.u8 g.tariff, .u32 g.metres, .u32 g.seconds, .u32 g.fare]

/-- An extra in a record body. -/
def extraFields (e : Extra) : List Field := [.u8 e.kind, .u24 e.amount]

/-- The tender, payment id, fee share, tip share, adjustment share and auth code of Table 12-6. -/
def TripTender.code : TripTender → Nat
  | .card _ _ _ _ => 0
  | .cash _ => 1
  | .void => 2

/-- The payment id of a CARD record, else 0. -/
def TripTender.paymentId : TripTender → Nat
  | .card p _ _ _ => p
  | _ => 0

/-- The fee share of a CARD record, else 0. -/
def TripTender.fee : TripTender → Nat
  | .card _ f _ _ => f
  | _ => 0

/-- The tip share of a CARD record, else 0. -/
def TripTender.tip : TripTender → Nat
  | .card _ _ t _ => t
  | _ => 0

/-- The adjustment share of a CASH record, else 0. -/
def TripTender.adjustment : TripTender → Int
  | .cash a => a
  | _ => 0

/-- The auth code of a CARD record, else empty. -/
def TripTender.authCode : TripTender → Text
  | .card _ _ _ a => a
  | _ => []

/-- Characters in a field of fixed length, unused bytes 0x00. -/
def padded (n : Nat) (t : Text) : List Byte := (t ++ List.replicate n 0).take n

/-- The trip record body of Table 12-6. -/
def tripFields (r : TripRecord) : List Field :=
  let t := r.trip
  [.u32 r.seq, .u16 t.shiftNumber, .u8 t.slot.number, .u8 (SeatSet.bits t.seats), .u32 t.startTime,
   .u32 t.endTime, .u32 t.seconds, .u32 t.metres, .u32 t.fare, .u32 t.extrasTotal, .u8 t.tender.code,
   .u8 (bitsOf [t.powerGap, r.closed, r.isRead]), .u16 t.tender.paymentId, .u32 t.tender.fee,
   .u32 t.tender.tip, .i32 t.tender.adjustment, .u8 t.tender.authCode.length,
   .raw (padded 8 t.tender.authCode), .u8 t.segments.length, .u8 t.extras.length]
  ++ t.segments.flatMap segmentFields ++ t.extras.flatMap extraFields

/-- Set the read flag of the record that carries a number. -/
def Journal.setRead (j : Journal) (number : Nat) : Journal :=
  { j with ring := j.ring.map (fun r => if r.seq = number then { r with isRead := true } else r) }

/-- Return a record and set its read flag (R121). -/
def fetchRecord (r : TripRecord) (s : State) : Taken :=
  ({ s with journal := s.journal.setRead r.seq }, .ok (tripFields r))

/-- TRIP_READ (R121). -/
def takeTripRead (number : Nat) (s : State) : Taken :=
  if number = 0 then refuse .badValue s
  else
    match s.journal.ring.find? (fun r => r.seq == number) with
    | some r => fetchRecord r s
    | none => refuse .notFound s

/-- The oldest record whose read flag is clear. -/
def Journal.oldestUnread (j : Journal) : Option TripRecord := j.ring.find? (fun r => !r.isRead)

/-- TRIP_NEXT_UNREAD (R122). -/
def takeTripNextUnread (s : State) : Taken :=
  match s.journal.oldestUnread with
  | some r => fetchRecord r s
  | none => refuse .notFound s

/-- The sequence number of a record, 0 where there is none. -/
def seqOrZero (o : Option TripRecord) : Nat :=
  match o with
  | some r => r.seq
  | none => 0

/-- The records of the open shift: those whose closed mark is clear, absent while no shift is open
(R117, Table 7-2). -/
def openShiftRecords (s : State) : Option Nat :=
  if shiftOpen s then some (s.journal.ring.filter (fun r => !r.closed)).length else none

/-- JOURNAL_STATUS (R123). -/
def takeJournalStatus (s : State) : Taken :=
  let j := s.journal
  report ([.u8 j.ring.length, .u32 (seqOrZero j.ring.head?), .u32 (seqOrZero j.ring.getLast?),
    .u64 j.next, .u8 (j.ring.filter (fun r => !r.isRead)).length, .u32 (seqOrZero j.oldestUnread),
    .u8 j.heldBack, .u8 (j.ring.filter TripRecord.overwritable).length, .u8 j.run, .u8 j.room,
    .u8 (activeLegs s)] ++ optU8 (openShiftRecords s)) s

end Sys2Proof.Machine
end

