-- ==== Sys2Proof/Machine/SignController.lean ====
section
/-!
DEFINITION. The sign controller: sign mode, derivation, lamp demands and overlays, the pattern
generators with their two-stage gap, lamp faults, the emergency state and the lamp test (chapter
Roof Sign, R126 to R139).
-/

namespace Sys2Proof.Machine

/-! ### Patterns and generators -/

/-- The fixed patterns of Table 8-5, and P_USER as stored. -/
def Sign.pattern (g : Sign) : PatternName → Pattern
  | .onCall       => ⟨50, 50, 1, 0, .continuous⟩
  | .freeFallback => ⟨25, 25, 2, 100, .continuous⟩
  | .alarm        => ⟨20, 20, 3, 100, .continuous⟩
  | .lampTest     => ⟨100, 50, 2, 50, .oneShot⟩
  | .user         => g.pUser

/-- The base steps of one cycle of a pattern (R129). -/
def Pattern.cycle (p : Pattern) : Nat := p.burst * (p.onUnits + p.offUnits) + p.gap

/-- A generator starts a pattern (R130). -/
def Generator.start (p : Pattern) : Generator := ⟨.on, 1, p.onUnits, 0, 0, p⟩

/-- A generator enters ON for a flash. -/
def Generator.enterOn (n : Generator) (flash : Nat) : Generator :=
  { n with phase := .on, flash := flash, left := n.loaded.onUnits, gapLow := 0, gapHigh := 0 }

/-- The end of GAP (R130). DESIGN CHOICE (log 32): in REST the flash count stays at the last flash, and
the times left are 0. -/
def Generator.endGap (n : Generator) : Generator :=
  match n.loaded.mode with
  | .continuous => n.enterOn 1
  | .oneShot => { n with phase := .rest, left := 0, gapLow := 0, gapHigh := 0 }

/-- The end of the phase a generator is in (R130, R131). -/
def Generator.endPhase (n : Generator) : Generator :=
  match n.phase with
  | .on => { n with phase := .off, left := n.loaded.offUnits }
  | .off =>
    if n.flash < n.loaded.burst then n.enterOn (n.flash + 1)
    else if n.loaded.gap = 0 then n.endGap
    else { n with phase := .gap, left := 0, gapLow := n.loaded.gap % 256, gapHigh := n.loaded.gap / 256 }
  | .gap => n.endGap
  | .rest => n

/-- One step of the 10 ms base on the gap stages (R131). -/
def Generator.gapStep (n : Generator) : Generator :=
  if 0 < n.gapLow then { n with gapLow := n.gapLow - 1 }
  else if 0 < n.gapHigh then { n with gapHigh := n.gapHigh - 1, gapLow := 255 }
  else n

/-- One step of the 10 ms base on a generator's counts. -/
def Generator.countStep (n : Generator) : Generator :=
  match n.phase with
  | .on | .off => { n with left := n.left - 1 }
  | .gap => n.gapStep
  | .rest => n

/-- A generator's phase has run out. -/
def Generator.phaseOver (n : Generator) : Bool :=
  match n.phase with
  | .on | .off => n.left == 0
  | .gap => n.gapLow == 0 && n.gapHigh == 0
  | .rest => false

/-- The base steps left in a generator's phase. -/
def Generator.timeLeft (n : Generator) : Nat :=
  match n.phase with
  | .on | .off => n.left
  | .gap => n.gapLow + 256 * n.gapHigh
  | .rest => 0

/-! ### Derivation and demands -/

/-- The sign state of Table 8-2 (R127): the first line whose condition holds. -/
def derivedState (s : State) : SignState :=
  if !shiftOpen s || !calibrated s || s.sign.mode == .forceOffDuty then .offDuty
  else if s.sign.mode == .forceOnCall then .onCall
  else if allFree s then .free
  else if s.settle.sharing && s.fare.legs.toList.all (fun l => !l.active || l.share)
      && 0 < unheldSeats s then .share
  else .hired

/-- The digit of a sign state (R127). -/
def derivedDigit (s : State) : SignState → Option Nat
  | .share => some (unheldSeats s)
  | _ => none

/-- The lamp demands of Table 8-3. -/
def tableDemands (choice : OnCallChoice) : SignState → PerLamp Demand
  | .offDuty => ⟨.off, .off, .off⟩
  | .free    => ⟨.steady, .steady, .off⟩
  | .onCall  => ⟨.pattern (match choice with | .standard => .onCall | .user => .user), .steady, .off⟩
  | .share   => ⟨.off, .steady, .steady⟩
  | .hired   => ⟨.off, .off, .off⟩

/-- The demands with the overlays of R128 in order: FREE fallback, lamp test, alarm. -/
def Sign.demands (g : Sign) : PerLamp Demand :=
  let d := tableDemands g.choice g.derived
  let d := if g.derived = .free ∧ g.fault.free = true then { d with panel := .pattern .freeFallback } else d
  let d := if g.testRunning then ⟨.pattern .lampTest, .pattern .lampTest, .pattern .lampTest⟩ else d
  if g.active then
    { d with
      panel := .pattern .alarm
      share := if g.fault.panel then .pattern .alarm else d.share }
  else d

/-- Set one lamp's demand: a pattern that was not the demand before starts its generator, the same
pattern goes on, off and steady leave the generator in REST (R128, R130). -/
def Sign.setDemand (g : Sign) (x : Lamp) (d : Demand) : Sign :=
  if g.demand.get x = d then g
  else
    { g with
      demand := g.demand.set d x
      generator := g.generator.set
        (match d with
          | .pattern n => Generator.start (g.pattern n)
          | .off | .steady => Generator.atRest) x }

/-- A dark timer is set back while its driver is deasserted or its sense input asserted (R133). -/
def Sign.settleDark (g : Sign) (sense : LampSet) : Sign :=
  let keep (x : Lamp) : Nat := if g.driver x && !sense.get x then g.dark.get x else 0
  { g with dark := ⟨keep .free, keep .panel, keep .share⟩ }

/-- Set the lamp demands from the derived state and the overlays (R128). -/
def Sign.refresh (g : Sign) (sense : LampSet) : Sign :=
  let d := g.demands
  (((g.setDemand .free d.free).setDemand .panel d.panel).setDemand .share d.share).settleDark sense

/-- Set the lamp demands again. -/
def refreshLamps (s : State) : State := { s with sign := s.sign.refresh s.pins.sense }

/-- Derive the sign state and digit anew, abandon a lamp test where the state is no longer OFF_DUTY
(R137), and set the demands. -/
def derive (s : State) : State :=
  let st := derivedState s
  refreshLamps
    { s with
      sign := { s.sign with
        derived := st
        digit := derivedDigit s st
        testRunning := s.sign.testRunning && st == .offDuty } }

/-- The payload of SIGN_STATE (R138). DESIGN CHOICE (log 17): the fault flags are one set of lamps. -/
def signPayload (g : Sign) : List Field :=
  [.u8 g.derived.ctorIdx, .u8 (g.digit.getD 0), .u8 g.mode.ctorIdx, yesNo g.testRunning,
   .u8 (LampSet.bits g.fault)]

/-- What SIGN_STATE reports a change of (R138): derived state, digit, sign mode, lamp test. -/
def Sign.differs (a b : Sign) : Bool :=
  a.derived != b.derived || a.digit != b.digit || a.mode != b.mode || a.testRunning != b.testRunning

/-- Raise SIGN_STATE where the sign differs from what it was before the event. -/
def reportSign (before : Sign) (s : State) : State :=
  raiseIf (before.differs s.sign) .signState (signPayload s.sign) s

/-- The sign controller derives its state anew in an event and reports a change (R127). -/
def resign (s : State) : State := reportSign s.sign (derive s)

/-- FORCE_ON_CALL returns to AUTO, and the pattern choice to STANDARD, before the derivation that a
LEG_START or SHIFT_CLOSE asks for (R126). -/
def resignToAuto (s : State) : State :=
  let g := s.sign
  let g' := if g.mode = .forceOnCall then { g with mode := .auto, choice := .standard } else g
  reportSign g (derive { s with sign := g' })

/-- SIGN_MODE (R126). -/
def takeSignMode (mode choice : Nat) (s : State) : Taken :=
  let apply (m : SignMode) (c : OnCallChoice) : Taken :=
    let s' := reportSign s.sign (derive { s with sign := { s.sign with mode := m, choice := c } })
    (s', .ok [.u8 s'.sign.mode.ctorIdx, .u8 s'.sign.choice.ctorIdx, .u8 s'.sign.derived.ctorIdx])
  match signMode? mode with
  | none => refuse .badValue s
  | some .forceOnCall =>
    match onCallChoice? choice with
    | none => refuse .badValue s
    | some c =>
      if !shiftOpen s then refuse .noShift s
      else if !allFree s then refuse .wrongState s
      else apply .forceOnCall c
  | some m => apply m .standard

/-! ### Lamp test -/

/-- LAMP_TEST (R137). -/
def takeLampTest (s : State) : Taken :=
  if s.sign.derived != .offDuty || s.sign.active || s.sign.testRunning then refuse .wrongState s
  else
    let s' := refreshLamps { s with sign := { s.sign with testRunning := true } }
    (reportSign s.sign s', .ok [.u16 (s.sign.pattern .lampTest).cycle])

/-- All three generators are in REST. -/
def Sign.allRest (g : Sign) : Bool :=
  g.generator.free.phase == .rest && g.generator.panel.phase == .rest
    && g.generator.share.phase == .rest

/-- The lamp test completes when all three generators have reached REST (R137). -/
def finishTest (s : State) : State :=
  if s.sign.testRunning && s.sign.allRest then
    reportSign s.sign (refreshLamps { s with sign := { s.sign with testRunning := false } })
  else s

/-- A phase of a lamp's generator ends (R130, R131). -/
def patternPhaseEnds (x : Lamp) (s : State) : State :=
  let g := s.sign
  let g' := { g with generator := g.generator.set (g.generator.get x).endPhase x }
  finishTest { s with sign := g'.settleDark s.pins.sense }

/-- PATTERN_PHASE_END: a generator that runs moves to its next phase. -/
def execPatternPhaseEnd (x : Lamp) (s : State) : Res := .next (whileRunning (patternPhaseEnds x) s)

/-! ### PATTERN_WRITE (R132) -/

/-- A byte of P_USER after clamping to 1 to 255. -/
def patternByte (n : Nat) : Nat := clamp 1 255 n

/-- The fields of P_USER after clamping. -/
def clampedPattern (onUnits offUnits burst gap : Nat) (m : PatternMode) : Pattern :=
  ⟨patternByte onUnits, patternByte offUnits, patternByte burst, min 65535 gap, m⟩

/-- A pattern's fields in a reply. -/
def patternFields (p : Pattern) : List Field :=
  [.u8 p.onUnits, .u8 p.offUnits, .u8 p.burst, .u16 p.gap, .u8 p.mode.ctorIdx]

/-- A lamp's generator, restarted with new values where it runs P_USER (R132, log 30). -/
def Sign.restartUser (g : Sign) (x : Lamp) : Sign :=
  if g.demand.get x = .pattern .user ∧ (g.generator.get x).phase ≠ .rest then
    { g with generator := g.generator.set (Generator.start g.pUser) x }
  else g

/-- PATTERN_WRITE (R132). Pattern names are numbered in the order of Table 8-5, P_USER last. -/
def takePatternWrite (name onUnits offUnits burst gap mode : Nat) (s : State) : Taken :=
  match patternMode? mode with
  | none => refuse .badValue s
  | some m =>
    if 6 ≤ name then refuse .badValue s
    else if name ≠ 5 then refuse .notPermitted s
    else
      let p := clampedPattern onUnits offUnits burst gap m
      let clamped := p.onUnits != onUnits || p.offUnits != offUnits || p.burst != burst || p.gap != gap
      let g := { s.sign with pUser := p }
      let g := ((g.restartUser .free).restartUser .panel).restartUser .share
      ({ s with sign := g.settleDark s.pins.sense }, .okOr clamped (patternFields p))

/-! ### Lamp faults (R133, R134) -/

/-- A lamp is dark: driven with its sense input deasserted. -/
def Sign.isDark (g : Sign) (sense : LampSet) (x : Lamp) : Bool := g.driver x && !sense.get x

/-- The payload of LAMP_FAULT (R133). -/
def lampFaultPayload (x : Lamp) (g : Sign) : List Field := [.u8 x.ctorIdx, .u8 (LampSet.bits g.fault)]

/-- A dark timer reaches 50 ms (R133). -/
def darkTimerExpires (x : Lamp) (s : State) : State :=
  if s.sign.isDark s.pins.sense x && !s.sign.fault.get x then
    let s' := { s with sign := { s.sign with fault := s.sign.fault.set true x } }
    refreshLamps (raise .lampFault (lampFaultPayload x s'.sign) s')
  else s

/-- DARK_TIMER_EXPIRY: a lamp driven 50 ms without current latches its fault flag. -/
def execDarkTimerExpiry (x : Lamp) (s : State) : Res := .next (whileRunning (darkTimerExpires x) s)

/-- LAMP_SENSE_CHANGE: a sense input changes; asserted, it sets the dark timer back (R133). -/
def execLampSenseChange (x : Lamp) (level : Bool) (s : State) : Res :=
  let s' := { s with pins := { s.pins with sense := s.pins.sense.set level x } }
  .next (whileRunning (fun t => { t with sign := t.sign.settleDark t.pins.sense }) s')

/-- `a` without the members of `b`. -/
def lampsWithout (a b : LampSet) : LampSet := ⟨a.free && !b.free, a.panel && !b.panel, a.share && !b.share⟩

/-- The dark timers with those of a set at 0. -/
def darkCleared (d : PerLamp Nat) (b : LampSet) : PerLamp Nat :=
  ⟨if b.free then 0 else d.free, if b.panel then 0 else d.panel, if b.share then 0 else d.share⟩

/-- LAMP_FAULT_CLEAR (R134). -/
def takeLampFaultClear (lamps : Nat) (s : State) : Taken :=
  match lampSet? lamps with
  | none => refuse .badValue s
  | some b =>
    let s' := refreshLamps
      { s with sign := { s.sign with
          fault := lampsWithout s.sign.fault b
          dark := darkCleared s.sign.dark b } }
    (s', .ok [.u8 (LampSet.bits s.sign.fault), .u8 (LampSet.bits s'.sign.fault)])

/-! ### Emergency (R135, R136) -/

/-- The payload of EMERGENCY: the state, cause and raise time, and for a clear its clock count
(R136). -/
def emergencyPayload (g : Sign) (clearedAt : Option Nat) : List Field :=
  [yesNo g.active] ++ optU8 (g.cause.map EmergencyCause.ctorIdx) ++ optU32 g.raiseTime
    ++ optU32 clearedAt

/-- The emergency becomes ACTIVE (R135); a lamp test ends at once (R137). -/
def emergencyRises (c : EmergencyCause) (s : State) : State :=
  let s' := refreshLamps
    { s with sign := { s.sign with
        active := true
        cause := some c
        raiseTime := some s.clock.count
        clearWindow := none
        testRunning := false } }
  reportSign s.sign (raise .emergency (emergencyPayload s'.sign none) s')

/-- The emergency becomes NORMAL by a clearing hold (R136); the cause and raise time are kept. -/
def emergencyClears (s : State) : State :=
  let s' := refreshLamps { s with sign := { s.sign with active := false, clearWindow := none } }
  raise .emergency (emergencyPayload s'.sign (some s.clock.count)) s'

/-- EMERGENCY_RAISE (R135). -/
def takeEmergencyRaise (s : State) : Taken :=
  (if s.sign.active then s else emergencyRises .host s, .ok [.u8 1])

/-- EMERGENCY_CLEAR is refused in every state (R135). -/
def takeEmergencyClear (s : State) : Taken := refuse .notPermitted s

/-- A hold begins where EMERG is asserted, and ends where it is not (R135). -/
def switchHold (active level : Bool) : Option Hold :=
  if level then some { held := 0, reached := false, raising := false, begunActive := active } else none

/-- EMERG_CHANGE: EMERG asserted begins a hold; deasserted ends it (R135). DESIGN CHOICE (log 47): the row is
the sample that finds the new level, so the hold begins or ends in the row's own event. -/
def execEmergChange (level : Bool) (s : State) : Res :=
  let s' := { s with pins := { s.pins with emerg := level } }
  .next (if s.pins.emerg = level then s
    else whileRunning (fun t => { t with sign := { t.sign with hold := switchHold t.sign.active level } }) s')

/-- The hold in progress has lasted 1 s (R135, R136). -/
def holdReaches (s : State) : State :=
  match s.sign.hold with
  | none => s
  | some h =>
    if h.reached then s
    else
      let mark (h' : Hold) (t : State) : State := { t with sign := { t.sign with hold := some h' } }
      let h1 := { h with held := 100, reached := true }
      if !s.sign.active then
        if h.begunActive then mark h1 s
        else emergencyRises .emerg (mark { h1 with raising := true } s)
      else
        match s.sign.clearWindow with
        | none => mark h1 { s with sign := { s.sign with clearWindow := some 400 } }
        | some _ => emergencyClears (mark h1 s)

/-- EMERG_HOLD_1S: a hold reaching 1 s raises the emergency, opens a clear window, or clears. -/
def execEmergHold1s (s : State) : Res := .next (whileRunning holdReaches s)

/-- CLEAR_WINDOW_END: the clear window closes without a clearing hold (R136). -/
def execClearWindowEnd (s : State) : Res :=
  .next (whileRunning (fun t => { t with sign := { t.sign with clearWindow := none } }) s)

/-! ### Readout -/

/-- A demand in a reply: off, steady, then the patterns of Table 8-5 (log 17). -/
def Demand.code : Demand → Nat
  | .off => 0
  | .steady => 1
  | .pattern n => n.ctorIdx + 2

/-- The readout of one lamp (R138). DESIGN CHOICE (log 17): both gap stages are always carried, 0 outside
GAP, with no presence flag, and the time left in the phase is in units of the 10 ms base. -/
def lampPart (g : Sign) (sense : LampSet) (x : Lamp) : List Field :=
  let n := g.generator.get x
  [.u8 (g.demand.get x).code, .u8 n.phase.ctorIdx, .u8 n.flash, .u16 n.timeLeft,
   .u8 n.gapLow, .u8 n.gapHigh, yesNo (g.driver x), yesNo (sense.get x), yesNo (g.fault.get x)]

/-- SIGN_STATUS (R138). DESIGN CHOICE (log 17): the five fields of P_STEADY, dashes in Table 8-5, are 0. -/
def takeSignStatus (s : State) : Taken :=
  let g := s.sign
  report ([.u8 g.mode.ctorIdx, .u8 g.choice.ctorIdx, .u8 g.derived.ctorIdx, .u8 (g.digit.getD 0)]
    ++ lampPart g s.pins.sense .free ++ lampPart g s.pins.sense .panel ++ lampPart g s.pins.sense .share
    ++ [yesNo g.testRunning, yesNo g.active] ++ optU8 (g.cause.map EmergencyCause.ctorIdx)
    ++ optU32 g.raiseTime ++ [yesNo g.clearWindow.isSome]
    ++ [.u8 0, .u8 0, .u8 0, .u16 0, .u8 0]
    ++ [PatternName.onCall, .freeFallback, .alarm, .lampTest, .user].flatMap
        (fun n => patternFields (g.pattern n))) s

end Sys2Proof.Machine
end

