-- ==== Sys2Proof/Machine/Odometry.lean ====
section
/-!
DEFINITION. The odometry unit: the pulse filter, metres, the calibration measurement, its part of the
interval close and its requests (chapter Distance Pulses and Fare Intervals, R1 to R15), and the
calibration writes' common effect (R166).
-/

namespace Sys2Proof.Machine

/-! ### Calibration writes (R166) -/

/-- A calibration write taken: the count adds 1 and the stamp is set. -/
def countCalibration (s : State) : State :=
  { s with retained := { s.retained with
      calCount := incU16 s.retained.calCount
      calStamp := s.clock.count } }

/-! ### Pulses (R1, R3, R10) -/

/-- The measurement counts pulses. -/
def Measurement.counts : Measurement → Bool
  | .running | .stopping => true
  | _ => false

/-- The metres a pulse yields from R: while R is at least K, one metre each (R3). -/
def pulseMetres (r k : Nat) : Nat := (r + 1000) / k

/-- A counted pulse at the metre accumulator (R3). While the part is uncalibrated no metre is counted
(R19, log 33). -/
def Odometry.pulseToMetres (o : Odometry) (isCalibrated : Bool) : Odometry :=
  if o.k = 0 then o
  else
    { o with
      r := (o.r + 1000) % o.k
      intervalMetres :=
        if isCalibrated then satAdd 65535 o.intervalMetres (pulseMetres o.r o.k) else o.intervalMetres }

/-- A counted pulse at the measurement (R10). -/
def Odometry.pulseToMeasurement (o : Odometry) : Odometry :=
  if o.measurement.counts then { o with measurePulses := addU32 o.measurePulses 1 } else o

/-- A counted pulse, offered to both consumers. -/
def Odometry.countPulse (o : Odometry) (isCalibrated : Bool) : Odometry :=
  (o.pulseToMetres isCalibrated).pulseToMeasurement

/-- A change of the accepted level to `level` is a counted pulse under the polarity (R1). -/
def Polarity.counts : Polarity → Bool → Bool
  | .rising, level => level
  | .falling, level => !level

/-- The accepted level takes the input's level (R1). -/
def Odometry.accept (o : Odometry) (level isCalibrated : Bool) : Odometry :=
  let o' := { o with accepted := level, timing := none }
  if o.polarity.counts level then o'.countPulse isCalibrated else o'

/-- A change of the input at the filter (R1). -/
def Odometry.inputChanges (o : Odometry) (level isCalibrated : Bool) : Odometry :=
  if level = o.accepted then { o with timing := none }
  else
    match o.window with
    | .off => o.accept level isCalibrated
    | _ => { o with timing := some 0 }

/-- DPULSE_CHANGE: a change of the DPULSE input (R1). -/
def execDpulseChange (level : Bool) (s : State) : Res :=
  .next (if s.pins.dpulse = level then s
    else whileRunning (fun t => { t with odo := t.odo.inputChanges level (calibrated t) })
      { s with pins := { s.pins with dpulse := level } })

/-- The filter timing in progress runs its whole window (R1). -/
def filterExpires (s : State) : State :=
  match s.odo.timing with
  | some _ => { s with odo := s.odo.accept s.pins.dpulse (calibrated s) }
  | none => s

/-- FILTER_WINDOW_EXPIRY: the input has differed for the whole window (R1). -/
def execFilterWindowExpiry (s : State) : Res := .next (whileRunning filterExpires s)

/-! ### Calibration measurement (R8 to R10) -/

/-- A second tick at the measurement. -/
def Odometry.measureTick (o : Odometry) : Odometry :=
  match o.measurement with
  | .starting => { o with measurement := .running }
  | .running => { o with measureSeconds := addU32 o.measureSeconds 1 }
  | .stopping => { o with measurement := .stopped, measureSeconds := addU32 o.measureSeconds 1 }
  | .idle | .stopped => o

/-- Calibration open ends (R10). -/
def Odometry.calibrationEnds (o : Odometry) : Odometry :=
  match o.measurement with
  | .starting => { o with measurement := .idle, measurePulses := 0, measureSeconds := 0 }
  | .running => { o with measurement := .stopping }
  | .idle | .stopping | .stopped => o

/-- CALEN_CHANGE: a sample finds CALEN changed, and calibration open may begin or end (R166, R10, log 47). -/
def execCalenChange (level : Bool) (s : State) : Res :=
  let s' := { s with pins := { s.pins with calen := level } }
  .next (whileRunning
    (fun t => if calibrationOpen s && !level then { t with odo := t.odo.calibrationEnds } else t) s')

/-- CAL_MEASURE_START (R8). -/
def takeCalMeasureStart (s : State) : Taken :=
  if !calibrationOpen s then refuse .calLocked s
  else
    match s.odo.measurement with
    | .idle | .stopped =>
      ({ s with odo := { s.odo with measurement := .starting, measurePulses := 0, measureSeconds := 0 } },
        .ok [.u8 Measurement.starting.ctorIdx])
    | .starting | .running | .stopping => refuse .wrongState s

/-- CAL_MEASURE_STOP (R9). -/
def takeCalMeasureStop (s : State) : Taken :=
  if !calibrationOpen s then refuse .calLocked s
  else
    match s.odo.measurement with
    | .running =>
      ({ s with odo := { s.odo with measurement := .stopping } }, .ok [.u8 Measurement.stopping.ctorIdx])
    | .idle | .starting | .stopping | .stopped => refuse .wrongState s

/-! ### Settings (R2, R4) -/

/-- DPULSE_CONFIG (R2). -/
def takeDpulseConfig (polarity window : Nat) (s : State) : Taken :=
  if !calibrationOpen s then refuse .calLocked s
  else
    match polarity? polarity, filterWindow? window with
    | some p, some w =>
      (countCalibration { s with odo := { s.odo with
          polarity := p, window := w, accepted := s.pins.dpulse, timing := none } },
        .ok [.u8 p.ctorIdx, .u8 w.ctorIdx])
    | _, _ => refuse .badValue s

/-- CAL_SET_K (R4); the sign follows a change of the calibrated condition (R127). -/
def takeCalSetK (k : Nat) (s : State) : Taken :=
  if !calibrationOpen s then refuse .calLocked s
  else if k < 500 || 40000 < k then refuse .badValue s
  else (resign (countCalibration { s with odo := { s.odo with k := k, r := 0 } }), .ok [.u16 k])

/-! ### The interval close (R5 to R7, R15) -/

/-- The unclamped interval metre count at a close; 0 while uncalibrated (R15). -/
def closingCount (s : State) : Nat := if calibrated s then s.odo.intervalMetres else 0

/-- The clamped metres of an interval (R5). -/
def clampMetres (c : Nat) : Nat := min 100 c

/-- The interval's metres are taken and the next interval opens (R5). -/
def Odometry.takeInterval (o : Odometry) (c : Nat) : Odometry :=
  { o with
    intervalMetres := 0
    lastMetres := clampMetres c
    r := if 100 < c then 0 else o.r }

/-- The interval is taken, and SENSOR_IMPLAUSIBLE raised where it passed 100 m (R5). -/
def takeInterval (c : Nat) (s : State) : State :=
  raiseIf (100 < c) .sensorImplausible [.u16 c] { s with odo := s.odo.takeInterval c }

/-- The distance totals of a close (R6). -/
def Odometry.addTotals (o : Odometry) (m : Nat) (hired : Bool) : Odometry :=
  { o with
    totalDistance := addU32 o.totalDistance m
    hiredDistance := if hired then addU32 o.hiredDistance m else o.hiredDistance }

/-- The motion state of a close (R7). -/
def Odometry.judgeMotion (o : Odometry) (m : Nat) : Odometry :=
  if m = 0 then
    let z := satAdd 3 o.zeroCloses 1
    { o with zeroCloses := z, motion := if z = 3 then .stationary else o.motion }
  else { o with zeroCloses := 0, motion := .moving }

/-- The odometry unit's own totals and motion state (R6, R7). -/
def closeOdometry (m : Nat) (hired : Bool) (s : State) : State :=
  let o := (s.odo.addTotals m hired).judgeMotion m
  raiseIf (o.motion != s.odo.motion) .motion [.u8 o.motion.ctorIdx] { s with odo := o }

/-! ### Readout (R11) -/

/-- The speed in km/h. -/
def speedOf (m : Nat) : Nat := (m * 36 + 5) / 10

/-- ODO_STATUS (R11). -/
def takeOdoStatus (s : State) : Taken :=
  let o := s.odo
  report [.u16 (speedOf o.lastMetres), .u8 o.lastMetres, .u8 o.motion.ctorIdx, .u32 o.totalDistance,
    .u32 o.hiredDistance, .u16 o.r, .u16 o.k, .u8 o.polarity.ctorIdx, .u8 o.window.ctorIdx,
    .u8 o.measurement.ctorIdx, .u32 o.measurePulses, .u32 o.measureSeconds] s

/-! ### Restart and factory clear (R12 to R14) -/

/-- The retained defaults (R14). -/
def Odometry.toDefaults (o : Odometry) : Odometry :=
  { o with polarity := .rising, window := .ms1, k := 0, totalDistance := 0, hiredDistance := 0 }

/-- The volatile state at restart (R13), with the DPULSE level then. -/
def Odometry.restarted (o : Odometry) (dpulse : Bool) : Odometry :=
  { o with
    accepted := dpulse, timing := none, r := 0, intervalMetres := 0, lastMetres := 0, zeroCloses := 0
    motion := .moving, measurement := .idle, measurePulses := 0, measureSeconds := 0 }

/-- Factory clear at the odometry unit (R14). -/
def Odometry.factoryCleared (o : Odometry) (dpulse : Bool) : Odometry :=
  { o.toDefaults with r := 0, intervalMetres := 0, accepted := dpulse, timing := none }

end Sys2Proof.Machine
end

