-- ==== Sys2Proof/Machine/Shifts.lean ====
section
/-!
DEFINITION. The shift accounts: the shift record and its totals, opening and closing a shift, the
report list and the readouts (chapter Shifts and Shift Reports, R100 to R113).
-/

namespace Sys2Proof.Machine

/-! ### Additions (R103 to R106) -/

/-- A signed 32-bit sum with saturation at either end (R106). -/
def addI32 (a b : Int) : Int := max (-2147483648) (min 2147483647 (a + b))

/-- Change the totals while the shift record is OPEN; CLOSED it takes no additions (R100). -/
def addTotals (g : Totals → Totals) (s : State) : State :=
  if s.shifts.record.isOpen then
    { s with shifts := { s.shifts with
        record := { s.shifts.record with totals := g s.shifts.record.totals } } }
  else s

/-- The additions of an interval close (R103). -/
def Totals.addInterval (m : Nat) (hired : Bool) (t : Totals) : Totals :=
  { t with
    totalMetres := addU32 t.totalMetres m
    hiredMetres := if hired then addU32 t.hiredMetres m else t.hiredMetres
    hiredSeconds := if hired then addU32 t.hiredSeconds 1 else t.hiredSeconds }

/-- A segment added to a bucket. -/
def Bucket.add (b : Bucket) (g : Segment) : Bucket :=
  ⟨addU32 b.metres g.metres, addU32 b.seconds g.seconds, addU32 b.fare g.fare⟩

/-- A segment added to the bucket of its tariff, or to the mixed one (R104). -/
def addToBucket (bs : Vector Bucket 9) (g : Segment) : Vector Bucket 9 :=
  if h : g.tariff < 9 then bs.set g.tariff (bs[g.tariff].add g) else bs

/-- The money part of a settled record: card fee, tips, card taken and cash rounding (R104). -/
def Totals.addMoney (t : Totals) (due : Nat) : TripTender → Totals
  | .card _ fee tip _ =>
    { t with
      cardFee := addU32 t.cardFee fee
      tips := addU32 t.tips tip
      cardTaken := addU32 t.cardTaken (due + fee + tip) }
  | .cash adjustment => { t with cashRounding := addI32 t.cashRounding adjustment }
  | .void => t

/-- The cash taken of a settled record: its due plus its adjustment share, which is below 0 where a leg
with a due of 0 takes the whole of a negative adjustment (R68, R104). -/
def Trip.cashTaken (p : Trip) : Int :=
  match p.tender with
  | .cash adjustment => ((p.fare + p.extrasTotal : Nat) : Int) + adjustment
  | .card _ _ _ _ | .void => 0

/-- The additions of one settled record, but for its cash taken (R104). -/
def Totals.addTrip (p : Trip) (t : Totals) : Totals :=
  let t' := t.addMoney (p.fare + p.extrasTotal) p.tender
  { t' with
    tripsSettled := addU32 t.tripsSettled 1
    fare := addU32 t.fare p.fare
    extras := addU32 t.extras p.extrasTotal
    buckets := p.segments.foldl addToBucket t.buckets }

/-- The additions of a settlement's records, which are one event: the cash taken of all of them is one
sum, so that the total saturates as the sum over the records does (R104, R106). -/
def Totals.addTrips (ps : List Trip) (t : Totals) : Totals :=
  { ps.foldl (fun a p => a.addTrip p) t with
    cashTaken := addU32 t.cashTaken (ps.map Trip.cashTaken).sum.toNat }

/-- A voided trip (R105). -/
def Totals.addVoid (t : Totals) : Totals := { t with tripsVoided := addU32 t.tripsVoided 1 }

/-- A card decline (R105). -/
def Totals.addDecline (t : Totals) : Totals := { t with cardDeclines := addU32 t.cardDeclines 1 }

/-- A late approval (R105). -/
def Totals.addLate (t : Totals) : Totals := { t with lateApprovals := addU32 t.lateApprovals 1 }

/-- A reversal requested (R105). -/
def Totals.addReversal (t : Totals) : Totals :=
  { t with reversalsRequested := addU32 t.reversalsRequested 1 }

/-! ### The notice (R112) -/

/-- How many reports are unread. -/
def ShiftAccounts.unread (a : ShiftAccounts) : Nat := (a.reports.filter (fun p => !p.isRead)).length

/-- The payload of SHIFT_STATE. -/
def shiftPayload (a : ShiftAccounts) : List Field :=
  [firstWhen a.record.isOpen, .u16 a.record.number] ++ textField a.record.driver
    ++ optU32 a.record.openTime ++ optU32 a.record.closeTime ++ [.u8 a.reports.length, .u8 a.unread]

/-- Raise SHIFT_STATE. -/
def raiseShiftState (s : State) : State := raise .shiftState (shiftPayload s.shifts) s

/-! ### Opening (R101, R102) -/

/-- The next shift number, going from 65535 to 1. -/
def nextShiftNumber (n : Nat) : Nat := if 65535 ≤ n then 1 else n + 1

/-- The shift record after an open. -/
def openedRecord (driver : Text) (s : State) : ShiftRecord where
  isOpen        := true
  number        := nextShiftNumber s.shifts.record.number
  driver        := driver
  openTime      := some s.clock.count
  closeTime     := none
  odometerOpen  := some s.odo.totalDistance
  odometerClose := none
  calCountOpen  := s.retained.calCount
  totals        := Totals.zero

/-- The effects of a taken SHIFT_OPEN (R102): the record, the next payment id (R62), a measurement in
progress (R10), the sign, and the notice. -/
def opensShift (driver : Text) (s : State) : State :=
  let o := if calibrationOpen s then s.odo.calibrationEnds else s.odo
  raiseShiftState (resign
    { s with
      shifts := { s.shifts with record := openedRecord driver s }
      settle := { s.settle with nextId := 1 }
      odo := o })

/-- SHIFT_OPEN (R101). -/
def takeShiftOpen (driver : Text) (s : State) : Taken :=
  if !textWithin 8 driver then refuse .badValue s
  else if shiftOpen s then refuse .wrongState s
  else if !calibrated s then refuse .uncalibrated s
  else if !s.clock.valid then refuse .wrongState s
  else
    let r := openedRecord driver s
    (opensShift driver s,
      .ok [.u16 r.number, .u32 s.clock.count, .u32 s.odo.totalDistance, .u16 r.calCountOpen])

/-! ### Closing (R107 to R109) -/

/-- Drop the oldest report whose read flag is set. -/
def dropOldestRead : List Report → List Report
  | [] => []
  | p :: ps => if p.isRead then ps else p :: dropOldestRead ps

/-- The report list holds 8 reports. -/
def ShiftAccounts.full (a : ShiftAccounts) : Bool := 8 ≤ a.reports.length

/-- The report list after a close (R109). -/
def ShiftAccounts.addReport (a : ShiftAccounts) (r : ShiftRecord) : List Report :=
  (if a.full then dropOldestRead a.reports else a.reports) ++ [⟨r, false⟩]

/-- The shift record after a close. -/
def closedRecord (s : State) : ShiftRecord :=
  { s.shifts.record with
    isOpen := false
    closeTime := some s.clock.count
    odometerClose := some s.odo.totalDistance }

/-- The effects of a taken SHIFT_CLOSE (R108, R117, R126). -/
def closesShift (s : State) : State :=
  let r := closedRecord s
  raiseShiftState (resignToAuto
    { s with
      shifts := { record := r, reports := s.shifts.addReport r }
      journal := s.journal.markClosed })

/-- SHIFT_CLOSE (R107). -/
def takeShiftClose (s : State) : Taken :=
  if !shiftOpen s then refuse .wrongState s
  else if !allFree s then refuse .wrongState s
  else if s.settle.session.state.isOpen then refuse .wrongState s
  else if s.shifts.full && s.shifts.unread == s.shifts.reports.length then refuse .reportsFull s
  else
    let s' := closesShift s
    (s', .ok [.u16 s.shifts.record.number, .u32 s.clock.count, .u32 s.odo.totalDistance,
      .u8 s'.shifts.reports.length, yesNo s.shifts.full])

/-! ### Readouts (R110, R111) -/

/-- A bucket in a report. -/
def bucketFields (b : Bucket) : List Field := [.u32 b.metres, .u32 b.seconds, .u32 b.fare]

/-- The 200 bytes of Table 12-7. DESIGN CHOICE (log 17): the read flag is 1 where it is set. -/
def reportFields (r : ShiftRecord) (isRead : Bool) : List Field :=
  let t := r.totals
  let b := t.buckets
  [firstWhen r.isOpen, yesNo isRead, .u16 r.number, .u8 r.driver.length, .raw (padded 8 r.driver),
   .u8 (bitsOf [r.openTime.isSome, r.closeTime.isSome, r.odometerOpen.isSome, r.odometerClose.isSome]),
   .u32 (r.openTime.getD 0), .u32 (r.closeTime.getD 0), .u32 (r.odometerOpen.getD 0),
   .u32 (r.odometerClose.getD 0), .u16 r.calCountOpen, .u32 t.tripsSettled, .u32 t.tripsVoided,
   .u32 t.cardDeclines, .u32 t.lateApprovals, .u32 t.reversalsRequested, .u32 t.hiredMetres,
   .u32 t.totalMetres, .u32 t.hiredSeconds, .u32 t.fare, .u32 t.extras, .u32 t.cardFee, .u32 t.tips,
   .u32 t.cashTaken, .u32 t.cardTaken, .i32 t.cashRounding]
  ++ bucketFields b[1] ++ bucketFields b[2] ++ bucketFields b[3] ++ bucketFields b[4]
  ++ bucketFields b[5] ++ bucketFields b[6] ++ bucketFields b[7] ++ bucketFields b[8]
  ++ bucketFields b[0]

/-- The seconds since the open time of an OPEN shift, 0 while the clock is below it (R111). -/
def secondsOpen (s : State) : Nat :=
  if shiftOpen s then s.clock.count - s.shifts.record.openTime.getD 0 else 0

/-- SHIFT_READ (R111). -/
def takeShiftRead (s : State) : Taken :=
  report (reportFields s.shifts.record false
    ++ [.u8 s.shifts.reports.length, .u8 s.shifts.unread, .u32 (secondsOpen s)]) s

/-- REPORT_LIST (R110). DESIGN CHOICE (log 17): the read flag is 1 where it is set. -/
def takeReportList (s : State) : Taken :=
  report (countedList
    (fun p => [.u16 p.record.number, .u32 (p.record.closeTime.getD 0), yesNo p.isRead])
    s.shifts.reports) s

/-- Set the read flag of the first unread report that carries a number. -/
def markRead (number : Nat) : List Report → List Report
  | [] => []
  | p :: ps =>
    if p.record.number = number ∧ p.isRead = false then { p with isRead := true } :: ps
    else p :: markRead number ps

/-- The report a REPORT_READ chooses: the oldest unread with the number, else the newest with it
(R110). -/
def chosenReport (number : Nat) (ps : List Report) : Option Report :=
  match ps.find? (fun p => p.record.number == number && !p.isRead) with
  | some p => some p
  | none => ps.reverse.find? (fun p => p.record.number == number)

/-- REPORT_READ (R110). -/
def takeReportRead (number : Nat) (s : State) : Taken :=
  if number = 0 then refuse .badValue s
  else
    match chosenReport number s.shifts.reports with
    | some p =>
      ({ s with shifts := { s.shifts with reports := markRead number s.shifts.reports } },
        .ok (reportFields p.record p.isRead))
    | none => refuse .notFound s

end Sys2Proof.Machine
end

