-- ==== Sys2Proof/Machine/Fare.lean ====
section
/-!
DEFINITION. The fare engine's tables and arithmetic: tariff, schedule and extras kind requests, the
accrual of an interval close, steps and the fare cap, and a tariff change with its carry (chapters
Tariffs and Fare Arithmetic, R16 to R37, and Legs and Seats, R45, R49, R58, R59).
-/

namespace Sys2Proof.Machine

/-! ### Tariff table (R16 to R18) -/

/-- The fields of a tariff record in a reply. -/
def tariffReply (t : Tariff) : List Field :=
  [yesNo t.isDefined] ++ textField t.name
    ++ [.u32 t.flagFall, .u16 t.stepAmount, .u16 t.distanceStep, .u16 t.timeStep,
        .u16 t.includedDistance, .u8 t.mode.ctorIdx, yesNo t.sharePermitted, yesNo t.manualSelectable]

/-- The record that a write with defined = yes stores, where every field fits Table 2-1 (R17). -/
def definedTariff? (f : TariffFields) : Option Tariff :=
  match tariffMode? f.mode, yesNo? f.sharePermitted, yesNo? f.manualSelectable with
  | some mode, some share, some manual =>
    if textWithin 12 f.name ∧ f.flagFall ≤ 99999 ∧ 1 ≤ f.stepAmount ∧ f.stepAmount ≤ 9999
        ∧ 1 ≤ f.distanceStep ∧ f.distanceStep ≤ 9999 ∧ 1 ≤ f.timeStep ∧ f.timeStep ≤ 3600
        ∧ f.includedDistance ≤ 65535 then
      some
        { isDefined := true, name := f.name, flagFall := f.flagFall, stepAmount := f.stepAmount
          distanceStep := f.distanceStep, timeStep := f.timeStep
          includedDistance := f.includedDistance, mode := mode, sharePermitted := share
          manualSelectable := manual }
    else none
  | _, _, _ => none

/-- The record that a TARIFF_WRITE stores, none where a field is refused (R17). -/
def writtenTariff? (f : TariffFields) : Option Tariff :=
  match yesNo? f.isDefined with
  | some true => definedTariff? f
  | some false => some Tariff.blank
  | none => none

/-- Store a tariff record. -/
def storeTariff (i : Fin 8) (t : Tariff) (s : State) : State :=
  { s with fare := { s.fare with tariffs := s.fare.tariffs.set i t } }

/-- TARIFF_WRITE (R17); the sign follows a change of the calibrated condition (R127). -/
def takeTariffWrite (number : Nat) (f : TariffFields) (s : State) : Taken :=
  if !calibrationOpen s then refuse .calLocked s
  else
    match tariffIndex? number, writtenTariff? f with
    | some i, some t => (resign (countCalibration (storeTariff i t s)), .ok (tariffReply t))
    | _, _ => refuse .badValue s

/-- TARIFF_READ (R18). -/
def takeTariffRead (number : Nat) (s : State) : Taken :=
  match tariffIndex? number with
  | some i => report (tariffReply s.fare.tariffs[i]) s
  | none => refuse .badValue s

/-! ### Schedule (R29, R30, R34) -/

/-- The fields of a schedule entry in a reply. -/
def entryReply (e : ScheduleEntry) : List Field := [.u8 e.days.bits, .u16 e.startMinute, .u8 e.tariff]

/-- What a SCHEDULE_WRITE stores: unused entries hold the contents of R29 (R30). -/
def storedEntry (e : ScheduleEntry) : ScheduleEntry := if e.used then e else ScheduleEntry.unused

/-- SCHEDULE_WRITE (R30). -/
def takeScheduleWrite (entry days startMinute tariff : Nat) (s : State) : Taken :=
  if !calibrationOpen s then refuse .calLocked s
  else
    match index12? entry, weekdays? days with
    | some i, some d =>
      if 1440 ≤ startMinute ∨ 9 ≤ tariff then refuse .badValue s
      else
        let e := storedEntry ⟨d, startMinute, tariff⟩
        (countCalibration { s with fare := { s.fare with schedule := s.fare.schedule.set i e } },
          .ok (entryReply e))
    | _, _ => refuse .badValue s

/-- The number of an entry and its tariff, zeros where there is none. -/
def inForceReply (o : Option Numbered) : List Field :=
  match o with
  | some x => [.u8 x.number, .u8 x.entry.tariff]
  | none => [.u8 0, .u8 0]

/-- SCHEDULE_READ (R34). -/
def takeScheduleRead (s : State) : Taken :=
  report (s.fare.schedule.toList.flatMap entryReply ++ inForceReply (scheduled s s.clock.count)) s

/-! ### Extras kinds (R35, R36) -/

/-- The fields of an extras kind in a reply. -/
def kindReply (k : ExtraKind) : List Field :=
  [yesNo k.isDefined] ++ textField k.name ++ [.u32 k.amount, .u8 k.limit]

/-- The kind that an EXTRA_KIND_WRITE stores, none where a field is refused (R35). -/
def writtenKind? (isDefined : Nat) (name : Text) (amount limit : Nat) : Option ExtraKind :=
  match yesNo? isDefined with
  | some true =>
    if textWithin 12 name ∧ amount ≤ 99999 ∧ 1 ≤ limit ∧ limit ≤ 8 then some ⟨true, name, amount, limit⟩
    else none
  | some false => some ExtraKind.blank
  | none => none

/-- EXTRA_KIND_WRITE (R35). -/
def takeExtraKindWrite (number isDefined : Nat) (name : Text) (amount limit : Nat) (s : State) :
    Taken :=
  if !calibrationOpen s then refuse .calLocked s
  else
    match index12? number, writtenKind? isDefined name amount limit with
    | some i, some k =>
      (countCalibration { s with fare := { s.fare with kinds := s.fare.kinds.set i k } },
        .ok (kindReply k))
    | _, _ => refuse .badValue s

/-- EXTRA_KIND_READ (R36). -/
def takeExtraKindRead (number : Nat) (s : State) : Taken :=
  match index12? number with
  | some i => report (kindReply s.fare.kinds[i]) s
  | none => refuse .badValue s

/-- CAL_STATUS (R21). DESIGN CHOICE (log 17): the set of defined tariffs is one byte, bit 0 for tariff 1. -/
def takeCalStatus (s : State) : Taken :=
  report [yesNo (calibrated s), yesNo (s.odo.k != 0), yesNo (s.fare.tariff 1).isDefined,
    .u8 (bitsOf (s.fare.tariffs.toList.map Tariff.isDefined)), firstWhen s.pins.calen,
    yesNo (shiftOpen s), yesNo (calibrationOpen s), .u16 s.retained.calCount,
    .u32 s.retained.calStamp, yesNo s.clock.valid] s

/-! ### Legs in the state -/

/-- A leg context. -/
def State.leg (s : State) (i : Slot) : Leg := s.fare.legs.get i

/-- Replace a leg context. -/
def State.setLeg (s : State) (i : Slot) (l : Leg) : State :=
  { s with fare := { s.fare with legs := s.fare.legs.set l i } }

/-- A slot's part of the LEG_STATE payload. -/
def legStatePart (l : Leg) : List Field :=
  [.u8 l.state.ctorIdx, .u8 (SeatSet.bits l.seats), yesNo l.share]

/-- The payload of LEG_STATE (R59). -/
def legStatePayload (i : Slot) (e : FareEngine) : List Field :=
  .u8 i.number :: e.legs.toList.flatMap legStatePart

/-- Raise LEG_STATE for a slot. -/
def raiseLegState (i : Slot) (s : State) : State := raise .legState (legStatePayload i s.fare) s

/-- Raise LEG_STATE once, naming the lowest slot of those changed, where any changed (R59). -/
def raiseLegStates (changed : List Slot) (s : State) : State :=
  match changed with
  | i :: _ => raiseLegState i s
  | [] => s

/-- The payload of FARE_STEP (R58). -/
def fareStepPayload (e : FareEngine) : List Field :=
  e.legs.toList.flatMap (fun l => [.u8 l.state.ctorIdx, .u32 l.fare, .u32 l.extrasTotal])

/-- Raise FARE_STEP. -/
def raiseFareStep (s : State) : State := raise .fareStep (fareStepPayload s.fare) s

/-! ### Accrual and steps (R22 to R25) -/

/-- The fare cap. -/
def fareCap : Nat := 99999999

/-- The progress of one second (R23). -/
def progress (t : Tariff) (m : Nat) : Nat :=
  match t.mode with
  | .single => max (m * t.timeStep) t.distanceStep
  | .double => m * t.timeStep + t.distanceStep

/-- The progress a step is worth, D × T. -/
def Tariff.stepWorth (t : Tariff) : Nat := t.distanceStep * t.timeStep

/-- The steps that an accumulator has earned (R24). -/
def stepsDue (q : Int) (worth : Nat) : Nat := (q / (worth : Int)).toNat

/-- Apply a function to the last element of a list. -/
def onLast {α : Type} (g : α → α) : List α → List α
  | [] => []
  | [x] => [g x]
  | x :: y :: ys => x :: onLast g (y :: ys)

/-- What `n` steps raise a fare by, under the cap (R25). -/
def fareRise (fare n amount : Nat) : Nat := min (fareCap - fare) (n * amount)

/-- A leg accrued at a close under its current tariff (R23 to R25). -/
def Leg.accrue (l : Leg) (t : Tariff) (m : Nat) : Leg :=
  let q := l.q + progress t m
  let n := stepsDue q t.stepWorth
  let rise := fareRise l.fare n t.stepAmount
  { l with
    q := q - n * t.stepWorth
    fare := l.fare + rise
    seconds := addU32 l.seconds 1
    metres := addU32 l.metres m
    capped := l.capped || l.fare + rise == fareCap
    segments := onLast
      (fun g => { g with metres := addU32 g.metres m, seconds := addU32 g.seconds 1, fare := g.fare + rise })
      l.segments }

/-- A leg accrued where its state is HIRED or STOPPING (R23). -/
def FareEngine.accrueLeg (e : FareEngine) (m : Nat) (l : Leg) : Leg :=
  if l.runs then l.accrue (e.tariff l.tariff) m else l

/-- Every leg accrued. -/
def FareEngine.accrueAll (e : FareEngine) (m : Nat) : FareEngine :=
  { e with legs := e.legs.map (e.accrueLeg m) }

/-- Raise FARE_CAP for a leg that reached the cap at this close (R25). -/
def raiseCap (before : FareEngine) (i : Slot) (s : State) : State :=
  raiseIf ((s.leg i).capped && !(before.legs.get i).capped) .fareCap
    [.u8 i.number, .u32 (s.leg i).fare] s

/-- The fare of some leg differs. -/
def faresDiffer (a b : FareEngine) : Bool :=
  Slot.all.any (fun i => (a.legs.get i).fare != (b.legs.get i).fare)

/-- A STOPPING leg becomes STOPPED (R45). -/
def Leg.halt (count : Nat) (l : Leg) : Leg :=
  if l.state = .stopping then { l with state := .stopped, stopTime := some count } else l

/-- The slots in a state. -/
def FareEngine.slotsIn (e : FareEngine) (x : LegState) : List Slot :=
  Slot.all.filter (fun i => (e.legs.get i).state == x)

/-- The fare engine's part of an interval close: every running leg accrues and takes its steps,
FARE_STEP follows where a fare changed, then STOPPING legs become STOPPED (R23 to R25, R45, R58). DESIGN
CHOICE (log 43): FARE_CAP is raised in slot order 1 to 4, so that the highest slot's stays queued. -/
def closeFares (m : Nat) (s : State) : State :=
  let before := s.fare
  let s1 := { s with fare := before.accrueAll m }
  let s2 := raiseCap before .s4 (raiseCap before .s3 (raiseCap before .s2 (raiseCap before .s1 s1)))
  let s3 := if faresDiffer before s2.fare then raiseFareStep s2 else s2
  raiseLegStates (before.slotsIn .stopping)
    { s3 with fare := { s3.fare with legs := s3.fare.legs.map (Leg.halt s.clock.count) } }

/-- The interval close (R5 to R7, R103): the interval is taken, the fares accrue, the shift and the
totals add, and the motion state is judged. -/
def closeInterval (s : State) : State :=
  let c := closingCount s
  let m := clampMetres c
  let hired := anyRuns s
  closeOdometry m hired (addTotals (Totals.addInterval m hired) (closeFares m (takeInterval c s)))

/-! ### Tariff change (R26 to R28, R49) -/

/-- `a / b` rounded up. -/
def ceilDiv (a b : Nat) : Nat := (a + b - 1) / b

/-- The carry of Q from an old tariff to a new one (R26). -/
def carry (old new : Tariff) (q : Int) : Int :=
  if q < 0 then -((min (ceilDiv (-q).toNat old.timeStep) new.includedDistance * new.timeStep : Nat) : Int)
  else ((q.toNat * new.distanceStep * new.timeStep / old.stepWorth : Nat) : Int)

/-- The segment list after a change of tariff (R49). -/
def openSegment (n : Nat) (gs : List Segment) : List Segment :=
  if gs.length < 4 then gs ++ [⟨n, 0, 0, 0⟩] else onLast (fun g => { g with tariff := 0 }) gs

/-- A change is applied to a leg (R26, R27). -/
def Leg.changeTariff (l : Leg) (old new : Tariff) (n : Nat) : Leg :=
  { l with q := carry old new l.q, tariff := n, segments := openSegment n l.segments }

/-- A change is not applied to a leg (R28). -/
def changeBarred (l : Leg) (t : Tariff) (n : Nat) : Bool :=
  n == l.tariff || !t.isDefined || (l.share && !t.sharePermitted)

/-- Apply a tariff change to a leg (R26 to R28). -/
def changeTariff (i : Slot) (n : Nat) (s : State) : State :=
  let l := s.leg i
  let t := s.fare.tariff n
  if changeBarred l t n then s
  else
    askTone .tariffBeep (raise .tariffChanged [.u8 i.number, .u8 l.tariff, .u8 n]
      (s.setLeg i (l.changeTariff (s.fare.tariff l.tariff) t n)))

/-- A leg takes the schedule's changes at a minute boundary (R32). -/
def Leg.follows (l : Leg) : Bool := l.selection == .scheduled && l.runs

/-- The scheduled change of one leg at a minute boundary. -/
def changeIfFollows (n : Nat) (s : State) (i : Slot) : State :=
  if (s.leg i).follows then changeTariff i n s else s

/-- A minute boundary whose minute begins at `count` (R32). DESIGN CHOICE (log 43): legs that change at
once do so in slot order 1 to 4, so that the highest slot's TARIFF_CHANGED stays queued. -/
def boundaryAt (count : Nat) (s : State) : State :=
  match scheduled s count with
  | some x => Slot.all.foldl (changeIfFollows x.entry.tariff) s
  | none => s

/-- A leg returned to HIRED from STOPPED is brought up to the schedule (R33). -/
def catchUp (i : Slot) (s : State) : State :=
  if (s.leg i).selection = .scheduled then
    match scheduled s s.clock.count with
    | some x => changeTariff i x.entry.tariff s
    | none => s
  else s

end Sys2Proof.Machine
end

