-- ==== Sys2Proof/Machine/Legs.lean ====
section
/-!
DEFINITION. The leg table and seat map: the leg requests, a void, and the settlement unit's lock,
unlock and release (chapter Legs and Seats, R38 to R59).
-/

namespace Sys2Proof.Machine

/-! ### Starting (R41 to R43) -/

/-- The lowest-numbered FREE slot. -/
def freeSlot (s : State) : Option Slot := Slot.all.find? (fun i => (s.leg i).state == .free)

/-- Whether a seat set holds a seat that the seat map gives to some slot. -/
def seatTaken (seats : SeatSet) (s : State) : Bool :=
  allSeats.any (fun x => seats.get x && (s.fare.seatMap.get x).isSome)

/-- The scheduled tariff at a start: the entry in force where its tariff is defined, else tariff 1
(R33). -/
def scheduledTariff (s : State) : Nat :=
  match scheduled s s.clock.count with
  | some x => if (s.fare.tariff x.entry.tariff).isDefined then x.entry.tariff else 1
  | none => 1

/-- The starting tariff of a choice. -/
def startingTariff (s : State) : TariffChoice → Nat
  | .scheduled => scheduledTariff s
  | .named i => i.val + 1

/-- The tariff selection of a choice. -/
def TariffChoice.selection : TariffChoice → Selection
  | .scheduled => .scheduled
  | .named _ => .fixed

/-- A named tariff that is undefined. -/
def namesUndefined (s : State) : TariffChoice → Bool
  | .scheduled => false
  | .named i => !(s.fare.tariffs[i]).isDefined

/-- A share conflict (R41). -/
def shareConflict (share : Bool) (t : Tariff) (s : State) : Bool :=
  if share then
    !s.settle.sharing || s.fare.legs.toList.any (fun l => l.active && !l.share) || !t.sharePermitted
  else !allFree s

/-- The context of a starting leg (R22, R43). -/
def startedLeg (t : Tariff) (n : Nat) (c : TariffChoice) (seats : SeatSet) (share : Bool)
    (count : Nat) : Leg where
  state       := .hired
  selection   := c.selection
  tariff      := n
  flagFall    := t.flagFall
  q           := -((t.includedDistance * t.timeStep : Nat) : Int)
  fare        := t.flagFall
  seconds     := 0
  metres      := 0
  startTime   := count
  stopTime    := none
  seats       := seats
  share       := share
  capped      := false
  powerGap    := false
  paymentId   := none
  extras      := []
  extrasTotal := 0
  segments    := [⟨n, 0, 0, t.flagFall⟩]

/-- Enter the seats of a set against a slot (R39). -/
def enterSeats (seats : SeatSet) (i : Slot) (m : PerSeat (Option Slot)) : PerSeat (Option Slot) where
  f := if seats.f then some i else m.f
  l := if seats.l then some i else m.l
  c := if seats.c then some i else m.c
  r := if seats.r then some i else m.r

/-- The effects of a taken LEG_START (R43). -/
def startsLeg (i : Slot) (l : Leg) (s : State) : State :=
  resignToAuto (askTone .fareStart (raiseLegState i
    { s with fare := { s.fare with
        legs := s.fare.legs.set l i
        seatMap := enterSeats l.seats i s.fare.seatMap } }))

/-- LEG_START (R42). -/
def takeLegStart (seats tariff consent : Nat) (s : State) : Taken :=
  match seatSet? seats, tariffChoice? tariff, yesNo? consent with
  | some set, some c, some share =>
    if seats = 0 then refuse .badValue s
    else if !calibrated s then refuse .uncalibrated s
    else if !shiftOpen s then refuse .noShift s
    else
      match freeSlot s with
      | none => refuse .noSlot s
      | some i =>
        let n := startingTariff s c
        let t := s.fare.tariff n
        if seatTaken set s then refuse .seatTaken s
        else if namesUndefined s c then refuse .badValue s
        else if shareConflict share t s then refuse .wrongState s
        else if s.journal.room < activeLegs s + 1 then refuse .journalFull s
        else
          (startsLeg i (startedLeg t n c set share s.clock.count) s,
            .ok [.u8 i.number, .u8 n, .u8 c.selection.ctorIdx, .u32 t.flagFall])
  | _, _, _ => refuse .badValue s

/-! ### Stopping and resuming (R44, R46) -/

/-- LEG_STOP (R44). -/
def takeLegStop (slot : Nat) (s : State) : Taken :=
  match slot? slot with
  | none => refuse .badValue s
  | some i =>
    match (s.leg i).state with
    | .paying => refuse .legLocked s
    | .hired =>
      (raiseLegState i (s.setLeg i { s.leg i with state := .stopping }),
        .ok [.u8 LegState.stopping.ctorIdx])
    | .free | .stopping | .stopped => refuse .wrongState s

/-- The answer of a taken LEG_RESUME. -/
def resumed (i : Slot) (s : State) : Taken :=
  (s, .ok [.u8 LegState.hired.ctorIdx, .u8 (s.leg i).tariff])

/-- LEG_RESUME (R46). -/
def takeLegResume (slot : Nat) (s : State) : Taken :=
  match slot? slot with
  | none => refuse .badValue s
  | some i =>
    match (s.leg i).state with
    | .paying => refuse .legLocked s
    | .free | .hired => refuse .wrongState s
    | .stopping => resumed i (raiseLegState i (s.setLeg i { s.leg i with state := .hired }))
    | .stopped =>
      resumed i (catchUp i
        (raiseLegState i (s.setLeg i { s.leg i with state := .hired, stopTime := none })))

/-! ### Freeing legs (R38, R39) -/

/-- The seat map with every seat of a slot set to none. -/
def freeSeats (i : Slot) (m : PerSeat (Option Slot)) : PerSeat (Option Slot) :=
  let keep (o : Option Slot) : Option Slot := if o = some i then none else o
  ⟨keep m.f, keep m.l, keep m.c, keep m.r⟩

/-- A leg becomes FREE and its seats are freed. -/
def FareEngine.freeLeg (e : FareEngine) (i : Slot) : FareEngine :=
  { e with legs := e.legs.set Leg.blank i, seatMap := freeSeats i e.seatMap }

/-! ### Voiding (R47, R81) -/

/-- The trip record contents of a leg (R80, R81). -/
def tripOf (i : Slot) (l : Leg) (shiftNumber endTime : Nat) (t : TripTender) : Trip where
  shiftNumber := shiftNumber
  slot        := i
  seats       := l.seats
  startTime   := l.startTime
  endTime     := endTime
  seconds     := l.seconds
  metres      := l.metres
  fare        := l.fare
  extrasTotal := l.extrasTotal
  tender      := t
  segments    := l.segments
  extras      := l.extras
  powerGap    := l.powerGap

/-- The VOID record of a leg: its extras list is empty and its extras total 0 (R81, Table 7-1). -/
def voidTrip (i : Slot) (s : State) : Trip :=
  let l := s.leg i
  tripOf i { l with extras := [], extrasTotal := 0 } s.shifts.record.number
    (l.stopTime.getD s.clock.count) .void

/-- The effects of a taken LEG_VOID. -/
def voidsLeg (i : Slot) (s : State) : State :=
  let s1 := addTotals Totals.addVoid (placeRecord (voidTrip i s) s)
  resign (raiseLegState i { s1 with fare := s1.fare.freeLeg i })

/-- A leg may be voided: its fare is the flag fall charged and it holds no extras. -/
def Leg.voidable (l : Leg) : Bool := l.fare == l.flagFall && l.extras.isEmpty

/-- LEG_VOID (R47). -/
def takeLegVoid (slot : Nat) (s : State) : Taken :=
  match slot? slot with
  | none => refuse .badValue s
  | some i =>
    match (s.leg i).state with
    | .paying => refuse .legLocked s
    | .free | .stopping => refuse .wrongState s
    | .hired | .stopped =>
      if (s.leg i).voidable then (voidsLeg i s, .ok [.u32 s.journal.next])
      else refuse .wrongState s

/-! ### Manual tariff change (R48) -/

/-- The effects of a taken LEG_TARIFF. -/
def fixesTariff (i : Slot) (n : Nat) (s : State) : State :=
  changeTariff i n (s.setLeg i { s.leg i with selection := .fixed })

/-- LEG_TARIFF (R48). -/
def takeLegTariff (slot tariff : Nat) (s : State) : Taken :=
  match slot? slot, tariffIndex? tariff with
  | some i, some k =>
    let t := s.fare.tariffs[k]
    match (s.leg i).state with
    | .paying => refuse .legLocked s
    | .hired =>
      if !t.isDefined || !t.manualSelectable then refuse .badValue s
      else if (s.leg i).share && !t.sharePermitted then refuse .wrongState s
      else
        let s' := fixesTariff i tariff s
        (s', .ok [.u8 (s'.leg i).tariff, .u8 (s'.leg i).selection.ctorIdx, .i32 (s'.leg i).q])
    | .free | .stopping | .stopped => refuse .wrongState s
  | _, _ => refuse .badValue s

/-! ### Extras (R50, R51) -/

/-- The ceiling of a leg's extras total. -/
def extrasCeiling : Nat := 999999

/-- The amount asked for an item of a kind (R36): the kind's fixed amount, or that of the request
where it lies in 1 to 99999. -/
def askedAmount? (k : ExtraKind) (amount : Nat) : Option Nat :=
  if !k.isDefined then none
  else if k.amount ≠ 0 then some k.amount
  else if 1 ≤ amount ∧ amount ≤ 99999 then some amount
  else none

/-- The leg can take no further item of a kind. -/
def Leg.listFull (l : Leg) (kind limit : Nat) : Bool :=
  8 ≤ l.extras.length || limit ≤ (l.extras.filter (fun e => e.kind == kind)).length

/-- An item appended to a leg. -/
def Leg.addExtra (l : Leg) (kind amount : Nat) : Leg :=
  { l with extras := l.extras ++ [⟨kind, amount⟩], extrasTotal := l.extrasTotal + amount }

/-- LEG_EXTRA_ADD on an active leg, after its first three tests. -/
def addExtra (i : Slot) (k : ExtraKind) (kind amount : Nat) (s : State) : Taken :=
  let l := s.leg i
  match askedAmount? k amount with
  | none => refuse .badValue s
  | some asked =>
    if l.listFull kind k.limit then refuse .wrongState s
    else if extrasCeiling ≤ l.extrasTotal then refuse .wrongState s
    else
      let used := min asked (extrasCeiling - l.extrasTotal)
      let l' := l.addExtra kind used
      (raiseFareStep (s.setLeg i l'),
        .okOr (used != asked) [.u32 used, .u8 l'.extras.length, .u32 l'.extrasTotal])

/-- LEG_EXTRA_ADD (R50). -/
def takeLegExtraAdd (slot kind amount : Nat) (s : State) : Taken :=
  match slot? slot, index12? kind with
  | some i, some k =>
    match (s.leg i).state with
    | .paying => refuse .legLocked s
    | .free => refuse .wrongState s
    | .hired | .stopping | .stopped => addExtra i s.fare.kinds[k] kind amount s
  | _, _ => refuse .badValue s

/-- The last item removed from a leg. -/
def Leg.dropExtra (l : Leg) (e : Extra) : Leg :=
  { l with extras := l.extras.dropLast, extrasTotal := l.extrasTotal - e.amount }

/-- LEG_EXTRA_REMOVE on an active leg. -/
def removeExtra (i : Slot) (s : State) : Taken :=
  match (s.leg i).extras.getLast? with
  | none => refuse .notFound s
  | some e =>
    let l' := (s.leg i).dropExtra e
    (raiseFareStep (s.setLeg i l'),
      .ok [.u8 e.kind, .u32 e.amount, .u8 l'.extras.length, .u32 l'.extrasTotal])

/-- LEG_EXTRA_REMOVE (R51). -/
def takeLegExtraRemove (slot : Nat) (s : State) : Taken :=
  match slot? slot with
  | none => refuse .badValue s
  | some i =>
    match (s.leg i).state with
    | .paying => refuse .legLocked s
    | .free => refuse .wrongState s
    | .hired | .stopping | .stopped => removeExtra i s

/-! ### Reading and sharing (R40, R52) -/

/-- The leg record body of Table 12-5. -/
def legFields (i : Slot) (l : Leg) : List Field :=
  [.u8 i.number, .u8 l.state.ctorIdx, .u8 l.selection.ctorIdx, .u8 l.tariff,
   .u8 (bitsOf [l.share, l.capped, l.powerGap, l.stopTime.isSome, l.paymentId.isSome]),
   .u8 (SeatSet.bits l.seats), .u32 l.flagFall, .i32 l.q, .u32 l.fare, .u32 l.seconds, .u32 l.metres,
   .u32 l.startTime, .u32 (l.stopTime.getD 0), .u16 (l.paymentId.getD 0), .u32 l.extrasTotal,
   .u8 l.segments.length, .u8 l.extras.length]
  ++ l.segments.flatMap segmentFields ++ l.extras.flatMap extraFields

/-- LEG_READ (R52). -/
def takeLegRead (slot : Nat) (s : State) : Taken :=
  match slot? slot with
  | some i => report (legFields i (s.leg i)) s
  | none => refuse .badValue s

/-- SHARE_SET (R40); the sign follows the setting (R127). -/
def takeShareSet (enabled : Nat) (s : State) : Taken :=
  match yesNo? enabled with
  | some b => (resign { s with settle := { s.settle with sharing := b } }, .ok [yesNo b])
  | none => refuse .badValue s

/-! ### The payment interface (R53 to R55) -/

/-- Lock legs with a payment id (R53). -/
def lockLegs (p : Nat) (slots : List Slot) (s : State) : State :=
  let lock (e : FareEngine) (i : Slot) : FareEngine :=
    { e with legs := e.legs.set { e.legs.get i with state := .paying, paymentId := some p } i }
  raiseLegStates slots { s with fare := slots.foldl lock s.fare }

/-- A leg is PAYING with a payment id. -/
def Leg.paysUnder (p : Nat) (l : Leg) : Bool := l.state == .paying && l.paymentId == some p

/-- The slots PAYING with a payment id. -/
def FareEngine.slotsPaying (e : FareEngine) (p : Nat) : List Slot :=
  Slot.all.filter (fun i => (e.legs.get i).paysUnder p)

/-- A leg returned to STOPPED by an unlock. -/
def Leg.unlock (p : Nat) (l : Leg) : Leg :=
  if l.paysUnder p then { l with state := .stopped, paymentId := none } else l

/-- The legs returned to STOPPED by an unlock. -/
def FareEngine.unlock (e : FareEngine) (p : Nat) : FareEngine := { e with legs := e.legs.map (Leg.unlock p) }

/-- An unlock request (R54). -/
def unlockLegs (p : Nat) (s : State) : State :=
  raiseLegStates (s.fare.slotsPaying p) { s with fare := s.fare.unlock p }

/-- A release request (R55): the legs become FREE, LEG_STATE is raised, and the sign follows. -/
def releaseLegs (p : Nat) (s : State) : State :=
  let slots := s.fare.slotsPaying p
  resign (raiseLegStates slots { s with fare := slots.foldl FareEngine.freeLeg s.fare })

/-! ### Restart (R56) -/

/-- A leg restored at a restart with valid memory. -/
def Leg.restored (stopTime : Nat) (l : Leg) : Leg :=
  if l.runs then { l with state := .stopped, powerGap := true, stopTime := some stopTime } else l

/-- The leg table restored at a restart with valid memory. -/
def FareEngine.restored (e : FareEngine) (stopTime : Nat) : FareEngine :=
  { e with legs := e.legs.map (Leg.restored stopTime) }

end Sys2Proof.Machine
end

