-- ==== Sys2Proof/Machine/TenderLink.lean ====
section
/-!
DEFINITION. The tender link: the check byte, the receive ring and frame reader, the transmit queue
and the terminal status (chapter Payment Terminal Link, R86 to R99).
-/

namespace Sys2Proof.Machine

/-! ### The check byte (R87) -/

/-- One shift of the CRC-8 register, feedback 0x07. -/
def crc8Shift (r : Byte) : Byte := if r.msb then (r <<< 1) ^^^ 0x07#8 else r <<< 1

/-- A covered byte is combined into the register. -/
def crc8Byte (r b : Byte) : Byte :=
  crc8Shift (crc8Shift (crc8Shift (crc8Shift (crc8Shift (crc8Shift (crc8Shift (crc8Shift (r ^^^ b))))))))

/-- The check byte over the covered bytes. -/
def crc8 (bs : List Byte) : Byte := bs.foldl crc8Byte 0

/-! ### Messages as bytes (Tables 5-3, 12-2, 12-3) -/

/-- The kind byte of a message to the terminal. -/
def PartMsg.kind : PartMsg → Byte
  | .sale _ _ _ => 0x01
  | .abort _ => 0x02
  | .reverse _ _ => 0x03
  | .statusAsk _ => 0x04

/-- The body of a message to the terminal. -/
def PartMsg.body : PartMsg → List Byte
  | .sale r amount currency => (refFields r).flatMap Field.bytes ++ bytesOf 4 amount ++ currency
  | .abort r => (refFields r).flatMap Field.bytes
  | .reverse r amount => (refFields r).flatMap Field.bytes ++ bytesOf 4 amount
  | .statusAsk n => bytesOf 1 n

/-- A tender link frame: start byte, length, kind, body and check byte. -/
def tenderFrame (kind : Byte) (body : List Byte) : List Byte :=
  let covered := BitVec.ofNat 8 (body.length + 1) :: kind :: body
  0x3C#8 :: covered ++ [crc8 covered]

/-- The bytes sent for a message (R92). -/
def PartMsg.frame (m : PartMsg) : List Byte := tenderFrame m.kind m.body

/-- The reference of a body: a payment id of 1 or more and an attempt 1 to 3 (R91). -/
def ref? : List Byte → Option Ref
  | [a, b, c] =>
    let r : Ref := ⟨numberOf [a, b], c.toNat⟩
    if 1 ≤ r.payment ∧ 1 ≤ r.attempt ∧ r.attempt ≤ 3 then some r else none
  | _ => none

/-- A stage byte. -/
def stage? (b : Byte) : Option Stage :=
  if b = 1 then some .cardSeen else if b = 2 then some .pinEntry
  else if b = 3 then some .online else none

/-- A readiness byte. -/
def readiness? (b : Byte) : Option Readiness :=
  if b = 0 then some .ready else if b = 1 then some .busy else none

/-- An auth code: 1 to 8 printable characters. -/
def authCodeFits (t : Text) : Bool := 1 ≤ t.length && textWithin 8 t

/-- The body of a T_PROGRESS. -/
def progress? (body : List Byte) : Option TermMsg :=
  match body.drop 3, ref? (body.take 3) with
  | [b], some r => (stage? b).map (TermMsg.progress r)
  | _, _ => none

/-- The body of a T_APPROVED. -/
def approved? (body : List Byte) : Option TermMsg :=
  match ref? (body.take 3) with
  | some r =>
    if 7 ≤ body.length ∧ authCodeFits (body.drop 7) = true then
      some (.approved r (numberOf ((body.drop 3).take 4)) (body.drop 7))
    else none
  | none => none

/-- The body of a T_DECLINED. -/
def declined? (body : List Byte) : Option TermMsg :=
  match body.drop 3, ref? (body.take 3) with
  | [b], some r => if b = 0 then none else some (.declined r b.toNat)
  | _, _ => none

/-- The body of a T_STATUS. -/
def status? : List Byte → Option TermMsg
  | [b, n] => (readiness? b).map (fun x => TermMsg.status x n.toNat)
  | _ => none

/-- The message of a sound frame, none where it is malformed (R91). -/
def termMsg? (kind : Byte) (body : List Byte) : Option TermMsg :=
  if kind = 0x11 then progress? body
  else if kind = 0x12 then approved? body
  else if kind = 0x13 then declined? body
  else if kind = 0x14 then (ref? body).map .aborted
  else if kind = 0x15 then (ref? body).map .reversed
  else if kind = 0x16 then status? body
  else none

/-! ### The notice (R98) -/

/-- The readiness as a code: UNKNOWN, READY, BUSY. -/
def readinessCode : Option Readiness → Nat
  | none => 0
  | some .ready => 1
  | some .busy => 2

/-- The payload of TERMINAL_LINK. DESIGN CHOICE (log 17): R98 lists no values for its overflow and stalled flags,
which are 1 when set, while TERMINAL_STATUS codes the same conditions in the order of Table 5-5, latched 0 and
clear 1. -/
def terminalPayload (t : TenderLink) : List Field :=
  [firstWhen t.up, .u8 (readinessCode t.readiness), yesNo t.overflow, yesNo t.stalled]

/-- Set the tender link, and raise TERMINAL_LINK where a condition holds. -/
def setTender (changed : Bool) (t : TenderLink) (s : State) : State :=
  raiseIf changed .terminalLink (terminalPayload t) { s with tender := t }

/-! ### Transmit queue (R92 to R94) -/

/-- A frame is discarded from the queue's side: the count and TX_STALLED (R92, R94). -/
def TenderLink.discardTx (t : TenderLink) : TenderLink :=
  { t with txDiscards := incU16 t.txDiscards, stalled := true }

/-- How many bytes the frame at the head has; 0 where the queue is empty. -/
def TenderLink.headLength (t : TenderLink) : Nat :=
  match t.queue with
  | [] => 0
  | m :: _ => m.frame.length

/-- The next bytes of the head frame are started, as far as it has them (R93). -/
def TenderLink.starts (n : Nat) (t : TenderLink) : TenderLink :=
  { t with headStarted := min t.headLength (t.headStarted + n) }

/-- The frame at the head starts its send timer, and its first byte where TL_CTS is asserted (R93,
R94, log 24). -/
def TenderLink.newHead (t : TenderLink) (cts : Bool) : TenderLink :=
  if t.queue.isEmpty then { t with headStarted := 0, sendLeft := 0 }
  else { t with headStarted := if cts then 1 else 0, sendLeft := 200 }

/-- A waiting T_STATUS_ASK takes a new ask number (R92); none where no ask waits. -/
def newAsk (n : Nat) : List PartMsg → Option (List PartMsg)
  | [] => none
  | .statusAsk _ :: ms => some (.statusAsk n :: ms)
  | m :: ms => (newAsk n ms).map (m :: ·)

/-- Merge an ask with one that waits and has not been begun (R92). -/
def TenderLink.mergeAsk (t : TenderLink) (n : Nat) : Option (List PartMsg) :=
  match t.queue with
  | [] => none
  | m :: ms => if 0 < t.headStarted then (newAsk n ms).map (m :: ·) else newAsk n (m :: ms)

/-- The queue an ask merges into, where the message given is one and another waits. -/
def TenderLink.merged (t : TenderLink) : PartMsg → Option (List PartMsg)
  | .statusAsk n => t.mergeAsk n
  | .sale _ _ _ | .abort _ | .reverse _ _ => none

/-- A frame given to the transmit queue (R92): the link after it, and whether TX_STALLED latched. -/
def TenderLink.give (t : TenderLink) (cts : Bool) (m : PartMsg) : TenderLink × Bool :=
  match t.merged m with
  | some q => ({ t with queue := q }, false)
  | none =>
    if 8 ≤ t.queue.length then (t.discardTx, !t.stalled)
    else
      let t' := { t with queue := t.queue ++ [m] }
      (if t.queue.isEmpty then t'.newHead cts else t', false)

/-- Give a frame to the tender link. -/
def sendFrame (m : PartMsg) (s : State) : State :=
  let g := s.tender.give s.pins.cts m
  setTender g.2 g.1 s

/-- The head frame leaves the queue. -/
def TenderLink.dropHead (t : TenderLink) (cts : Bool) : TenderLink :=
  { t with queue := t.queue.drop 1 }.newHead cts

/-- The head frame's check byte can have been sent: it has been started, and a byte started is finished
(R86), or the head is begun and TL_CTS lets its other bytes go (R93). -/
def TenderLink.maySend (t : TenderLink) (cts : Bool) : Bool :=
  0 < t.headStarted && (cts || t.headStarted == t.headLength)

/-- The head frame's check byte has been sent (R92). While TL_CTS makes a byte of it wait it has not. -/
def frameSent (s : State) : State :=
  if s.tender.maySend s.pins.cts then { s with tender := s.tender.dropHead s.pins.cts } else s

/-- TL_FRAME_SENT: the head frame has been sent whole. -/
def execTlFrameSent (s : State) : Res := .next (whileRunning frameSent s)

/-- The head frame's send timer expires (R94). -/
def sendTimerExpires (s : State) : State :=
  if s.tender.queue.isEmpty then s
  else setTender (!s.tender.stalled) (s.tender.discardTx.dropHead s.pins.cts) s

/-- SEND_TIMER_EXPIRY: the head frame is discarded. -/
def execSendTimerExpiry (s : State) : Res := .next (whileRunning sendTimerExpires s)

/-- TL_CTS becomes asserted: sending goes on from the byte that waits, which is started (R93). TL_CTS
becomes deasserted: the next byte waits. -/
def TenderLink.ctsChanges (was level : Bool) (t : TenderLink) : TenderLink :=
  if level && !was then t.starts 1 else t

/-- TL_CTS_CHANGE: the terminal's permission to send changes (R93). -/
def execTlCtsChange (level : Bool) (s : State) : Res :=
  .next (whileRunning (fun t => { t with tender := t.tender.ctsChanges s.pins.cts level })
    { s with pins := { s.pins with cts := level } })

/-! ### Receive ring (R88 to R90) -/

/-- The byte that arrives now carries a break mark: at least 60 ms on the 10 ms base since the last
arrival, or a byte dropped since (R88). While commands wait the model takes no base step, and a gap that
passed in that time is told by the row (log 4). -/
def TenderLink.breakMark (t : TenderLink) (afterGap : Bool) : Bool :=
  t.sinceByte.any (fun n => 6 ≤ n || afterGap) || t.dropSince

/-- A byte enters the ring with its break mark; the fill at 192 deasserts TL_RTS (R88, R89). -/
def TenderLink.enter (t : TenderLink) (b : Byte) (afterGap : Bool) : TenderLink :=
  let ring := t.ring ++ [⟨b, t.breakMark afterGap⟩]
  { t with
    ring := ring
    rts := if ring.length = 192 then false else t.rts
    sinceByte := some 0
    dropSince := false }

/-- A byte is dropped at a full ring (R90). -/
def TenderLink.dropByte (t : TenderLink) : TenderLink :=
  { t with
    droppedBytes := incU16 t.droppedBytes, dropSince := true, sinceByte := some 0
    overflow := true }

/-- A byte arrives on TL_RX. -/
def byteArrives (b : Byte) (afterGap : Bool) (s : State) : State :=
  if 256 ≤ s.tender.ring.length then setTender (!s.tender.overflow) s.tender.dropByte s
  else { s with tender := s.tender.enter b afterGap }

/-- TL_BYTE_ARRIVAL: a byte arrives; the operand tells of a gap that no base step has counted (log 4). -/
def execTlByteArrival (b : Byte) (afterGap : Bool) (s : State) : Res :=
  .next (whileRunning (byteArrives b afterGap) s)

/-! ### Terminal status (R95, R96) -/

/-- A valid or malformed frame has been completed (R95). -/
def TenderLink.alive (t : TenderLink) : TenderLink :=
  { t with unanswered := 0, answered := true, up := true, sinceFrame := some 0 }

/-- The effect of a completed frame on the terminal status. -/
def frameAlive (s : State) : State := setTender (!s.tender.up) s.tender.alive s

/-- A valid T_STATUS is taken (R96). -/
def takesStatus (x : Readiness) (n : Nat) (s : State) : State :=
  setTender (s.tender.readiness != some x)
    { s.tender with readiness := some x, lastAnswered := some n } s

/-- The settlement unit has taken the message handed on to it. -/
def TenderLink.handedOver (t : TenderLink) (m : TermMsg) : TenderLink :=
  if t.handedOn = some m then { t with handedOn := none } else t

/-- T_STATUS: the terminal's report, with its effect on the terminal status (R91, R95, R96). -/
def execTStatus (x : Readiness) (n : Nat) (s : State) : Res :=
  .next (whileRunning (fun t => takesStatus x n (frameAlive t)) s)

/-! ### Frame reader (R88, R91) -/

/-- A byte at a hunting reader. -/
def TenderLink.hunt (t : TenderLink) (b : Byte) : TenderLink :=
  if b = 0x3C#8 then { t with reader := .assembling [] }
  else { t with reader := .hunting, discardedBytes := incU16 t.discardedBytes }

/-- A sound frame: it shows life, and is handed on, taken (T_STATUS) or counted as malformed. -/
def frameComplete (kind : Byte) (body : List Byte) (s : State) : State :=
  let s := frameAlive s
  match termMsg? kind body with
  | some (.status x n) => takesStatus x n s
  | some m => { s with tender := { s.tender with handedOn := some m } }
  | none => { s with tender := { s.tender with malformed := incU16 s.tender.malformed } }

/-- The last byte of a frame has been taken: `taken` holds length, kind, body and check byte. -/
def checkFrame (taken : List Byte) (s : State) : State :=
  let s := { s with tender := { s.tender with reader := .hunting } }
  let covered := taken.dropLast
  if taken.getLast? = some (crc8 covered) then frameComplete (covered.getD 1 0) (covered.drop 2) s
  else { s with tender := { s.tender with crcDiscards := incU16 s.tender.crcDiscards } }

/-- A byte at an assembling reader, without a break mark. -/
def assembleByte (taken : List Byte) (b : Byte) (s : State) : State :=
  match taken with
  | [] =>
    if 2 ≤ b.toNat ∧ b.toNat ≤ 64 then { s with tender := { s.tender with reader := .assembling [b] } }
    else
      { s with tender := { s.tender with
          reader := .hunting, lengthDiscards := incU16 s.tender.lengthDiscards } }
  | n :: _ =>
    if taken.length < n.toNat + 1 then
      { s with tender := { s.tender with reader := .assembling (taken ++ [b]) } }
    else checkFrame (taken ++ [b]) s

/-- The reader treats a byte it has taken. -/
def readByte (b : RingByte) (s : State) : State :=
  match s.tender.reader with
  | .hunting => { s with tender := s.tender.hunt b.byte }
  | .assembling taken =>
    if b.broken then
      { s with tender := { s.tender with gapDiscards := incU16 s.tender.gapDiscards }.hunt b.byte }
    else assembleByte taken b.byte s

/-- The reader takes the oldest byte; the fill at 64 asserts TL_RTS (R89). While a message is handed
on and not yet taken it takes none. -/
def readerTakes (s : State) : State :=
  match s.tender.handedOn, s.tender.ring with
  | none, b :: bs =>
    readByte b { s with tender := { s.tender with
        ring := bs, rts := if bs.length = 64 then true else s.tender.rts } }
  | _, _ => s

/-- FRAME_READER_TAKE: the frame reader takes the oldest ring byte. -/
def execFrameReaderTake (s : State) : Res := .next (whileRunning readerTakes s)

/-! ### Heartbeat (R95) -/

/-- The unanswered-ask count of a period that ends. -/
def TenderLink.judged (t : TenderLink) : Nat :=
  if t.answered then t.unanswered else satAdd 3 t.unanswered 1

/-- The terminal falls to DOWN at this heartbeat expiry. -/
def TenderLink.falls (t : TenderLink) : Bool := !t.answered && t.judged == 3 && t.up

/-- The period ends and the next begins, with the next ask number. -/
def TenderLink.beat (t : TenderLink) : TenderLink :=
  { t with
    unanswered := t.judged
    up := t.up && !t.falls
    answered := false
    heartbeat := 1000
    askNumber := (t.askNumber + 1) % 256 }

/-- A heartbeat expiry. -/
def heartbeatExpires (s : State) : State :=
  let t := s.tender.beat
  sendFrame (.statusAsk t.askNumber) (setTender s.tender.falls t s)

/-- HEARTBEAT_EXPIRY: the period is judged and the terminal asked. -/
def execHeartbeatExpiry (s : State) : Res := .next (whileRunning heartbeatExpires s)

/-! ### Readout (R97) -/

/-- Seconds since the last valid or malformed frame: whole seconds of base steps, rounded down
(log 45). -/
def TenderLink.secondsSince (t : TenderLink) : Option Nat := t.sinceFrame.map (fun n => min 65535 (n / 100))

/-- The fields of Table 5-5. DESIGN CHOICE (log 48): the last ask number sent is the ask number of R95, also
while its T_STATUS_ASK waits or after it was discarded. -/
def terminalFields (t : TenderLink) (cts : Bool) : List Field :=
  [firstWhen t.up, .u8 (readinessCode t.readiness), .u8 t.unanswered, .u8 t.askNumber]
  ++ optU8 t.lastAnswered ++ [yesNo t.secondsSince.isSome, .u16 (t.secondsSince.getD 0)]
  ++ [firstWhen t.overflow, firstWhen t.stalled, .u16 t.ring.length, firstWhen t.rts, firstWhen cts,
      .u8 t.queue.length, .u16 t.droppedBytes, .u16 t.discardedBytes, .u16 t.gapDiscards,
      .u16 t.lengthDiscards, .u16 t.crcDiscards, .u16 t.malformed, .u16 t.txDiscards]

/-- TERMINAL_STATUS (R97): bit 0 of the clear set is OVERFLOW, bit 1 TX_STALLED. -/
def takeTerminalStatus (clear : Nat) (s : State) : Taken :=
  if 4 ≤ clear then refuse .badValue s
  else
    ({ s with tender := { s.tender with
        overflow := s.tender.overflow && !bit clear 0
        stalled := s.tender.stalled && !bit clear 1 } },
      .ok (terminalFields s.tender s.pins.cts))

end Sys2Proof.Machine
end

