-- ==== Sys2Proof/Machine/Settlement.lean ====
section
/-!
DEFINITION. The settlement unit: business settings, the payment session and its amounts, attempts,
cancel and abort, late approvals and reversals, and settlement into the journal and the shift
(chapter Card and Cash Settlement, R60 to R85).
-/

namespace Sys2Proof.Machine

/-! ### Business settings (R60, R61) -/

/-- The fields of the settings in a reply. DESIGN CHOICE (log 17): the cash rounding unit is the number itself in
one byte, and not its place in the list of Table 4-1. -/
def settingsReply (g : Settings) : List Field :=
  textField (g.currency.getD []) ++ [.u16 g.feeBp, .u32 g.feeCap, .u8 g.preset1, .u8 g.preset2,
    .u8 g.preset3, .u8 g.preset4, .u8 g.ceiling, .u32 g.limit, .u8 g.cashUnit]

/-- A currency code: three letters A to Z, or absent. -/
def currencyFits (t : Text) : Bool := t.isEmpty || (t.length == 3 && t.all capital)

/-- The settings stored by a write, each clamped to its range (R61). -/
def storedSettings (f : SettingsFields) : Settings where
  currency := if f.currency.isEmpty then none else some f.currency
  feeBp    := min 1000 f.feeBp
  feeCap   := clamp 1 99999 f.feeCap
  preset1  := min 50 f.preset1
  preset2  := min 50 f.preset2
  preset3  := min 50 f.preset3
  preset4  := min 50 f.preset4
  ceiling  := min 100 f.ceiling
  limit    := clamp 100 9999999 f.limit
  cashUnit := f.cashUnit

/-- Some stored setting differs from the one asked for. -/
def settingsClamped (f : SettingsFields) (g : Settings) : Bool :=
  g.feeBp != f.feeBp || g.feeCap != f.feeCap || g.preset1 != f.preset1 || g.preset2 != f.preset2
    || g.preset3 != f.preset3 || g.preset4 != f.preset4 || g.ceiling != f.ceiling || g.limit != f.limit

/-- PAY_SETTINGS_WRITE (R61). -/
def takePaySettingsWrite (f : SettingsFields) (s : State) : Taken :=
  if s.settle.session.state.isOpen then refuse .wrongState s
  else if !currencyFits f.currency || !cashUnitAllowed f.cashUnit then refuse .badValue s
  else
    let g := storedSettings f
    ({ s with settle := { s.settle with settings := g } },
      .okOr (settingsClamped f g) (settingsReply g))

/-- PAY_SETTINGS_READ (R61). -/
def takePaySettingsRead (s : State) : Taken :=
  report (settingsReply s.settle.settings ++ [yesNo s.settle.sharing]) s

/-! ### Amounts (R65 to R68) -/

/-- The due of a leg. -/
def Leg.due (l : Leg) : Nat := l.fare + l.extrasTotal

/-- The fee of a due (R65). -/
def feeOf (g : Settings) (due : Nat) : Nat := min ((due * g.feeBp + 5000) / 10000) g.feeCap

/-- The tip asked for by a preset percentage (R66). -/
def presetTip (due pct : Nat) : Nat := (due * pct + 50) / 100

/-- The ceiling of the tip (R66). -/
def tipCeiling (g : Settings) (due : Nat) : Nat := due * g.ceiling / 100

/-- The tip after the ceiling. -/
def ceiledTip (g : Settings) (due asked : Nat) : Nat := min asked (tipCeiling g due)

/-- The tip after both clamps. -/
def finalTip (g : Settings) (due fee asked : Nat) : Nat :=
  min (ceiledTip g due asked) (g.limit - due - fee)

/-- The rounded due of a cash settlement (R67). -/
def roundedDue (u due : Nat) : Nat := (due + u / 2) / u * u

/-- The cash adjustment (R67). -/
def cashDifference (u due : Nat) : Int := (roundedDue u due : Int) - due

/-- The remainder goes to the lowest slot. -/
def addToFirst (x : Nat) : List Nat → List Nat
  | [] => []
  | n :: ns => (n + x) :: ns

/-- The shares of an amount that is not negative (R68); division by a due of 0 gives shares of 0. -/
def apportion (x due : Nat) (dues : List Nat) : List Nat :=
  let shares := dues.map (fun d => x * d / due)
  addToFirst (x - shares.sum) shares

/-- The shares of a signed amount (R68). -/
def apportionSigned (x : Int) (due : Nat) (dues : List Nat) : List Int :=
  (apportion x.natAbs due dues).map (fun n => if x < 0 then -(n : Int) else (n : Int))

/-! ### The session record -/

/-- Change the session. -/
def setSession (g : Session → Session) (s : State) : State :=
  { s with settle := { s.settle with session := g s.settle.session } }

/-- Run one session timer, or none. -/
def setTimer (t : Option SessionTimer) (s : State) : State := { s with settle := { s.settle with timer := t } }

/-- The slots of the leg set. -/
def Session.slots (p : Session) : List Slot := p.legs.map LegDue.slot

/-- The dues of the legs. -/
def Session.dues (p : Session) : List Nat := p.legs.map LegDue.due

/-- The decline reason as a number: 0 absent, 1 to 255 the terminal's, then the part's (log 17). -/
def declineCode : Option DeclineReason → Nat
  | none => 0
  | some (.terminal n) => n
  | some .amountMismatch => 256
  | some .timeout => 257
  | some .uncertain => 258

/-- A stage as a number, 0 where absent. -/
def stageField : Option Stage → Nat
  | none => 0
  | some x => stageCode x

/-- The payload of PAYMENT_STATE (R83). -/
def paymentPayload (p : Session) : List Field :=
  [.u16 p.paymentId, .u8 p.state.ctorIdx, .u8 p.tender.ctorIdx, .u8 (p.attempt.getD 0), .u32 p.total,
   .u16 (declineCode p.declineReason), .u8 (stageField p.stage)]
  ++ optU8 (p.closeCause.map CloseCause.ctorIdx)

/-- Raise PAYMENT_STATE. -/
def raisePayment (s : State) : State := raise .paymentState (paymentPayload s.settle.session) s

/-! ### Closing, retrying and aborting (R73, R75 to R77) -/

/-- A session closed with a cause. -/
def Session.close (p : Session) (state : SessionState) (cause : CloseCause) (count : Nat) : Session :=
  { p with
    state := state, closeCause := some cause, closeTime := some count, outstanding := none
    abortCause := none }

/-- The session closes without settlement: the timers stop, the legs return to STOPPED and
PAYMENT_STATE is raised (R54, R73, R75, R76, R77). -/
def closeUnpaid (state : SessionState) (cause : CloseCause) (s : State) : State :=
  raisePayment (unlockLegs s.settle.session.paymentId
    (setTimer none (setSession (fun p => p.close state cause s.clock.count) s)))

/-- Entry to RETRY_WAIT (R77). -/
def enterRetryWait (s : State) : State :=
  raisePayment (setTimer (some ⟨.retryIdle, 12000⟩)
    (setSession (fun p => { p with state := .retryWait, outstanding := none, abortCause := none }) s))

/-- An attempt ends without approval (R73). -/
def endsUnapproved (reason : DeclineReason) (s : State) : State :=
  let s1 := askTone .declined (addTotals Totals.addDecline
    (setSession (fun p => { p with declineReason := some reason, outstanding := none }) s))
  if s.settle.session.attempt.getD 0 < 3 then enterRetryWait s1 else closeUnpaid .failed .declines s1

/-- Entry to ABORTING: T_ABORT is sent for the reference outstanding and the abort timer starts (R74 to
R76). -/
def enterAborting (cause : AbortCause) (r : Ref) (s : State) : State :=
  raisePayment (setTimer (some ⟨.abort, 1000⟩)
    (setSession (fun p => { p with state := .aborting, abortCause := some cause }) (sendFrame (.abort r) s)))

/-- The attempt of an ABORTING session is over without money: a session under cause CANCEL closes,
any other attempt ends without approval (R76). -/
def abortEnds (reason : DeclineReason) (s : State) : State :=
  match s.settle.session.abortCause with
  | some .cancel => closeUnpaid .cancelled .host s
  | _ => endsUnapproved reason s

/-! ### Stale references (R78) -/

/-- The memory without a reference. -/
def removeStale (r : Ref) (s : State) : State :=
  { s with settle := { s.settle with stale := s.settle.stale.filter (· != r) } }

/-- The stale-reference memory after a reference enters: it is held once, as the newest, and a ninth
drops the oldest (R78). -/
def staleAfter (r : Ref) (rs : List Ref) : List Ref :=
  let kept := rs.filter (· != r)
  (if 8 ≤ kept.length then kept.drop 1 else kept) ++ [r]

/-- A reference enters the stale-reference memory. -/
def enterStale (r : Ref) (s : State) : State :=
  { s with settle := { s.settle with stale := staleAfter r s.settle.stale } }

/-! ### Reversals (R79) -/

/-- Whether a reversal entry finds a place in a list of a capacity. -/
def reversalPlaced (places : Nat) (s : State) : Bool := s.settle.reversals.length < places

/-- T_REVERSE is sent and a reversal entry is made, which is placed where the list holds fewer than
`places` (R79). -/
def makeReversal (places : Nat) (r : Ref) (amount : Nat) (s : State) : State :=
  let s1 := sendFrame (.reverse r amount) s
  addTotals Totals.addReversal
    { s1 with settle :=
        if reversalPlaced places s then
          { s1.settle with reversals := s1.settle.reversals ++ [⟨r, amount, 3000⟩] }
        else { s1.settle with unheld := satAdd 255 s1.settle.unheld 1 } }

/-- The list without the oldest entry that holds a reference. -/
def dropReversal (r : Ref) : List Reversal → List Reversal
  | [] => []
  | e :: es => if e.ref = r then es else e :: dropReversal r es

/-- Restart the resend timer of an entry. -/
def restartResend (entry : Nat) (es : List Reversal) : List Reversal :=
  es.mapIdx (fun i e => if i = entry then { e with left := 3000 } else e)

/-- A resend timer expires: T_REVERSE is sent again (R79). -/
def resendExpires (entry : Nat) (s : State) : State :=
  match s.settle.reversals[entry]? with
  | some e =>
    sendFrame (.reverse e.ref e.amount)
      { s with settle := { s.settle with reversals := restartResend entry s.settle.reversals } }
  | none => s

/-- RESEND_TIMER_EXPIRY: the resend timer of a held entry, counted from the oldest, expires. -/
def execResendTimerExpiry (entry : Nat) (s : State) : Res := .next (whileRunning (resendExpires entry) s)

/-! ### Settlement (R80) -/

/-- One leg's record with the tender fields it brings. -/
structure LegPaid where
  slot   : Slot
  tender : TripTender
deriving DecidableEq, Repr

/-- The legs of a CARD session with their shares. -/
def cardShares (p : Session) (authCode : Text) : List LegPaid :=
  (p.slots.zip ((apportion p.fee p.due p.dues).zip (apportion p.tip p.due p.dues))).map
    (fun x => ⟨x.1, .card p.paymentId x.2.1 x.2.2 authCode⟩)

/-- The legs of a CASH session with their shares. -/
def cashShares (p : Session) (adjustment : Int) : List LegPaid :=
  (p.slots.zip (apportionSigned adjustment p.due p.dues)).map (fun x => ⟨x.1, .cash x.2⟩)

/-- The trip record contents of a leg that settles: its end time is its stop time (R80). -/
def settledTrip (x : LegPaid) (s : State) : Trip :=
  tripOf x.slot (s.leg x.slot) s.shifts.record.number ((s.leg x.slot).stopTime.getD s.clock.count) x.tender

/-- The records of a settlement are written in their order, and added to the shift (R80, R104). -/
def recordsTrips (ps : List Trip) (s : State) : State :=
  addTotals (Totals.addTrips ps) (ps.foldl (fun t p => placeRecord p t) s)

/-- The session settles: every timer stops, the records are written and added, the legs are released,
"approved" is asked for and PAYMENT_STATE is raised (R80). -/
def settles (close : Session → Session) (paid : List LegPaid) (s : State) : State :=
  raisePayment (askTone .approved (releaseLegs s.settle.session.paymentId
    (recordsTrips (paid.map (fun x => settledTrip x s)) (setTimer none (setSession close s)))))

/-- A card settlement by an accepted approval. -/
def settlesByCard (authCode : Text) (s : State) : State :=
  settles (fun p => { p.close .settled .approved s.clock.count with authCode := some authCode })
    (cardShares s.settle.session authCode) s

/-- The session record of a cash settlement. -/
def Session.paidCash (p : Session) (u count : Nat) : Session :=
  { p.close .settled .cash count with
    tender := .cash, fee := 0, tip := 0, total := roundedDue u p.due, attempt := none
    cashAdjustment := some (cashDifference u p.due) }

/-- A cash settlement. -/
def settlesByCash (s : State) : State :=
  let u := s.settle.settings.cashUnit
  settles (fun p => p.paidCash u s.clock.count)
    (cashShares s.settle.session (cashDifference u s.settle.session.due)) s

/-- The sequence numbers of the records a settlement writes. -/
def sequenceFields (s : State) : List Field :=
  countedList (fun i => [.u32 (s.journal.next + i)]) (List.range s.settle.session.legs.length)

/-! ### Attempts (R69 to R72) -/

/-- Entry to AUTHORISING (R70). -/
def enterAuthorising (s : State) : State :=
  let p := s.settle.session
  let r : Ref := ⟨p.paymentId, p.attempt.getD 0⟩
  let s1 := setSession (fun q => { q with
    state := .authorising, outstanding := some r, stage := none, abortCause := none }) s
  let s2 := sendFrame (.sale r p.total (s.settle.settings.currency.getD [])) s1
  raisePayment (askTone .paymentPrompt
    { s2 with settle := { s2.settle with timer := some ⟨.response, 6000⟩, saleLeft := 18000 } })

/-- Entry to TIP_WAIT (R69). -/
def enterTipWait (s : State) : State :=
  raisePayment (askTone .paymentPrompt (setTimer (some ⟨.tip, 3000⟩)
    (setSession (fun p => { p with state := .tipWait }) s)))

/-- The tip is set and the total follows (R66). -/
def Session.withTip (p : Session) (tip : Nat) (ceiled limited : Bool) : Session :=
  { p with tip := tip, total := p.due + p.fee + tip, tipCeiled := ceiled, tipLimited := limited }

/-- The expiry of the tip timer (R69). -/
def tipExpires (s : State) : State :=
  match s.settle.session.state with
  | .tipWait => enterAuthorising (setSession (fun p => p.withTip 0 false false) s)
  | _ => s

/-- TIP_TIMER_EXPIRY: the tip is 0 and the session enters AUTHORISING. -/
def execTipTimerExpiry (s : State) : Res := .next (whileRunning tipExpires s)

/-- The percentage of a preset number. -/
def Settings.preset? (g : Settings) : Nat → Option Nat
  | 1 => some g.preset1
  | 2 => some g.preset2
  | 3 => some g.preset3
  | 4 => some g.preset4
  | _ => none

/-- The tip asked for by a selector, 0 for a preset and 1 for a fixed amount (R66, R177). -/
def askedTip? (selector value : Nat) (s : State) : Option Nat :=
  match selector with
  | 0 => (s.settle.settings.preset? value).map (presetTip s.settle.session.due)
  | 1 => some value
  | _ => none

/-- The effects of a taken PAY_TIP. -/
def takesTip (asked : Nat) (s : State) : Taken :=
  let g := s.settle.settings
  let p := s.settle.session
  let tip := finalTip g p.due p.fee asked
  let ceiled := decide (tipCeiling g p.due < asked)
  let limited := decide (g.limit < p.due + p.fee + ceiledTip g p.due asked)
  let s' := enterAuthorising (setSession (fun q => q.withTip tip ceiled limited) s)
  (s', .okOr (ceiled || limited)
    [.u32 tip, .u8 (bitsOf [ceiled, limited]), .u32 (p.due + p.fee + tip),
     .u8 SessionState.authorising.ctorIdx])

/-- PAY_TIP (R69): the state is tested before the value (log 19). -/
def takePayTip (selector value : Nat) (s : State) : Taken :=
  match s.settle.session.state with
  | .tipWait =>
    match askedTip? selector value s with
    | some asked => takesTip asked s
    | none => refuse .badValue s
  | _ => refuse .wrongState s

/-- A T_PROGRESS (R71). -/
def takesProgress (r : Ref) (stage : Stage) (s : State) : State :=
  if s.settle.session.state = .authorising ∧ s.settle.session.outstanding = some r then
    raisePayment (setTimer (some ⟨.response, min 6000 s.settle.saleLeft⟩)
      (setSession (fun p => { p with stage := some stage }) s))
  else s

/-- A late approval (R78). -/
def takesLateApproval (r : Ref) (amount : Nat) (s : State) : State :=
  let held := s.settle.stale.contains r
  raise .lateApproval (refFields r ++ [.u32 amount, yesNo held, yesNo (reversalPlaced 5 s)])
    (addTotals Totals.addLate (removeStale r (makeReversal 5 r amount s)))

/-- An approval for the reference outstanding (R72, R76). -/
def takesApproval (r : Ref) (amount : Nat) (authCode : Text) (s : State) : State :=
  let s1 := removeStale r s
  if amount = s.settle.session.total then settlesByCard authCode s1
  else abortEnds .amountMismatch (makeReversal 4 r amount s1)

/-- A T_APPROVED (R72, R76, R78). -/
def approves (r : Ref) (amount : Nat) (authCode : Text) (s : State) : State :=
  if s.settle.session.outstanding = some r then takesApproval r amount authCode s
  else takesLateApproval r amount s

/-- A T_DECLINED (R73, R76, R78). -/
def declines (r : Ref) (reason : Nat) (s : State) : State :=
  let s1 := removeStale r s
  if s.settle.session.outstanding = some r then
    match s.settle.session.state with
    | .aborting => abortEnds .timeout s1
    | _ => endsUnapproved (.terminal reason) s1
  else s1

/-- A T_ABORTED (R76, R78); in AUTHORISING it is ignored. -/
def confirmsAbort (r : Ref) (s : State) : State :=
  if s.settle.session.outstanding = some r then
    match s.settle.session.state with
    | .aborting => abortEnds .timeout (removeStale r s)
    | _ => s
  else removeStale r s

/-- A T_REVERSED (R79). -/
def confirmsReversal (r : Ref) (s : State) : State :=
  { s with settle := { s.settle with reversals := dropReversal r s.settle.reversals } }

/-- The settlement unit takes a message, which is no longer handed on (R91). -/
def takesMessage (m : TermMsg) (g : State → State) (s : State) : State :=
  g { s with tender := s.tender.handedOver m }

/-- T_PROGRESS: progress of an attempt. -/
def execTProgress (r : Ref) (stage : Stage) (s : State) : Res :=
  .next (whileRunning (takesMessage (.progress r stage) (takesProgress r stage)) s)

/-- T_APPROVED: an approval settles the session, is reversed, or is late. -/
def execTApproved (r : Ref) (amount : Nat) (authCode : Text) (s : State) : Res :=
  .next (whileRunning (takesMessage (.approved r amount authCode) (approves r amount authCode)) s)

/-- T_DECLINED: a decline ends the attempt or confirms an abort. -/
def execTDeclined (r : Ref) (reason : Nat) (s : State) : Res :=
  .next (whileRunning (takesMessage (.declined r reason) (declines r reason)) s)

/-- T_ABORTED: a confirmed abort. -/
def execTAborted (r : Ref) (s : State) : Res :=
  .next (whileRunning (takesMessage (.aborted r) (confirmsAbort r)) s)

/-- T_REVERSED: a confirmed reversal. -/
def execTReversed (r : Ref) (s : State) : Res :=
  .next (whileRunning (takesMessage (.reversed r) (confirmsReversal r)) s)

/-! ### Timers -/

/-- The response timer expires (R74). -/
def responseExpires (s : State) : State :=
  match s.settle.session.state, s.settle.session.outstanding with
  | .authorising, some r => enterAborting .timeout r s
  | _, _ => s

/-- RESPONSE_TIMER_EXPIRY: the part asks for an abort. -/
def execResponseTimerExpiry (s : State) : Res := .next (whileRunning responseExpires s)

/-- The abort timer expires (R76). -/
def abortExpires (s : State) : State :=
  match s.settle.session.state, s.settle.session.outstanding with
  | .aborting, some r => abortEnds .uncertain (enterStale r s)
  | _, _ => s

/-- ABORT_TIMER_EXPIRY: the outcome of the attempt is unknown. -/
def execAbortTimerExpiry (s : State) : Res := .next (whileRunning abortExpires s)

/-- The retry idle timer expires (R77). -/
def retryIdleExpires (s : State) : State :=
  match s.settle.session.state with
  | .retryWait => closeUnpaid .cancelled .idle s
  | _ => s

/-- RETRY_IDLE_TIMER_EXPIRY: the session closes as CANCELLED with cause IDLE. -/
def execRetryIdleTimerExpiry (s : State) : Res := .next (whileRunning retryIdleExpires s)

/-! ### PAY_BEGIN (R63, R64) -/

/-- The legs of a payment with their dues. -/
def legDues (slots : List Slot) (s : State) : List LegDue := slots.map (fun i => ⟨i, (s.leg i).due⟩)

/-- The sum of the dues of some slots. -/
def sumDue (slots : List Slot) (s : State) : Nat := ((legDues slots s).map LegDue.due).sum

/-- The session record that a PAY_BEGIN fills. -/
def begunSession (slots : List Slot) (t : Tender) (tipOffer : Bool) (s : State) : Session :=
  let due := sumDue slots s
  let fee := match t with
    | .card => feeOf s.settle.settings due
    | .cash => 0
  { Session.blank with
    paymentId := s.settle.nextId
    legs := legDues slots s
    due := due
    fee := fee
    total := due + fee
    tender := t
    tipOffered := tipOffer
    attempt := match t with
      | .card => some 1
      | .cash => none
    beginTime := s.clock.count }

/-- The next payment id after one is taken, going from 65535 to 1 (R62). -/
def nextPaymentId (n : Nat) : Nat := if 65535 ≤ n then 1 else n + 1

/-- The payment id is taken, the session filled and the legs locked (R64). -/
def beginsPayment (slots : List Slot) (t : Tender) (tipOffer : Bool) (s : State) : State :=
  lockLegs s.settle.nextId slots
    { s with settle := { s.settle with
        session := begunSession slots t tipOffer s
        nextId := nextPaymentId s.settle.nextId } }

/-- A taken CASH PAY_BEGIN. -/
def beginsCash (slots : List Slot) (tipOffer : Bool) (s : State) : Taken :=
  let s1 := beginsPayment slots .cash tipOffer s
  let s2 := settlesByCash s1
  let p := s2.settle.session
  (s2, .ok ([.u16 p.paymentId, .u8 p.state.ctorIdx, .u32 p.due, .u32 p.total,
    .i8 (p.cashAdjustment.getD 0)] ++ sequenceFields s1))

/-- A taken CARD PAY_BEGIN. -/
def beginsCard (slots : List Slot) (tipOffer : Bool) (s : State) : Taken :=
  let s1 := beginsPayment slots .card tipOffer s
  let s2 := if tipOffer then enterTipWait s1 else enterAuthorising s1
  let p := s2.settle.session
  (s2, .ok [.u16 p.paymentId, .u8 p.state.ctorIdx, .u32 p.due, .u32 p.fee, .u32 p.total])

/-- The further tests of a CARD PAY_BEGIN (R63, step 6). -/
def cardRefusal (slots : List Slot) (s : State) : Option ReplyCode :=
  let due := sumDue slots s
  if s.settle.settings.currency.isNone then some .wrongState
  else if !s.tender.up then some .terminalDown
  else if 4 ≤ s.settle.reversals.length then some .terminalBusy
  else if s.settle.settings.limit < due + feeOf s.settle.settings due then some .limit
  else none

/-- The tests of a PAY_BEGIN after its values (R63, steps 2 to 6). -/
def beginRefusal (slots : List Slot) (t : Tender) (s : State) : Option ReplyCode :=
  if !shiftOpen s then some .noShift
  else if s.odo.motion = .moving then some .moving
  else if slots.any (fun i => (s.leg i).state == .paying) then some .legLocked
  else if slots.any (fun i => (s.leg i).state != .stopped) then some .wrongState
  else if s.settle.session.state.isOpen then some .wrongState
  else
    match t with
    | .card => cardRefusal slots s
    | .cash => none

/-- A PAY_BEGIN by its tender. -/
def beginsBy (slots : List Slot) (tipOffer : Bool) (s : State) : Tender → Taken
  | .card => beginsCard slots tipOffer s
  | .cash => beginsCash slots tipOffer s

/-- PAY_BEGIN (R63). -/
def takePayBegin (legs tender tipOffer : Nat) (s : State) : Taken :=
  match slotSet? legs, tender? tender, yesNo? tipOffer with
  | some slots, some t, some offer =>
    if legs = 0 then refuse .badValue s
    else
      match beginRefusal slots t s with
      | some code => refuse code s
      | none => beginsBy slots offer s t
  | _, _, _ => refuse .badValue s

/-! ### Requests on the open session (R75, R77) -/

/-- PAY_AUTHORISE (R77). -/
def takePayAuthorise (s : State) : Taken :=
  match s.settle.session.state with
  | .retryWait =>
    if !s.tender.up then refuse .terminalDown s
    else if 4 ≤ s.settle.reversals.length then refuse .terminalBusy s
    else
      let n := s.settle.session.attempt.getD 0 + 1
      (enterAuthorising (setSession (fun p => { p with attempt := some n }) s), .ok [.u8 n])
  | _ => refuse .wrongState s

/-- PAY_CASH (R77). -/
def takePayCash (s : State) : Taken :=
  match s.settle.session.state with
  | .retryWait =>
    let s' := settlesByCash s
    (s', .ok ([.u32 s'.settle.session.total, .i8 (s'.settle.session.cashAdjustment.getD 0)]
      ++ sequenceFields s))
  | _ => refuse .wrongState s

/-- PAY_CANCEL (R75, Table 4-6). -/
def takePayCancel (s : State) : Taken :=
  match s.settle.session.state with
  | .tipWait | .retryWait => (closeUnpaid .cancelled .host s, .ok [])
  | .authorising =>
    match s.settle.session.outstanding with
    | some r => (enterAborting .cancel r s, .ok [])
    | none => refuse .wrongState s
  | .settled => refuse .tooLate s
  | .aborting | .failed | .cancelled | .none => refuse .wrongState s

/-! ### Readout (R82) -/

/-- A reference in a reply, zeros where absent. -/
def optRef (o : Option Ref) : List Field :=
  match o with
  | some r => refFields r
  | none => [.u16 0, .u8 0]

/-- The leg set of PAY_STATUS. DESIGN CHOICE (log 17): R177 codes no set of slots; it is one byte with bit 0 for
slot 1, as in PAY_BEGIN. -/
def slotBits (slots : List Slot) : Nat := bitsOf (Slot.all.map (fun i => slots.contains i))

/-- The fields of Table 4-2. DESIGN CHOICE (log 17): the dues of the legs have no count byte before them;
the leg set says how many follow. -/
def sessionFields (p : Session) : List Field :=
  [.u8 p.state.ctorIdx, .u16 p.paymentId, .u8 (slotBits p.slots)] ++ p.dues.map Field.u32
  ++ [.u32 p.due, .u32 p.fee, .u32 p.tip, .u32 p.total, .u8 p.tender.ctorIdx, yesNo p.tipOffered,
      .u8 (p.attempt.getD 0)]
  ++ optRef p.outstanding ++ optU8 (p.abortCause.map AbortCause.ctorIdx) ++ [.u8 (stageField p.stage)]
  ++ textField (p.authCode.getD []) ++ [.u16 (declineCode p.declineReason)]
  ++ optU8 (p.closeCause.map CloseCause.ctorIdx)
  ++ [yesNo p.cashAdjustment.isSome, .i8 (p.cashAdjustment.getD 0), .u32 p.beginTime]
  ++ optU32 p.closeTime

/-- The shares of each leg as they would be apportioned now. DESIGN CHOICE (log 17): they have no count
byte before them; the leg set says how many follow, for CARD fee share and tip share leg by leg. -/
def shareFields (p : Session) : List Field :=
  match p.tender with
  | .card =>
    ((apportion p.fee p.due p.dues).zip (apportion p.tip p.due p.dues)).flatMap
      (fun x => [.u32 x.1, .u32 x.2])
  | .cash => (apportionSigned (p.cashAdjustment.getD 0) p.due p.dues).map Field.i8

/-- The time left on the session timer, in whole seconds rounded up. -/
def timerSeconds (t : Option SessionTimer) : Option Nat := t.map (fun x => (x.left + 99) / 100)

/-- PAY_STATUS (R82). -/
def takePayStatus (s : State) : Taken :=
  let p := s.settle.session
  report (sessionFields p ++ shareFields p ++ optU8 (timerSeconds s.settle.timer)
    ++ countedList (fun e => refFields e.ref ++ [.u32 e.amount]) s.settle.reversals
    ++ countedList refFields s.settle.stale ++ [.u8 s.settle.unheld, .u16 s.settle.nextId]) s

/-! ### Restart (R84) -/

/-- The frames sent in a restart for the held reversals, with fresh resend timers. -/
def resendAll (s : State) : State :=
  s.settle.reversals.foldl (fun t e => sendFrame (.reverse e.ref e.amount) t)
    { s with settle := { s.settle with
        reversals := s.settle.reversals.map (fun (e : Reversal) => { e with left := 3000 }) } }

/-- The open session restored, before the reversals are sent again. The notices follow later in the
restart. -/
def restoreSession (s : State) : State :=
  let p := s.settle.session
  match p.state, p.outstanding with
  | .tipWait, _ =>
    setSession (fun q => q.close .cancelled .tipRestart s.clock.count)
      { s with fare := s.fare.unlock p.paymentId }
  | .authorising, some r =>
    setTimer (some ⟨.abort, 1000⟩)
      (setSession (fun q => { q with state := .aborting, abortCause := some .restart })
        (sendFrame (.abort r) s))
  | .aborting, some r => setTimer (some ⟨.abort, 1000⟩) (sendFrame (.abort r) s)
  | .retryWait, _ => setTimer (some ⟨.retryIdle, 12000⟩) s
  | _, _ => s

end Sys2Proof.Machine
end

