-- ==== Sys2Proof/Machine/ClockSupply.lean ====
section
/-!
DEFINITION. The calendar clock, supply fail, restart, retained memory and factory clear (chapter
Clock, Supply and Retained Memory, R161 to R167).
-/

namespace Sys2Proof.Machine

/-! ### Ticks and minute boundaries (R162, R32) -/

/-- The count after a second tick. -/
def nextCount (n : Nat) : Nat := if n < lastCount then n + 1 else 0

/-- The clock after a second tick: the last count wraps to 0 and makes it INVALID. A whole minute
leaves a minute boundary due while the part runs, unless it was taken ahead of the tick (log 15). -/
def Clock.tick (c : Clock) (runs : Bool) : Clock :=
  { c with
    count := nextCount c.count
    valid := c.valid && decide (c.count < lastCount)
    secondDue := false
    minuteDue := runs && (c.minuteDue || (nextCount c.count % 60 == 0 && !c.minuteTaken))
    minuteTaken := false }

/-- What a second tick does at the odometry unit (R5, R10). -/
def tickReachesOdometry (s : State) : State := closeInterval { s with odo := s.odo.measureTick }

/-- The part runs. -/
def running (s : State) : Bool := s.power == .running

/-- A second tick. -/
def ticks (s : State) : State :=
  whileRunning tickReachesOdometry { s with clock := s.clock.tick (running s) }

/-- SECOND_TICK: the clock count adds 1 and the tick reaches the odometry unit. -/
def execSecondTick (s : State) : Res := .next (ticks s)

/-- CLOCK_WRAP: the second tick that passes the last count of the calendar (log 14). -/
def execClockWrap (s : State) : Res := .next (if s.clock.count < lastCount then s else ticks s)

/-- A minute boundary at the fare engine: that of the last tick, or, taken ahead, that of the coming
one (R32, log 15). At the last count the coming tick makes the clock INVALID. -/
def minuteBoundary (s : State) : State :=
  if !s.clock.minuteDue && (s.clock.count + 1) % 60 == 0 then
    if s.clock.count < lastCount then
      boundaryAt (s.clock.count + 1) { s with clock := { s.clock with minuteTaken := true } }
    else s
  else boundaryAt s.clock.count { s with clock := { s.clock with minuteDue := false } }

/-- MINUTE_BOUNDARY: running SCHEDULED legs take the tariff of the entry in force. -/
def execMinuteBoundary (s : State) : Res := .next (whileRunning minuteBoundary s)

/-! ### CLOCK_SET and CLOCK_READ (R163) -/

/-- The count, date, time and day of week of a count. -/
def clockFields (count : Nat) : List Field :=
  let t := dateOf count
  [.u32 count, .u16 t.year, .u8 t.month, .u8 t.day, .u8 t.hour, .u8 t.minute, .u8 t.second,
   .u8 (dayOfWeek count)]

/-- CLOCK_SET (R163). -/
def takeClockSet (t : DateTime) (s : State) : Taken :=
  if !t.exists then refuse .badValue s
  else if !allFree s || s.settle.session.state.isOpen then refuse .wrongState s
  else
    ({ s with clock := { s.clock with count := t.count, valid := true, minuteTaken := false } },
      .ok (clockFields t.count))

/-- A gap in seconds with its flag "gap unknown" after it. DESIGN CHOICE (log 17): the flag is 1 where the gap is
unknown. -/
def gapFields (g : Option Nat) : List Field := [.u32 (g.getD 0), yesNo g.isNone]

/-- CLOCK_READ (R163). -/
def takeClockRead (s : State) : Taken :=
  report (clockFields s.clock.count ++ [firstWhen s.clock.valid] ++ optU32 s.retained.failCount
    ++ gapFields s.retained.lastGap) s

/-! ### Supply fail and RESETn (R164) -/

/-- The sign controller's retained state with the rest at its restart values (R139). -/
def Sign.retainedOnly (g : Sign) : Sign :=
  { Sign.restarted with active := g.active, cause := g.cause, raiseTime := g.raiseTime }

/-- The settlement unit without its timers (R84). -/
def Settlement.untimed (u : Settlement) : Settlement :=
  { u with
    timer := none
    saleLeft := 0
    reversals := u.reversals.map (fun (e : Reversal) => { e with left := 0 }) }

/-- Every block but the calendar clock and retained memory stops: volatile state is lost and outputs
are not driven (R12, R37, R84, R99, R113, R124, R139, R151, R160, R176, log 11). -/
def stopBlocks (s : State) : State :=
  { s with
    odo := s.odo.restarted s.pins.dpulse
    settle := s.settle.untimed
    tender := { TenderLink.restarted with rts := false }
    sign := s.sign.retainedOnly
    intercom := Intercom.restarted
    speakers := speakersRestarted
    clock := { s.clock with minuteDue := false, minuteTaken := false }
    link := ControlLink.restarted }

/-- Supply fail stores the clock count and marks it recorded. -/
def recordFail (s : State) : State :=
  { s with retained := { s.retained with failCount := some s.clock.count, recorded := true } }

/-- SUPPLY_FAIL: VSUP falls below its threshold. DESIGN CHOICE (log 37): while RESETn holds the part,
the fail still stores the clock count and marks it recorded, where R164 also says that none is stored
while RESETn is asserted. -/
def execSupplyFail (s : State) : Res :=
  .next (match s.power with
    | .running | .resetHeld => { stopBlocks (recordFail s) with power := .supplyFailed }
    | .supplyFailed => s)

/-- RESETN_ASSERT: RESETn stops the part and stores nothing. DESIGN CHOICE (log 46): of RESETn the state keeps
only that it stopped a running part; asserted while VSUP is absent it changes nothing. -/
def execResetnAssert (s : State) : Res :=
  .next (match s.power with
    | .running => { stopBlocks s with power := .resetHeld }
    | .resetHeld | .supplyFailed => s)

/-- BATTERY_FAIL: VBAT falls below the holding level while VSUP is absent. Whether the contents then
still agree with their check value is a free value (log 12). -/
def execBatteryFail (s : State) : Res :=
  .next (match s.power with
    | .supplyFailed =>
      { s with
        clock := { s.clock with batteryFail := true }
        retained := { s.retained with
          checkAgrees := s.retained.checkAgrees && Config.batteryLossSpares s.freeCount }
        freeCount := s.freeCount + 1 }
    | .running | .resetHeld => s)

/-! ### Factory clear (R167) -/

/-- What retained memory itself owns, after a factory clear (R166, R167, log 20). -/
def Retained.cleared (r : Retained) : Retained :=
  { r with
    calCount := 0, calStamp := 0, failCount := none, recorded := false, formatVersion := 1
    checkAgrees := true }

/-- The emergency after a factory clear: NORMAL with no cause or raise time (R139). -/
def Sign.calmed (g : Sign) : Sign :=
  { g with active := false, cause := none, raiseTime := none, clearWindow := none }

/-- The retained state of every block at its defaults (R167). -/
def clearRetained (s : State) : State :=
  { s with
    odo := s.odo.toDefaults
    fare := FareEngine.cleared
    settle := Settlement.cleared
    shifts := ShiftAccounts.cleared
    journal := Journal.cleared
    sign := s.sign.calmed
    retained := s.retained.cleared }

/-- PAYMENT_STATE is raised where the session's state is another than it was (R83). -/
def reportPayment (was : SessionState) (s : State) : State :=
  if was = s.settle.session.state then s else raisePayment s

/-- The effects of a taken FACTORY_CLEAR. A session that becomes NONE raises PAYMENT_STATE (R83).
DEDUCED: the EMERGENCY it raises carries the present count as the count of the clear (log 42). -/
def factoryClears (s : State) : State :=
  let s1 := clearRetained { s with odo := s.odo.factoryCleared s.pins.dpulse }
  let s2 := raiseShiftState (resign s1)
  reportPayment s.settle.session.state
    (raiseIf s.sign.active .emergency (emergencyPayload s2.sign (some s.clock.count)) s2)

/-- FACTORY_CLEAR (R167). -/
def takeFactoryClear (s : State) : Taken :=
  if !calibrationOpen s then refuse .calLocked s else (factoryClears s, .ok [])

/-- The characters of "Kirgova". -/
def vendorName : Text := [0x4B, 0x69, 0x72, 0x67, 0x6F, 0x76, 0x61]

/-- The characters of "Lenwaft". -/
def familyName : Text := [0x4C, 0x65, 0x6E, 0x77, 0x61, 0x66, 0x74]

/-- The characters of "LX62". -/
def partName : Text := [0x4C, 0x58, 0x36, 0x32]

/-- PART_IDENT (R167). -/
def takePartIdent (s : State) : Taken :=
  report (textField vendorName ++ textField familyName ++ textField partName
    ++ [.u8 1, .u8 s.retained.formatVersion]) s

/-! ### Restart (R165) -/

/-- The clock at a restart: a latched battery fail sets the count to 0 and makes it INVALID; the
latch is cleared when it has been read. The divider starts again where the battery failed (log 16). -/
def Clock.atRestart (c : Clock) : Clock :=
  if c.batteryFail then
    { count := 0, valid := false, batteryFail := false, period := 0, secondDue := false
      minuteDue := false, minuteTaken := false }
  else { c with minuteDue := false, minuteTaken := false }

/-- Retained memory is found valid. -/
def Retained.isValid (r : Retained) : Bool := r.checkAgrees && r.formatVersion == 1

/-- The gap of a restart, absent where it is unknown (R165). -/
def gapOf (r : Retained) (clockLost : Bool) (count : Nat) : Option Nat :=
  if !r.recorded then some 0
  else
    match r.failCount with
    | some c => if !clockLost && decide (c ≤ count) then some (count - c) else none
    | none => none

/-- The stop time that running legs are restored with (R56). -/
def restoreTime (r : Retained) (count : Nat) : Nat :=
  if r.recorded then r.failCount.getD count else count

/-- The links, the odometry unit and the speakers at a restart (R13, R99, R160, R176). -/
def restartVolatile (s : State) : State :=
  { s with
    odo := s.odo.restarted s.pins.dpulse
    tender := TenderLink.restarted
    speakers := speakersRestarted
    link := ControlLink.restarted }

/-- The legs and the session restored, and the frames given in the restart: T_ABORT, the T_REVERSE
frames, then the first T_STATUS_ASK (R56, R84, R99). -/
def restoreMoney (s : State) : State :=
  sendFrame (.statusAsk 0) (resendAll (restoreSession
    { s with fare := s.fare.restored (restoreTime s.retained s.clock.count) }))

/-- The sign at a restart, with the emergency as held (R139, R135). -/
def restartSign (s : State) : State :=
  derive { s with sign := { s.sign.retainedOnly with hold := switchHold s.sign.active s.pins.emerg } }

/-- Each block takes its restart state and carries out its restore steps (R165 step 4). -/
def restartBlocks (s : State) : State := restartIntercom (restartSign (restoreMoney (restartVolatile s)))

/-- The slots whose leg state differs. -/
def changedSlots (a b : FareEngine) : List Slot :=
  Slot.all.filter (fun i => (a.legs.get i).state != (b.legs.get i).state)

/-- The notices of a restart (R56, R59, R83, R84, R165): LEG_STATE once, naming the lowest slot that the
restore steps changed, and PAYMENT_STATE where the session's state is another than `was`, that before the
restart. `restored` holds the legs after a store loss, so the loss itself raises no LEG_STATE for active legs
that it turns FREE (DESIGN CHOICE, log 44). -/
def restartNotices (restored : FareEngine) (was : SessionState) (valid : Bool) (gap : Option Nat)
    (s : State) : State :=
  let s2 := reportPayment was (raiseLegStates (changedSlots restored s.fare) s)
  raise .powerRestored (gapFields gap ++ [yesNo valid, firstWhen s.clock.valid])
    (raiseIf (!valid) .storeLost [] s2)

/-- A restart. -/
def restarts (s : State) : State :=
  let valid := s.retained.isValid
  let s1 := { s with power := .running, clock := s.clock.atRestart }
  let s2 := if valid then s1 else clearRetained s1
  let gap := gapOf s2.retained s.clock.batteryFail s2.clock.count
  let s3 := restartBlocks s2
  restartNotices s2.fare s.settle.session.state valid gap
    { s3 with retained := { s3.retained with
        recorded := false, lastValid := valid, lastBattery := s.clock.batteryFail, lastGap := gap } }

/-- RESTART: VSUP has returned, or RESETn has been released with VSUP present (R165). DESIGN CHOICE (log 46): the
row says that a restart begins, and runs a stopped part whatever level RESETn has. -/
def execRestart (s : State) : Res :=
  .next (match s.power with
    | .supplyFailed | .resetHeld => restarts s
    | .running => s)

/-- RETAINED_STATUS (R165). DESIGN CHOICE (log 17): the result of the integrity check is coded as yes/no
to valid, so valid is 1 and invalid 0, and the recorded mark is 1 where it is set. -/
def takeRetainedStatus (s : State) : Taken :=
  let r := s.retained
  report ([yesNo r.lastValid, .u8 r.formatVersion, yesNo r.lastBattery] ++ gapFields r.lastGap
    ++ [yesNo r.recorded] ++ optU32 r.failCount) s

end Sys2Proof.Machine
end

