-- ==== Sys2Proof/Machine/ControlLink.lean ====
section
/-!
DEFINITION. The control link: its frames and CRC, its own requests, taking a request from the handling
place, replies, notices on the line, echo mode and the link reset (chapter Control Link and Notices,
R168 to R177).
-/

namespace Sys2Proof.Machine

/-! ### Frames (R169) -/

/-- One shift of the CRC-16 register, feedback 0x1021. -/
def crc16Shift (r : BitVec 16) : BitVec 16 := if r.msb then (r <<< 1) ^^^ 0x1021#16 else r <<< 1

/-- A covered byte is combined into the register's high eight bits. -/
def crc16Byte (r : BitVec 16) (b : Byte) : BitVec 16 :=
  crc16Shift (crc16Shift (crc16Shift (crc16Shift (crc16Shift (crc16Shift (crc16Shift (crc16Shift
    (r ^^^ (b.zeroExtend 16 <<< 8)))))))))

/-- The CRC over the covered bytes. -/
def crc16 (bs : List Byte) : BitVec 16 := bs.foldl crc16Byte 0xFFFF#16

/-- The bytes a frame's CRC covers: length, kind, tag and body. -/
def Frame.covered (f : Sys2Proof.Frame) : List Byte :=
  BitVec.ofNat 8 (f.body.length + 2) :: f.kind :: f.tag :: f.body

/-- The bytes of a frame on the line. -/
def frameBytes (f : Sys2Proof.Frame) : List Byte :=
  0xA5#8 :: Frame.covered f ++ bytesOf 2 (crc16 (Frame.covered f)).toNat

/-- The bytes of an answer's body: the reply code, then the fields (R171). -/
def Answer.bytes (a : Answer) : List Byte := BitVec.ofNat 8 a.code.code :: a.body.flatMap Field.bytes

/-- The reply frame to a request of a kind and tag (R171). DESIGN CHOICE (log 49): the reply mark is a bit that
is set, so the reply to a kind that already carries it has that same kind. -/
def replyFrame (kind tag : Byte) (a : Answer) : Sys2Proof.Frame := ⟨kind ||| 0x80#8, tag, a.bytes⟩

/-- The notice frame of a notice (R174). -/
def noticeFrameOf (n : Notice) : Sys2Proof.Frame :=
  ⟨0x7E, 0x00, BitVec.ofNat 8 n.kind.code :: n.payload.flatMap Field.bytes⟩

/-- The frame being sent for the handling place: its reply, or in echo mode the frame itself (R175).
Absent where the request was given as a command, whose tag is not known (log 7). -/
def Handling.sent (h : Handling) : Option Sys2Proof.Frame :=
  match h.frame, h.sending with
  | some f, .answer a => some (replyFrame f.kind f.tag a)
  | some f, .echo => some f
  | none, _ => none

/-! ### The link's own requests (R168, R173 to R176) -/

/-- Change the control link. -/
def setLink (g : ControlLink → ControlLink) (s : State) : State := { s with link := g s.link }

/-- LINK_CONFIG (R168). -/
def takeLinkConfig (rate : Nat) (s : State) : Taken :=
  if !rateAllowed rate then refuse .badValue s
  else if rate = s.link.rate then (s, .ok [.u32 rate])
  else (setLink (fun l => { l with after := .rateSwitch rate }) s, .ok [.u32 rate])

/-- The fields of LINK_STATUS. DESIGN CHOICE (log 17): OVERRUN is 1 where set and 0 where clear. -/
def linkFields (l : ControlLink) : List Field :=
  [.u32 l.rate, yesNo l.stream, .u32 l.enabled.toNat]
  ++ countedList (fun n => [.u8 n.kind.code]) l.queue
  ++ [yesNo l.overrun, .u16 l.gapCount, .u16 l.lengthCount, .u16 l.crcCount, .u16 l.overrunCount]

/-- LINK_STATUS (R176). -/
def takeLinkStatus (clear : Nat) (s : State) : Taken :=
  match yesNo? clear with
  | some b => (setLink (fun l => { l with overrun := l.overrun && !b }) s, .ok (linkFields s.link))
  | none => refuse .badValue s

/-- LINK_RESET (R176). -/
def takeLinkReset (s : State) : Taken := (setLink (fun l => { l with after := .linkReset }) s, .ok [])

/-- NOTICE_MODE (R174): POLLED is 0 and STREAM is 1. -/
def takeNoticeMode (mode : Nat) (s : State) : Taken :=
  match yesNo? mode with
  | some b => (setLink (fun l => { l with stream := b }) s, .ok [yesNo b])
  | none => refuse .badValue s

/-- The enabled set after an operation WRITE, SET, CLEAR or TOGGLE (R173). -/
def maskAfter? (operation : Nat) (now given : BitVec 20) : Option (BitVec 20) :=
  match operation with
  | 0 => some given
  | 1 => some (now ||| given)
  | 2 => some (now &&& ~~~given)
  | 3 => some (now ^^^ given)
  | _ => none

/-- The enabled set changes, and each kind that ends up disabled leaves the queue (R173). -/
def ControlLink.enable (l : ControlLink) (set : BitVec 20) : ControlLink :=
  { l with enabled := set, queue := l.queue.filter (fun n => set.getLsbD (n.kind.code - 1)) }

/-- NOTICE_MASK (R173). -/
def takeNoticeMask (operation kinds : Nat) (s : State) : Taken :=
  if 1048576 ≤ kinds then refuse .badValue s
  else
    match maskAfter? operation s.link.enabled (BitVec.ofNat 20 kinds) with
    | some set => (setLink (fun l => l.enable set) s, .ok [.u32 set.toNat])
    | none => refuse .badValue s

/-- NOTICE_FETCH (R174). -/
def takeNoticeFetch (s : State) : Taken :=
  match s.link.queue with
  | n :: ns => (setLink (fun l => { l with queue := ns }) s, .ok (.u8 n.kind.code :: n.payload))
  | [] => refuse .notFound s

/-- ECHO_ON (R175). -/
def takeEchoOn (s : State) : Taken := (setLink (fun l => { l with after := .echoBegin }) s, .ok [])

/-- ECHO_OFF (R175). -/
def takeEchoOff (s : State) : Taken :=
  if s.link.echo then (setLink (fun l => { l with echo := false }) s, .ok []) else refuse .wrongState s

/-! ### The rule of each request -/

/-- The rule of a host request; none for a command that is an event. -/
def ruleOf : Instr → Option (State → Taken)
  | .odoStatus => some takeOdoStatus
  | .dpulseConfig p w => some (takeDpulseConfig p w)
  | .calSetK k => some (takeCalSetK k)
  | .calMeasureStart => some takeCalMeasureStart
  | .calMeasureStop => some takeCalMeasureStop
  | .tariffWrite n f => some (takeTariffWrite n f)
  | .tariffRead n => some (takeTariffRead n)
  | .scheduleWrite e d m t => some (takeScheduleWrite e d m t)
  | .scheduleRead => some takeScheduleRead
  | .extraKindWrite n d t a l => some (takeExtraKindWrite n d t a l)
  | .extraKindRead n => some (takeExtraKindRead n)
  | .calStatus => some takeCalStatus
  | .legStart x t c => some (takeLegStart x t c)
  | .legStop i => some (takeLegStop i)
  | .legResume i => some (takeLegResume i)
  | .legVoid i => some (takeLegVoid i)
  | .legTariff i t => some (takeLegTariff i t)
  | .legExtraAdd i k a => some (takeLegExtraAdd i k a)
  | .legExtraRemove i => some (takeLegExtraRemove i)
  | .legRead i => some (takeLegRead i)
  | .shareSet b => some (takeShareSet b)
  | .paySettingsWrite f => some (takePaySettingsWrite f)
  | .paySettingsRead => some takePaySettingsRead
  | .payBegin l t o => some (takePayBegin l t o)
  | .payTip x v => some (takePayTip x v)
  | .payAuthorise => some takePayAuthorise
  | .payCash => some takePayCash
  | .payCancel => some takePayCancel
  | .payStatus => some takePayStatus
  | .terminalStatus c => some (takeTerminalStatus c)
  | .shiftOpen d => some (takeShiftOpen d)
  | .shiftClose => some takeShiftClose
  | .shiftRead => some takeShiftRead
  | .reportList => some takeReportList
  | .reportRead n => some (takeReportRead n)
  | .tripRead n => some (takeTripRead n)
  | .tripNextUnread => some takeTripNextUnread
  | .journalStatus => some takeJournalStatus
  | .signMode m c => some (takeSignMode m c)
  | .signStatus => some takeSignStatus
  | .lampTest => some takeLampTest
  | .lampFaultClear x => some (takeLampFaultClear x)
  | .patternWrite n a b c g m => some (takePatternWrite n a b c g m)
  | .emergencyRaise => some takeEmergencyRaise
  | .emergencyClear => some takeEmergencyClear
  | .intercomMode m => some (takeIntercomMode m)
  | .intercomSettings a h m => some (takeIntercomSettings a h m)
  | .intercomDefaults => some takeIntercomDefaults
  | .intercomStatus => some takeIntercomStatus
  | .callAnswer => some takeCallAnswer
  | .callClear => some takeCallClear
  | .tonePlay x n p a b r => some (takeTonePlay x n p a b r)
  | .toneStop x => some (takeToneStop x)
  | .speakerStatus => some takeSpeakerStatus
  | .clockSet y mo d h mi se => some (takeClockSet ⟨y, mo, d, h, mi, se⟩)
  | .clockRead => some takeClockRead
  | .retainedStatus => some takeRetainedStatus
  | .factoryClear => some takeFactoryClear
  | .partIdent => some takePartIdent
  | .linkConfig r => some (takeLinkConfig r)
  | .linkStatus c => some (takeLinkStatus c)
  | .linkReset => some takeLinkReset
  | .noticeMode m => some (takeNoticeMode m)
  | .noticeMask o k => some (takeNoticeMask o k)
  | .noticeFetch => some takeNoticeFetch
  | .echoOn => some takeEchoOn
  | .echoOff => some takeEchoOff
  | .dpulseChange _ | .filterWindowExpiry | .secondTick | .clockWrap | .minuteBoundary
  | .calenChange _ | .tipTimerExpiry | .responseTimerExpiry | .abortTimerExpiry
  | .retryIdleTimerExpiry | .resendTimerExpiry _ | .tlByteArrival _ _ | .frameReaderTake
  | .tProgress _ _ | .tApproved _ _ _ | .tDeclined _ _ | .tAborted _ | .tReversed _ | .tStatus _ _
  | .heartbeatExpiry | .tlCtsChange _ | .tlFrameSent | .sendTimerExpiry | .patternPhaseEnd _
  | .lampSenseChange _ _ | .darkTimerExpiry _ | .emergChange _ | .emergHold1s | .clearWindowEnd
  | .voxChange _ _ | .attackExpiry _ | .pttPress | .pttRelease | .hangTimerExpiry | .maxTalkExpiry
  | .callButtonChange _ _ | .callPressTaken _ | .callWindowEnd | .tonePhaseEnd _ | .supplyFail
  | .resetnAssert | .batteryFail | .restart | .controlFrameReceived _ | .controlGap | .lineBreak _
  | .unlistedKind _ | .frameEcho _ | .replySent | .linkRateSwitch | .linkResetApply
  | .noticeFrameStart | .noticeFrameEnd | .echoModeBegin | .controlFrameDiscard _ => none

/-! ### Taking frames (R170, R171, R175) -/

/-- The code of ECHO_OFF. -/
def echoOffCode : Nat := ReqKind.echoOff.code

/-- The request of a decoded frame is taken. -/
def takeDecoded (d : Decoded) (s : State) : Taken :=
  match d with
  | .unknownKind => refuse .unknownKind s
  | .badLength => refuse .badLength s
  | .request c =>
    match ruleOf c with
    | some rule => rule s
    | none => refuse .unknownKind s

/-- The rule by which a frame is taken: in echo mode ECHO_OFF fits with any body (R175). -/
def takeBody (f : Sys2Proof.Frame) (s : State) : Taken :=
  if s.link.echo then takeEchoOff s else takeDecoded (decodeRequest f.kind f.body) s

/-- The link echoes a kind instead of taking it (R175). -/
def echoes (l : ControlLink) (kind : Nat) : Bool := l.echo && kind != echoOffCode

/-- The handling place holds a kind, and what is being sent for it. -/
def occupy (h : Handling) (s : State) : State := setLink (fun l => { l with handling := some h }) s

/-- A kind in the handling place is taken by a rule, or echoed. -/
def handle (kind : Nat) (frame : Option Sys2Proof.Frame) (rule : State → Taken) (s : State) : State :=
  if echoes s.link kind then occupy ⟨kind, frame, .echo⟩ s
  else occupy ⟨kind, frame, .answer (rule s).2⟩ (rule s).1

/-- A frame in the handling place is taken. -/
def takeFrame (f : Sys2Proof.Frame) (s : State) : State := handle f.kind.toNat (some f) (takeBody f) s

/-- A frame being assembled is discarded, and the gap-discard count adds 1 (R170); a hunting receiver is
left as it is. -/
def ControlLink.gap (l : ControlLink) : ControlLink :=
  match l.receiver with
  | .hunting => l
  | .assembling _ => { l with receiver := .hunting, gapCount := incU16 l.gapCount }

/-- A link reset (R176). -/
def ControlLink.reset (l : ControlLink) : ControlLink :=
  { l with
    receiver := .hunting, handling := none, waiting := none, after := .nothing, queue := [], overrun := false
    stream := false, echo := false, enabled := BitVec.allOnes 20, noticeFrame := none }

/-- A byte being received at a change of rate is lost and its frame is discarded, counted as a gap (R168,
log 13); between two bytes a frame goes on being assembled. -/
def ControlLink.losesByte (l : ControlLink) (receiving : Bool) : ControlLink :=
  match l.receiver with
  | .hunting => l
  | .assembling _ => if receiving then l.gap else l

/-- What was to follow a reply takes place (R168, R175, R176). -/
def ControlLink.follow (l : ControlLink) (receiving : Bool) : AfterReply → ControlLink
  | .nothing => l
  | .rateSwitch rate => { l.losesByte receiving with rate := rate }
  | .linkReset => l.reset
  | .echoBegin => { l with echo := true }

/-- The reply has been sent whole: the handling place empties, and what was to follow takes place. -/
def ControlLink.replyGone (receiving : Bool) (l : ControlLink) : ControlLink :=
  { l with handling := none, after := .nothing }.follow receiving l.after

/-- The waiting frame moves to the handling place and is taken (R170). -/
def takeWaiting (s : State) : State :=
  match s.link.waiting with
  | some f => takeFrame f (setLink (fun l => { l with waiting := none }) s)
  | none => s

/-- What is to follow a reply is a change of rate. -/
def AfterReply.isRate : AfterReply → Bool
  | .rateSwitch _ => true
  | _ => false

/-- A change of rate follows the reply while a frame is being assembled. -/
def ControlLink.mayLoseByte (l : ControlLink) : Bool := l.after.isRate && l.receiver != .hunting

/-- The reply in handling goes (R170). Whether a byte is being received then, which a change of rate loses,
is a free value (log 13). -/
def finishReply (s : State) : State :=
  let s1 := setLink (ControlLink.replyGone (Config.byteBeingReceived s.freeCount)) s
  takeWaiting (if s.link.mayLoseByte then { s1 with freeCount := s.freeCount + 1 } else s1)

/-- A reply is being sent: a frame is in handling and no notice frame is still on the line (R174). -/
def ControlLink.sendsReply (l : ControlLink) : Bool := l.handling.isSome && l.noticeFrame.isNone

/-- The reply being sent has been sent whole. -/
def replyIsSent (s : State) : State := if s.link.sendsReply then finishReply s else s

/-- REPLY_SENT: the handling place empties and the waiting frame is taken. -/
def execReplySent (s : State) : Res := .next (whileRunning replyIsSent s)

/-- LINK_RATE_SWITCH: the LINK_CONFIG reply has been sent, and the new rate takes effect (R168, log 9). -/
def execLinkRateSwitch (s : State) : Res :=
  .next (whileRunning (fun t => if t.link.after.isRate then replyIsSent t else t) s)

/-- LINK_RESET_APPLY: the LINK_RESET reply has been sent, and the reset takes place (log 9). -/
def execLinkResetApply (s : State) : Res :=
  .next (whileRunning (fun t => if t.link.after = .linkReset then replyIsSent t else t) s)

/-- ECHO_MODE_BEGIN: the ECHO_ON reply has been sent, and echo mode begins (log 9). -/
def execEchoModeBegin (s : State) : Res :=
  .next (whileRunning (fun t => if t.link.after = .echoBegin then replyIsSent t else t) s)

/-! ### Frames on the line (R170) -/

/-- A third frame is discarded (R170). -/
def ControlLink.overruns (l : ControlLink) : ControlLink :=
  { l with overrun := true, overrunCount := incU16 l.overrunCount }

/-- A sound frame is placed (R170). -/
def placeFrame (f : Sys2Proof.Frame) (s : State) : State :=
  match s.link.handling, s.link.waiting with
  | none, _ => takeFrame f s
  | some _, none => setLink (fun l => { l with waiting := some f }) s
  | some _, some _ => setLink ControlLink.overruns s

/-! ### The receiver (R170) -/

/-- A frame being assembled has had no byte for at least 30 ms. -/
def ControlLink.gapOver (l : ControlLink) : Bool :=
  match l.receiver with
  | .hunting => false
  | .assembling _ => 3 ≤ l.quiet

/-- A gap that has passed is taken before what follows it on the line. -/
def ControlLink.settleGap (l : ControlLink) : ControlLink := if l.gapOver then l.gap else l

/-- A byte has arrived: it leaves the receiver as given. -/
def ControlLink.receives (r : Reader) (l : ControlLink) : ControlLink := { l with receiver := r, quiet := 0 }

/-- The bytes from the length to the CRC are a frame whose CRC matches. -/
def crcMatches (bytes : List Byte) : Bool :=
  numberOf (bytes.drop (bytes.length - 2)) == (crc16 (bytes.take (bytes.length - 2))).toNat

/-- The frame of the bytes from the length to the CRC (R169). -/
def frameOf (bytes : List Byte) : Sys2Proof.Frame :=
  ⟨bytes.getD 1 0, bytes.getD 2 0, (bytes.drop 3).take (bytes.length - 5)⟩

/-- The last byte of a frame has been received: a sound frame is placed, any other is discarded. -/
def frameEnds (bytes : List Byte) (s : State) : State :=
  let s1 := setLink (ControlLink.receives .hunting) s
  if crcMatches bytes then placeFrame (frameOf bytes) s1
  else setLink (fun l => { l with crcCount := incU16 l.crcCount }) s1

/-- A byte is received while a frame is being assembled. -/
def assembleControl (taken : List Byte) (b : Byte) (s : State) : State :=
  match taken with
  | [] =>
    if 2 ≤ b.toNat ∧ b.toNat ≤ 250 then setLink (ControlLink.receives (.assembling [b])) s
    else
      setLink (fun l => { l.receives .hunting with lengthCount := incU16 l.lengthCount }) s
  | n :: _ =>
    if taken.length < n.toNat + 2 then setLink (ControlLink.receives (.assembling (taken ++ [b]))) s
    else frameEnds (taken ++ [b]) s

/-- A byte arrives on CL_RX: after a gap it is treated as one received while hunting (R170). -/
def controlByte (s : State) (b : Byte) : State :=
  let s1 := setLink ControlLink.settleGap s
  match s1.link.receiver with
  | .hunting => setLink (ControlLink.receives (if b = 0xA5#8 then .assembling [] else .hunting)) s1
  | .assembling taken => assembleControl taken b s1

/-- CONTROL_FRAME_DISCARD: bytes arrive on CL_RX without a gap between them, and the receiver discards
the frame they make and counts it (R170). The row carries the bytes themselves: a sound frame among them
is placed, and the bytes of a frame not yet whole stay being assembled (log 13). -/
def execControlFrameDiscard (bytes : List Byte) (s : State) : Res :=
  .next (whileRunning (fun t => bytes.foldl controlByte t) s)

/-- The last byte of a sound frame has been received. -/
def frameArrives (f : Sys2Proof.Frame) (s : State) : State :=
  placeFrame f (setLink (fun l => l.settleGap.receives .hunting) s)

/-- CONTROL_FRAME_RECEIVED: a sound frame arrives. -/
def execControlFrameReceived (f : Sys2Proof.Frame) (s : State) : Res :=
  .next (whileRunning (frameArrives f) s)

/-- CONTROL_GAP: a gap within a frame discards it. -/
def execControlGap (s : State) : Res := .next (whileRunning (setLink ControlLink.gap) s)

/-- A frame is being assembled: one whose bytes the receiver has, or one that began with bytes that no
row has given (log 13). -/
def ControlLink.midFrame (l : ControlLink) (untold : Bool) : ControlLink :=
  if untold && l.receiver = .hunting then { l with receiver := .assembling [] } else l

/-- A break of 50 ms: a frame being assembled is discarded as a gap, and the link resets. -/
def ControlLink.breaks (l : ControlLink) (untold : Bool) : ControlLink := (l.midFrame untold).gap.reset

/-- BREAK: CL_RX is held at the break level for 50 ms; the operand tells of a frame whose bytes no row has
given (log 13). -/
def execLineBreak (midFrame : Bool) (s : State) : Res :=
  .next (whileRunning (setLink (fun l => l.breaks midFrame)) s)

/-! ### Notices on the line (R174) -/

/-- A notice frame may begin. -/
def ControlLink.mayStream (l : ControlLink) : Bool :=
  l.stream && l.handling.isNone && !l.echo && l.noticeFrame.isNone && !l.queue.isEmpty

/-- The oldest notice leaves the queue as its frame begins. -/
def ControlLink.beginNotice (l : ControlLink) : ControlLink :=
  if l.mayStream then { l with noticeFrame := l.queue.head?, queue := l.queue.drop 1 } else l

/-- NOTICE_FRAME_START: in STREAM, the oldest notice begins to be sent. -/
def execNoticeFrameStart (s : State) : Res := .next (whileRunning (setLink ControlLink.beginNotice) s)

/-- NOTICE_FRAME_END: the notice frame has been sent whole. -/
def execNoticeFrameEnd (s : State) : Res :=
  .next (whileRunning (setLink (fun l => { l with noticeFrame := none })) s)

/-! ### Requests given as commands (log 7) -/

/-- A notice frame on the line and the replies of earlier requests have gone, before a request given
as a command comes to the handling place. -/
def repliesGone (s : State) : State :=
  let quiet (t : State) : State := setLink (fun l => { l with noticeFrame := none }) t
  match s.link.handling with
  | some _ => replyIsSent (replyIsSent (quiet s))
  | none => s

/-- A request of a kind is given to its block as a command (log 7). -/
def hostRequest (k : ReqKind) (rule : State → Taken) (s : State) : State :=
  whileRunning (fun t => handle k.code none rule (repliesGone t)) s

/-- A frame of a kind that Table 12-3 does not list is answered UNKNOWN_KIND (R171). -/
def unlisted (kind : Byte) (s : State) : State :=
  match reqKind? kind.toNat with
  | some _ => s
  | none => handle kind.toNat none (refuse .unknownKind) (repliesGone s)

/-- UNLISTED_KIND: a frame of an unlisted kind is taken. -/
def execUnlistedKind (kind : Byte) (s : State) : Res := .next (whileRunning (unlisted kind) s)

/-- In echo mode a frame is held and sent back unchanged (R175). -/
def echoFrame (f : Sys2Proof.Frame) (s : State) : State :=
  if echoes (repliesGone s).link f.kind.toNat then
    occupy ⟨f.kind.toNat, some f, .echo⟩ (repliesGone s)
  else s

/-- FRAME_ECHO: in echo mode a frame is sent back in place of a reply. -/
def execFrameEcho (f : Sys2Proof.Frame) (s : State) : Res := .next (whileRunning (echoFrame f) s)

end Sys2Proof.Machine
end

