-- ==== Sys2Proof/Machine/Base.lean ====
section
/-!
DEFINITION. What the part does of itself while no command waits (R161, log 3): an event of its own that
is due comes next, and where none is due one step of the 10 ms base passes.
-/

namespace Sys2Proof.Machine

/-! ### One step of the 10 ms base (R161) -/

/-- A count of base steps left, one step on. -/
def countDown (o : Option Nat) : Option Nat := o.map (· - 1)

/-- The settlement unit's timers, one step on. -/
def Settlement.baseStep (u : Settlement) : Settlement :=
  { u with
    timer := u.timer.map (fun (t : SessionTimer) => { t with left := t.left - 1 })
    saleLeft := u.saleLeft - 1
    reversals := u.reversals.map (fun (e : Reversal) => { e with left := e.left - 1 }) }

/-- The tender link's timers, one step on. While TL_CTS is asserted the bytes of one base step are
started: 38 of the 3840 a second (R86, R93, log 24). -/
def TenderLink.baseStep (cts : Bool) (t : TenderLink) : TenderLink :=
  { t with
    heartbeat := t.heartbeat - 1
    sendLeft := t.sendLeft - 1
    headStarted := if cts then (t.starts 38).headStarted else t.headStarted
    sinceByte := t.sinceByte.map (fun n => satAdd 6 n 1)
    sinceFrame := t.sinceFrame.map (fun n => satAdd 6553500 n 1) }

/-- The control link's time since its last byte, one step on. -/
def ControlLink.baseStep (l : ControlLink) : ControlLink := { l with quiet := satAdd 3 l.quiet 1 }

/-- A hold of the EMERG switch, one step on. -/
def Hold.baseStep (h : Hold) : Hold := { h with held := satAdd 100 h.held 1 }

/-- A dark timer, one step on while its lamp is dark (R133). -/
def Sign.darkStep (g : Sign) (sense : LampSet) (x : Lamp) : Nat :=
  if g.isDark sense x then satAdd 5 (g.dark.get x) 1 else 0

/-- The sign controller's timers, one step on. -/
def Sign.baseStep (g : Sign) (sense : LampSet) : Sign :=
  { g with
    generator :=
      ⟨g.generator.free.countStep, g.generator.panel.countStep, g.generator.share.countStep⟩
    dark := ⟨g.darkStep sense .free, g.darkStep sense .panel, g.darkStep sense .share⟩
    hold := g.hold.map Hold.baseStep
    clearWindow := countDown g.clearWindow }

/-- A qualifier, one step on. -/
def Qualifier.baseStep : Qualifier → Qualifier
  | .attack n => .attack (n - 1)
  | .low => .low
  | .qualified => .qualified

/-- A press qualifier, one step on. -/
def Press.baseStep : Press → Press
  | .pressing n => .pressing (n - 1)
  | .released => .released
  | .taken => .taken

/-- The intercom controller's timers, one step on. -/
def Intercom.baseStep (n : Intercom) : Intercom :=
  { n with
    vox := ⟨n.vox.front.baseStep, n.vox.rear.baseStep⟩
    hangLeft := countDown n.hangLeft
    talk := n.talk.map (fun (t : TalkTimer) => { t with left := t.left - 1 })
    window := countDown n.window
    press := ⟨n.press.f.baseStep, n.press.l.baseStep, n.press.c.baseStep, n.press.r.baseStep⟩ }

/-- A speaker's tone, one step on. -/
def SpeakerState.baseStep (p : SpeakerState) : SpeakerState :=
  { p with service := p.service.map (fun (t : Playing) => { t with left := t.left - 1 }) }

/-- The clock's base period ends; at the end of period 99 the second tick falls (R161). -/
def Clock.baseStep (c : Clock) : Clock :=
  if 99 ≤ c.period then { c with period := 0, secondDue := true } else { c with period := c.period + 1 }

/-- Every block's timers, one step on. -/
def timersStep (s : State) : State :=
  { s with
    odo := { s.odo with timing := s.odo.timing.map (· + 1) }
    settle := s.settle.baseStep
    tender := s.tender.baseStep s.pins.cts
    link := s.link.baseStep
    sign := s.sign.baseStep s.pins.sense
    intercom := s.intercom.baseStep
    speakers := ⟨s.speakers.front.baseStep, s.speakers.rear.baseStep⟩ }

/-- One step of the 10 ms base; while the part is stopped the clock alone goes on (R164). -/
def baseStep (s : State) : State := whileRunning timersStep { s with clock := s.clock.baseStep }

/-! ### Events that are due (log 6) -/

/-- A command where a condition holds. -/
def dueIf (b : Bool) (c : Instr) : List Instr := if b then [c] else []

/-- The row of a message handed on. -/
def messageRow : TermMsg → Instr
  | .progress r x => .tProgress r x
  | .approved r n a => .tApproved r n a
  | .declined r n => .tDeclined r n
  | .aborted r => .tAborted r
  | .reversed r => .tReversed r
  | .status x n => .tStatus x n

/-- The links' events that are due. -/
def dueOnLinks (s : State) : List Instr :=
  (s.tender.handedOn.map messageRow).toList
    ++ dueIf (s.tender.handedOn.isNone && !s.tender.ring.isEmpty) .frameReaderTake
    ++ dueIf s.link.mayStream .noticeFrameStart ++ dueIf s.link.gapOver .controlGap

/-- The second tick, where it has fallen. -/
def dueTick (c : Clock) : List Instr :=
  dueIf c.secondDue (if c.count < lastCount then .secondTick else .clockWrap)

/-- The row of a session timer. -/
def timerRow : SessionTimerKind → Instr
  | .tip => .tipTimerExpiry
  | .response => .responseTimerExpiry
  | .abort => .abortTimerExpiry
  | .retryIdle => .retryIdleTimerExpiry

/-- The settlement unit's timers that have run out. -/
def dueOnSettlement (u : Settlement) : List Instr :=
  (match u.timer with
    | some t => dueIf (t.left == 0) (timerRow t.kind)
    | none => [])
  ++ (match u.reversals.findIdx? (fun e => e.left == 0) with
    | some i => [.resendTimerExpiry i]
    | none => [])

/-- The head frame that has gone whole, and the tender link's timers that have run out. -/
def dueOnTender (t : TenderLink) : List Instr :=
  dueIf (t.heartbeat == 0) .heartbeatExpiry
    ++ dueIf (t.headStarted == t.headLength && !t.queue.isEmpty) .tlFrameSent
    ++ dueIf (t.sendLeft == 0 && !t.queue.isEmpty) .sendTimerExpiry

/-- A lamp's events that are due. -/
def dueOnLamp (g : Sign) (sense : LampSet) (x : Lamp) : List Instr :=
  dueIf (g.generator.get x).phaseOver (.patternPhaseEnd x)
    ++ dueIf (5 ≤ g.dark.get x && g.isDark sense x && !g.fault.get x) (.darkTimerExpiry x)

/-- The sign controller's events that are due. -/
def dueOnSign (g : Sign) (sense : LampSet) : List Instr :=
  dueOnLamp g sense .free ++ dueOnLamp g sense .panel ++ dueOnLamp g sense .share
    ++ dueIf (g.clearWindow == some 0) .clearWindowEnd
    ++ dueIf (g.hold.any (fun h => 100 ≤ h.held && !h.reached)) .emergHold1s

/-- The intercom controller's events that are due. -/
def dueOnIntercom (n : Intercom) : List Instr :=
  dueIf (n.vox.front == .attack 0) (.attackExpiry .front)
    ++ dueIf (n.vox.rear == .attack 0) (.attackExpiry .rear)
    ++ dueIf (n.hangLeft == some 0) .hangTimerExpiry
    ++ dueIf (n.talk.any (fun t => t.left == 0)) .maxTalkExpiry
    ++ (allSeats.filter (fun x => n.press.get x == .pressing 0)).map .callPressTaken
    ++ dueIf (n.window == some 0) .callWindowEnd

/-- A tone's phase has run out. -/
def SpeakerState.phaseOver (p : SpeakerState) : Bool := p.service.any (fun t => t.left == 0)

/-- The speakers' events that are due. -/
def dueOnSpeakers (p : PerSpeaker SpeakerState) : List Instr :=
  dueIf p.front.phaseOver (.tonePhaseEnd .front) ++ dueIf p.rear.phaseOver (.tonePhaseEnd .rear)

/-- The events of the running part that are due, in the order the model takes them (log 6). A filter
timing is over at the first base step after it began (log 5). -/
def dueWhileRunning (s : State) : List Instr :=
  dueOnLinks s ++ dueIf (s.odo.timing.any (fun n => 1 ≤ n)) .filterWindowExpiry ++ dueTick s.clock
    ++ dueIf s.clock.minuteDue .minuteBoundary ++ dueOnSettlement s.settle ++ dueOnTender s.tender
    ++ dueOnSign s.sign s.pins.sense ++ dueOnIntercom s.intercom ++ dueOnSpeakers s.speakers

/-- The events that are due; while the part is stopped, the second tick alone. -/
def dueEvents (s : State) : List Instr :=
  match s.power with
  | .running => dueWhileRunning s
  | .supplyFailed | .resetHeld => dueTick s.clock

/-- What the part does of itself: the first due event becomes the waiting command, else a base step
passes. -/
def idle (s : State) : State :=
  match dueEvents s with
  | c :: _ => { s with pending := [c] }
  | [] => baseStep s

end Sys2Proof.Machine
end

