-- ==== Sys2Proof/Machine/HostRequests.lean ====
section
/-!
DEFINITION. The meaning of each host request given as a command: its rule is taken by its block, and its
answer stands in the handling place until it has been sent (R170, R171, log 7).
-/

namespace Sys2Proof.Machine

/-- ODO_STATUS (R11). -/
def execOdoStatus (s : State) : Res := .next (hostRequest .odoStatus takeOdoStatus s)

/-- DPULSE_CONFIG (R2). -/
def execDpulseConfig (polarity window : Nat) (s : State) : Res :=
  .next (hostRequest .dpulseConfig (takeDpulseConfig polarity window) s)

/-- CAL_SET_K (R4). -/
def execCalSetK (k : Nat) (s : State) : Res := .next (hostRequest .calSetK (takeCalSetK k) s)

/-- CAL_MEASURE_START (R8). -/
def execCalMeasureStart (s : State) : Res :=
  .next (hostRequest .calMeasureStart takeCalMeasureStart s)

/-- CAL_MEASURE_STOP (R9). -/
def execCalMeasureStop (s : State) : Res := .next (hostRequest .calMeasureStop takeCalMeasureStop s)

/-- TARIFF_WRITE (R17). -/
def execTariffWrite (number : Nat) (fields : TariffFields) (s : State) : Res :=
  .next (hostRequest .tariffWrite (takeTariffWrite number fields) s)

/-- TARIFF_READ (R18). -/
def execTariffRead (number : Nat) (s : State) : Res :=
  .next (hostRequest .tariffRead (takeTariffRead number) s)

/-- SCHEDULE_WRITE (R30). -/
def execScheduleWrite (entry days startMinute tariff : Nat) (s : State) : Res :=
  .next (hostRequest .scheduleWrite (takeScheduleWrite entry days startMinute tariff) s)

/-- SCHEDULE_READ (R34). -/
def execScheduleRead (s : State) : Res := .next (hostRequest .scheduleRead takeScheduleRead s)

/-- EXTRA_KIND_WRITE (R35). -/
def execExtraKindWrite (number isDefined : Nat) (name : Text) (amount limit : Nat)
    (s : State) : Res :=
  .next (hostRequest .extraKindWrite (takeExtraKindWrite number isDefined name amount limit) s)

/-- EXTRA_KIND_READ (R36). -/
def execExtraKindRead (number : Nat) (s : State) : Res :=
  .next (hostRequest .extraKindRead (takeExtraKindRead number) s)

/-- CAL_STATUS (R21). -/
def execCalStatus (s : State) : Res := .next (hostRequest .calStatus takeCalStatus s)

/-- LEG_START (R42). -/
def execLegStart (seats tariff consent : Nat) (s : State) : Res :=
  .next (hostRequest .legStart (takeLegStart seats tariff consent) s)

/-- LEG_STOP (R44). -/
def execLegStop (slot : Nat) (s : State) : Res := .next (hostRequest .legStop (takeLegStop slot) s)

/-- LEG_RESUME (R46). -/
def execLegResume (slot : Nat) (s : State) : Res :=
  .next (hostRequest .legResume (takeLegResume slot) s)

/-- LEG_VOID (R47). -/
def execLegVoid (slot : Nat) (s : State) : Res := .next (hostRequest .legVoid (takeLegVoid slot) s)

/-- LEG_TARIFF (R48). -/
def execLegTariff (slot tariff : Nat) (s : State) : Res :=
  .next (hostRequest .legTariff (takeLegTariff slot tariff) s)

/-- LEG_EXTRA_ADD (R50). -/
def execLegExtraAdd (slot kind amount : Nat) (s : State) : Res :=
  .next (hostRequest .legExtraAdd (takeLegExtraAdd slot kind amount) s)

/-- LEG_EXTRA_REMOVE (R51). -/
def execLegExtraRemove (slot : Nat) (s : State) : Res :=
  .next (hostRequest .legExtraRemove (takeLegExtraRemove slot) s)

/-- LEG_READ (R52). -/
def execLegRead (slot : Nat) (s : State) : Res := .next (hostRequest .legRead (takeLegRead slot) s)

/-- SHARE_SET (R40). -/
def execShareSet (enabled : Nat) (s : State) : Res :=
  .next (hostRequest .shareSet (takeShareSet enabled) s)

/-- PAY_SETTINGS_WRITE (R61). -/
def execPaySettingsWrite (fields : SettingsFields) (s : State) : Res :=
  .next (hostRequest .paySettingsWrite (takePaySettingsWrite fields) s)

/-- PAY_SETTINGS_READ (R61). -/
def execPaySettingsRead (s : State) : Res :=
  .next (hostRequest .paySettingsRead takePaySettingsRead s)

/-- PAY_BEGIN (R63). -/
def execPayBegin (legs tender tipOffer : Nat) (s : State) : Res :=
  .next (hostRequest .payBegin (takePayBegin legs tender tipOffer) s)

/-- PAY_TIP (R69). -/
def execPayTip (selector value : Nat) (s : State) : Res :=
  .next (hostRequest .payTip (takePayTip selector value) s)

/-- PAY_AUTHORISE (R77). -/
def execPayAuthorise (s : State) : Res := .next (hostRequest .payAuthorise takePayAuthorise s)

/-- PAY_CASH (R77). -/
def execPayCash (s : State) : Res := .next (hostRequest .payCash takePayCash s)

/-- PAY_CANCEL (R75). -/
def execPayCancel (s : State) : Res := .next (hostRequest .payCancel takePayCancel s)

/-- PAY_STATUS (R82). -/
def execPayStatus (s : State) : Res := .next (hostRequest .payStatus takePayStatus s)

/-- TERMINAL_STATUS (R97). -/
def execTerminalStatus (clear : Nat) (s : State) : Res :=
  .next (hostRequest .terminalStatus (takeTerminalStatus clear) s)

/-- SHIFT_OPEN (R101). -/
def execShiftOpen (driver : Text) (s : State) : Res :=
  .next (hostRequest .shiftOpen (takeShiftOpen driver) s)

/-- SHIFT_CLOSE (R107). -/
def execShiftClose (s : State) : Res := .next (hostRequest .shiftClose takeShiftClose s)

/-- SHIFT_READ (R111). -/
def execShiftRead (s : State) : Res := .next (hostRequest .shiftRead takeShiftRead s)

/-- REPORT_LIST (R110). -/
def execReportList (s : State) : Res := .next (hostRequest .reportList takeReportList s)

/-- REPORT_READ (R110). -/
def execReportRead (number : Nat) (s : State) : Res :=
  .next (hostRequest .reportRead (takeReportRead number) s)

/-- TRIP_READ (R121). -/
def execTripRead (number : Nat) (s : State) : Res :=
  .next (hostRequest .tripRead (takeTripRead number) s)

/-- TRIP_NEXT_UNREAD (R122). -/
def execTripNextUnread (s : State) : Res := .next (hostRequest .tripNextUnread takeTripNextUnread s)

/-- JOURNAL_STATUS (R123). -/
def execJournalStatus (s : State) : Res := .next (hostRequest .journalStatus takeJournalStatus s)

/-- SIGN_MODE (R126). -/
def execSignMode (mode choice : Nat) (s : State) : Res :=
  .next (hostRequest .signMode (takeSignMode mode choice) s)

/-- SIGN_STATUS (R138). -/
def execSignStatus (s : State) : Res := .next (hostRequest .signStatus takeSignStatus s)

/-- LAMP_TEST (R137). -/
def execLampTest (s : State) : Res := .next (hostRequest .lampTest takeLampTest s)

/-- LAMP_FAULT_CLEAR (R134). -/
def execLampFaultClear (lamps : Nat) (s : State) : Res :=
  .next (hostRequest .lampFaultClear (takeLampFaultClear lamps) s)

/-- PATTERN_WRITE (R132). -/
def execPatternWrite (name onUnits offUnits burst gap mode : Nat) (s : State) : Res :=
  .next (hostRequest .patternWrite (takePatternWrite name onUnits offUnits burst gap mode) s)

/-- EMERGENCY_RAISE (R135). -/
def execEmergencyRaise (s : State) : Res := .next (hostRequest .emergencyRaise takeEmergencyRaise s)

/-- EMERGENCY_CLEAR (R135). -/
def execEmergencyClear (s : State) : Res := .next (hostRequest .emergencyClear takeEmergencyClear s)

/-- INTERCOM_MODE (R141). -/
def execIntercomMode (mode : Nat) (s : State) : Res :=
  .next (hostRequest .intercomMode (takeIntercomMode mode) s)

/-- INTERCOM_SETTINGS (R147). -/
def execIntercomSettings (attack hang maxTalk : Nat) (s : State) : Res :=
  .next (hostRequest .intercomSettings (takeIntercomSettings attack hang maxTalk) s)

/-- INTERCOM_DEFAULTS (R147). -/
def execIntercomDefaults (s : State) : Res :=
  .next (hostRequest .intercomDefaults takeIntercomDefaults s)

/-- INTERCOM_STATUS (R150). -/
def execIntercomStatus (s : State) : Res := .next (hostRequest .intercomStatus takeIntercomStatus s)

/-- CALL_ANSWER (R149). -/
def execCallAnswer (s : State) : Res := .next (hostRequest .callAnswer takeCallAnswer s)

/-- CALL_CLEAR (R149). -/
def execCallClear (s : State) : Res := .next (hostRequest .callClear takeCallClear s)

/-- TONE_PLAY (R158). -/
def execTonePlay (speaker level pitch onTime : Nat) (offTime : Int) (repeats : Nat)
    (s : State) : Res :=
  .next (hostRequest .tonePlay (takeTonePlay speaker level pitch onTime offTime repeats) s)

/-- TONE_STOP (R158). -/
def execToneStop (which : Nat) (s : State) : Res :=
  .next (hostRequest .toneStop (takeToneStop which) s)

/-- SPEAKER_STATUS (R159). -/
def execSpeakerStatus (s : State) : Res := .next (hostRequest .speakerStatus takeSpeakerStatus s)

/-- CLOCK_SET (R163). -/
def execClockSet (year month day hour minute second : Nat) (s : State) : Res :=
  .next (hostRequest .clockSet (takeClockSet ⟨year, month, day, hour, minute, second⟩) s)

/-- CLOCK_READ (R163). -/
def execClockRead (s : State) : Res := .next (hostRequest .clockRead takeClockRead s)

/-- RETAINED_STATUS (R165). -/
def execRetainedStatus (s : State) : Res := .next (hostRequest .retainedStatus takeRetainedStatus s)

/-- FACTORY_CLEAR (R167). -/
def execFactoryClear (s : State) : Res := .next (hostRequest .factoryClear takeFactoryClear s)

/-- PART_IDENT (R167). -/
def execPartIdent (s : State) : Res := .next (hostRequest .partIdent takePartIdent s)

/-- LINK_CONFIG (R168). -/
def execLinkConfig (rate : Nat) (s : State) : Res :=
  .next (hostRequest .linkConfig (takeLinkConfig rate) s)

/-- LINK_STATUS (R176). -/
def execLinkStatus (clear : Nat) (s : State) : Res :=
  .next (hostRequest .linkStatus (takeLinkStatus clear) s)

/-- LINK_RESET (R176). -/
def execLinkReset (s : State) : Res := .next (hostRequest .linkReset takeLinkReset s)

/-- NOTICE_MODE (R174). -/
def execNoticeMode (mode : Nat) (s : State) : Res :=
  .next (hostRequest .noticeMode (takeNoticeMode mode) s)

/-- NOTICE_MASK (R173). -/
def execNoticeMask (operation kinds : Nat) (s : State) : Res :=
  .next (hostRequest .noticeMask (takeNoticeMask operation kinds) s)

/-- NOTICE_FETCH (R174). -/
def execNoticeFetch (s : State) : Res := .next (hostRequest .noticeFetch takeNoticeFetch s)

/-- ECHO_ON (R175). -/
def execEchoOn (s : State) : Res := .next (hostRequest .echoOn takeEchoOn s)

/-- ECHO_OFF (R175). -/
def execEchoOff (s : State) : Res := .next (hostRequest .echoOff takeEchoOff s)

end Sys2Proof.Machine
end

