-- ==== Sys2Proof/Machine/Dispatch.lean ====
section
/-!
DEFINITION. One arm for each command.
-/

namespace Sys2Proof.Machine

def exec (i : Instr) (s : State) : Host.Outcome State Fault Refusal :=
  match i with
  | .dpulseChange level => Sys2Proof.Machine.execDpulseChange level s
  | .filterWindowExpiry => Sys2Proof.Machine.execFilterWindowExpiry s
  | .secondTick => Sys2Proof.Machine.execSecondTick s
  | .clockWrap => Sys2Proof.Machine.execClockWrap s
  | .minuteBoundary => Sys2Proof.Machine.execMinuteBoundary s
  | .odoStatus => Sys2Proof.Machine.execOdoStatus s
  | .dpulseConfig polarity window => Sys2Proof.Machine.execDpulseConfig polarity window s
  | .calSetK k => Sys2Proof.Machine.execCalSetK k s
  | .calMeasureStart => Sys2Proof.Machine.execCalMeasureStart s
  | .calMeasureStop => Sys2Proof.Machine.execCalMeasureStop s
  | .tariffWrite number fields => Sys2Proof.Machine.execTariffWrite number fields s
  | .tariffRead number => Sys2Proof.Machine.execTariffRead number s
  | .scheduleWrite entry days startMinute tariff => Sys2Proof.Machine.execScheduleWrite entry days startMinute tariff s
  | .scheduleRead => Sys2Proof.Machine.execScheduleRead s
  | .extraKindWrite number isDefined name amount limit => Sys2Proof.Machine.execExtraKindWrite number isDefined name amount limit s
  | .extraKindRead number => Sys2Proof.Machine.execExtraKindRead number s
  | .calStatus => Sys2Proof.Machine.execCalStatus s
  | .calenChange level => Sys2Proof.Machine.execCalenChange level s
  | .legStart seats tariff consent => Sys2Proof.Machine.execLegStart seats tariff consent s
  | .legStop slot => Sys2Proof.Machine.execLegStop slot s
  | .legResume slot => Sys2Proof.Machine.execLegResume slot s
  | .legVoid slot => Sys2Proof.Machine.execLegVoid slot s
  | .legTariff slot tariff => Sys2Proof.Machine.execLegTariff slot tariff s
  | .legExtraAdd slot kind amount => Sys2Proof.Machine.execLegExtraAdd slot kind amount s
  | .legExtraRemove slot => Sys2Proof.Machine.execLegExtraRemove slot s
  | .legRead slot => Sys2Proof.Machine.execLegRead slot s
  | .shareSet enabled => Sys2Proof.Machine.execShareSet enabled s
  | .paySettingsWrite fields => Sys2Proof.Machine.execPaySettingsWrite fields s
  | .paySettingsRead => Sys2Proof.Machine.execPaySettingsRead s
  | .payBegin legs tender tipOffer => Sys2Proof.Machine.execPayBegin legs tender tipOffer s
  | .payTip selector value => Sys2Proof.Machine.execPayTip selector value s
  | .payAuthorise => Sys2Proof.Machine.execPayAuthorise s
  | .payCash => Sys2Proof.Machine.execPayCash s
  | .payCancel => Sys2Proof.Machine.execPayCancel s
  | .payStatus => Sys2Proof.Machine.execPayStatus s
  | .tipTimerExpiry => Sys2Proof.Machine.execTipTimerExpiry s
  | .responseTimerExpiry => Sys2Proof.Machine.execResponseTimerExpiry s
  | .abortTimerExpiry => Sys2Proof.Machine.execAbortTimerExpiry s
  | .retryIdleTimerExpiry => Sys2Proof.Machine.execRetryIdleTimerExpiry s
  | .resendTimerExpiry entry => Sys2Proof.Machine.execResendTimerExpiry entry s
  | .tlByteArrival byte afterGap => Sys2Proof.Machine.execTlByteArrival byte afterGap s
  | .frameReaderTake => Sys2Proof.Machine.execFrameReaderTake s
  | .tProgress ref stage => Sys2Proof.Machine.execTProgress ref stage s
  | .tApproved ref amount authCode => Sys2Proof.Machine.execTApproved ref amount authCode s
  | .tDeclined ref reason => Sys2Proof.Machine.execTDeclined ref reason s
  | .tAborted ref => Sys2Proof.Machine.execTAborted ref s
  | .tReversed ref => Sys2Proof.Machine.execTReversed ref s
  | .tStatus readiness askNumber => Sys2Proof.Machine.execTStatus readiness askNumber s
  | .heartbeatExpiry => Sys2Proof.Machine.execHeartbeatExpiry s
  | .tlCtsChange level => Sys2Proof.Machine.execTlCtsChange level s
  | .tlFrameSent => Sys2Proof.Machine.execTlFrameSent s
  | .sendTimerExpiry => Sys2Proof.Machine.execSendTimerExpiry s
  | .terminalStatus clear => Sys2Proof.Machine.execTerminalStatus clear s
  | .shiftOpen driver => Sys2Proof.Machine.execShiftOpen driver s
  | .shiftClose => Sys2Proof.Machine.execShiftClose s
  | .shiftRead => Sys2Proof.Machine.execShiftRead s
  | .reportList => Sys2Proof.Machine.execReportList s
  | .reportRead number => Sys2Proof.Machine.execReportRead number s
  | .tripRead number => Sys2Proof.Machine.execTripRead number s
  | .tripNextUnread => Sys2Proof.Machine.execTripNextUnread s
  | .journalStatus => Sys2Proof.Machine.execJournalStatus s
  | .signMode mode choice => Sys2Proof.Machine.execSignMode mode choice s
  | .patternPhaseEnd lamp => Sys2Proof.Machine.execPatternPhaseEnd lamp s
  | .lampSenseChange lamp level => Sys2Proof.Machine.execLampSenseChange lamp level s
  | .darkTimerExpiry lamp => Sys2Proof.Machine.execDarkTimerExpiry lamp s
  | .signStatus => Sys2Proof.Machine.execSignStatus s
  | .lampTest => Sys2Proof.Machine.execLampTest s
  | .lampFaultClear lamps => Sys2Proof.Machine.execLampFaultClear lamps s
  | .patternWrite name onUnits offUnits burst gap mode => Sys2Proof.Machine.execPatternWrite name onUnits offUnits burst gap mode s
  | .emergencyRaise => Sys2Proof.Machine.execEmergencyRaise s
  | .emergencyClear => Sys2Proof.Machine.execEmergencyClear s
  | .emergChange level => Sys2Proof.Machine.execEmergChange level s
  | .emergHold1s => Sys2Proof.Machine.execEmergHold1s s
  | .clearWindowEnd => Sys2Proof.Machine.execClearWindowEnd s
  | .voxChange side level => Sys2Proof.Machine.execVoxChange side level s
  | .attackExpiry side => Sys2Proof.Machine.execAttackExpiry side s
  | .pttPress => Sys2Proof.Machine.execPttPress s
  | .pttRelease => Sys2Proof.Machine.execPttRelease s
  | .hangTimerExpiry => Sys2Proof.Machine.execHangTimerExpiry s
  | .maxTalkExpiry => Sys2Proof.Machine.execMaxTalkExpiry s
  | .intercomMode mode => Sys2Proof.Machine.execIntercomMode mode s
  | .intercomSettings attack hang maxTalk => Sys2Proof.Machine.execIntercomSettings attack hang maxTalk s
  | .intercomDefaults => Sys2Proof.Machine.execIntercomDefaults s
  | .intercomStatus => Sys2Proof.Machine.execIntercomStatus s
  | .callButtonChange seat level => Sys2Proof.Machine.execCallButtonChange seat level s
  | .callPressTaken seat => Sys2Proof.Machine.execCallPressTaken seat s
  | .callAnswer => Sys2Proof.Machine.execCallAnswer s
  | .callClear => Sys2Proof.Machine.execCallClear s
  | .callWindowEnd => Sys2Proof.Machine.execCallWindowEnd s
  | .tonePhaseEnd speaker => Sys2Proof.Machine.execTonePhaseEnd speaker s
  | .tonePlay speaker level pitch onTime offTime repeats => Sys2Proof.Machine.execTonePlay speaker level pitch onTime offTime repeats s
  | .toneStop which => Sys2Proof.Machine.execToneStop which s
  | .speakerStatus => Sys2Proof.Machine.execSpeakerStatus s
  | .clockSet year month day hour minute second => Sys2Proof.Machine.execClockSet year month day hour minute second s
  | .clockRead => Sys2Proof.Machine.execClockRead s
  | .supplyFail => Sys2Proof.Machine.execSupplyFail s
  | .resetnAssert => Sys2Proof.Machine.execResetnAssert s
  | .batteryFail => Sys2Proof.Machine.execBatteryFail s
  | .restart => Sys2Proof.Machine.execRestart s
  | .retainedStatus => Sys2Proof.Machine.execRetainedStatus s
  | .factoryClear => Sys2Proof.Machine.execFactoryClear s
  | .partIdent => Sys2Proof.Machine.execPartIdent s
  | .controlFrameReceived frame => Sys2Proof.Machine.execControlFrameReceived frame s
  | .controlGap => Sys2Proof.Machine.execControlGap s
  | .lineBreak midFrame => Sys2Proof.Machine.execLineBreak midFrame s
  | .unlistedKind kind => Sys2Proof.Machine.execUnlistedKind kind s
  | .frameEcho frame => Sys2Proof.Machine.execFrameEcho frame s
  | .replySent => Sys2Proof.Machine.execReplySent s
  | .linkConfig rate => Sys2Proof.Machine.execLinkConfig rate s
  | .linkRateSwitch => Sys2Proof.Machine.execLinkRateSwitch s
  | .linkStatus clear => Sys2Proof.Machine.execLinkStatus clear s
  | .linkReset => Sys2Proof.Machine.execLinkReset s
  | .linkResetApply => Sys2Proof.Machine.execLinkResetApply s
  | .noticeMode mode => Sys2Proof.Machine.execNoticeMode mode s
  | .noticeMask operation kinds => Sys2Proof.Machine.execNoticeMask operation kinds s
  | .noticeFetch => Sys2Proof.Machine.execNoticeFetch s
  | .noticeFrameStart => Sys2Proof.Machine.execNoticeFrameStart s
  | .noticeFrameEnd => Sys2Proof.Machine.execNoticeFrameEnd s
  | .echoOn => Sys2Proof.Machine.execEchoOn s
  | .echoModeBegin => Sys2Proof.Machine.execEchoModeBegin s
  | .echoOff => Sys2Proof.Machine.execEchoOff s
  | .controlFrameDiscard bytes => Sys2Proof.Machine.execControlFrameDiscard bytes s

end Sys2Proof.Machine
end

