-- ==== Sys2Proof/Safety.lean ====
section
/-!
DEFINITION. What counts as a safe run, in the terms the statements use: which blocks an event may
change, how a request given as a command is answered, and the conditions that the manual says hold at
all times.
-/

namespace Sys2Proof.Machine

/-! ### Frames -/

/-- The parts of the state that a frame names. -/
inductive Block where
  | power | pins | odo | fare | settle | tender | shifts | journal | sign | intercom | speakers | clock
  | retained | link | pending | freeCount
deriving DecidableEq, Repr

/-- Every part of the state is as it was, except those listed. -/
def changesOnly (parts : List Block) (s t : State) : Prop :=
  (Block.power ∈ parts ∨ t.power = s.power) ∧ (Block.pins ∈ parts ∨ t.pins = s.pins)
    ∧ (Block.odo ∈ parts ∨ t.odo = s.odo) ∧ (Block.fare ∈ parts ∨ t.fare = s.fare)
    ∧ (Block.settle ∈ parts ∨ t.settle = s.settle) ∧ (Block.tender ∈ parts ∨ t.tender = s.tender)
    ∧ (Block.shifts ∈ parts ∨ t.shifts = s.shifts) ∧ (Block.journal ∈ parts ∨ t.journal = s.journal)
    ∧ (Block.sign ∈ parts ∨ t.sign = s.sign) ∧ (Block.intercom ∈ parts ∨ t.intercom = s.intercom)
    ∧ (Block.speakers ∈ parts ∨ t.speakers = s.speakers) ∧ (Block.clock ∈ parts ∨ t.clock = s.clock)
    ∧ (Block.retained ∈ parts ∨ t.retained = s.retained) ∧ (Block.link ∈ parts ∨ t.link = s.link)
    ∧ (Block.pending ∈ parts ∨ t.pending = s.pending)
    ∧ (Block.freeCount ∈ parts ∨ t.freeCount = s.freeCount)

/-- Every leg but one is as it was. -/
def otherLegsKept (i : Slot) (s t : State) : Prop := ∀ j, j ≠ i → t.leg j = s.leg j

/-- The tables of the fare engine are as they were. -/
def tablesKept (s t : State) : Prop :=
  t.fare.tariffs = s.fare.tariffs ∧ t.fare.schedule = s.fare.schedule ∧ t.fare.kinds = s.fare.kinds

/-- A leg after a change to a tariff is applied to it, or not applied (R26, R27, R28, R49). -/
def Leg.moved (l : Leg) (s : State) (n : Nat) : Leg :=
  if n ≠ l.tariff ∧ (s.fare.tariff n).isDefined = true
      ∧ (l.share = true → (s.fare.tariff n).sharePermitted = true) then
    { l with
      tariff := n
      q := carry (s.fare.tariff l.tariff) (s.fare.tariff n) l.q
      segments :=
        if l.segments.length < 4 then l.segments ++ [⟨n, 0, 0, 0⟩]
        else l.segments.take 3 ++ (l.segments.drop 3).map (fun g => { g with tariff := 0 }) }
  else l

/-- Where its kind is enabled, a notice with this payload is in the queue (R172). -/
def announced (k : NoticeKind) (payload : List Field) (t : State) : Prop :=
  t.link.isEnabled k = true → ⟨k, payload⟩ ∈ t.link.queue

/-- A raise of a kind has put nothing in the queue that was not there (R172). -/
def unraised (k : NoticeKind) (s t : State) : Prop :=
  ∀ payload, (⟨k, payload⟩ : Notice) ∈ t.link.queue → ⟨k, payload⟩ ∈ s.link.queue

/-! ### Requests and their answers -/

/-- A request given as a command is taken at once: the part runs, the handling place is empty and echo
mode is off. -/
def ready (s : State) : Prop :=
  s.power = .running ∧ s.link.handling = none ∧ s.link.echo = false

/-- The control link with an answer to a request of a kind in the handling place (R170). -/
def answering (k : ReqKind) (a : Answer) (l : ControlLink) : ControlLink :=
  { l with handling := some ⟨k.code, none, .answer a⟩ }

/-- The state with an answer to a request of a kind in the handling place, and nothing else changed. -/
def answered (k : ReqKind) (a : Answer) (s : State) : State := { s with link := answering k a s.link }

/-- What a command that is refused leaves: the refusal alone in its reply (R171), all else as it
was. -/
def refusedWith (k : ReqKind) (code : ReplyCode) (s : State) : State := answered k ⟨code, []⟩ s

/-- The reply in the handling place. -/
def replyIs (k : ReqKind) (a : Answer) (t : State) : Prop :=
  t.link.handling = some ⟨k.code, none, .answer a⟩

/-- The control link after the last byte of a sound frame: the receiver hunts, and a gap that had passed
in a frame begun before has been counted (R170). -/
def ControlLink.heard (l : ControlLink) : ControlLink :=
  { l with
    receiver := .hunting, quiet := 0
    gapCount := if l.receiver ≠ .hunting ∧ 3 ≤ l.quiet then min 65535 (l.gapCount + 1) else l.gapCount }

/-- `t` is `s` with this in the handling place. -/
def heldAs (f : Sys2Proof.Frame) (x : Sending) (s : State) : State :=
  { s with link := { s.link with handling := some ⟨f.kind.toNat, some f, x⟩ } }

/-- A frame in the handling place is taken in the state `s` and leaves `t` (R170, R171, R175): outside
echo mode a frame of no request kind or a wrong length is refused, and a request is taken as the command
it spells; in echo mode the frame is held to be sent back, but ECHO_OFF ends the mode. -/
def takenAs (f : Sys2Proof.Frame) (s t : State) : Prop :=
  (s.link.echo = false →
    (decodeRequest f.kind f.body = .unknownKind → t = heldAs f (.answer ⟨.unknownKind, []⟩) s)
    ∧ (decodeRequest f.kind f.body = .badLength → t = heldAs f (.answer ⟨.badLength, []⟩) s)
    ∧ ∀ c k vs, decodeRequest f.kind f.body = .request c → requestParts c = some (k, vs) →
      ∃ (a : Answer) (u : State), exec c s = .next (answered k a u) ∧ f.kind.toNat = k.code
        ∧ t = heldAs f (.answer a) u)
  ∧ (s.link.echo = true →
    (f.kind ≠ 0x67#8 → t = heldAs f .echo s)
    ∧ (f.kind = 0x67#8 →
      t = heldAs f (.answer ⟨.ok, []⟩) { s with link := { s.link with echo := false } }))

/-- A change of the accepted level to `level` is a counted pulse under a polarity (R1). -/
def pulseEdge (p : Polarity) (level : Bool) : Bool :=
  match p with
  | .rising => level
  | .falling => !level

/-! ### What a payment event leaves -/

/-- The session `p` has entered AUTHORISING with a T_SALE sent (R70): of the settlement unit the session
and the two times changed. -/
def entersAuthorising (p : Session) (s t : State) : Prop :=
  changesOnly [.settle, .tender, .speakers, .link] s t
    ∧ t.settle =
      { s.settle with
        session := { p with
          state := .authorising, outstanding := some ⟨p.paymentId, p.attempt.getD 0⟩
          stage := none, abortCause := none }
        timer := some ⟨.response, 6000⟩
        saleLeft := 18000 }
    ∧ t.tender = (s.tender.give s.pins.cts
        (.sale ⟨p.paymentId, p.attempt.getD 0⟩ p.total (s.settle.settings.currency.getD []))).1
    ∧ t.speakers = (askTone .paymentPrompt s).speakers
    ∧ announced .paymentState (paymentPayload t.settle.session) t

/-- The open session has entered ABORTING for a cause, with a T_ABORT sent (R74, R75, R76). -/
def entersAborting (cause : AbortCause) (r : Ref) (s t : State) : Prop :=
  changesOnly [.settle, .tender, .link] s t
    ∧ t.settle =
      { s.settle with
        session := { s.settle.session with state := .aborting, abortCause := some cause }
        timer := some ⟨.abort, 1000⟩ }
    ∧ t.tender = (s.tender.give s.pins.cts (.abort r)).1
    ∧ announced .paymentState (paymentPayload t.settle.session) t

/-- The session `p` has closed without settlement and its legs are STOPPED again (R54). -/
def closedUnpaid (p : Session) (state : SessionState) (cause : CloseCause) (s t : State) : Prop :=
  t.settle.session =
      { p with
        state := state, closeCause := some cause, closeTime := some s.clock.count, outstanding := none
        abortCause := none }
    ∧ t.settle.timer = none
    ∧ (∀ i, t.leg i =
        if (s.leg i).state = .paying ∧ (s.leg i).paymentId = some p.paymentId then
          { s.leg i with state := .stopped, paymentId := none }
        else s.leg i)
    ∧ t.fare.seatMap = s.fare.seatMap ∧ tablesKept s t
    ∧ announced .paymentState (paymentPayload t.settle.session) t

/-- The attempt of the session has ended without approval for a reason (R73, R77). -/
def attemptEnded (reason : DeclineReason) (s t : State) : Prop :=
  let p := { s.settle.session with declineReason := some reason }
  (s.settle.session.attempt.getD 0 < 3 →
      t.settle.session = { p with state := .retryWait, outstanding := none, abortCause := none }
        ∧ t.settle.timer = some ⟨.retryIdle, 12000⟩ ∧ t.fare = s.fare)
    ∧ (3 ≤ s.settle.session.attempt.getD 0 → closedUnpaid p .failed .declines s t)
    ∧ t.speakers = (askTone .declined s).speakers
    ∧ t.shifts = (addTotals Totals.addDecline s).shifts
    ∧ announced .paymentState (paymentPayload t.settle.session) t

/-- What card records take in: due, fee share and tip share (R104). -/
def Trip.cardTaken (p : Trip) : Nat :=
  match p.tender with
  | .card _ fee tip _ => p.fare + p.extrasTotal + fee + tip
  | .cash _ | .void => 0

/-- The sum of a figure of the segments of records on a tariff, 0 for MIXED (R104). -/
def segmentSum (b : Nat) (g : Segment → Nat) (ps : List Trip) : Nat :=
  (ps.map (fun p => ((p.segments.filter (fun x => x.tariff = b)).map g).sum)).sum

/-- A total after additions: 4,294,967,295 where they exceed it (R106). -/
def totalOf (a b : Nat) : Nat := min 4294967295 (a + b)

/-- Every unsigned total is within its 32 bits and cash rounding within its signed 32 bits (R106). -/
def Totals.inRange (a : Totals) : Prop :=
  a.tripsSettled ≤ 4294967295 ∧ a.fare ≤ 4294967295 ∧ a.extras ≤ 4294967295 ∧ a.cardFee ≤ 4294967295
    ∧ a.tips ≤ 4294967295 ∧ a.cardTaken ≤ 4294967295 ∧ a.cashTaken ≤ 4294967295
    ∧ -2147483648 ≤ a.cashRounding ∧ a.cashRounding ≤ 2147483647
    ∧ ∀ b : Fin 9, a.buckets[b].metres ≤ 4294967295 ∧ a.buckets[b].seconds ≤ 4294967295
      ∧ a.buckets[b].fare ≤ 4294967295

/-- The totals `b` are `a` with the figures of the records of one settlement added (R104, R106). -/
def totalsAdded (ps : List Trip) (a b : Totals) : Prop :=
  b.tripsSettled = totalOf a.tripsSettled ps.length
    ∧ b.fare = totalOf a.fare (ps.map Trip.fare).sum
    ∧ b.extras = totalOf a.extras (ps.map Trip.extrasTotal).sum
    ∧ b.cardFee = totalOf a.cardFee (ps.map (fun p => p.tender.fee)).sum
    ∧ b.tips = totalOf a.tips (ps.map (fun p => p.tender.tip)).sum
    ∧ b.cardTaken = totalOf a.cardTaken (ps.map Trip.cardTaken).sum
    ∧ b.cashTaken = totalOf a.cashTaken (ps.map Trip.cashTaken).sum.toNat
    ∧ (-2147483648 ≤ a.cashRounding + (ps.map (fun p => p.tender.adjustment)).sum →
        a.cashRounding + (ps.map (fun p => p.tender.adjustment)).sum ≤ 2147483647 →
        b.cashRounding = a.cashRounding + (ps.map (fun p => p.tender.adjustment)).sum)
    ∧ (∀ n : Fin 9,
        b.buckets[n].metres = totalOf a.buckets[n].metres (segmentSum n Segment.metres ps)
          ∧ b.buckets[n].seconds = totalOf a.buckets[n].seconds (segmentSum n Segment.seconds ps)
          ∧ b.buckets[n].fare = totalOf a.buckets[n].fare (segmentSum n Segment.fare ps))
    ∧ b.tripsVoided = a.tripsVoided ∧ b.cardDeclines = a.cardDeclines
    ∧ b.lateApprovals = a.lateApprovals ∧ b.reversalsRequested = a.reversalsRequested
    ∧ b.hiredMetres = a.hiredMetres ∧ b.totalMetres = a.totalMetres ∧ b.hiredSeconds = a.hiredSeconds

/-- The session has settled as `p`, with the legs of `paid` (R80): its records are placed in slot order
and added to the shift, its legs are FREE and their seats held by none. -/
def settledAs (p : Session) (paid : List LegPaid) (s t : State) : Prop :=
  t.settle.session = p ∧ t.settle.timer = none
    ∧ t.journal = (paid.map (fun x => settledTrip x s)).foldl Journal.place s.journal
    ∧ (shiftOpen s = true →
        t.shifts.record = { s.shifts.record with totals := t.shifts.record.totals }
          ∧ (s.shifts.record.totals.inRange → totalsAdded (paid.map (fun x => settledTrip x s))
              s.shifts.record.totals t.shifts.record.totals))
    ∧ (shiftOpen s = false → t.shifts.record = s.shifts.record)
    ∧ t.shifts.reports = s.shifts.reports
    ∧ (∀ i, t.leg i = if (∃ x ∈ paid, x.slot = i) then Leg.blank else s.leg i)
    ∧ (∀ x, t.fare.seatMap.get x =
        if (∃ y ∈ paid, s.fare.seatMap.get x = some y.slot) then none else s.fare.seatMap.get x)
    ∧ tablesKept s t ∧ t.speakers = (askTone .approved s).speakers
    ∧ announced .paymentState (paymentPayload p) t

/-! ### Conditions that hold at all times -/

/-- R172: the notice queue holds at most one notice of each kind, and only of enabled kinds. -/
def noticesKept (s : State) : Prop :=
  (s.link.queue.map Notice.kind).Nodup ∧ ∀ n ∈ s.link.queue, s.link.isEnabled n.kind = true

/-- R38, R39: a FREE leg holds the third column of Table 3-1, an active leg holds a seat, and the legs'
seat sets and the seat map agree. -/
def seatsKept (s : State) : Prop :=
  (∀ i, (s.leg i).state = .free → s.leg i = Leg.blank)
    ∧ (∀ i, (s.leg i).state ≠ .free → (s.leg i).seats ≠ SeatSet.empty)
    ∧ ∀ x i, s.fare.seatMap.get x = some i ↔ (s.leg i).seats.get x = true

/-- R41: the active legs are one leg without share consent, or legs all with it. -/
def sharingKept (s : State) : Prop :=
  ∀ i j, i ≠ j → (s.leg i).state ≠ .free → (s.leg j).state ≠ .free → (s.leg i).share = true

/-- Table 2-1: the figures of a tariff record, defined or not. -/
def Tariff.inRange (t : Tariff) : Prop :=
  t.flagFall ≤ 99999 ∧ 1 ≤ t.stepAmount ∧ t.stepAmount ≤ 9999 ∧ 1 ≤ t.distanceStep
    ∧ t.distanceStep ≤ 9999 ∧ 1 ≤ t.timeStep ∧ t.timeStep ≤ 3600 ∧ t.includedDistance ≤ 65535

/-- R24, R25, R38, R49, R50: the figures of an active leg under its current tariff. -/
def Leg.inBounds (l : Leg) (t : Tariff) : Prop :=
  1 ≤ l.tariff ∧ l.tariff ≤ 8
    ∧ -((t.includedDistance * t.timeStep : Nat) : Int) ≤ l.q
    ∧ l.q < ((t.distanceStep * t.timeStep : Nat) : Int)
    ∧ l.fare ≤ 99999999 ∧ (l.segments.map Segment.fare).sum = l.fare
    ∧ 1 ≤ l.segments.length ∧ l.segments.length ≤ 4
    ∧ (l.extras.map Extra.amount).sum = l.extrasTotal ∧ l.extrasTotal ≤ 999999 ∧ l.extras.length ≤ 8

/-- The metering figures: every tariff record is in range, legs are active only in an open shift (R42,
R107), and each active leg is in bounds. -/
def meterKept (s : State) : Prop :=
  (∀ k : Fin 8, (s.fare.tariffs[k]).inRange)
    ∧ (∀ i, (s.leg i).state ≠ .free → shiftOpen s = true)
    ∧ ∀ i, (s.leg i).state ≠ .free → (s.leg i).inBounds (s.fare.tariff (s.leg i).tariff)

/-- Table 4-2: the attempt, reference outstanding and abort cause that a session's state brings. -/
def Session.consistent (p : Session) : Prop :=
  match p.state with
  | .tipWait => p.attempt = some 1 ∧ p.outstanding = none
  | .authorising =>
    (p.attempt = some 1 ∨ p.attempt = some 2 ∨ p.attempt = some 3)
      ∧ p.outstanding = some ⟨p.paymentId, p.attempt.getD 0⟩ ∧ p.abortCause = none
  | .aborting =>
    (p.attempt = some 1 ∨ p.attempt = some 2 ∨ p.attempt = some 3)
      ∧ p.outstanding = some ⟨p.paymentId, p.attempt.getD 0⟩ ∧ p.abortCause.isSome = true
  | .retryWait => (p.attempt = some 1 ∨ p.attempt = some 2) ∧ p.outstanding = none
  | .none | .settled | .failed | .cancelled => p.outstanding = none

/-- The timer that runs in a session's state (R69, R70, R76, R77). -/
def timerOf : SessionState → Option SessionTimerKind
  | .tipWait => some .tip
  | .authorising => some .response
  | .aborting => some .abort
  | .retryWait => some .retryIdle
  | .none | .settled | .failed | .cancelled => none

/-- R62: the session record is consistent, its timer is the one its state starts while the part runs
and none while it is stopped, and the PAYING legs are those of the open session under its payment id. -/
def sessionKept (s : State) : Prop :=
  s.settle.session.consistent
    ∧ s.settle.timer.map SessionTimer.kind
        = (if s.power = .running then timerOf s.settle.session.state else none)
    ∧ (s.settle.session.state.isOpen = true → s.settle.session.legs ≠ [])
    ∧ s.settle.session.slots.Nodup
    ∧ (∀ i, (s.leg i).state = .paying ↔
        (s.settle.session.state.isOpen = true ∧ i ∈ s.settle.session.slots))
    ∧ ∀ i, (s.leg i).state = .paying → (s.leg i).paymentId = some s.settle.session.paymentId

/-- R114, R115, R118: at most 128 records, whose sequence numbers rise by one up to the last given. -/
def journalKept (s : State) : Prop :=
  s.journal.ring.length ≤ 128 ∧ s.journal.ring.length < s.journal.next
    ∧ s.journal.ring.map TripRecord.seq
        = (List.range s.journal.ring.length).map (· + (s.journal.next - s.journal.ring.length))

/-- The capacities of the lists: the receive ring (R88), the transmit queue (R92), the reversal list
(R79), the stale-reference memory (R78) and the report list (R109); and of the head frame no more bytes are
started than it has (R93). -/
def buffersKept (s : State) : Prop :=
  s.tender.ring.length ≤ 256 ∧ s.tender.queue.length ≤ 8 ∧ s.settle.reversals.length ≤ 5
    ∧ s.settle.stale.length ≤ 8 ∧ s.settle.stale.Nodup ∧ s.shifts.reports.length ≤ 8
    ∧ s.tender.headStarted ≤ s.tender.headLength

/-- R154: each hold slot holds a tone of its own level. -/
def SpeakerState.slotsMatch (p : SpeakerState) : Prop := ∀ n t, p.hold.get n = some t → t.level = n

/-- R156, R157: SPEAKING leaves no tone in service, and MUTED has one of level 2 or 3 in service. -/
def SpeakerState.speechFits (p : SpeakerState) : Prop :=
  match p.speech with
  | .none => True
  | .speaking => p.service = none
  | .muted => ∃ t, p.service = some t ∧ 2 ≤ t.tone.level.number

/-- R146, R156: a speaker has a speech state other than NONE exactly while the side that feeds it holds
the channel, and its tones fit that state. -/
def speechKept (s : State) : Prop :=
  (∀ x : Side, (s.speakers.get (fedBy x)).speech ≠ .none ↔ s.intercom.channel.side? = some x)
    ∧ ∀ y : Speaker, (s.speakers.get y).slotsMatch ∧ (s.speakers.get y).speechFits

/-- R127, R128: while the part runs, the sign state, the digit and the lamp demands are those that
Table 8-2, Table 8-3 and the overlays give. -/
def signKept (s : State) : Prop :=
  s.power = .running →
    s.sign.derived = derivedState s ∧ s.sign.digit = derivedDigit s (derivedState s)
      ∧ s.sign.demand = s.sign.demands

/-- R3, R5, R7, R161: the accumulator R stays below K, the last interval metres at 100, the zero-close
count at 3, the clock count within the calendar and the base period within the second. -/
def countersKept (s : State) : Prop :=
  (s.odo.k = 0 → s.odo.r = 0) ∧ (s.odo.k ≠ 0 → 500 ≤ s.odo.k ∧ s.odo.k ≤ 40000 ∧ s.odo.r < s.odo.k)
    ∧ s.odo.intervalMetres ≤ 65535 ∧ s.odo.lastMetres ≤ 100 ∧ s.odo.zeroCloses ≤ 3
    ∧ s.clock.count ≤ lastCount ∧ s.clock.period ≤ 99

/-- R143, R145, R146, R149: a call window is open in PRIVATE alone, OFF leaves the channel QUIET, the rear
holds it in PRIVATE only in a call window, the hang timer runs in the HANG states and the max-talk timer
outside QUIET. -/
def channelKept (s : State) : Prop :=
  (s.intercom.window.isSome = true → s.intercom.mode = .privateMode)
    ∧ (s.intercom.mode = .offMode → s.intercom.channel = .quiet)
    ∧ (s.intercom.mode = .privateMode → s.intercom.channel.side? = some .rear →
        s.intercom.window.isSome = true)
    ∧ (s.intercom.hangLeft.isSome = true ↔
        (s.intercom.channel = .hangFront ∨ s.intercom.channel = .hangRear))
    ∧ (s.intercom.talk.isSome = true ↔ s.intercom.channel ≠ .quiet)

/-- R119: the room of the journal is at least the number of active legs. -/
def roomKept (s : State) : Prop := activeLegs s ≤ s.journal.room

/-- The trip record contents of the open shift, void ones left out or alone (R106, R117). -/
def shiftTrips (isVoid : Bool) (s : State) : List Trip :=
  ((s.journal.ring.filter (fun r => !r.closed)).map TripRecord.trip).filter
    (fun p => decide (p.tender = .void) == isVoid)

/-- R106: while no shift is open every record is closed. For the open shift the counts of settled and
voided trips, the money sums and the buckets are the sums over the journal's records of the shift, each held
at its limit. The figures that this rests on: a cash rounding unit of 1 to 100, adjustment shares of at most
50 (R106), and an open session whose dues are those of its legs (R65). -/
def accountsKept (s : State) : Prop :=
  (shiftOpen s = false → ∀ r ∈ s.journal.ring, r.closed = true)
    ∧ (shiftOpen s = true →
        let a := s.shifts.record.totals
        let ps := shiftTrips false s
        a.tripsSettled = ps.length ∧ a.tripsVoided = (shiftTrips true s).length
          ∧ a.fare = totalOf 0 (ps.map Trip.fare).sum
          ∧ a.extras = totalOf 0 (ps.map Trip.extrasTotal).sum
          ∧ a.cardFee = totalOf 0 (ps.map (fun p => p.tender.fee)).sum
          ∧ a.tips = totalOf 0 (ps.map (fun p => p.tender.tip)).sum
          ∧ a.cardTaken = totalOf 0 (ps.map Trip.cardTaken).sum
          ∧ 0 ≤ (ps.map Trip.cashTaken).sum
          ∧ a.cashTaken = totalOf 0 (ps.map Trip.cashTaken).sum.toNat
          ∧ a.cashRounding = (ps.map (fun p => p.tender.adjustment)).sum
          ∧ ∀ n : Fin 9, a.buckets[n].metres = totalOf 0 (segmentSum n Segment.metres ps)
            ∧ a.buckets[n].seconds = totalOf 0 (segmentSum n Segment.seconds ps)
            ∧ a.buckets[n].fare = totalOf 0 (segmentSum n Segment.fare ps))
    ∧ (∀ r ∈ s.journal.ring, r.trip.tender.adjustment.natAbs ≤ 50)
    ∧ 1 ≤ s.settle.settings.cashUnit ∧ s.settle.settings.cashUnit ≤ 100
    ∧ (s.settle.session.state.isOpen = true →
        s.settle.session.due = s.settle.session.dues.sum
          ∧ ∀ x ∈ s.settle.session.legs, x.due = (s.leg x.slot).fare + (s.leg x.slot).extrasTotal)

/-- R104: while no sum stands at its limit, card and cash taken together are fare, extras, card fee, tips
and cash rounding together. -/
def moneyBalances (s : State) : Prop :=
  let a := s.shifts.record.totals
  shiftOpen s = true → a.cardTaken < 4294967295 → a.cashTaken < 4294967295 → a.fare < 4294967295 →
    a.extras < 4294967295 → a.cardFee < 4294967295 → a.tips < 4294967295 →
    ((a.cardTaken + a.cashTaken : Nat) : Int) = (a.fare + a.extras + a.cardFee + a.tips : Nat) + a.cashRounding

/-- Every condition above but R106's. -/
def safe (s : State) : Prop :=
  noticesKept s ∧ seatsKept s ∧ sharingKept s ∧ meterKept s ∧ sessionKept s ∧ journalKept s
    ∧ buffersKept s ∧ speechKept s ∧ channelKept s ∧ signKept s ∧ countersKept s ∧ roomKept s

end Sys2Proof.Machine
end

