-- ==== Sys2Proof/WellFormed.lean ====
section
/-!
DEFINITION. Which commands are well formed: a host request whose values fit the widths of its body
and whose body fits a frame (R169, R177), and an event whose operands can arise (Table 5-3, R79,
R169 to R171).
-/

namespace Sys2Proof

/-- A value fits its field's width. -/
def Lay.fits : Lay → Val → Bool
  | .num w, .num n => n < 256 ^ w
  | .signed, .signed z => -32768 ≤ z && z < 32768
  | .text, .text t => t.length < 256
  | _, _ => false

/-- Every value fits its field. -/
def layoutFits : List Lay → List Val → Bool
  | [], [] => true
  | l :: ls, v :: vs => l.fits v && layoutFits ls vs
  | _, _ => false

/-- The values of a request body fit its layout, and the body fits a frame. -/
def requestFits (k : ReqKind) (vs : List Val) : Bool :=
  layoutFits k.layout vs && (valsBytes k.layout vs).length ≤ 248

/-- A reference that a message can carry (R91). -/
def Ref.fits (r : Ref) : Bool := 1 ≤ r.payment && r.payment ≤ 65535 && 1 ≤ r.attempt && r.attempt ≤ 3

/-- A frame's body fits the frame (R169). -/
def Frame.fits (f : Frame) : Bool := f.body.length ≤ 248

/-- The operands of an event can arise. -/
def eventFits : Instr → Bool
  | .resendTimerExpiry entry => entry < 5
  | .tProgress r _ => r.fits
  | .tApproved r amount authCode => r.fits && amount ≤ maxU32 && Machine.authCodeFits authCode
  | .tDeclined r reason => r.fits && 1 ≤ reason && reason ≤ 255
  | .tAborted r => r.fits
  | .tReversed r => r.fits
  | .tStatus _ askNumber => askNumber ≤ 255
  | .controlFrameReceived frame => frame.fits
  | .frameEcho frame => frame.fits
  | .unlistedKind kind => (reqKind? kind.toNat).isNone
  | _ => true

/-- A command is well formed. -/
def Instr.wellFormed (c : Instr) : Bool :=
  match requestParts c with
  | some (k, vs) => requestFits k vs
  | none => eventFits c

end Sys2Proof
end

