-- ==== Sys2Proof/Certificates/Slice0/Obligations.lean ====
section
/-!
DEFINITION. The statements for the provers. A request stands in them as a command given to a part that is
ready for it (`ready`); its reply is then the answer in the handling place (log 7). Where a statement rests
on a choice of the model, its text names the log entry.
-/

open Sys2Proof Sys2Proof.Machine

/-! ### The step -/

/-- A step takes the command at the front of the queue and runs it with the queue's rest: each operation and
event is a step, whole and indivisible (What each step holds). The queue of commands that wait is the model's
form of their order, log 3. -/
def Obligations.StepRunsTheFrontCommand : Prop :=
  ∀ (c : Instr) (rest : List Instr) (s : State), s.pending = c :: rest →
    step s = exec c { s with pending := rest }

/-- On an empty queue the first event that is due becomes the waiting command, and where none is due one
step of the 10 ms base passes: the model's choice, log 3 and 6. R161: a base step counts each running timer
down by one, or up where it counts up, and does nothing else; while the part is stopped the clock's own base
counts alone. Model's choice: the bytes of a head frame started in a base step, log 24. -/
def Obligations.IdleStepTakesADueEventOrABaseStep : Prop :=
  ∀ s : State, s.pending = [] →
    (∀ (c : Instr) (rest : List Instr), dueEvents s = c :: rest → step s = .next { s with pending := [c] })
    ∧ (dueEvents s = [] → step s = .next (baseStep s)
      ∧ (let t := baseStep s
         t.clock =
          (if s.clock.period < 99 then { s.clock with period := s.clock.period + 1 }
          else { s.clock with period := 0, secondDue := true })
        ∧ (s.power ≠ .running → changesOnly [.clock] s t)
        ∧ (s.power = .running →
          changesOnly [.clock, .odo, .settle, .tender, .sign, .intercom, .speakers, .link] s t
          ∧ t.odo = { s.odo with timing := s.odo.timing.map (fun n => n + 1) }
          ∧ t.settle =
            { s.settle with
              timer := s.settle.timer.map (fun x => { x with left := x.left - 1 })
              saleLeft := s.settle.saleLeft - 1
              reversals := s.settle.reversals.map (fun e => { e with left := e.left - 1 }) }
          ∧ t.tender =
            { s.tender with
              heartbeat := s.tender.heartbeat - 1, sendLeft := s.tender.sendLeft - 1
              headStarted := if s.pins.cts = true then
                  min ((s.tender.queue.head?.map (fun m => m.frame.length)).getD 0) (s.tender.headStarted + 38)
                else s.tender.headStarted
              sinceByte := s.tender.sinceByte.map (fun n => min 6 (n + 1))
              sinceFrame := s.tender.sinceFrame.map (fun n => min 6553500 (n + 1)) }
          ∧ t.link = { s.link with quiet := min 3 (s.link.quiet + 1) }
          ∧ (∀ x, t.sign.dark.get x = (if s.sign.driver x = true ∧ s.pins.sense.get x = false then
                min 5 (s.sign.dark.get x + 1) else 0)
            ∧ t.sign.generator.get x =
              (let n := s.sign.generator.get x
               match n.phase with
               | .on | .off => { n with left := n.left - 1 }
               | .gap =>
                if 0 < n.gapLow then { n with gapLow := n.gapLow - 1 }
                else if 0 < n.gapHigh then { n with gapLow := 255, gapHigh := n.gapHigh - 1 }
                else n
               | .rest => n))
          ∧ t.sign =
            { s.sign with
              generator := t.sign.generator, dark := t.sign.dark
              hold := s.sign.hold.map (fun h => { h with held := min 100 (h.held + 1) })
              clearWindow := s.sign.clearWindow.map (fun n => n - 1) }
          ∧ (∀ x n, s.intercom.vox.get x = .attack n → t.intercom.vox.get x = .attack (n - 1))
          ∧ (∀ x, (∀ n, s.intercom.vox.get x ≠ .attack n) → t.intercom.vox.get x = s.intercom.vox.get x)
          ∧ (∀ x n, s.intercom.press.get x = .pressing n → t.intercom.press.get x = .pressing (n - 1))
          ∧ (∀ x, (∀ n, s.intercom.press.get x ≠ .pressing n) →
              t.intercom.press.get x = s.intercom.press.get x)
          ∧ t.intercom =
            { s.intercom with
              vox := t.intercom.vox, press := t.intercom.press
              hangLeft := s.intercom.hangLeft.map (fun n => n - 1)
              talk := s.intercom.talk.map (fun x => { x with left := x.left - 1 })
              window := s.intercom.window.map (fun n => n - 1) }
          ∧ ∀ y, t.speakers.get y =
            { s.speakers.get y with
              service := (s.speakers.get y).service.map (fun p => { p with left := p.left - 1 }) })))

/-- No command faults or is refused, and none touches the commands that wait. -/
def Obligations.EveryCommandCompletesAndKeepsTheQueue : Prop :=
  ∀ (c : Instr) (s : State), ∃ t, exec c s = .next t ∧ t.pending = s.pending

/-- R164, R170, R171, Introduction 5.9: at a part that is ready, every host request is taken and answered in
one event, and an answer other than OK and ADJUSTED carries its code alone and leaves all else as it was; a
request given to a stopped part changes nothing (the model's reading, log 10). -/
def Obligations.EveryRequestIsAnsweredAndARefusalChangesNothing : Prop :=
  ∀ (c : Instr) (k : ReqKind) (vs : List Val) (s : State), requestParts c = some (k, vs) →
    (ready s → ∃ (a : Answer) (u : State), exec c s = .next (answered k a u)
      ∧ (a.code ≠ .ok → a.code ≠ .adjusted → u = s ∧ a.body = []))
    ∧ (s.power ≠ .running → exec c s = .next s)

/-! ### Conditions that every step keeps -/

/-- The state after reset meets every condition below, R106's among them. -/
def Obligations.ResetMeetsEveryCondition : Prop := safe State.reset ∧ accountsKept State.reset

/-- The state after reset is what a restart makes of a part whose battery-fail latch is set and whose
retained memory fails its check (R165), with the inputs deasserted: the model's reading, log 1. -/
def Obligations.ResetIsAFirstPowerUp : Prop :=
  exec .restart
    { State.reset with
      power := .supplyFailed
      clock := { State.reset.clock with batteryFail := true }
      retained := { State.reset.retained with checkAgrees := false } } = .next State.reset

/-- R172: at most one notice of each kind is queued, and only of enabled kinds. -/
def Obligations.NoticesStayOneOfEachEnabledKind : Prop :=
  ∀ s t : State, noticesKept s → step s = .next t → noticesKept t

/-- R38, R39, R41: a FREE leg carries nothing, an active leg holds a seat, the seat sets and the seat map
agree, and the active legs are one leg without share consent or legs all with it. -/
def Obligations.LegsSeatsAndConsentStayInAgreement : Prop :=
  ∀ s t : State, step s = .next t → (seatsKept s → seatsKept t) ∧ (sharingKept s → sharingKept t)

/-- R24, R25: progress, fare, segments and extras of every active leg stay within their bounds. -/
def Obligations.MeterFiguresStayInBounds : Prop :=
  ∀ s t : State, meterKept s → step s = .next t → meterKept t

/-- R62: the session stays consistent with its state, its timer and the legs that are PAYING. -/
def Obligations.TheSessionStaysConsistent : Prop :=
  ∀ s t : State, sessionKept s → step s = .next t → sessionKept t

/-- R114, R118: the journal holds at most 128 records with consecutive sequence numbers. -/
def Obligations.TheJournalStaysARing : Prop :=
  ∀ s t : State, journalKept s → step s = .next t → journalKept t

/-- R119: in a safe state the room of the journal stays at least the number of active legs, so that no
settlement and no void finds the journal full. R104, R106: from there every step also keeps the open shift's
totals at the sums over the journal's records of the shift, so that the money taken balances. -/
def Obligations.TheJournalKeepsRoomForEveryActiveLeg : Prop :=
  ∀ s t : State, safe s → step s = .next t →
    roomKept t ∧ (accountsKept s → accountsKept t ∧ moneyBalances t)

/-- R78, R79, R88, R92, R109: no list outgrows its capacity. R93: no more bytes of the head frame are started
than it has. -/
def Obligations.NoListOutgrowsItsCapacity : Prop :=
  ∀ s t : State, buffersKept s → step s = .next t → buffersKept t

/-- R154, R156, R157: the speech state of a speaker follows the channel, and the tones in service and held
fit it. R146: from a state that keeps the channel's condition, the two speech path switches are never closed
together after a step, and AP_R2F is closed neither in mode OFF nor in mode PRIVATE outside a call window. -/
def Obligations.SpeechSwitchesAndTonesStayApart : Prop :=
  ∀ s t : State, step s = .next t →
    (speechKept s → speechKept t)
    ∧ (channelKept s → channelKept t ∧ ¬(switchClosed t .front = true ∧ switchClosed t .rear = true)
      ∧ (switchClosed t .rear = true → t.intercom.mode ≠ .offMode
          ∧ (t.intercom.mode = .privateMode → t.intercom.window.isSome = true)))

/-- R127, R128: while the part runs the sign shows what Table 8-2, Table 8-3 and the overlays give. -/
def Obligations.TheSignAlwaysFollowsItsTables : Prop :=
  ∀ s t : State, signKept s → step s = .next t → signKept t

/-- R3, R5, R7, R161, R162: the counters stay in their ranges. -/
def Obligations.CountersStayInRange : Prop :=
  ∀ s t : State, countersKept s → step s = .next t → countersKept t

/-! ### Distance pulses and fare intervals -/

/-- R3: the metre accumulator at a counted pulse. While K is 0 it stays at 0 and no metre is counted; else
the pulse's 1000 are shared between whole metres of K and the remainder, which stays below K, and with K of
500 or more a pulse yields at most two metres. Stated with tariff 1 defined; log 33 is the model's choice
without it. -/
def Obligations.CountedPulsesBecomeMetres : Prop :=
  ∀ o : Odometry,
    (o.k = 0 → o.r = 0 → (o.countPulse true).r = 0 ∧ (o.countPulse true).intervalMetres = o.intervalMetres)
    ∧ (o.k ≠ 0 → ∃ n : Nat,
        (o.countPulse true).r + n * o.k = o.r + 1000 ∧ (o.countPulse true).r < o.k
          ∧ (o.countPulse true).intervalMetres = min 65535 (o.intervalMetres + n)
          ∧ (500 ≤ o.k → o.r < o.k → n ≤ 2))
    ∧ (o.countPulse true).measurePulses
        = (if o.measurement = .running ∨ o.measurement = .stopping then min 4294967295 (o.measurePulses + 1)
          else o.measurePulses)

/-- R1: a change of DPULSE abandons a timing, begins one, or with the window OFF is accepted at once and
counted where it is the edge of the polarity. A whole window accepts the level then (R1). That the expiry
acts whatever time has passed is the model's choice, log 5. -/
def Obligations.TheFilterAcceptsAndCountsEdges : Prop :=
  ∀ (level : Bool) (s : State), s.power = .running →
    (s.pins.dpulse = !level →
      exec (.dpulseChange level) s = .next
        { s with
          pins := { s.pins with dpulse := level }
          odo :=
            if level = s.odo.accepted then { s.odo with timing := none }
            else if s.odo.window ≠ .off then { s.odo with timing := some 0 }
            else if pulseEdge s.odo.polarity level = true then
              Odometry.countPulse { s.odo with accepted := level, timing := none } (calibrated s)
            else { s.odo with accepted := level, timing := none } })
    ∧ (s.pins.dpulse = level → s.odo.timing.isSome = true →
        exec .filterWindowExpiry s = .next
          { s with odo :=
              if pulseEdge s.odo.polarity level = true then
                Odometry.countPulse { s.odo with accepted := level, timing := none } (calibrated s)
              else { s.odo with accepted := level, timing := none } })

/-- R5, R6, R7, R8 to R10, R15, R103, R162: what a second tick below the last count does at the clock, the
odometry unit and the open shift of a running part, which of its notices it raises, and what it leaves. -/
def Obligations.ASecondTickClosesTheInterval : Prop :=
  ∀ s : State, s.power = .running → s.clock.count < lastCount →
    ∃ t, exec .secondTick s = .next t
      ∧ changesOnly [.clock, .odo, .fare, .shifts, .link] s t
      ∧ t.clock.count = s.clock.count + 1 ∧ t.clock.valid = s.clock.valid
      ∧ (let c := if s.odo.k ≠ 0 ∧ (s.fare.tariff 1).isDefined = true then s.odo.intervalMetres else 0
         let m := min c 100
         let z := if m = 0 then min 3 (s.odo.zeroCloses + 1) else 0
         t.odo =
          { s.odo with
            intervalMetres := 0
            lastMetres := m
            r := if 100 < c then 0 else s.odo.r
            totalDistance := min 4294967295 (s.odo.totalDistance + m)
            hiredDistance :=
              if anyRuns s = true then min 4294967295 (s.odo.hiredDistance + m) else s.odo.hiredDistance
            zeroCloses := z
            motion := if m ≠ 0 then .moving else if z = 3 then .stationary else s.odo.motion
            measurement :=
              if s.odo.measurement = .starting then .running
              else if s.odo.measurement = .stopping then .stopped
              else s.odo.measurement
            measureSeconds :=
              if s.odo.measurement = .running ∨ s.odo.measurement = .stopping then
                min 4294967295 (s.odo.measureSeconds + 1)
              else s.odo.measureSeconds }
        ∧ (shiftOpen s = false → t.shifts = s.shifts)
        ∧ (shiftOpen s = true → t.shifts = { s.shifts with record := { s.shifts.record with totals :=
          (let a := s.shifts.record.totals
           { a with
             totalMetres := min 4294967295 (a.totalMetres + m)
             hiredMetres :=
              if anyRuns s = true then min 4294967295 (a.hiredMetres + m) else a.hiredMetres
             hiredSeconds :=
              if anyRuns s = true then min 4294967295 (a.hiredSeconds + 1) else a.hiredSeconds }) } })
        ∧ (100 < c → announced .sensorImplausible [.u16 c] t)
        ∧ (c ≤ 100 → unraised .sensorImplausible s t)
        ∧ (t.odo.motion ≠ s.odo.motion →
            announced .motion [.u8 (if t.odo.motion = .moving then 0 else 1)] t)
        ∧ (t.odo.motion = s.odo.motion → unraised .motion s t))

/-- R8, R9, R10, R166: a measurement's start and stop inside calibration open, and their refusals; CALEN
asserted changes its pin alone, and deasserted it ends calibration open, which abandons a STARTING
measurement and stops a RUNNING one. -/
def Obligations.MeasurementsStartAndStop : Prop :=
  ∀ s : State, s.pins.calen = true → shiftOpen s = false →
    (ready s → exec .calMeasureStart s = .next
      (if s.odo.measurement = .idle ∨ s.odo.measurement = .stopped then
        answered .calMeasureStart ⟨.ok, [.u8 1]⟩
          { s with odo := { s.odo with measurement := .starting, measurePulses := 0, measureSeconds := 0 } }
      else refusedWith .calMeasureStart .wrongState s)
    ∧ exec .calMeasureStop s = .next
      (if s.odo.measurement = .running then
        answered .calMeasureStop ⟨.ok, [.u8 3]⟩ { s with odo := { s.odo with measurement := .stopping } }
      else refusedWith .calMeasureStop .wrongState s))
    ∧ (s.power = .running →
      exec (.calenChange true) { s with pins := { s.pins with calen := false } } = .next s
      ∧ ∃ t, exec (.calenChange false) s = .next t ∧ changesOnly [.pins, .odo] s t
        ∧ t.pins = { s.pins with calen := false }
        ∧ (s.odo.measurement = .starting →
            t.odo = { s.odo with measurement := .idle, measurePulses := 0, measureSeconds := 0 })
        ∧ (s.odo.measurement = .running → t.odo = { s.odo with measurement := .stopping })
        ∧ (s.odo.measurement ≠ .starting → s.odo.measurement ≠ .running → t.odo = s.odo))

/-- R2, R4, R166: DPULSE_CONFIG and CAL_SET_K inside calibration open, and what each refuses there. -/
def Obligations.PulseSettingsAreStoredAndCounted : Prop :=
  ∀ s : State, ready s → calibrationOpen s = true →
    (∀ (p w : Nat) (q : Polarity) (v : FilterWindow), polarity? p = some q → filterWindow? w = some v →
      exec (.dpulseConfig p w) s = .next (answered .dpulseConfig ⟨.ok, [.u8 p, .u8 w]⟩
        { s with
          odo := { s.odo with polarity := q, window := v, accepted := s.pins.dpulse, timing := none }
          retained := { s.retained with
            calCount := min 65535 (s.retained.calCount + 1), calStamp := s.clock.count } }))
    ∧ (∀ p w : Nat, (1 < p ∨ 4 < w) →
      exec (.dpulseConfig p w) s = .next (refusedWith .dpulseConfig .badValue s))
    ∧ (∀ k : Nat, 500 ≤ k → k ≤ 40000 → ∃ t, exec (.calSetK k) s = .next t
        ∧ changesOnly [.odo, .retained, .sign, .link] s t
        ∧ t.odo = { s.odo with k := k, r := 0 }
        ∧ t.retained = { s.retained with
            calCount := min 65535 (s.retained.calCount + 1), calStamp := s.clock.count }
        ∧ replyIs .calSetK ⟨.ok, [.u16 k]⟩ t)
    ∧ (∀ k : Nat, (k < 500 ∨ 40000 < k) → exec (.calSetK k) s = .next (refusedWith .calSetK .badValue s))

/-! ### Tariffs and fare arithmetic -/

/-- R17, R30, R35: what the three table writes store inside calibration open, entry by entry, and the values
they refuse there. Model's choices: the layouts of the replies, log 17, a meaningless
flag refused, log 18. -/
def Obligations.TableWritesStoreTheirEntry : Prop :=
  ∀ s : State, ready s → calibrationOpen s = true →
    (∀ (i : Fin 8) (f : TariffFields) (d : Tariff),
      (f.isDefined = 0 ∧ d = Tariff.blank
        ∨ f.isDefined = 1 ∧ textWithin 12 f.name = true ∧ d.inRange ∧ d.isDefined = true ∧ d.name = f.name
          ∧ d.flagFall = f.flagFall ∧ d.stepAmount = f.stepAmount ∧ d.distanceStep = f.distanceStep
          ∧ d.timeStep = f.timeStep ∧ d.includedDistance = f.includedDistance
          ∧ f.mode = (if d.mode = .single then 0 else 1)
          ∧ f.sharePermitted = (if d.sharePermitted = true then 1 else 0)
          ∧ f.manualSelectable = (if d.manualSelectable = true then 1 else 0)) →
      ∃ t, exec (.tariffWrite (i.val + 1) f) s = .next t
        ∧ changesOnly [.fare, .retained, .sign, .link] s t
        ∧ t.fare = { s.fare with tariffs := s.fare.tariffs.set i d }
        ∧ t.retained = { s.retained with
            calCount := min 65535 (s.retained.calCount + 1), calStamp := s.clock.count }
        ∧ replyIs .tariffWrite ⟨.ok, tariffReply d⟩ t)
    ∧ (∀ (n : Nat) (f : TariffFields),
      (n = 0 ∨ 8 < n ∨ 1 < f.isDefined
        ∨ f.isDefined = 1 ∧ (textWithin 12 f.name = false ∨ 99999 < f.flagFall ∨ f.stepAmount = 0
          ∨ 9999 < f.stepAmount ∨ f.distanceStep = 0 ∨ 9999 < f.distanceStep ∨ f.timeStep = 0
          ∨ 3600 < f.timeStep ∨ 65535 < f.includedDistance ∨ 1 < f.mode ∨ 1 < f.sharePermitted
          ∨ 1 < f.manualSelectable)) →
      exec (.tariffWrite n f) s = .next (refusedWith .tariffWrite .badValue s))
    ∧ (∀ (i : Fin 12) (days minute tariff : Nat) (w : Weekdays), weekdays? days = some w →
        minute ≤ 1439 → tariff ≤ 8 → ∃ t, exec (.scheduleWrite (i.val + 1) days minute tariff) s = .next t
        ∧ changesOnly [.fare, .retained, .link] s t
        ∧ (let e : ScheduleEntry :=
            if days = 0 ∨ tariff = 0 then ScheduleEntry.unused else ⟨w, minute, tariff⟩
           t.fare = { s.fare with schedule := s.fare.schedule.set i e }
           ∧ replyIs .scheduleWrite ⟨.ok, [.u8 e.days.bits, .u16 e.startMinute, .u8 e.tariff]⟩ t)
        ∧ t.retained = { s.retained with
            calCount := min 65535 (s.retained.calCount + 1), calStamp := s.clock.count })
    ∧ (∀ n days minute tariff : Nat,
      (n = 0 ∨ 12 < n ∨ 127 < days ∨ 1439 < minute ∨ 8 < tariff) →
      exec (.scheduleWrite n days minute tariff) s = .next (refusedWith .scheduleWrite .badValue s))
    ∧ (∀ (i : Fin 12) (isDefined : Nat) (name : Text) (amount limit : Nat) (d : ExtraKind),
      (isDefined = 0 ∧ d = ⟨false, [], 0, 1⟩
        ∨ isDefined = 1 ∧ textWithin 12 name = true ∧ amount ≤ 99999 ∧ 1 ≤ limit ∧ limit ≤ 8
          ∧ d = ⟨true, name, amount, limit⟩) →
        ∃ t, exec (.extraKindWrite (i.val + 1) isDefined name amount limit) s = .next t
        ∧ changesOnly [.fare, .retained, .link] s t
        ∧ t.fare = { s.fare with kinds := s.fare.kinds.set i d }
        ∧ t.retained = { s.retained with
            calCount := min 65535 (s.retained.calCount + 1), calStamp := s.clock.count }
        ∧ replyIs .extraKindWrite
          ⟨.ok, [.u8 isDefined, .u8 d.name.length, .raw d.name, .u32 d.amount, .u8 d.limit]⟩ t)
    ∧ (∀ (n isDefined : Nat) (name : Text) (amount limit : Nat),
      (n = 0 ∨ 12 < n ∨ 1 < isDefined
        ∨ isDefined = 1 ∧ (textWithin 12 name = false ∨ 99999 < amount ∨ limit = 0 ∨ 8 < limit)) →
      exec (.extraKindWrite n isDefined name amount limit) s
        = .next (refusedWith .extraKindWrite .badValue s))

/-- R20, R2, R4, R8, R9, R167: outside calibration open every calibration write, measurement request and
factory clear is refused with CAL_LOCKED, whatever its values. -/
def Obligations.TheCalibrationLockComesFirst : Prop :=
  ∀ s : State, ready s → calibrationOpen s = false →
    (∀ p w, exec (.dpulseConfig p w) s = .next (refusedWith .dpulseConfig .calLocked s))
    ∧ (∀ k, exec (.calSetK k) s = .next (refusedWith .calSetK .calLocked s))
    ∧ exec .calMeasureStart s = .next (refusedWith .calMeasureStart .calLocked s)
    ∧ exec .calMeasureStop s = .next (refusedWith .calMeasureStop .calLocked s)
    ∧ (∀ n f, exec (.tariffWrite n f) s = .next (refusedWith .tariffWrite .calLocked s))
    ∧ (∀ e d m n, exec (.scheduleWrite e d m n) s = .next (refusedWith .scheduleWrite .calLocked s))
    ∧ (∀ n d x a l, exec (.extraKindWrite n d x a l) s = .next (refusedWith .extraKindWrite .calLocked s))
    ∧ exec .factoryClear s = .next (refusedWith .factoryClear .calLocked s)

/-- R18: TARIFF_READ in every state of a part that can take a request. -/
def Obligations.TariffReadReturnsTheRecord : Prop :=
  ∀ (n : Nat) (s : State), ready s →
    ((n = 0 ∨ 8 < n) → exec (.tariffRead n) s = .next (refusedWith .tariffRead .badValue s))
    ∧ (1 ≤ n → n ≤ 8 → exec (.tariffRead n) s = .next (answered .tariffRead
        ⟨.ok,
          [.u8 (if (s.fare.tariff n).isDefined then 1 else 0), .u8 (s.fare.tariff n).name.length,
           .raw (s.fare.tariff n).name, .u32 (s.fare.tariff n).flagFall, .u16 (s.fare.tariff n).stepAmount,
           .u16 (s.fare.tariff n).distanceStep, .u16 (s.fare.tariff n).timeStep,
           .u16 (s.fare.tariff n).includedDistance,
           .u8 (if (s.fare.tariff n).mode = .single then 0 else 1),
           .u8 (if (s.fare.tariff n).sharePermitted then 1 else 0),
           .u8 (if (s.fare.tariff n).manualSelectable then 1 else 0)]⟩ s))

/-- R23, R24, R25, R45: a leg that is HIRED or STOPPING at a tick, under a tariff in range: its progress
rises by the second's worth and falls by whole steps, its fare rises by the steps under the cap, its time
and distance grow, and a STOPPING leg becomes STOPPED at the tick's count. Every other leg is as it was.
R49: the close accrues into the last segment. R25, R58, R59: FARE_STEP, FARE_CAP and LEG_STATE are raised
where a fare changed, a leg reached the cap and a leg became STOPPED, and nowhere else. Model's choices: a
fare of exactly 99,999,999 is capped, log 38, FARE_STEP shows STOPPING, log 26, FARE_CAP in slot order,
log 43. -/
def Obligations.ATickAccruesTheRunningLegs : Prop :=
  ∀ (s : State) (i : Slot), s.power = .running → s.clock.count < lastCount →
    ∃ t, exec .secondTick s = .next t
      ∧ ((s.leg i).state ≠ .hired → (s.leg i).state ≠ .stopping → t.leg i = s.leg i)
      ∧ ((s.leg i).state = .hired ∨ (s.leg i).state = .stopping →
          (s.fare.tariff (s.leg i).tariff).inRange → (s.leg i).fare ≤ 99999999 →
          let d := s.fare.tariff (s.leg i).tariff
          let m := min (if calibrated s = true then s.odo.intervalMetres else 0) 100
          let p := if d.mode = .single then max (m * d.timeStep) d.distanceStep
            else m * d.timeStep + d.distanceStep
          let worth := d.distanceStep * d.timeStep
          ∃ n : Nat,
            (t.leg i).q + (n * worth : Nat) = (s.leg i).q + p ∧ (t.leg i).q < (worth : Int)
            ∧ (n ≠ 0 → 0 ≤ (t.leg i).q)
            ∧ (t.leg i).fare = min 99999999 ((s.leg i).fare + n * d.stepAmount)
            ∧ (t.leg i).seconds = min 4294967295 ((s.leg i).seconds + 1)
            ∧ (t.leg i).metres = min 4294967295 ((s.leg i).metres + m)
            ∧ (t.leg i).capped = ((s.leg i).capped || decide ((t.leg i).fare = 99999999))
            ∧ (t.leg i).tariff = (s.leg i).tariff ∧ (t.leg i).extras = (s.leg i).extras
            ∧ (t.leg i).seats = (s.leg i).seats
            ∧ ((s.leg i).state = .hired →
                (t.leg i).state = .hired ∧ (t.leg i).stopTime = (s.leg i).stopTime)
            ∧ ((s.leg i).state = .stopping →
                (t.leg i).state = .stopped ∧ (t.leg i).stopTime = some (s.clock.count + 1))
            ∧ (t.leg i).selection = (s.leg i).selection ∧ (t.leg i).flagFall = (s.leg i).flagFall
            ∧ (t.leg i).startTime = (s.leg i).startTime ∧ (t.leg i).share = (s.leg i).share
            ∧ (t.leg i).powerGap = (s.leg i).powerGap ∧ (t.leg i).paymentId = (s.leg i).paymentId
            ∧ (t.leg i).extrasTotal = (s.leg i).extrasTotal
            ∧ ∀ (gs : List Segment) (g : Segment), (s.leg i).segments = gs ++ [g] →
              (t.leg i).segments = gs ++
                [{ g with
                  metres := min 4294967295 (g.metres + m), seconds := min 4294967295 (g.seconds + 1)
                  fare := g.fare + ((t.leg i).fare - (s.leg i).fare) }])
      ∧ tablesKept s t ∧ t.fare.seatMap = s.fare.seatMap
      ∧ ((∃ j, (t.leg j).fare ≠ (s.leg j).fare) → announced .fareStep
          ([Slot.s1, .s2, .s3, .s4].flatMap (fun j =>
            [.u8 (s.leg j).state.ctorIdx, .u32 (t.leg j).fare, .u32 (t.leg j).extrasTotal])) t)
      ∧ ((∀ j, (t.leg j).fare = (s.leg j).fare) → unraised .fareStep s t)
      ∧ ((s.leg i).capped = false → (t.leg i).capped = true →
          (∀ j : Slot, i.number < j.number → (t.leg j).capped = (s.leg j).capped) →
          announced .fareCap [.u8 i.number, .u32 (t.leg i).fare] t)
      ∧ ((∀ j, (t.leg j).capped = (s.leg j).capped) → unraised .fareCap s t)
      ∧ ((s.leg i).state = .stopping → (∀ j : Slot, j.number < i.number → (s.leg j).state ≠ .stopping) →
          announced .legState (legStatePayload i t.fare) t)
      ∧ ((∀ j, (s.leg j).state ≠ .stopping) → unraised .legState s t)

/-- R26: the carry of Q to a new tariff, and its bounds. -/
def Obligations.TheCarryKeepsAllowanceAndProgress : Prop :=
  ∀ (old new : Tariff) (q : Int), old.inRange → new.inRange →
    -((old.includedDistance * old.timeStep : Nat) : Int) ≤ q →
    q < ((old.distanceStep * old.timeStep : Nat) : Int) →
    (q < 0 → ∃ r : Nat, (r : Int) * old.timeStep ≥ -q ∧ ((r : Int) - 1) * old.timeStep < -q
      ∧ carry old new q = -((min r new.includedDistance : Nat) * new.timeStep : Int))
    ∧ (0 ≤ q → carry old new q
        = (q * new.distanceStep * new.timeStep) / ((old.distanceStep * old.timeStep : Nat) : Int))
    ∧ -((new.includedDistance * new.timeStep : Nat) : Int) ≤ carry old new q
    ∧ carry old new q < ((new.distanceStep * new.timeStep : Nat) : Int)

/-- R31: the entry in force. Of the used entries that start on a day, today up to now or a day further back
down to today's own day a week earlier, the first such day decides, the latest start on it, and of equal
starts the higher entry number; there is none exactly where no entry is used. R32, R28: at a minute boundary
that has fallen, with the clock VALID and an entry in force, each SCHEDULED leg that is HIRED or STOPPING
takes the entry's tariff where it is defined, differs from its own and is share-permitted where the leg has
share consent; every other leg is as it was. Model's choice: log 15. -/
def Obligations.AMinuteBoundaryMovesScheduledLegs : Prop :=
  (∀ (e : FareEngine) (count : Nat), (∀ i : Fin 12, e.schedule[i].startMinute ≤ 1439) →
    let starts (i : Fin 12) (back : Nat) : Prop :=
      e.schedule[i].used = true
        ∧ e.schedule[i].days.holds ((count / 86400 + 5 + 7 - back) % 7) = true
        ∧ (back = 0 → e.schedule[i].startMinute ≤ count % 86400 / 60)
    (e.entryInForce count = none ↔ ∀ i : Fin 12, e.schedule[i].used = false)
    ∧ ∀ x, e.entryInForce count = some x →
      ∃ (i : Fin 12) (back : Nat), back ≤ 7 ∧ x = ⟨i.val + 1, e.schedule[i]⟩ ∧ starts i back
        ∧ (∀ (j : Fin 12) (b : Nat), b < back → ¬starts j b)
        ∧ ∀ j : Fin 12, starts j back → e.schedule[j].startMinute < e.schedule[i].startMinute
          ∨ e.schedule[j].startMinute = e.schedule[i].startMinute ∧ j ≤ i)
  ∧ ∀ (s : State) (x : Numbered) (i : Slot), s.power = .running → s.clock.valid = true →
    s.clock.minuteDue = true → s.fare.entryInForce s.clock.count = some x →
    (s.leg i).segments.length ≤ 4 →
    ∃ t, exec .minuteBoundary s = .next t ∧ changesOnly [.clock, .fare, .speakers, .link] s t
      ∧ t.clock = { s.clock with minuteDue := false } ∧ t.fare.seatMap = s.fare.seatMap
      ∧ tablesKept s t
      ∧ t.leg i =
        (if (s.leg i).selection = .scheduled ∧ ((s.leg i).state = .hired ∨ (s.leg i).state = .stopping) then
          (s.leg i).moved s x.entry.tariff
        else s.leg i)

/-- R11, R21, R34, R36, R52, R61, R82, R110, R111, R123, R138, R150, R159, R163, R165, R167: a readout is
answered OK, carries what its rule names, and changes nothing. ODO_STATUS carries the speed, m × 3.6 rounded
half up, and every counter. Model's choices: the order, presence flags, counts, sets and flags of the bodies
that R177 leaves open, log 17. -/
def Obligations.ReadoutsChangeNothing : Prop :=
  ∀ s : State, ready s →
    let reads (c : Instr) (k : ReqKind) (body : List Field) : Prop :=
      exec c s = .next (answered k ⟨.ok, body⟩ s)
    let yes (b : Bool) : Field := .u8 (if b = true then 1 else 0)
    let first (b : Bool) : Field := .u8 (if b = true then 0 else 1)
    let opt8 (o : Option Nat) : List Field := [yes o.isSome, .u8 (o.getD 0)]
    let opt16 (o : Option Nat) : List Field := [yes o.isSome, .u16 (o.getD 0)]
    let opt32 (o : Option Nat) : List Field := [yes o.isSome, .u32 (o.getD 0)]
    let text (t : Text) : List Field := [.u8 t.length, .raw t]
    (s.odo.lastMetres ≤ 100 → ∃ v : Nat, 10 * v ≤ 36 * s.odo.lastMetres + 5
      ∧ 36 * s.odo.lastMetres + 5 < 10 * v + 10 ∧ v ≤ 360
      ∧ reads .odoStatus .odoStatus
          [.u16 v, .u8 s.odo.lastMetres, .u8 (if s.odo.motion = .moving then 0 else 1),
           .u32 s.odo.totalDistance, .u32 s.odo.hiredDistance, .u16 s.odo.r, .u16 s.odo.k,
           .u8 (if s.odo.polarity = .rising then 0 else 1), .u8 s.odo.window.ctorIdx,
           .u8 s.odo.measurement.ctorIdx, .u32 s.odo.measurePulses, .u32 s.odo.measureSeconds])
    ∧ (∃ body, reads .odoStatus .odoStatus body)
    ∧ reads .calStatus .calStatus
        [yes (calibrated s), yes (s.odo.k != 0), yes (s.fare.tariff 1).isDefined,
         .u8 (bitsOf (s.fare.tariffs.toList.map Tariff.isDefined)), first s.pins.calen, yes (shiftOpen s),
         yes (s.pins.calen && !shiftOpen s), .u16 s.retained.calCount, .u32 s.retained.calStamp,
         yes s.clock.valid]
    ∧ reads .scheduleRead .scheduleRead
        (s.fare.schedule.toList.flatMap (fun e => [.u8 e.days.bits, .u16 e.startMinute, .u8 e.tariff])
          ++ (match if s.clock.valid = true then s.fare.entryInForce s.clock.count else none with
            | some x => [.u8 x.number, .u8 x.entry.tariff]
            | none => [.u8 0, .u8 0]))
    ∧ (∀ n, (n = 0 ∨ 12 < n) →
        exec (.extraKindRead n) s = .next (refusedWith .extraKindRead .badValue s))
    ∧ (∀ i : Fin 12, reads (.extraKindRead (i.val + 1)) .extraKindRead
        (yes s.fare.kinds[i].isDefined :: text s.fare.kinds[i].name
          ++ [.u32 s.fare.kinds[i].amount, .u8 s.fare.kinds[i].limit]))
    ∧ (∀ n, (n = 0 ∨ 4 < n) → exec (.legRead n) s = .next (refusedWith .legRead .badValue s))
    ∧ (∀ i : Slot, reads (.legRead i.number) .legRead
        (let l := s.leg i
         [.u8 i.number, .u8 l.state.ctorIdx, .u8 l.selection.ctorIdx, .u8 l.tariff,
          .u8 (bitsOf [l.share, l.capped, l.powerGap, l.stopTime.isSome, l.paymentId.isSome]),
          .u8 (SeatSet.bits l.seats), .u32 l.flagFall, .i32 l.q, .u32 l.fare, .u32 l.seconds,
          .u32 l.metres, .u32 l.startTime, .u32 (l.stopTime.getD 0), .u16 (l.paymentId.getD 0),
          .u32 l.extrasTotal, .u8 l.segments.length, .u8 l.extras.length]
         ++ l.segments.flatMap (fun g => [.u8 g.tariff, .u32 g.metres, .u32 g.seconds, .u32 g.fare])
         ++ l.extras.flatMap (fun e => [.u8 e.kind, .u24 e.amount])))
    ∧ reads .paySettingsRead .paySettingsRead
        (let g := s.settle.settings
         text (g.currency.getD []) ++ [.u16 g.feeBp, .u32 g.feeCap, .u8 g.preset1, .u8 g.preset2,
          .u8 g.preset3, .u8 g.preset4, .u8 g.ceiling, .u32 g.limit, .u8 g.cashUnit, yes s.settle.sharing])
    ∧ reads .payStatus .payStatus
        (let p := s.settle.session
         let ref (o : Option Ref) : List Field :=
          [.u16 ((o.map Ref.payment).getD 0), .u8 ((o.map Ref.attempt).getD 0)]
         [.u8 p.state.ctorIdx, .u16 p.paymentId,
          .u8 (bitsOf ([Slot.s1, .s2, .s3, .s4].map (fun i => p.slots.contains i)))]
         ++ p.dues.map Field.u32
         ++ [.u32 p.due, .u32 p.fee, .u32 p.tip, .u32 p.total, .u8 p.tender.ctorIdx, yes p.tipOffered,
             .u8 (p.attempt.getD 0)]
         ++ ref p.outstanding ++ opt8 (p.abortCause.map AbortCause.ctorIdx)
         ++ [.u8 ((p.stage.map (fun x => x.ctorIdx + 1)).getD 0)] ++ text (p.authCode.getD [])
         ++ [.u16 (match p.declineReason with
            | none => 0
            | some (.terminal n) => n
            | some .amountMismatch => 256
            | some .timeout => 257
            | some .uncertain => 258)]
         ++ opt8 (p.closeCause.map CloseCause.ctorIdx)
         ++ [yes p.cashAdjustment.isSome, .i8 (p.cashAdjustment.getD 0), .u32 p.beginTime]
         ++ opt32 p.closeTime
         ++ (match p.tender with
          | .card => ((apportion p.fee p.due p.dues).zip (apportion p.tip p.due p.dues)).flatMap
              (fun x => [.u32 x.1, .u32 x.2])
          | .cash => (apportionSigned (p.cashAdjustment.getD 0) p.due p.dues).map Field.i8)
         ++ opt8 (s.settle.timer.map (fun x => (x.left + 99) / 100))
         ++ .u8 s.settle.reversals.length
          :: s.settle.reversals.flatMap (fun e => ref (some e.ref) ++ [.u32 e.amount])
         ++ .u8 s.settle.stale.length :: s.settle.stale.flatMap (fun r => ref (some r))
         ++ [.u8 s.settle.unheld, .u16 s.settle.nextId])
    ∧ reads .shiftRead .shiftRead
        (let r := s.shifts.record
         let t := r.totals
         [first r.isOpen, .u8 0, .u16 r.number, .u8 r.driver.length,
          .raw ((r.driver ++ [0, 0, 0, 0, 0, 0, 0, 0]).take 8),
          .u8 (bitsOf [r.openTime.isSome, r.closeTime.isSome, r.odometerOpen.isSome,
            r.odometerClose.isSome]),
          .u32 (r.openTime.getD 0), .u32 (r.closeTime.getD 0), .u32 (r.odometerOpen.getD 0),
          .u32 (r.odometerClose.getD 0), .u16 r.calCountOpen, .u32 t.tripsSettled, .u32 t.tripsVoided,
          .u32 t.cardDeclines, .u32 t.lateApprovals, .u32 t.reversalsRequested, .u32 t.hiredMetres,
          .u32 t.totalMetres, .u32 t.hiredSeconds, .u32 t.fare, .u32 t.extras, .u32 t.cardFee,
          .u32 t.tips, .u32 t.cashTaken, .u32 t.cardTaken, .i32 t.cashRounding]
         ++ ([1, 2, 3, 4, 5, 6, 7, 8, 0] : List (Fin 9)).flatMap (fun b =>
            [.u32 t.buckets[b].metres, .u32 t.buckets[b].seconds, .u32 t.buckets[b].fare])
         ++ [.u8 s.shifts.reports.length,
             .u8 (s.shifts.reports.filter (fun p => !p.isRead)).length,
             .u32 (if r.isOpen = true then s.clock.count - r.openTime.getD 0 else 0)])
    ∧ reads .reportList .reportList
        (.u8 s.shifts.reports.length :: s.shifts.reports.flatMap (fun p =>
          [.u16 p.record.number, .u32 (p.record.closeTime.getD 0), yes p.isRead]))
    ∧ reads .journalStatus .journalStatus
        (let ring := s.journal.ring
         let spare (r : TripRecord) : Bool := r.closed && r.isRead
         let seq (o : Option TripRecord) : Nat := (o.map TripRecord.seq).getD 0
         let run := (ring.takeWhile spare).length
         [.u8 ring.length, .u32 (seq ring.head?), .u32 (seq ring.getLast?), .u64 s.journal.next,
          .u8 (ring.filter (fun r => !r.isRead)).length, .u32 (seq (ring.find? (fun r => !r.isRead))),
          .u8 (ring.filter (fun r => !spare r)).length, .u8 (ring.filter spare).length, .u8 run,
          .u8 (min (128 - ring.length + run) (4294967296 - s.journal.next)), .u8 (activeLegs s)]
         ++ opt8 (if shiftOpen s = true then some (ring.filter (fun r => !r.closed)).length else none))
    ∧ reads .signStatus .signStatus
        (let g := s.sign
         let pattern (p : Pattern) : List Field :=
          [.u8 p.onUnits, .u8 p.offUnits, .u8 p.burst, .u16 p.gap, .u8 p.mode.ctorIdx]
         [.u8 g.mode.ctorIdx, .u8 g.choice.ctorIdx, .u8 g.derived.ctorIdx, .u8 (g.digit.getD 0)]
         ++ [Lamp.free, .panel, .share].flatMap (fun x =>
          let n := g.generator.get x
          [.u8 (match g.demand.get x with
            | .off => 0
            | .steady => 1
            | .pattern m => m.ctorIdx + 2),
           .u8 n.phase.ctorIdx, .u8 n.flash,
           .u16 (match n.phase with
            | .on | .off => n.left
            | .gap => n.gapLow + 256 * n.gapHigh
            | .rest => 0),
           .u8 n.gapLow, .u8 n.gapHigh, yes (g.driver x), yes (s.pins.sense.get x), yes (g.fault.get x)])
         ++ [yes g.testRunning, yes g.active] ++ opt8 (g.cause.map EmergencyCause.ctorIdx)
         ++ opt32 g.raiseTime ++ [yes g.clearWindow.isSome, .u8 0, .u8 0, .u8 0, .u16 0, .u8 0]
         ++ pattern ⟨50, 50, 1, 0, .continuous⟩ ++ pattern ⟨25, 25, 2, 100, .continuous⟩
         ++ pattern ⟨20, 20, 3, 100, .continuous⟩ ++ pattern ⟨100, 50, 2, 50, .oneShot⟩
         ++ pattern g.pUser)
    ∧ reads .intercomStatus .intercomStatus
        (let n := s.intercom
         let qualifier (q : Qualifier) : Field := .u8 (match q with
          | .low => 0
          | .attack _ => 1
          | .qualified => 2)
         [.u8 n.mode.ctorIdx, .u8 n.attack, .u16 n.hang, .u16 n.maxTalk, .u8 n.channel.ctorIdx]
         ++ opt16 n.hangLeft ++ opt16 (n.talk.map TalkTimer.left)
         ++ [yes n.heldOff.front, yes n.heldOff.rear, qualifier n.vox.front, qualifier n.vox.rear,
             yes s.pins.ptt]
         ++ opt8 (n.channel.side?.map Side.ctorIdx)
         ++ [yes (switchClosed s .front), yes (switchClosed s .rear), .u8 (SeatSet.bits n.calls),
             .u8 n.pointer.ctorIdx]
         ++ opt16 n.window)
    ∧ reads .speakerStatus .speakerStatus
        (let on (y : Speaker) : Bool := (s.speakers.get y).service.any Playing.onPhase
         let level (y : Speaker) : Nat :=
          ((s.speakers.get y).service.map (fun t => t.tone.level.number)).getD 0
         let owner : Option Speaker :=
          if on .front = true ∧ (on .rear = false ∨ level .rear ≤ level .front) then some .front
          else if on .rear = true then some .rear
          else none
         let held (o : Option Tone) : List Field := opt8 (o.map (fun t => t.kind.ctorIdx))
         let tone (k x n pitch onMs offMs r len : Nat) : List Field :=
          [.u8 k, .u8 x, .u8 n, .u16 pitch, .u16 onMs, .u16 offMs, .u8 r, .u16 len]
         [Speaker.front, .rear].flatMap (fun y =>
          let p := s.speakers.get y
          (match p.service with
            | some t => [.u8 1, .u8 t.tone.kind.ctorIdx, .u8 t.tone.level.number, .u8 t.current,
                .u8 (if t.onPhase = true then 0 else 1), .u8 t.left]
            | none => [.u8 0, .u8 0, .u8 0, .u8 0, .u8 0, .u8 0])
          ++ held (p.hold.get .l0) ++ held (p.hold.get .l1) ++ held (p.hold.get .l2)
          ++ held (p.hold.get .l3) ++ [.u8 p.speech.ctorIdx, yes (decide (owner = some y))])
         ++ opt8 (owner.map Speaker.ctorIdx)
         ++ tone 0 0 1 1000 200 100 2 600 ++ tone 1 1 0 1200 100 100 1 200
         ++ tone 2 1 0 1500 50 50 2 200 ++ tone 3 1 2 800 300 200 2 1000
         ++ tone 4 1 3 1800 150 50 3 600 ++ tone 5 1 3 400 500 200 2 1400
         ++ tone 6 0 1 600 100 100 3 600)
    ∧ reads .clockRead .clockRead
        (let d := dateOf s.clock.count
         [.u32 s.clock.count, .u16 d.year, .u8 d.month, .u8 d.day, .u8 d.hour, .u8 d.minute,
          .u8 d.second, .u8 ((s.clock.count / 86400 + 5) % 7), first s.clock.valid]
         ++ opt32 s.retained.failCount
         ++ [.u32 (s.retained.lastGap.getD 0), yes s.retained.lastGap.isNone])
    ∧ reads .retainedStatus .retainedStatus
        ([yes s.retained.lastValid, .u8 s.retained.formatVersion, yes s.retained.lastBattery,
          .u32 (s.retained.lastGap.getD 0), yes s.retained.lastGap.isNone, yes s.retained.recorded]
         ++ opt32 s.retained.failCount)
    ∧ reads .partIdent .partIdent
        [.u8 7, .raw [75, 105, 114, 103, 111, 118, 97], .u8 7, .raw [76, 101, 110, 119, 97, 102, 116],
         .u8 4, .raw [76, 88, 54, 50], .u8 1, .u8 s.retained.formatVersion]

/-! ### Legs and seats -/

/-- R42, R43, R22, R33: a LEG_START that passes its tests takes the lowest FREE slot, fills the leg from the
starting tariff, enters its seats and touches no other leg; its tests answer in their order, and the
scheduled tariff of R33 is that of the entry in force where it is defined, else tariff 1. -/
def Obligations.LegStartTakesTheLowestFreeSlot : Prop :=
  (∀ (s : State) (i : Slot) (seats tariff consent n : Nat) (set : SeatSet),
    ready s → calibrated s = true → shiftOpen s = true →
    (s.leg i).state = .free → (∀ j : Slot, j.number < i.number → (s.leg j).state ≠ .free) →
    seatSet? seats = some set → seats ≠ 0 → (∀ x, set.get x = true → s.fare.seatMap.get x = none) →
    (tariff = 0 ∧ n = scheduledTariff s
      ∨ 1 ≤ tariff ∧ tariff ≤ 8 ∧ n = tariff ∧ (s.fare.tariff n).isDefined = true) →
    (consent = 0 ∧ (∀ j, (s.leg j).state = .free)
      ∨ consent = 1 ∧ s.settle.sharing = true ∧ (s.fare.tariff n).sharePermitted = true
        ∧ ∀ j, (s.leg j).state ≠ .free → (s.leg j).share = true) →
    activeLegs s + 1 ≤ s.journal.room →
    ∃ t, exec (.legStart seats tariff consent) s = .next t
      ∧ changesOnly [.fare, .sign, .speakers, .link] s t ∧ otherLegsKept i s t ∧ tablesKept s t
      ∧ (let d := s.fare.tariff n
         t.leg i =
          { state := .hired, selection := if tariff = 0 then .scheduled else .fixed, tariff := n
            flagFall := d.flagFall, q := -((d.includedDistance * d.timeStep : Nat) : Int), fare := d.flagFall
            seconds := 0, metres := 0, startTime := s.clock.count, stopTime := none, seats := set
            share := decide (consent = 1), capped := false, powerGap := false, paymentId := none, extras := []
            extrasTotal := 0, segments := [⟨n, 0, 0, d.flagFall⟩] }
         ∧ replyIs .legStart
          ⟨.ok, [.u8 i.number, .u8 n, .u8 (if tariff = 0 then 0 else 1), .u32 d.flagFall]⟩ t)
      ∧ (∀ x, t.fare.seatMap.get x = if set.get x = true then some i else s.fare.seatMap.get x)
      ∧ t.sign.mode = (if s.sign.mode = .forceOnCall then .auto else s.sign.mode))
  ∧ (∀ s : State,
    (∀ x, s.clock.valid = true → s.fare.entryInForce s.clock.count = some x →
      scheduledTariff s = if (s.fare.tariff x.entry.tariff).isDefined = true then x.entry.tariff else 1)
    ∧ ((s.clock.valid = false ∨ s.fare.entryInForce s.clock.count = none) → scheduledTariff s = 1))
  ∧ ∀ (s : State) (seats tariff consent : Nat), ready s →
    let refused (code : ReplyCode) : Prop :=
      exec (.legStart seats tariff consent) s = .next (refusedWith .legStart code s)
    let bad := 15 < seats ∨ seats = 0 ∨ 8 < tariff ∨ 1 < consent
    (bad → refused .badValue)
    ∧ (¬bad → (calibrated s = false → refused .uncalibrated)
    ∧ (calibrated s = true → (shiftOpen s = false → refused .noShift)
    ∧ (shiftOpen s = true → ((∀ i, (s.leg i).state ≠ .free) → refused .noSlot)
    ∧ ((∃ i, (s.leg i).state = .free) → ∀ set, seatSet? seats = some set →
      ((∃ x, set.get x = true ∧ s.fare.seatMap.get x ≠ none) → refused .seatTaken)
    ∧ ((∀ x, set.get x = true → s.fare.seatMap.get x = none) →
      (tariff ≠ 0 → (s.fare.tariff tariff).isDefined = false → refused .badValue)
    ∧ ((tariff ≠ 0 → (s.fare.tariff tariff).isDefined = true) →
      let n := if tariff = 0 then scheduledTariff s else tariff
      let conflict :=
        consent = 1 ∧ (s.settle.sharing = false ∨ (∃ j, (s.leg j).state ≠ .free ∧ (s.leg j).share = false)
          ∨ (s.fare.tariff n).sharePermitted = false)
        ∨ consent = 0 ∧ ∃ j, (s.leg j).state ≠ .free
      (conflict → refused .wrongState)
    ∧ (¬conflict → s.journal.room < activeLegs s + 1 → refused .journalFull)))))))

/-- R44: LEG_STOP on each state of the leg; a HIRED leg becomes STOPPING and nothing else of it changes. -/
def Obligations.LegStopBeginsAStop : Prop :=
  ∀ (s : State) (n : Nat), ready s →
    ((n = 0 ∨ 4 < n) → exec (.legStop n) s = .next (refusedWith .legStop .badValue s))
    ∧ ∀ i : Slot, i.number = n →
      ((s.leg i).state = .paying → exec (.legStop n) s = .next (refusedWith .legStop .legLocked s))
      ∧ ((s.leg i).state ≠ .paying → (s.leg i).state ≠ .hired →
          exec (.legStop n) s = .next (refusedWith .legStop .wrongState s))
      ∧ ((s.leg i).state = .hired →
          let u := s.setLeg i { s.leg i with state := .stopping }
          exec (.legStop n) s
            = .next (answered .legStop ⟨.ok, [.u8 2]⟩ (raise .legState (legStatePayload i u.fare) u)))

/-- R46, R33: LEG_RESUME on a slot outside 1 to 4 and on each state of the leg; from STOPPED a SCHEDULED leg
is brought to the tariff of the entry in force. -/
def Obligations.LegResumeRestartsTheMeter : Prop :=
  ∀ (s : State) (i : Slot), ready s →
    (∀ n : Nat, n = 0 ∨ 4 < n → exec (.legResume n) s = .next (refusedWith .legResume .badValue s))
    ∧ ((s.leg i).state = .paying → exec (.legResume i.number) s = .next (refusedWith .legResume .legLocked s))
    ∧ ((s.leg i).state = .free ∨ (s.leg i).state = .hired →
        exec (.legResume i.number) s = .next (refusedWith .legResume .wrongState s))
    ∧ ((s.leg i).state = .stopping →
        let u := s.setLeg i { s.leg i with state := .hired }
        exec (.legResume i.number) s = .next (answered .legResume ⟨.ok, [.u8 1, .u8 (s.leg i).tariff]⟩
          (raise .legState (legStatePayload i u.fare) u)))
    ∧ ((s.leg i).state = .stopped → ∀ l : Leg, l = { s.leg i with state := .hired, stopTime := none } →
        (s.leg i).segments.length ≤ 4 →
        ∃ t, exec (.legResume i.number) s = .next t ∧ changesOnly [.fare, .speakers, .link] s t
          ∧ otherLegsKept i s t ∧ tablesKept s t ∧ t.fare.seatMap = s.fare.seatMap
          ∧ (∀ x, l.selection = .scheduled → s.clock.valid = true →
              s.fare.entryInForce s.clock.count = some x → t.leg i = l.moved s x.entry.tariff)
          ∧ ((l.selection = .fixed ∨ s.clock.valid = false ∨ s.fare.entryInForce s.clock.count = none) →
              t.leg i = l)
          ∧ replyIs .legResume ⟨.ok, [.u8 1, .u8 (t.leg i).tariff]⟩ t)

/-- R47, R81, R105, R118: LEG_VOID on a slot outside 1 to 4 and on each state of the leg; taken, it writes one
VOID record, counts it in the open shift, frees the seats and the slot, and touches no other leg. -/
def Obligations.LegVoidWritesARecordAndFreesTheLeg : Prop :=
  ∀ (s : State) (i : Slot), ready s →
    (∀ n : Nat, n = 0 ∨ 4 < n → exec (.legVoid n) s = .next (refusedWith .legVoid .badValue s))
    ∧ ((s.leg i).state = .paying → exec (.legVoid i.number) s = .next (refusedWith .legVoid .legLocked s))
    ∧ ((s.leg i).state = .free ∨ (s.leg i).state = .stopping →
        exec (.legVoid i.number) s = .next (refusedWith .legVoid .wrongState s))
    ∧ ((s.leg i).state = .hired ∨ (s.leg i).state = .stopped →
        ((s.leg i).fare ≠ (s.leg i).flagFall ∨ (s.leg i).extras ≠ [] →
          exec (.legVoid i.number) s = .next (refusedWith .legVoid .wrongState s))
        ∧ ((s.leg i).fare = (s.leg i).flagFall → (s.leg i).extras = [] →
          ∃ t, exec (.legVoid i.number) s = .next t
            ∧ changesOnly [.fare, .shifts, .journal, .sign, .link] s t
            ∧ t.leg i = Leg.blank ∧ otherLegsKept i s t ∧ tablesKept s t
            ∧ (∀ x, t.fare.seatMap.get x
                = if s.fare.seatMap.get x = some i then none else s.fare.seatMap.get x)
            ∧ t.journal.next = s.journal.next + 1
            ∧ (s.journal.ring.length < 128 ∨ 1 ≤ s.journal.room →
              t.journal.ring = (if 128 ≤ s.journal.ring.length then s.journal.ring.drop 1 else s.journal.ring)
              ++ [⟨s.journal.next,
                  { shiftNumber := s.shifts.record.number, slot := i, seats := (s.leg i).seats
                    startTime := (s.leg i).startTime, endTime := (s.leg i).stopTime.getD s.clock.count
                    seconds := (s.leg i).seconds, metres := (s.leg i).metres, fare := (s.leg i).fare
                    extrasTotal := 0, tender := .void, segments := (s.leg i).segments, extras := []
                    powerGap := (s.leg i).powerGap }, false, false⟩])
            ∧ t.shifts.reports = s.shifts.reports
            ∧ (shiftOpen s = true → t.shifts.record = { s.shifts.record with totals :=
                { s.shifts.record.totals with
                  tripsVoided := min 4294967295 (s.shifts.record.totals.tripsVoided + 1) } })
            ∧ replyIs .legVoid ⟨.ok, [.u32 s.journal.next]⟩ t))

/-- R48, R26, R27, R49: LEG_TARIFF on a slot outside 1 to 4 or a tariff outside 1 to 8, on each state of
the leg and on each kind of tariff; taken, the selection becomes FIXED and the change is applied where the
tariff differs. -/
def Obligations.LegTariffFixesTheSelection : Prop :=
  ∀ s : State, ready s →
    (∀ n m : Nat, n = 0 ∨ 4 < n ∨ m = 0 ∨ 8 < m →
      exec (.legTariff n m) s = .next (refusedWith .legTariff .badValue s))
    ∧ ∀ (i : Slot) (k : Nat), 1 ≤ k → k ≤ 8 →
    ((s.leg i).state = .paying → exec (.legTariff i.number k) s = .next (refusedWith .legTariff .legLocked s))
    ∧ ((s.leg i).state ≠ .paying → (s.leg i).state ≠ .hired →
        exec (.legTariff i.number k) s = .next (refusedWith .legTariff .wrongState s))
    ∧ ((s.leg i).state = .hired →
        ((s.fare.tariff k).isDefined = false ∨ (s.fare.tariff k).manualSelectable = false →
          exec (.legTariff i.number k) s = .next (refusedWith .legTariff .badValue s))
        ∧ ((s.fare.tariff k).isDefined = true → (s.fare.tariff k).manualSelectable = true →
          ((s.leg i).share = true ∧ (s.fare.tariff k).sharePermitted = false →
            exec (.legTariff i.number k) s = .next (refusedWith .legTariff .wrongState s))
          ∧ (((s.leg i).share = true → (s.fare.tariff k).sharePermitted = true) →
            (s.leg i).segments.length ≤ 4 →
            ∃ t, exec (.legTariff i.number k) s = .next t ∧ changesOnly [.fare, .speakers, .link] s t
              ∧ otherLegsKept i s t ∧ tablesKept s t ∧ t.fare.seatMap = s.fare.seatMap
              ∧ t.leg i = Leg.moved { s.leg i with selection := .fixed } s k ∧ (t.leg i).tariff = k
              ∧ (k = (s.leg i).tariff → t.speakers = s.speakers ∧ t.link.queue = s.link.queue)
              ∧ replyIs .legTariff ⟨.ok, [.u8 k, .u8 1, .i32 (t.leg i).q]⟩ t)))

/-- R50, R51: LEG_EXTRA_ADD and LEG_EXTRA_REMOVE, test by test, with the clamp at an extras total of
999,999; nothing but the extras of the leg and FARE_STEP changes. Model's choice: amounts of 4 bytes in the
replies, log 17. -/
def Obligations.ExtrasAreAddedAndRemovedAtTheEnd : Prop :=
  ∀ (s : State) (n k a : Nat), ready s →
    ((n = 0 ∨ 4 < n) → exec (.legExtraAdd n k a) s = .next (refusedWith .legExtraAdd .badValue s)
      ∧ exec (.legExtraRemove n) s = .next (refusedWith .legExtraRemove .badValue s))
    ∧ ((k = 0 ∨ 12 < k) → exec (.legExtraAdd n k a) s = .next (refusedWith .legExtraAdd .badValue s))
    ∧ ∀ (i : Slot) (x : Fin 12), i.number = n → x.val + 1 = k →
      ((s.leg i).state = .paying →
        exec (.legExtraAdd n k a) s = .next (refusedWith .legExtraAdd .legLocked s)
        ∧ exec (.legExtraRemove n) s = .next (refusedWith .legExtraRemove .legLocked s))
      ∧ ((s.leg i).state = .free →
        exec (.legExtraAdd n k a) s = .next (refusedWith .legExtraAdd .wrongState s)
        ∧ exec (.legExtraRemove n) s = .next (refusedWith .legExtraRemove .wrongState s))
      ∧ ((s.leg i).state ≠ .paying → (s.leg i).state ≠ .free →
        let l := s.leg i
        let d := s.fare.kinds[x]
        (if d.isDefined = false ∨ d.amount = 0 ∧ (a = 0 ∨ 99999 < a) then
          exec (.legExtraAdd n k a) s = .next (refusedWith .legExtraAdd .badValue s)
        else if 8 ≤ l.extras.length ∨ d.limit ≤ (l.extras.filter (fun e => e.kind = k)).length
            ∨ 999999 ≤ l.extrasTotal then
          exec (.legExtraAdd n k a) s = .next (refusedWith .legExtraAdd .wrongState s)
        else
          let asked := if d.amount = 0 then a else d.amount
          let used := min asked (999999 - l.extrasTotal)
          let u := s.setLeg i
            { l with extras := l.extras ++ [⟨k, used⟩], extrasTotal := l.extrasTotal + used }
          exec (.legExtraAdd n k a) s = .next (answered .legExtraAdd
            ⟨if used = asked then .ok else .adjusted,
              [.u32 used, .u8 (l.extras.length + 1), .u32 (l.extrasTotal + used)]⟩
            (raise .fareStep (fareStepPayload u.fare) u)))
        ∧ (l.extras = [] → exec (.legExtraRemove n) s = .next (refusedWith .legExtraRemove .notFound s))
        ∧ ∀ (es : List Extra) (e : Extra), l.extras = es ++ [e] →
          let u := s.setLeg i { l with extras := es, extrasTotal := l.extrasTotal - e.amount }
          exec (.legExtraRemove n) s = .next (answered .legExtraRemove
            ⟨.ok, [.u8 e.kind, .u32 e.amount, .u8 es.length, .u32 (l.extrasTotal - e.amount)]⟩
            (raise .fareStep (fareStepPayload u.fare) u)))

/-! ### Settlement -/

/-- R61: PAY_SETTINGS_WRITE is refused while a session is open, refuses a bad currency code or rounding
unit, and stores every other setting clamped to its range. Model's choices: an empty text is the absent
currency code and is accepted, and the rounding unit is its number in one byte, log 17. -/
def Obligations.PaySettingsAreClampedAndStored : Prop :=
  ∀ (s : State) (f : SettingsFields), ready s →
    (s.settle.session.state.isOpen = true →
      exec (.paySettingsWrite f) s = .next (refusedWith .paySettingsWrite .wrongState s))
    ∧ (s.settle.session.state.isOpen = false →
      let fits := (f.currency = [] ∨ f.currency.length = 3 ∧ ∀ b ∈ f.currency, 65 ≤ b.toNat ∧ b.toNat ≤ 90)
        ∧ f.cashUnit ∈ [1, 5, 10, 25, 50, 100]
      (¬fits → exec (.paySettingsWrite f) s = .next (refusedWith .paySettingsWrite .badValue s))
      ∧ (fits → ∃ (g : Settings) (code : ReplyCode),
          exec (.paySettingsWrite f) s = .next (answered .paySettingsWrite ⟨code, settingsReply g⟩
            { s with settle := { s.settle with settings := g } })
          ∧ g.currency = (if f.currency = [] then none else some f.currency) ∧ g.cashUnit = f.cashUnit
          ∧ g.feeBp = min 1000 f.feeBp ∧ g.feeCap = max 1 (min 99999 f.feeCap)
          ∧ g.preset1 = min 50 f.preset1 ∧ g.preset2 = min 50 f.preset2 ∧ g.preset3 = min 50 f.preset3
          ∧ g.preset4 = min 50 f.preset4 ∧ g.ceiling = min 100 f.ceiling
          ∧ g.limit = max 100 (min 9999999 f.limit)
          ∧ (code = .ok ∨ code = .adjusted)
          ∧ (code = .ok ↔ f.feeBp ≤ 1000 ∧ 1 ≤ f.feeCap ∧ f.feeCap ≤ 99999 ∧ f.preset1 ≤ 50
              ∧ f.preset2 ≤ 50 ∧ f.preset3 ≤ 50 ∧ f.preset4 ≤ 50 ∧ f.ceiling ≤ 100 ∧ 100 ≤ f.limit
              ∧ f.limit ≤ 9999999)))

/-- R67: the rounded due is the multiple of the unit nearest to the due, an exact half rounded up; the
adjustment is the difference, within half a unit; a cash settlement takes the rounded due as its total, with
no fee and no tip. -/
def Obligations.CashIsRoundedToTheNearestMultiple : Prop :=
  (∀ u due : Nat, 0 < u →
    (∃ m, roundedDue u due = m * u)
    ∧ (∀ m : Nat, ((roundedDue u due : Int) - due).natAbs ≤ ((m * u : Nat) - due : Int).natAbs)
    ∧ (2 * (due % u) = u → roundedDue u due = due + u / 2)
    ∧ cashDifference u due = (roundedDue u due : Int) - due
    ∧ -((u - 1 - u / 2 : Nat) : Int) ≤ cashDifference u due ∧ cashDifference u due ≤ (u / 2 : Nat)
    ∧ (u = 1 → cashDifference u due = 0))
  ∧ ∀ s : State,
    (settlesByCash s).settle.session.total = roundedDue s.settle.settings.cashUnit s.settle.session.due
    ∧ (settlesByCash s).settle.session.fee = 0 ∧ (settlesByCash s).settle.session.tip = 0
    ∧ (settlesByCash s).settle.session.cashAdjustment
        = some (cashDifference s.settle.settings.cashUnit s.settle.session.due)

/-- R68: each leg but the first is given its whole part of the amount by dues, the first the rest as well;
the shares add up to the amount, a negative one is shared by its magnitude, and with one leg it has all. -/
def Obligations.SharesAddUpToTheAmount : Prop :=
  ∀ (x y : Nat) (z : Int) (d : Nat) (ds : List Nat) (due : Nat), due = (d :: ds).sum →
    (∃ r, apportion x due (d :: ds) = (x * d / due + r) :: ds.map (fun e => x * e / due))
    ∧ (apportion x due (d :: ds)).sum = x
    ∧ (due = 0 → apportion x due (d :: ds) = x :: ds.map (fun _ => 0))
    ∧ (ds = [] → apportion x due (d :: ds) = [x])
    ∧ (apportionSigned z due (d :: ds)).sum = z
    ∧ (z < 0 → apportionSigned z due (d :: ds)
        = (apportion z.natAbs due (d :: ds)).map (fun n => -(n : Int)))
    ∧ (0 ≤ z → apportionSigned z due (d :: ds)
        = (apportion z.natAbs due (d :: ds)).map (fun n => (n : Int)))
    ∧ (((d :: ds).zip ((apportion x due (d :: ds)).zip (apportion y due (d :: ds)))).map
        (fun e => e.1 + e.2.1 + e.2.2)).sum = due + x + y
    ∧ (((d :: ds).zip (apportionSigned z due (d :: ds))).map (fun e => (e.1 : Int) + e.2)).sum = due + z

/-- R63, R64, R65, R69, R70: a CARD PAY_BEGIN that passes its tests takes the next payment id, locks its
legs, fills the session and enters TIP_WAIT or AUTHORISING; the tests of PAY_BEGIN answer in their order.
Model's choice: the set of slots as a byte, log 17. -/
def Obligations.ACardPaymentBegins : Prop :=
  (∀ (s : State) (slots : List Slot) (legs offer due fee : Nat),
    ready s → shiftOpen s = true → s.odo.motion = .stationary →
    slotSet? legs = some slots → legs ≠ 0 → (offer = 0 ∨ offer = 1) →
    (∀ i ∈ slots, (s.leg i).state = .stopped) → s.settle.session.state.isOpen = false →
    s.settle.settings.currency.isSome = true → s.tender.up = true → s.settle.reversals.length < 4 →
    due = (slots.map (fun i => (s.leg i).fare + (s.leg i).extrasTotal)).sum →
    fee = min ((due * s.settle.settings.feeBp + 5000) / 10000) s.settle.settings.feeCap →
    due + fee ≤ s.settle.settings.limit →
    ∃ t, exec (.payBegin legs 0 offer) s = .next t
      ∧ changesOnly [.settle, .fare, .tender, .speakers, .link] s t
      ∧ (∀ i, t.leg i =
          if i ∈ slots then { s.leg i with state := .paying, paymentId := some s.settle.nextId } else s.leg i)
      ∧ t.fare.seatMap = s.fare.seatMap ∧ tablesKept s t
      ∧ t.settle.session =
        { state := if offer = 1 then .tipWait else .authorising, paymentId := s.settle.nextId
          legs := slots.map (fun i => ⟨i, (s.leg i).fare + (s.leg i).extrasTotal⟩), due := due, fee := fee
          tip := 0, total := due + fee, tender := .card, tipOffered := decide (offer = 1), attempt := some 1
          outstanding := if offer = 1 then none else some ⟨s.settle.nextId, 1⟩, abortCause := none
          stage := none, authCode := none, declineReason := none, closeCause := none
          cashAdjustment := none, beginTime := s.clock.count, closeTime := none, tipCeiled := false
          tipLimited := false }
      ∧ t.settle.nextId = (if s.settle.nextId < 65535 then s.settle.nextId + 1 else 1)
      ∧ t.settle.timer = some (if offer = 1 then ⟨.tip, 3000⟩ else ⟨.response, 6000⟩)
      ∧ t.tender = (if offer = 1 then s.tender else (s.tender.give s.pins.cts
          (.sale ⟨s.settle.nextId, 1⟩ (due + fee) (s.settle.settings.currency.getD []))).1)
      ∧ announced .paymentState (paymentPayload t.settle.session) t
      ∧ replyIs .payBegin
        ⟨.ok, [.u16 s.settle.nextId, .u8 (if offer = 1 then 1 else 2), .u32 due, .u32 fee,
          .u32 (due + fee)]⟩ t)
  ∧ ∀ (s : State) (slots : List Slot) (legs tender offer : Nat), ready s →
    let refused (code : ReplyCode) : Prop :=
      exec (.payBegin legs tender offer) s = .next (refusedWith .payBegin code s)
    let bad := 15 < legs ∨ legs = 0 ∨ 1 < tender ∨ 1 < offer
    (bad → refused .badValue)
    ∧ (¬bad → slotSet? legs = some slots → (shiftOpen s = false → refused .noShift)
    ∧ (shiftOpen s = true → (s.odo.motion = .moving → refused .moving)
    ∧ (s.odo.motion = .stationary → ((∃ i ∈ slots, (s.leg i).state = .paying) → refused .legLocked)
    ∧ ((∀ i ∈ slots, (s.leg i).state ≠ .paying) →
      ((∃ i ∈ slots, (s.leg i).state ≠ .stopped) → refused .wrongState)
    ∧ ((∀ i ∈ slots, (s.leg i).state = .stopped) →
      (s.settle.session.state.isOpen = true → refused .wrongState)
    ∧ (s.settle.session.state.isOpen = false → tender = 0 →
      (s.settle.settings.currency = none → refused .wrongState)
    ∧ (s.settle.settings.currency.isSome = true → (s.tender.up = false → refused .terminalDown)
    ∧ (s.tender.up = true → (4 ≤ s.settle.reversals.length → refused .terminalBusy)
    ∧ (s.settle.reversals.length < 4 →
      let due := (slots.map (fun i => (s.leg i).fare + (s.leg i).extrasTotal)).sum
      s.settle.settings.limit
          < due + min ((due * s.settle.settings.feeBp + 5000) / 10000) s.settle.settings.feeCap →
        refused .limit)))))))))

/-- R66, R69, R70, R77: PAY_TIP, the tip timer's expiry and PAY_AUTHORISE each enter AUTHORISING, with the
tip asked for after its two clamps, no tip, and the next attempt number. Model's choices: the order of
PAY_TIP's tests, log 19, its clamp byte, log 17, an expiry at any count, log 5. -/
def Obligations.ThreeWaysIntoAuthorising : Prop :=
  ∀ (s : State) (p : Session), p = s.settle.session →
    (p.state = .tipWait → ready s → ∀ selector value asked : Nat,
      (selector = 1 ∧ asked = value
        ∨ selector = 0 ∧ ∃ pct, (value = 1 ∧ pct = s.settle.settings.preset1
            ∨ value = 2 ∧ pct = s.settle.settings.preset2 ∨ value = 3 ∧ pct = s.settle.settings.preset3
            ∨ value = 4 ∧ pct = s.settle.settings.preset4) ∧ asked = (p.due * pct + 50) / 100) →
      p.due + p.fee ≤ s.settle.settings.limit →
      ∃ (t : State) (ceiled limited : Bool) (tip : Nat), exec (.payTip selector value) s = .next t
        ∧ entersAuthorising
          { p with
            tip := tip, total := p.due + p.fee + tip, tipCeiled := ceiled, tipLimited := limited } s t
        ∧ (ceiled = true ↔ p.due * s.settle.settings.ceiling / 100 < asked)
        ∧ (let c := min asked (p.due * s.settle.settings.ceiling / 100)
           (limited = true ↔ s.settle.settings.limit < p.due + p.fee + c)
           ∧ tip = if s.settle.settings.limit < p.due + p.fee + c then
              s.settle.settings.limit - p.due - p.fee else c)
        ∧ replyIs .payTip
          ⟨if ceiled = true ∨ limited = true then .adjusted else .ok,
            [.u32 tip, .u8 ((if ceiled = true then 1 else 0) + if limited = true then 2 else 0),
             .u32 (p.due + p.fee + tip), .u8 2]⟩ t)
    ∧ (p.state = .tipWait → ready s → ∀ value : Nat, (value = 0 ∨ 4 < value) →
      exec (.payTip 0 value) s = .next (refusedWith .payTip .badValue s))
    ∧ (p.state ≠ .tipWait → ready s → ∀ selector value : Nat,
      exec (.payTip selector value) s = .next (refusedWith .payTip .wrongState s))
    ∧ (p.state = .tipWait → s.power = .running → ∃ t, exec .tipTimerExpiry s = .next t
      ∧ entersAuthorising
        { p with tip := 0, total := p.due + p.fee, tipCeiled := false, tipLimited := false } s t)
    ∧ (p.state = .retryWait → ready s →
      (s.tender.up = false → exec .payAuthorise s = .next (refusedWith .payAuthorise .terminalDown s))
      ∧ (s.tender.up = true → 4 ≤ s.settle.reversals.length →
        exec .payAuthorise s = .next (refusedWith .payAuthorise .terminalBusy s))
      ∧ (s.tender.up = true → s.settle.reversals.length < 4 → ∀ n, p.attempt = some n →
        ∃ t, exec .payAuthorise s = .next t ∧ entersAuthorising { p with attempt := some (n + 1) } s t
          ∧ replyIs .payAuthorise ⟨.ok, [.u8 (n + 1)]⟩ t))
    ∧ (p.state ≠ .retryWait → ready s →
      exec .payAuthorise s = .next (refusedWith .payAuthorise .wrongState s))

/-- R71, R74, R75, R77: T_PROGRESS restarts the response timer up to 180 s after the T_SALE; the response
timer's expiry and PAY_CANCEL ask for an abort; PAY_CANCEL and the retry idle timer close a session that has
no reference outstanding. Model's choices: message and expiry rows, log 4 and 5. -/
def Obligations.CancelsAndTimeoutsByState : Prop :=
  ∀ (s : State) (p : Session), p = s.settle.session →
    (s.power = .running → ∀ (r : Ref) (x : Stage), ∃ t, exec (.tProgress r x) s = .next t
      ∧ changesOnly [.settle, .tender, .link] s t
      ∧ t.tender = { s.tender with handedOn :=
          if s.tender.handedOn = some (.progress r x) then none else s.tender.handedOn }
      ∧ (p.state = .authorising → p.outstanding = some r →
          t.settle =
            { s.settle with
              session := { p with stage := some x }, timer := some ⟨.response, min 6000 s.settle.saleLeft⟩ }
          ∧ announced .paymentState (paymentPayload t.settle.session) t)
      ∧ (p.state ≠ .authorising ∨ p.outstanding ≠ some r → t.settle = s.settle ∧ t.link = s.link))
    ∧ (s.power = .running → p.state = .authorising → ∀ r, p.outstanding = some r →
      ∃ t, exec .responseTimerExpiry s = .next t ∧ entersAborting .timeout r s t)
    ∧ (s.power = .running → p.state = .retryWait → ∃ t, exec .retryIdleTimerExpiry s = .next t
      ∧ changesOnly [.settle, .fare, .link] s t ∧ closedUnpaid p .cancelled .idle s t)
    ∧ (ready s →
      (p.state = .authorising → ∀ r, p.outstanding = some r → ∃ t, exec .payCancel s = .next t
        ∧ entersAborting .cancel r s t ∧ replyIs .payCancel ⟨.ok, []⟩ t)
      ∧ (p.state = .tipWait ∨ p.state = .retryWait → ∃ t, exec .payCancel s = .next t
        ∧ changesOnly [.settle, .fare, .link] s t ∧ closedUnpaid p .cancelled .host s t
        ∧ replyIs .payCancel ⟨.ok, []⟩ t)
      ∧ (p.state = .settled → exec .payCancel s = .next (refusedWith .payCancel .tooLate s))
      ∧ (p.state = .aborting ∨ p.state = .failed ∨ p.state = .cancelled ∨ p.state = .none →
        exec .payCancel s = .next (refusedWith .payCancel .wrongState s)))

/-- R73, R76, R78: how a T_DECLINED, a T_ABORTED and the abort timer's expiry end the attempt whose
reference is outstanding, and what they do to the stale-reference memory. Model's choices: message and
expiry rows, log 4 and 5. -/
def Obligations.AttemptsEndWithoutApproval : Prop :=
  ∀ (s : State) (r : Ref) (n : Nat), s.power = .running → s.settle.session.outstanding = some r →
    let taken (m : TermMsg) : TenderLink :=
      { s.tender with handedOn := if s.tender.handedOn = some m then none else s.tender.handedOn }
    (s.settle.session.state = .authorising →
      (∃ t, exec (.tDeclined r n) s = .next t
        ∧ changesOnly [.settle, .fare, .tender, .shifts, .speakers, .link] s t
        ∧ attemptEnded (.terminal n) s t ∧ t.settle.stale = s.settle.stale.filter (· ≠ r)
        ∧ t.tender = taken (.declined r n))
      ∧ exec (.tAborted r) s = .next { s with tender := taken (.aborted r) })
    ∧ (s.settle.session.state = .aborting →
      (∃ t, exec (.tDeclined r n) s = .next t
        ∧ changesOnly [.settle, .fare, .tender, .shifts, .speakers, .link] s t
        ∧ (s.settle.session.abortCause = some .cancel →
            closedUnpaid s.settle.session .cancelled .host s t ∧ t.shifts = s.shifts
              ∧ t.speakers = s.speakers)
        ∧ (s.settle.session.abortCause ≠ some .cancel → attemptEnded .timeout s t)
        ∧ t.settle.stale = s.settle.stale.filter (· ≠ r) ∧ t.tender = taken (.declined r n))
      ∧ (∃ t, exec (.tAborted r) s = .next t
        ∧ changesOnly [.settle, .fare, .tender, .shifts, .speakers, .link] s t
        ∧ (s.settle.session.abortCause = some .cancel →
            closedUnpaid s.settle.session .cancelled .host s t ∧ t.shifts = s.shifts
              ∧ t.speakers = s.speakers)
        ∧ (s.settle.session.abortCause ≠ some .cancel → attemptEnded .timeout s t)
        ∧ t.settle.stale = s.settle.stale.filter (· ≠ r) ∧ t.tender = taken (.aborted r))
      ∧ ∃ t, exec .abortTimerExpiry s = .next t
        ∧ changesOnly [.settle, .fare, .shifts, .speakers, .link] s t
        ∧ (s.settle.session.abortCause = some .cancel →
            closedUnpaid s.settle.session .cancelled .host s t ∧ t.shifts = s.shifts
              ∧ t.speakers = s.speakers)
        ∧ (s.settle.session.abortCause ≠ some .cancel → attemptEnded .uncertain s t)
        ∧ (s.settle.stale.length < 8 ∨ s.settle.stale.length = 8 ∧ r ∈ s.settle.stale
              ∧ s.settle.stale.Nodup →
            t.settle.stale = s.settle.stale.filter (· ≠ r) ++ [r])
        ∧ (s.settle.stale.length = 8 → r ∉ s.settle.stale →
            t.settle.stale = s.settle.stale.drop 1 ++ [r]))

/-- R64, R72, R76, R77, R80: an approval of the total, a CASH PAY_BEGIN and PAY_CASH each settle the session
in one event; its records are placed and their figures added to the shift (R104, R106); the two requests are
answered with the figures and the records' sequence numbers, and PAY_CASH is refused outside RETRY_WAIT.
Model's choices: message rows, log 4, no attempt in cash, log 41, the count byte before the numbers,
log 17. -/
def Obligations.PaymentsSettleInOneEvent : Prop :=
  ∀ s : State, sessionKept s → seatsKept s →
    let numbers (n : Nat) : List Field :=
      .u8 n :: (List.range n).map (fun k => .u32 (s.journal.next + k))
    (s.power = .running → s.settle.session.state.isOpen = true →
      ∀ (r : Ref) (authCode : Text), s.settle.session.outstanding = some r →
      ∃ t, exec (.tApproved r s.settle.session.total authCode) s = .next t
        ∧ changesOnly [.settle, .fare, .tender, .shifts, .journal, .sign, .speakers, .link] s t
        ∧ settledAs
          { s.settle.session with
            state := .settled, closeCause := some .approved, closeTime := some s.clock.count
            outstanding := none, abortCause := none, authCode := some authCode }
          (cardShares s.settle.session authCode) s t
        ∧ t.settle.stale = s.settle.stale.filter (· ≠ r) ∧ t.settle.reversals = s.settle.reversals)
    ∧ (ready s → s.settle.session.state = .retryWait → ∃ t, exec .payCash s = .next t
      ∧ changesOnly [.settle, .fare, .shifts, .journal, .sign, .speakers, .link] s t
      ∧ settledAs (s.settle.session.paidCash s.settle.settings.cashUnit s.clock.count)
        (cashShares s.settle.session
          (cashDifference s.settle.settings.cashUnit s.settle.session.due)) s t
      ∧ replyIs .payCash
        ⟨.ok, [.u32 (roundedDue s.settle.settings.cashUnit s.settle.session.due),
          .i8 (cashDifference s.settle.settings.cashUnit s.settle.session.due)]
          ++ numbers s.settle.session.legs.length⟩ t)
    ∧ (ready s → s.settle.session.state ≠ .retryWait →
      exec .payCash s = .next (refusedWith .payCash .wrongState s))
    ∧ (ready s → ∀ (slots : List Slot) (legs offer due : Nat), shiftOpen s = true →
      s.odo.motion = .stationary → slotSet? legs = some slots → legs ≠ 0 → (offer = 0 ∨ offer = 1) →
      (∀ i ∈ slots, (s.leg i).state = .stopped) → s.settle.session.state.isOpen = false →
      due = (slots.map (fun i => (s.leg i).fare + (s.leg i).extrasTotal)).sum →
      ∃ (t : State) (p : Session), exec (.payBegin legs 1 offer) s = .next t
        ∧ changesOnly [.settle, .fare, .shifts, .journal, .sign, .speakers, .link] s t
        ∧ settledAs p
          (cashShares p (cashDifference s.settle.settings.cashUnit due)) s t
        ∧ p.state = .settled ∧ p.paymentId = s.settle.nextId ∧ p.due = due ∧ p.fee = 0 ∧ p.tip = 0
        ∧ p.total = roundedDue s.settle.settings.cashUnit due ∧ p.tender = .cash ∧ p.slots = slots
        ∧ p.attempt = none ∧ p.outstanding = none
        ∧ t.settle.nextId = (if s.settle.nextId < 65535 then s.settle.nextId + 1 else 1)
        ∧ replyIs .payBegin
          ⟨.ok, [.u16 s.settle.nextId, .u8 SessionState.settled.ctorIdx, .u32 due,
            .u32 (roundedDue s.settle.settings.cashUnit due),
            .i8 (cashDifference s.settle.settings.cashUnit due)] ++ numbers slots.length⟩ t)

/-- R72, R76, R78, R79, R105: an approval of another amount, in AUTHORISING and in ABORTING, and a late
approval are reversed, with T_REVERSE sent and an entry made, a T_REVERSED drops the oldest entry of its
reference, and a resend timer's expiry sends T_REVERSE again. Model's choices: message rows, log 4, an
expiry at any count, log 5, the naming of entries, log 40. -/
def Obligations.ReversalsAreSentAndHeld : Prop :=
  ∀ (s : State) (r : Ref), s.power = .running →
    let taken (m : TermMsg) : TenderLink :=
      { s.tender with handedOn := if s.tender.handedOn = some m then none else s.tender.handedOn }
    (∀ (amount : Nat) (authCode : Text), s.settle.session.outstanding ≠ some r →
      ∃ t, exec (.tApproved r amount authCode) s = .next t
        ∧ changesOnly [.settle, .tender, .shifts, .link] s t
        ∧ t.settle =
          { s.settle with
            stale := s.settle.stale.filter (· ≠ r)
            reversals := if s.settle.reversals.length < 5 then
              s.settle.reversals ++ [⟨r, amount, 3000⟩] else s.settle.reversals
            unheld := if s.settle.reversals.length < 5 then s.settle.unheld
              else min 255 (s.settle.unheld + 1) }
        ∧ t.tender = ((taken (.approved r amount authCode)).give s.pins.cts (.reverse r amount)).1
        ∧ t.shifts = (addTotals Totals.addLate (addTotals Totals.addReversal s)).shifts
        ∧ announced .lateApproval
          (refFields r ++ [.u32 amount, .u8 (if r ∈ s.settle.stale then 1 else 0),
            .u8 (if s.settle.reversals.length < 5 then 1 else 0)]) t)
    ∧ (∀ (amount : Nat) (authCode : Text), s.settle.session.outstanding = some r →
      (s.settle.session.state = .authorising ∧ s.settle.session.abortCause = none
        ∨ s.settle.session.state = .aborting) →
      amount ≠ s.settle.session.total →
      ∃ t, exec (.tApproved r amount authCode) s = .next t
        ∧ changesOnly [.settle, .fare, .tender, .shifts, .speakers, .link] s t
        ∧ t.settle.reversals = (if s.settle.reversals.length < 4 then
            s.settle.reversals ++ [⟨r, amount, 3000⟩] else s.settle.reversals)
        ∧ t.settle.unheld = (if s.settle.reversals.length < 4 then s.settle.unheld
            else min 255 (s.settle.unheld + 1))
        ∧ t.settle.stale = s.settle.stale.filter (· ≠ r)
        ∧ t.tender = ((taken (.approved r amount authCode)).give s.pins.cts (.reverse r amount)).1
        ∧ (s.settle.session.abortCause = some .cancel →
          closedUnpaid s.settle.session .cancelled .host s t ∧ t.speakers = s.speakers
            ∧ t.shifts = (addTotals Totals.addReversal s).shifts)
        ∧ (s.settle.session.abortCause ≠ some .cancel →
          t.shifts = (addTotals Totals.addDecline (addTotals Totals.addReversal s)).shifts
          ∧ t.speakers = (askTone .declined s).speakers
          ∧ announced .paymentState (paymentPayload t.settle.session) t
          ∧ (s.settle.session.attempt.getD 0 < 3 → t.settle.session =
              { s.settle.session with
                state := .retryWait, outstanding := none, abortCause := none
                declineReason := some .amountMismatch }
            ∧ t.settle.timer = some ⟨.retryIdle, 12000⟩ ∧ t.fare = s.fare)
          ∧ (3 ≤ s.settle.session.attempt.getD 0 → closedUnpaid
              { s.settle.session with declineReason := some .amountMismatch } .failed .declines s t)))
    ∧ (∃ t, exec (.tReversed r) s = .next t ∧ changesOnly [.settle, .tender] s t
      ∧ t.settle = { s.settle with reversals := s.settle.reversals.eraseP (fun e => e.ref = r) }
      ∧ t.tender = taken (.reversed r))
    ∧ (s.settle.session.outstanding ≠ some r → ∀ n, ∃ t u,
      exec (.tDeclined r n) s = .next t ∧ exec (.tAborted r) s = .next u
      ∧ changesOnly [.settle, .tender] s t ∧ changesOnly [.settle, .tender] s u
      ∧ t.settle = { s.settle with stale := s.settle.stale.filter (· ≠ r) } ∧ u.settle = t.settle
      ∧ t.tender = taken (.declined r n) ∧ u.tender = taken (.aborted r))
    ∧ ∀ (before after : List Reversal) (e : Reversal), s.settle.reversals = before ++ e :: after →
      ∃ t, exec (.resendTimerExpiry before.length) s = .next t
        ∧ changesOnly [.settle, .tender, .link] s t
        ∧ t.settle = { s.settle with reversals := before ++ { e with left := 3000 } :: after }
        ∧ t.tender = (s.tender.give s.pins.cts (.reverse e.ref e.amount)).1

/-! ### Tender link -/

/-- R88 to R91, R95 to R97: a byte at the receive ring, the frame reader at each byte it takes, a T_STATUS
taken, and TERMINAL_STATUS with its clear set. Model's choices: T_STATUS given directly, log 4, when
T_STATUS is taken, log 34, the clear byte and the flags of TERMINAL_LINK, log 17, a gap that no base
step has counted, log 4. -/
def Obligations.BytesBecomeMessages : Prop :=
  ∀ s : State, s.power = .running →
    (∀ (b : Byte) (gap : Bool),
      (s.tender.ring.length < 256 → ∃ t, exec (.tlByteArrival b gap) s = .next t ∧ changesOnly [.tender] s t
        ∧ t.tender =
          { s.tender with
            ring := s.tender.ring ++ [⟨b,
              (match s.tender.sinceByte with
                | some n => decide (6 ≤ n) || gap
                | none => false) || s.tender.dropSince⟩]
            rts := if s.tender.ring.length = 191 then false else s.tender.rts
            sinceByte := some 0, dropSince := false })
      ∧ (256 ≤ s.tender.ring.length → ∃ t, exec (.tlByteArrival b gap) s = .next t
        ∧ changesOnly [.tender, .link] s t
        ∧ t.tender =
          { s.tender with
            droppedBytes := min 65535 (s.tender.droppedBytes + 1), dropSince := true
            sinceByte := some 0, overflow := true }
        ∧ (s.tender.overflow = false → announced .terminalLink (terminalPayload t.tender) t)))
    ∧ (∀ (b : RingByte) (bs : List RingByte), s.tender.handedOn = none → s.tender.ring = b :: bs →
      ∃ t, exec .frameReaderTake s = .next t ∧ changesOnly [.tender, .link] s t
        ∧ (let u :=
            { s.tender with ring := bs, rts := if bs.length = 64 then true else s.tender.rts }
          let hunt (v : TenderLink) : TenderLink :=
            if b.byte = 0x3C#8 then { v with reader := .assembling [] }
            else { v with reader := .hunting, discardedBytes := min 65535 (v.discardedBytes + 1) }
          (s.tender.reader = .hunting → t.tender = hunt u)
          ∧ ∀ taken, s.tender.reader = .assembling taken →
            (b.broken = true → t.tender = hunt { u with gapDiscards := min 65535 (u.gapDiscards + 1) })
            ∧ (b.broken = false →
              (taken = [] → t.tender =
                if 2 ≤ b.byte.toNat ∧ b.byte.toNat ≤ 64 then { u with reader := .assembling [b.byte] }
                else { u with reader := .hunting, lengthDiscards := min 65535 (u.lengthDiscards + 1) })
              ∧ ∀ (n : Byte) (rest : List Byte), taken = n :: rest →
                (rest.length < n.toNat →
                  t.tender = { u with reader := .assembling (taken ++ [b.byte]) })
                ∧ (rest.length = n.toNat → b.byte ≠ crc8 taken → t.tender =
                  { u with reader := .hunting, crcDiscards := min 65535 (u.crcDiscards + 1) })
                ∧ (∀ (kind : Byte) (body : List Byte), rest = kind :: body → rest.length = n.toNat →
                  b.byte = crc8 taken →
                  let v :=
                    { u with
                      reader := .hunting, unanswered := 0, answered := true, up := true
                      sinceFrame := some 0 }
                  (termMsg? kind body = none →
                    t.tender = { v with malformed := min 65535 (v.malformed + 1) })
                  ∧ (∀ x k, termMsg? kind body = some (.status x k) →
                    t.tender = { v with readiness := some x, lastAnswered := some k })
                  ∧ ∀ m, termMsg? kind body = some m → (∀ x k, m ≠ .status x k) →
                    t.tender = { v with handedOn := some m }))))
    ∧ (∀ (x : Readiness) (n : Nat), ∃ t, exec (.tStatus x n) s = .next t
      ∧ changesOnly [.tender, .link] s t
      ∧ t.tender =
        { s.tender with
          unanswered := 0, answered := true, up := true, sinceFrame := some 0, readiness := some x
          lastAnswered := some n }
      ∧ (s.tender.up = false ∨ s.tender.readiness ≠ some x →
          announced .terminalLink (terminalPayload t.tender) t))
    ∧ (ready s → ∀ c : Nat,
      (4 ≤ c → exec (.terminalStatus c) s = .next (refusedWith .terminalStatus .badValue s))
      ∧ (c < 4 → exec (.terminalStatus c) s
          = .next (answered .terminalStatus ⟨.ok, terminalFields s.tender s.pins.cts⟩
            { s with tender :=
              { s.tender with
                overflow := if c % 2 = 1 then false else s.tender.overflow
                stalled := if 2 ≤ c then false else s.tender.stalled } })))

/-- R86, R92 to R95: frames given to the transmit queue, the heartbeat, TL_CTS that lets the waiting byte
start or makes the next one wait, and the head frame that is sent whole or discarded; while TL_CTS holds
back bytes of it, it has not been sent. Model's choices: when a byte starts, log 24, an event without its
cause, log 4, an expiry at any count, log 5, the flags of TERMINAL_LINK, log 17. -/
def Obligations.FramesAreQueuedSentAndDiscarded : Prop :=
  ∀ (s : State), s.power = .running →
    let len := (s.tender.queue.head?.map (fun m => m.frame.length)).getD 0
    let begun := if 2 ≤ s.tender.queue.length ∧ s.pins.cts = true then 1 else 0
    (∀ m, (∀ n, m ≠ .statusAsk n) →
      (s.tender.queue.length < 8 → (s.tender.give s.pins.cts m).1.queue = s.tender.queue ++ [m]
        ∧ (s.tender.give s.pins.cts m).1.stalled = s.tender.stalled)
      ∧ (8 ≤ s.tender.queue.length → (s.tender.give s.pins.cts m).1 =
        { s.tender with txDiscards := min 65535 (s.tender.txDiscards + 1), stalled := true }))
    ∧ (∀ (a b : List PartMsg) (k n : Nat), s.tender.queue = a ++ .statusAsk k :: b →
      (∀ j, .statusAsk j ∉ a) → (0 < s.tender.headStarted → a ≠ []) →
      (s.tender.give s.pins.cts (.statusAsk n)).1 = { s.tender with queue := a ++ .statusAsk n :: b })
    ∧ (∃ t, exec .heartbeatExpiry s = .next t ∧ changesOnly [.tender, .link] s t
      ∧ (let judged := if s.tender.answered = true then s.tender.unanswered else min 3 (s.tender.unanswered + 1)
         let falls : Prop := s.tender.answered = false ∧ judged = 3
         let ask := (s.tender.askNumber + 1) % 256
         t.tender = (TenderLink.give
            { s.tender with
              unanswered := judged, up := if falls then false else s.tender.up
              answered := false, heartbeat := 1000, askNumber := ask }
            s.pins.cts (.statusAsk ask)).1
         ∧ (falls → s.tender.up = true → announced .terminalLink (terminalPayload t.tender) t)))
    ∧ (∀ level, exec (.tlCtsChange level) s = .next
        { s with
          pins := { s.pins with cts := level }
          tender := { s.tender with
            headStarted := if level = true ∧ s.pins.cts = false then
                min len (s.tender.headStarted + 1) else s.tender.headStarted } })
    ∧ ((s.tender.headStarted = 0 ∨ s.pins.cts = false ∧ s.tender.headStarted ≠ len) →
        exec .tlFrameSent s = .next s)
    ∧ (0 < s.tender.headStarted → (s.pins.cts = true ∨ s.tender.headStarted = len) →
      ∃ t, exec .tlFrameSent s = .next t ∧ changesOnly [.tender] s t
      ∧ t.tender =
        { s.tender with
          queue := s.tender.queue.drop 1
          headStarted := begun
          sendLeft := if 2 ≤ s.tender.queue.length then 200 else 0 })
    ∧ (s.tender.queue ≠ [] → ∃ t, exec .sendTimerExpiry s = .next t ∧ changesOnly [.tender, .link] s t
      ∧ t.tender =
        { s.tender with
          queue := s.tender.queue.drop 1
          headStarted := begun
          sendLeft := if 2 ≤ s.tender.queue.length then 200 else 0
          txDiscards := min 65535 (s.tender.txDiscards + 1), stalled := true }
      ∧ (s.tender.stalled = false → announced .terminalLink (terminalPayload t.tender) t))

/-! ### Shifts and the trip journal -/

/-- R10, R62, R101, R102, R107 to R109, R117, R126: the tests of SHIFT_OPEN and SHIFT_CLOSE in their order,
and what each does when taken. -/
def Obligations.ShiftsOpenAndClose : Prop :=
  ∀ s : State, ready s →
    (∀ d : Text,
      let fits := d.length ≤ 8 ∧ ∀ b ∈ d, 32 ≤ b.toNat ∧ b.toNat ≤ 126
      (¬fits → exec (.shiftOpen d) s = .next (refusedWith .shiftOpen .badValue s))
      ∧ (fits → shiftOpen s = true → exec (.shiftOpen d) s = .next (refusedWith .shiftOpen .wrongState s))
      ∧ (fits → shiftOpen s = false → calibrated s = false →
          exec (.shiftOpen d) s = .next (refusedWith .shiftOpen .uncalibrated s))
      ∧ (fits → shiftOpen s = false → calibrated s = true → s.clock.valid = false →
          exec (.shiftOpen d) s = .next (refusedWith .shiftOpen .wrongState s))
      ∧ (fits → shiftOpen s = false → calibrated s = true → s.clock.valid = true →
        ∃ t, exec (.shiftOpen d) s = .next t ∧ changesOnly [.shifts, .settle, .odo, .sign, .link] s t
          ∧ (let n := if s.shifts.record.number < 65535 then s.shifts.record.number + 1 else 1
             t.shifts =
              { s.shifts with record :=
                { isOpen := true, number := n, driver := d, openTime := some s.clock.count
                  closeTime := none, odometerOpen := some s.odo.totalDistance, odometerClose := none
                  calCountOpen := s.retained.calCount, totals := Totals.zero } }
             ∧ replyIs .shiftOpen
              ⟨.ok, [.u16 n, .u32 s.clock.count, .u32 s.odo.totalDistance, .u16 s.retained.calCount]⟩ t)
          ∧ t.settle = { s.settle with nextId := 1 }
          ∧ t.odo =
            (if s.pins.calen = true ∧ s.odo.measurement = .starting then
              { s.odo with measurement := .idle, measurePulses := 0, measureSeconds := 0 }
            else if s.pins.calen = true ∧ s.odo.measurement = .running then
              { s.odo with measurement := .stopping }
            else s.odo)
          ∧ announced .shiftState (shiftPayload t.shifts) t))
    ∧ (shiftOpen s = false ∨ (∃ i, (s.leg i).state ≠ .free) ∨ s.settle.session.state.isOpen = true →
      exec .shiftClose s = .next (refusedWith .shiftClose .wrongState s))
    ∧ (shiftOpen s = true → (∀ i, (s.leg i).state = .free) → s.settle.session.state.isOpen = false →
      (8 ≤ s.shifts.reports.length → (∀ p ∈ s.shifts.reports, p.isRead = false) →
        exec .shiftClose s = .next (refusedWith .shiftClose .reportsFull s))
      ∧ (s.shifts.reports.length < 8 ∨ (∃ p ∈ s.shifts.reports, p.isRead = true) →
        ∃ t, exec .shiftClose s = .next t ∧ changesOnly [.shifts, .journal, .sign, .link] s t
          ∧ t.shifts.record =
            { s.shifts.record with
              isOpen := false, closeTime := some s.clock.count, odometerClose := some s.odo.totalDistance }
          ∧ t.shifts.reports =
            (if 8 ≤ s.shifts.reports.length then s.shifts.reports.eraseP (fun p => p.isRead)
              else s.shifts.reports) ++ [⟨t.shifts.record, false⟩]
          ∧ t.journal =
            { s.journal with ring := s.journal.ring.map (fun r => { r with closed := true }) }
          ∧ t.sign.mode = (if s.sign.mode = .forceOnCall then .auto else s.sign.mode)
          ∧ announced .shiftState (shiftPayload t.shifts) t
          ∧ replyIs .shiftClose
            ⟨.ok, [.u16 s.shifts.record.number, .u32 s.clock.count, .u32 s.odo.totalDistance,
              .u8 t.shifts.reports.length, .u8 (if 8 ≤ s.shifts.reports.length then 1 else 0)]⟩ t))

/-- R110, R121, R122: REPORT_READ, TRIP_READ and TRIP_NEXT_UNREAD return the record as it stood, set its
read flag and leave every other record as it was. Model's choice: the read flag of a report is 1 where set,
log 17. -/
def Obligations.FetchesReturnARecordAndMarkItRead : Prop :=
  ∀ s : State, ready s →
    exec (.reportRead 0) s = .next (refusedWith .reportRead .badValue s)
    ∧ exec (.tripRead 0) s = .next (refusedWith .tripRead .badValue s)
    ∧ (∀ n, 0 < n →
      ((∀ p ∈ s.shifts.reports, p.record.number ≠ n) →
        exec (.reportRead n) s = .next (refusedWith .reportRead .notFound s))
      ∧ (∀ before p after, s.shifts.reports = before ++ p :: after → p.record.number = n → p.isRead = false →
        (∀ q ∈ before, q.record.number = n → q.isRead = true) →
        exec (.reportRead n) s = .next (answered .reportRead ⟨.ok, reportFields p.record false⟩
          { s with shifts := { s.shifts with reports := before ++ { p with isRead := true } :: after } }))
      ∧ (∀ before p after, s.shifts.reports = before ++ p :: after → p.record.number = n →
        (∀ q ∈ s.shifts.reports, q.record.number = n → q.isRead = true) →
        (∀ q ∈ after, q.record.number ≠ n) →
        exec (.reportRead n) s = .next (answered .reportRead ⟨.ok, reportFields p.record true⟩ s))
      ∧ ((∀ r ∈ s.journal.ring, r.seq ≠ n) →
        exec (.tripRead n) s = .next (refusedWith .tripRead .notFound s)))
    ∧ (∀ before r after, s.journal.ring = before ++ r :: after → 0 < r.seq →
      (∀ q ∈ before ++ after, q.seq ≠ r.seq) →
      let u := { s with journal := { s.journal with ring := before ++ { r with isRead := true } :: after } }
      exec (.tripRead r.seq) s = .next (answered .tripRead ⟨.ok, tripFields r⟩ u)
      ∧ ((∀ q ∈ before, q.isRead = true) → r.isRead = false →
        exec .tripNextUnread s = .next (answered .tripNextUnread ⟨.ok, tripFields r⟩ u)))
    ∧ ((∀ r ∈ s.journal.ring, r.isRead = true) →
      exec .tripNextUnread s = .next (refusedWith .tripNextUnread .notFound s))

/-! ### Roof sign -/

/-- R40, R126, R127, R128, R137: the tests of SIGN_MODE and SHARE_SET; the state of Table 8-2 and, with no
overlay, the demands of Table 8-3 that follow; LAMP_TEST's tests and what it starts. -/
def Obligations.SignModesFollowTheTables : Prop :=
  ∀ s : State, ready s →
    (∀ m c, (2 < m ∨ m = 2 ∧ 1 < c) → exec (.signMode m c) s = .next (refusedWith .signMode .badValue s))
    ∧ (∀ c, c ≤ 1 → shiftOpen s = false → exec (.signMode 2 c) s = .next (refusedWith .signMode .noShift s))
    ∧ (∀ c, c ≤ 1 → shiftOpen s = true → (∃ i, (s.leg i).state ≠ .free) →
        exec (.signMode 2 c) s = .next (refusedWith .signMode .wrongState s))
    ∧ (∀ m c, m < 2 ∨ m = 2 ∧ c ≤ 1 ∧ shiftOpen s = true ∧ (∀ i, (s.leg i).state = .free) →
      ∃ t, exec (.signMode m c) s = .next t ∧ changesOnly [.sign, .link] s t
        ∧ t.sign.mode = (if m = 0 then .auto else if m = 1 then .forceOffDuty else .forceOnCall)
        ∧ t.sign.choice = (if m = 2 ∧ c = 1 then .user else .standard)
        ∧ (shiftOpen s = false ∨ calibrated s = false ∨ m = 1 → t.sign.derived = .offDuty)
        ∧ (shiftOpen s = true → calibrated s = true → m = 2 → t.sign.derived = .onCall)
        ∧ (shiftOpen s = true → calibrated s = true → m = 0 →
          ((∀ i, (s.leg i).state = .free) → t.sign.derived = .free)
          ∧ ((∃ i, (s.leg i).state ≠ .free) →
            let shares := s.settle.sharing = true ∧ (∀ i, (s.leg i).state ≠ .free → (s.leg i).share = true)
              ∧ ∃ x, s.fare.seatMap.get x = none
            (shares → t.sign.derived = .share) ∧ (¬shares → t.sign.derived = .hired)))
        ∧ t.sign.digit = (if t.sign.derived = .share then some (unheldSeats s) else none)
        ∧ t.sign.fault = s.sign.fault ∧ t.sign.active = s.sign.active ∧ t.sign.pUser = s.sign.pUser
        ∧ (s.sign.active = false → t.sign.testRunning = false → s.sign.fault.free = false →
          t.sign.demand =
            match t.sign.derived with
            | .offDuty | .hired => ⟨.off, .off, .off⟩
            | .free => ⟨.steady, .steady, .off⟩
            | .onCall => ⟨.pattern (if c = 1 then .user else .onCall), .steady, .off⟩
            | .share => ⟨.off, .steady, .steady⟩)
        ∧ ((t.sign.derived ≠ s.sign.derived ∨ t.sign.mode ≠ s.sign.mode) →
            announced .signState (signPayload t.sign) t)
        ∧ replyIs .signMode ⟨.ok, [.u8 m, .u8 (if m = 2 then c else 0), .u8 t.sign.derived.ctorIdx]⟩ t)
    ∧ (∀ b, 1 < b → exec (.shareSet b) s = .next (refusedWith .shareSet .badValue s))
    ∧ (∀ b, b ≤ 1 → ∃ t, exec (.shareSet b) s = .next t ∧ changesOnly [.settle, .sign, .link] s t
      ∧ t.settle = { s.settle with sharing := decide (b = 1) }
      ∧ t.sign.derived = derivedState t ∧ t.sign.mode = s.sign.mode ∧ replyIs .shareSet ⟨.ok, [.u8 b]⟩ t)
    ∧ (s.sign.derived ≠ .offDuty ∨ s.sign.active = true ∨ s.sign.testRunning = true →
        exec .lampTest s = .next (refusedWith .lampTest .wrongState s))
    ∧ (s.sign.derived = .offDuty → s.sign.active = false → s.sign.testRunning = false →
        (∀ x, s.sign.demand.get x = .off) →
      ∃ t, exec .lampTest s = .next t ∧ changesOnly [.sign, .link] s t ∧ t.sign.testRunning = true
        ∧ (∀ x, t.sign.demand.get x = .pattern .lampTest
          ∧ t.sign.generator.get x = ⟨.on, 1, 100, 0, 0, ⟨100, 50, 2, 50, .oneShot⟩⟩)
        ∧ announced .signState (signPayload t.sign) t ∧ replyIs .lampTest ⟨.ok, [.u16 350]⟩ t)

/-- R130 to R134, R137: the phases of a pattern generator, the gap's two stages, the completion of a lamp
test, P_USER with its clamps, the dark timer's fault, the sense inputs and LAMP_FAULT_CLEAR. Model's
choices: a lamp in REST, log 30 and 32, an event without its cause, log 4, expiries at any count, log 5. -/
def Obligations.PatternsRunAndLampsFault : Prop :=
  (∀ n : Generator, n.phase = .gap → n.gapLow ≤ 255 → 0 < n.gapLow + 256 * n.gapHigh →
    n.countStep.gapLow + 256 * n.countStep.gapHigh + 1 = n.gapLow + 256 * n.gapHigh
      ∧ n.countStep.gapLow ≤ 255 ∧ n.countStep.phase = .gap
      ∧ (n.countStep.phaseOver = true ↔ n.gapLow + 256 * n.gapHigh = 1))
  ∧ ∀ (s : State) (x : Lamp), s.power = .running →
    (∀ next : Generator, next =
        (let n := s.sign.generator.get x
         let p := n.loaded
         let onFlash (k : Nat) : Generator := ⟨.on, k, p.onUnits, 0, 0, p⟩
         let ended : Generator :=
          match p.mode with
          | .continuous => onFlash 1
          | .oneShot => ⟨.rest, n.flash, 0, 0, 0, p⟩
         match n.phase with
         | .on => { n with phase := .off, left := p.offUnits }
         | .off =>
          if n.flash < p.burst then onFlash (n.flash + 1)
          else if p.gap = 0 then ended
          else ⟨.gap, n.flash, 0, p.gap % 256, p.gap / 256, p⟩
         | .gap => ended
         | .rest => n) →
      let allRest := next.phase = .rest ∧ ∀ y, y ≠ x → (s.sign.generator.get y).phase = .rest
      (s.sign.testRunning = false ∨ ¬allRest →
        ∃ t, exec (.patternPhaseEnd x) s = .next t ∧ changesOnly [.sign] s t
          ∧ t.sign = { s.sign with generator := t.sign.generator, dark := t.sign.dark }
          ∧ t.sign.generator.get x = next
          ∧ (∀ y, y ≠ x → t.sign.generator.get y = s.sign.generator.get y))
      ∧ (s.sign.testRunning = true → allRest →
        ∃ t, exec (.patternPhaseEnd x) s = .next t ∧ changesOnly [.sign, .link] s t
          ∧ t.sign =
            { s.sign with
              testRunning := false, demand := { s.sign with testRunning := false }.demands
              generator := t.sign.generator, dark := t.sign.dark }
          ∧ (∀ y, t.sign.demand.get y = s.sign.demand.get y →
              t.sign.generator.get y = if y = x then next else s.sign.generator.get y)
          ∧ (∀ y, t.sign.demand.get y ≠ s.sign.demand.get y → t.sign.generator.get y =
              match t.sign.demand.get y with
              | .pattern p => ⟨.on, 1, (s.sign.pattern p).onUnits, 0, 0, s.sign.pattern p⟩
              | .off | .steady => Generator.atRest)
          ∧ announced .signState (signPayload t.sign) t))
    ∧ (∀ level, ∃ t, exec (.lampSenseChange x level) s = .next t ∧ changesOnly [.pins, .sign] s t
      ∧ t.pins = { s.pins with sense := s.pins.sense.set level x }
      ∧ t.sign.generator = s.sign.generator ∧ t.sign.fault = s.sign.fault
      ∧ (level = true → t.sign.dark.get x = 0))
    ∧ (s.sign.driver x = true → s.pins.sense.get x = false → s.sign.fault.get x = false →
      ∃ t, exec (.darkTimerExpiry x) s = .next t ∧ changesOnly [.sign, .link] s t
        ∧ t.sign.fault = s.sign.fault.set true x ∧ t.sign.derived = s.sign.derived
        ∧ announced .lampFault [.u8 x.ctorIdx, .u8 (LampSet.bits t.sign.fault)] t)
    ∧ (s.sign.driver x = false ∨ s.pins.sense.get x = true ∨ s.sign.fault.get x = true →
      exec (.darkTimerExpiry x) s = .next s)
    ∧ (ready s → ∀ b,
      (8 ≤ b → exec (.lampFaultClear b) s = .next (refusedWith .lampFaultClear .badValue s))
      ∧ (b < 8 → ∃ t, exec (.lampFaultClear b) s = .next t ∧ changesOnly [.sign, .link] s t
        ∧ t.sign.fault =
          ⟨s.sign.fault.free && decide (b % 2 = 0), s.sign.fault.panel && decide (b / 2 % 2 = 0),
            s.sign.fault.share && decide (b / 4 = 0)⟩
        ∧ (b % 2 = 1 → t.sign.dark.free = 0) ∧ (b / 2 % 2 = 1 → t.sign.dark.panel = 0)
        ∧ (b / 4 = 1 → t.sign.dark.share = 0)
        ∧ replyIs .lampFaultClear
          ⟨.ok, [.u8 (LampSet.bits s.sign.fault), .u8 (LampSet.bits t.sign.fault)]⟩ t))
    ∧ (ready s → ∀ name a b c g m : Nat,
      (6 ≤ name ∨ 1 < m →
        exec (.patternWrite name a b c g m) s = .next (refusedWith .patternWrite .badValue s))
      ∧ (name < 5 → m ≤ 1 →
        exec (.patternWrite name a b c g m) s = .next (refusedWith .patternWrite .notPermitted s))
      ∧ (name = 5 → m ≤ 1 → ∃ (t : State) (code : ReplyCode),
        exec (.patternWrite name a b c g m) s = .next t ∧ changesOnly [.sign, .link] s t
        ∧ t.sign.pUser = ⟨max 1 (min 255 a), max 1 (min 255 b), max 1 (min 255 c), min 65535 g,
            if m = 0 then .continuous else .oneShot⟩
        ∧ t.sign.demand = s.sign.demand
        ∧ (∀ y, t.sign.generator.get y =
            if s.sign.demand.get y = .pattern .user ∧ (s.sign.generator.get y).phase ≠ .rest then
              ⟨.on, 1, t.sign.pUser.onUnits, 0, 0, t.sign.pUser⟩
            else s.sign.generator.get y)
        ∧ (code = .ok ∨ code = .adjusted)
        ∧ (code = .ok ↔ 1 ≤ a ∧ a ≤ 255 ∧ 1 ≤ b ∧ b ≤ 255 ∧ 1 ≤ c ∧ c ≤ 255 ∧ g ≤ 65535)
        ∧ replyIs .patternWrite ⟨code, patternFields t.sign.pUser⟩ t))

/-- R135, R136: the two ways into ACTIVE, the clear window and the clearing hold; EMERGENCY_CLEAR is refused
in every state. Model's choices: a hold begun in NORMAL opens the window too, log 36, a change to the level
the pin has, log 4, expiries at any count, log 5, presence bytes in the payload, log 17. -/
def Obligations.TheEmergencyIsRaisedAndClearedByHolds : Prop :=
  ∀ s : State, s.power = .running →
    (ready s → exec .emergencyClear s = .next (refusedWith .emergencyClear .notPermitted s)
      ∧ (s.sign.active = true → exec .emergencyRaise s = .next (answered .emergencyRaise ⟨.ok, [.u8 1]⟩ s))
      ∧ (s.sign.active = false → ∃ t, exec .emergencyRaise s = .next t ∧ changesOnly [.sign, .link] s t
        ∧ t.sign.active = true ∧ t.sign.cause = some .host ∧ t.sign.raiseTime = some s.clock.count
        ∧ t.sign.clearWindow = none ∧ t.sign.testRunning = false
        ∧ t.sign.demand.panel = .pattern .alarm
        ∧ announced .emergency
          [.u8 1, .u8 1, .u8 1, .u8 1, .u32 s.clock.count, .u8 0, .u32 0] t
        ∧ replyIs .emergencyRaise ⟨.ok, [.u8 1]⟩ t))
    ∧ (∀ level, exec (.emergChange level) s = .next
      (if s.pins.emerg = level then s
      else
        { s with
          pins := { s.pins with emerg := level }
          sign := { s.sign with
            hold := if level = true then some ⟨0, false, false, s.sign.active⟩ else none } }))
    ∧ (∀ h, s.sign.hold = some h → h.reached = false →
      (s.sign.active = false → h.begunActive = true →
        exec .emergHold1s s = .next
          { s with sign := { s.sign with hold := some { h with held := 100, reached := true } } })
      ∧ (s.sign.active = false → h.begunActive = false →
        ∃ t, exec .emergHold1s s = .next t ∧ changesOnly [.sign, .link] s t
          ∧ t.sign.active = true ∧ t.sign.cause = some .emerg ∧ t.sign.raiseTime = some s.clock.count
          ∧ t.sign.clearWindow = none ∧ t.sign.testRunning = false
          ∧ t.sign.demand.panel = .pattern .alarm
          ∧ t.sign.hold = some { h with held := 100, reached := true, raising := true }
          ∧ announced .emergency
            [.u8 1, .u8 1, .u8 0, .u8 1, .u32 s.clock.count, .u8 0, .u32 0] t)
      ∧ (s.sign.active = true → s.sign.clearWindow = none →
        exec .emergHold1s s = .next
          { s with sign := { s.sign with
              clearWindow := some 400, hold := some { h with held := 100, reached := true } } })
      ∧ (s.sign.active = true → s.sign.clearWindow.isSome = true →
        ∃ t, exec .emergHold1s s = .next t ∧ changesOnly [.sign, .link] s t
          ∧ t.sign.active = false ∧ t.sign.clearWindow = none ∧ t.sign.cause = s.sign.cause
          ∧ t.sign.raiseTime = s.sign.raiseTime ∧ t.sign.demand.panel ≠ .pattern .alarm
          ∧ announced .emergency
            (.u8 0 :: optU8 (s.sign.cause.map EmergencyCause.ctorIdx) ++ optU32 s.sign.raiseTime
              ++ [.u8 1, .u32 s.clock.count]) t))
    ∧ exec .clearWindowEnd s = .next { s with sign := { s.sign with clearWindow := none } }

/-! ### Partition intercom -/

/-- R140, R142 to R145: what each edge of a voice does to the channel, with the entry rule front first, and
the ends of a hang, of a turn and of a hold-off. Model's choice: expiries at any count, log 5. -/
def Obligations.VoicesTakeAndLeaveTheChannel : Prop :=
  ∀ (s : State) (x : Side), s.power = .running →
    (voxLine s.pins x = false →
      (s.intercom.channel.hangs x = false → exec (.voxChange x true) s = .next
        { s with
          pins := setVoxLine s.pins true x
          intercom := { s.intercom with vox := s.intercom.vox.set (.attack (s.intercom.attack / 10)) x } })
      ∧ (s.intercom.channel.hangs x = true → voxAllowed s.intercom x = true →
        ∃ t, exec (.voxChange x true) s = .next t ∧ changesOnly [.pins, .intercom, .link] s t
          ∧ t.intercom =
            { s.intercom with
              vox := s.intercom.vox.set .qualified x, hangLeft := none
              channel := if x = .front then .frontTalk else .rearTalk }
          ∧ announced .intercomState (intercomPayload t.intercom) t))
    ∧ (voxLine s.pins x = true → s.intercom.heldOff.get x = false →
      ∃ t, exec (.voxChange x false) s = .next t ∧ changesOnly [.pins, .intercom, .link] s t
        ∧ t.pins = setVoxLine s.pins false x ∧ t.intercom.vox = s.intercom.vox.set .low x
        ∧ t.intercom.talk = s.intercom.talk
        ∧ (if s.intercom.channel.talks x = true ∧ (x = .rear ∨ s.intercom.mode = .offMode
              ∨ s.pins.ptt = false) then
            t.intercom.channel = (if x = .front then .hangFront else .hangRear)
              ∧ t.intercom.hangLeft = some (s.intercom.hang / 10)
              ∧ announced .intercomState (intercomPayload t.intercom) t
          else t.intercom.channel = s.intercom.channel ∧ t.link = s.link))
    ∧ (voxLine s.pins x = true → s.intercom.heldOff.get x = true → s.intercom.channel.talks x = false →
      ∃ t, exec (.voxChange x false) s = .next t ∧ changesOnly [.pins, .intercom, .speakers, .link] s t
        ∧ t.pins = setVoxLine s.pins false x ∧ t.intercom.vox = s.intercom.vox.set .low x
        ∧ t.intercom.heldOff = (if x = .front ∧ s.pins.ptt = true then s.intercom.heldOff
            else s.intercom.heldOff.set false x)
        ∧ (s.intercom.channel ≠ .quiet →
            t.intercom.channel = s.intercom.channel ∧ t.intercom.talk = s.intercom.talk)
        ∧ (s.intercom.channel = .quiet → (∀ y, y ≠ x → mayTake s y = false) →
            t.intercom.channel = .quiet ∧ t.speakers = s.speakers ∧ t.link = s.link))
    ∧ (s.pins.ptt = true → s.intercom.heldOff.front = true → s.intercom.channel ≠ .frontTalk →
      ∃ t, exec .pttRelease s = .next t ∧ changesOnly [.pins, .intercom, .speakers, .link] s t
        ∧ t.pins = { s.pins with ptt := false } ∧ t.intercom.vox = s.intercom.vox
        ∧ t.intercom.heldOff = (if s.pins.voxF = true then s.intercom.heldOff
            else s.intercom.heldOff.set false .front)
        ∧ (s.intercom.channel ≠ .quiet →
            t.intercom.channel = s.intercom.channel ∧ t.intercom.talk = s.intercom.talk)
        ∧ (s.intercom.channel = .quiet → (s.pins.voxF = false → s.intercom.vox.front = .low) →
            mayTake s .rear = false →
            t.intercom.channel = .quiet ∧ t.speakers = s.speakers ∧ t.link = s.link))
    ∧ (∀ n, s.intercom.vox.get x = .attack n → ∃ t, exec (.attackExpiry x) s = .next t
      ∧ changesOnly [.intercom, .speakers, .link] s t
      ∧ t.intercom.vox = s.intercom.vox.set .qualified x
      ∧ (voxAllowed s.intercom x = true → s.intercom.heldOff.get x = false →
        (x = .rear → mayTake s .front = false) → s.intercom.channel = .quiet →
        t.intercom.channel = (if x = .front then .frontTalk else .rearTalk)
          ∧ t.intercom.talk = some ⟨s.intercom.maxTalk * 100, s.intercom.maxTalk⟩
          ∧ announced .intercomState (intercomPayload t.intercom) t)
      ∧ (s.intercom.channel ≠ .quiet → s.intercom.channel.hangs x = false →
        t.intercom.channel = s.intercom.channel ∧ t.link = s.link ∧ t.speakers = s.speakers))
    ∧ (s.pins.ptt = false → ∃ t, exec .pttPress s = .next t
      ∧ changesOnly [.pins, .intercom, .speakers, .link] s t ∧ t.pins = { s.pins with ptt := true }
      ∧ (s.intercom.mode = .offMode ∨ s.intercom.heldOff.front = true → t.intercom = s.intercom)
      ∧ (s.intercom.mode ≠ .offMode → s.intercom.heldOff.front = false →
        t.intercom.channel = .frontTalk
          ∧ ((s.intercom.channel = .frontTalk ∨ s.intercom.channel = .hangFront) →
              t.intercom.talk = s.intercom.talk)
          ∧ ((s.intercom.channel = .quiet ∨ s.intercom.channel.side? = some .rear) →
              t.intercom.talk = some ⟨s.intercom.maxTalk * 100, s.intercom.maxTalk⟩)))
    ∧ (s.pins.ptt = true → s.intercom.heldOff.front = false → ∃ t, exec .pttRelease s = .next t
      ∧ changesOnly [.pins, .intercom, .link] s t ∧ t.pins = { s.pins with ptt := false }
      ∧ t.intercom =
        (if s.intercom.channel = .frontTalk ∧ ¬((s.intercom.mode = .openMode
            ∨ s.intercom.mode = .privateMode) ∧ s.intercom.vox.front = .qualified) then
          { s.intercom with channel := .hangFront, hangLeft := some (s.intercom.hang / 10) }
        else s.intercom))
    ∧ ((s.intercom.channel = .hangFront ∨ s.intercom.channel = .hangRear) →
      ∃ t, exec .hangTimerExpiry s = .next t ∧ changesOnly [.intercom, .speakers, .link] s t
        ∧ t.intercom.channel =
          (if mayTake s .front = true then .frontTalk else if mayTake s .rear = true then .rearTalk
            else .quiet)
        ∧ t.intercom.hangLeft = none
        ∧ t.intercom.talk =
          (if mayTake s .front = true ∨ mayTake s .rear = true then
            some ⟨s.intercom.maxTalk * 100, s.intercom.maxTalk⟩ else none))
    ∧ (s.intercom.channel.side? = some x → ∃ t, exec .maxTalkExpiry s = .next t
      ∧ changesOnly [.intercom, .speakers, .link] s t
      ∧ t.intercom.heldOff = s.intercom.heldOff.set (sourceAsserted s x) x
      ∧ (let free (y : Side) : Bool :=
          voice s y && !(s.intercom.heldOff.set (sourceAsserted s x) x).get y
         t.intercom.channel =
          if free .front = true then .frontTalk else if free .rear = true then .rearTalk else .quiet)
      ∧ announced .talkLimit [.u8 x.ctorIdx, .u16 (talkSeconds s.intercom)] t)

/-- R141, R147, R148, R149: the intercom's mode and settings, the seat calls, their rotation and the call
window. Model's choices: expiries at any count, log 5, an event without its cause, log 4. -/
def Obligations.ModesSettingsAndSeatCalls : Prop :=
  ∀ s : State, s.power = .running →
    (ready s → (∀ m, 3 < m → exec (.intercomMode m) s = .next (refusedWith .intercomMode .badValue s))
      ∧ (∀ m, m ≤ 3 → ∃ t, exec (.intercomMode m) s = .next t
        ∧ changesOnly [.intercom, .speakers, .link] s t ∧ t.intercom.mode.ctorIdx = m
        ∧ (m = s.intercom.mode.ctorIdx → t.intercom = s.intercom ∧ t.speakers = s.speakers)
        ∧ (m ≠ s.intercom.mode.ctorIdx → t.intercom.window = none
          ∧ announced .intercomState (intercomPayload t.intercom) t)
        ∧ (m = 3 → s.intercom.mode ≠ .offMode → t.intercom.channel = .quiet)
        ∧ t.intercom.calls = s.intercom.calls ∧ t.intercom.pointer = s.intercom.pointer
        ∧ t.intercom.heldOff = s.intercom.heldOff
        ∧ replyIs .intercomMode ⟨.ok, [.u8 m, .u8 t.intercom.channel.ctorIdx]⟩ t)
      ∧ (∀ a h m, ∃ (t : State) (code : ReplyCode), exec (.intercomSettings a h m) s = .next t
        ∧ changesOnly [.intercom, .link] s t
        ∧ t.intercom =
          { s.intercom with
            attack := max 20 (min 200 a) / 10 * 10, hang := max 300 (min 3000 h) / 100 * 100
            maxTalk := max 10 (min 300 m) }
        ∧ (code = .ok ∨ code = .adjusted)
        ∧ (code = .ok ↔ t.intercom.attack = a ∧ t.intercom.hang = h ∧ t.intercom.maxTalk = m)
        ∧ (t.intercom = s.intercom ∨ announced .intercomState (intercomPayload t.intercom) t)
        ∧ replyIs .intercomSettings
          ⟨code, [.u8 t.intercom.attack, .u16 t.intercom.hang, .u16 t.intercom.maxTalk]⟩ t)
      ∧ (∃ t, exec .intercomDefaults s = .next t ∧ changesOnly [.intercom, .link] s t
        ∧ t.intercom = { s.intercom with attack := 60, hang := 1000, maxTalk := 60 }
        ∧ replyIs .intercomDefaults ⟨.ok, [.u8 60, .u16 1000, .u16 60]⟩ t)
      ∧ (s.intercom.calls = SeatSet.empty →
        exec .callAnswer s = .next (refusedWith .callAnswer .notFound s))
      ∧ (∀ before x after, cycleFrom s.intercom.pointer = before ++ x :: after →
        s.intercom.calls.get x = true → (∀ y ∈ before, s.intercom.calls.get y = false) →
        ∃ t, exec .callAnswer s = .next t ∧ changesOnly [.intercom, .speakers, .link] s t
          ∧ t.intercom.calls = s.intercom.calls.set false x ∧ t.intercom.pointer = seatAfter x
          ∧ t.intercom.window = (if s.intercom.mode = .privateMode then some 3000 else s.intercom.window)
          ∧ announced .intercomState (intercomPayload t.intercom) t
          ∧ replyIs .callAnswer
            ⟨.ok, [.u8 x.ctorIdx, .u8 (holderNumber s x), .u8 (SeatSet.bits t.intercom.calls)]⟩ t)
      ∧ (∃ t, exec .callClear s = .next t ∧ changesOnly [.intercom, .link] s t
        ∧ t.intercom = { s.intercom with calls := SeatSet.empty }
        ∧ replyIs .callClear ⟨.ok, [.u8 (seatCount s.intercom.calls)]⟩ t))
    ∧ (∀ x level, exec (.callButtonChange x level) s = .next
      (if s.pins.call.get x = level then s
      else
        { s with
          pins := { s.pins with call := s.pins.call.set level x }
          intercom := { s.intercom with
            press := s.intercom.press.set (if level = true then .pressing 5 else .released) x } }))
    ∧ (∀ x n, s.intercom.press.get x = .pressing n →
      ∃ t, exec (.callPressTaken x) s = .next t ∧ changesOnly [.intercom, .speakers, .link] s t
        ∧ t.intercom =
          { s.intercom with
            press := s.intercom.press.set .taken x, calls := s.intercom.calls.set true x }
        ∧ (s.intercom.calls.get x = true → t.speakers = s.speakers ∧ t.link = s.link)
        ∧ (s.intercom.calls.get x = false →
          announced .call
            [.u8 x.ctorIdx, .u8 (holderNumber s x), .u8 (SeatSet.bits t.intercom.calls)] t
          ∧ t.speakers =
            (if s.intercom.mode = .offMode then s else askTone .callChime s).speakers))
    ∧ (s.intercom.window.isSome = true → ∃ t, exec .callWindowEnd s = .next t
      ∧ changesOnly [.intercom, .speakers, .link] s t ∧ t.intercom.window = none
      ∧ t.intercom.calls = s.intercom.calls
      ∧ (s.intercom.channel.side? ≠ some .rear → t.intercom.channel = s.intercom.channel
        ∧ t.speakers = s.speakers)
      ∧ (s.intercom.channel.side? = some .rear → s.intercom.mode = .privateMode →
          t.intercom.channel = (if mayTake s .front = true then .frontTalk else .quiet))
      ∧ announced .intercomState (intercomPayload t.intercom) t)
    ∧ (s.intercom.window = none → exec .callWindowEnd s = .next s)

/-! ### Speakers -/

/-- R153 to R155, R157, R158: a host tone enters service, pre-empts or is held with its values clamped, on a
speaker with and without a speech path; a phase end advances the cadence and hands the speaker on; TONE_STOP
ends host tones. Model's choices: the width of the off time, log 18, the values used in the reply, log 17,
an off time of 0, log 28, the order in TONE_STOP, log 29, a phase end at any count, log 5. -/
def Obligations.TonesEnterWaitAndHandOn : Prop :=
  ∀ s : State, s.power = .running →
    (ready s → ∀ (y n p a r : Nat) (b : Int),
      (1 < y ∨ 3 < n → exec (.tonePlay y n p a b r) s = .next (refusedWith .tonePlay .badValue s))
      ∧ ∀ (x : Speaker) (v : Level), x.ctorIdx = y → v.number = n →
        ∃ (t : State) (code : ReplyCode) (tone : Tone) (outcome : Nat),
          exec (.tonePlay y n p a b r) s = .next t ∧ changesOnly [.speakers, .link] s t
          ∧ (∀ z, z ≠ x → t.speakers.get z = s.speakers.get z)
          ∧ tone.kind = .host ∧ tone.level = v ∧ tone.pitch = max 200 (min 4000 p)
          ∧ tone.onTime = max 10 (min 2550 a) / 10 ∧ tone.offTime = min 2550 b.toNat / 10
          ∧ tone.repeats = max 1 (min 255 r)
          ∧ (code = .ok ∨ code = .adjusted)
          ∧ (code = .ok ↔ 200 ≤ p ∧ p ≤ 4000 ∧ 10 ≤ a ∧ a ≤ 2550 ∧ a % 10 = 0 ∧ 0 ≤ b ∧ b ≤ 2550
              ∧ b % 10 = 0 ∧ 1 ≤ r ∧ r ≤ 255)
          ∧ replyIs .tonePlay
            ⟨code, [.u8 y, .u8 n, .u16 tone.pitch, .u16 (tone.onTime * 10), .u16 (tone.offTime * 10),
              .u8 tone.repeats, .u8 outcome]⟩ t
          ∧ ((s.speakers.get x).speech = .none → (s.speakers.get x).service = none → outcome = 0
            ∧ t.speakers.get x = { s.speakers.get x with service := some ⟨tone, 1, true, tone.onTime⟩ })
          ∧ (∀ old, (s.speakers.get x).speech = .none → (s.speakers.get x).service = some old →
            (n ≤ old.tone.level.number → outcome = 1
              ∧ t.speakers.get x =
                { s.speakers.get x with hold := (s.speakers.get x).hold.set (some tone) v })
            ∧ (old.tone.level.number < n → outcome = 2
              ∧ (t.speakers.get x).service = some ⟨tone, 1, true, tone.onTime⟩
              ∧ (t.speakers.get x).hold.get old.tone.level
                = some (((s.speakers.get x).hold.get old.tone.level).getD old.tone)))
          ∧ ((s.speakers.get x).speechFits → (s.speakers.get x).speech = .speaking → v = .l3 → outcome = 0
            ∧ t.speakers.get x =
              { s.speakers.get x with service := some ⟨tone, 1, true, tone.onTime⟩, speech := .muted })
          ∧ (∀ old, (s.speakers.get x).speech = .muted → (s.speakers.get x).service = some old → v = .l3 →
            (old.tone.level = .l3 → outcome = 1
              ∧ t.speakers.get x =
                { s.speakers.get x with hold := (s.speakers.get x).hold.set (some tone) v })
            ∧ (old.tone.level = .l2 → outcome = 2
              ∧ t.speakers.get x =
                { s.speakers.get x with
                  service := some ⟨tone, 1, true, tone.onTime⟩
                  hold := (s.speakers.get x).hold.set
                    (some (((s.speakers.get x).hold.get .l2).getD old.tone)) .l2 }
              ∧ (∀ kept, (s.speakers.get x).hold.get .l2 = some kept →
                announced .toneDropped
                  [.u8 y, .u8 old.tone.kind.ctorIdx, .u8 2, .u8 DropCause.discarded.ctorIdx] t)))
          ∧ ((s.speakers.get x).speech ≠ .none → v ≠ .l3 → outcome = 1
            ∧ t.speakers.get x =
              { s.speakers.get x with hold := (s.speakers.get x).hold.set (some tone) v }))
    ∧ (∀ (x : Speaker) (p : Playing), (s.speakers.get x).service = some p →
      ∃ t, exec (.tonePhaseEnd x) s = .next t ∧ changesOnly [.speakers] s t
        ∧ (∀ z, z ≠ x → t.speakers.get z = s.speakers.get z)
        ∧ (p.onPhase = true → p.tone.offTime ≠ 0 → t.speakers.get x =
          { s.speakers.get x with service := some { p with onPhase := false, left := p.tone.offTime } })
        ∧ ((p.onPhase = false ∨ p.tone.offTime = 0) →
          (p.current < p.tone.repeats → t.speakers.get x =
            { s.speakers.get x with
              service := some { p with current := p.current + 1, onPhase := true, left := p.tone.onTime } })
          ∧ (p.tone.repeats ≤ p.current →
            ((s.speakers.get x).speech = .none →
              ((∀ v, (s.speakers.get x).hold.get v = none) → (t.speakers.get x).service = none)
              ∧ ∀ v tone, (s.speakers.get x).hold.get v = some tone →
                (∀ w : Level, v.number < w.number → (s.speakers.get x).hold.get w = none) →
                t.speakers.get x =
                  { s.speakers.get x with
                    hold := (s.speakers.get x).hold.set none v
                    service := some ⟨tone, 1, true, tone.onTime⟩ })
            ∧ ((s.speakers.get x).speech = .muted →
              (∀ tone, (s.speakers.get x).hold.get .l3 = some tone → t.speakers.get x =
                { s.speakers.get x with
                  hold := (s.speakers.get x).hold.set none .l3
                  service := some ⟨tone, 1, true, tone.onTime⟩ })
              ∧ ((s.speakers.get x).hold.get .l3 = none →
                t.speakers.get x = { s.speakers.get x with service := none, speech := .speaking })))))
    ∧ (ready s → (∀ w, 2 < w → exec (.toneStop w) s = .next (refusedWith .toneStop .badValue s))
      ∧ ∀ w, w ≤ 2 → ∃ (t : State) (n : Nat), exec (.toneStop w) s = .next t
        ∧ changesOnly [.speakers, .link] s t ∧ replyIs .toneStop ⟨.ok, [.u8 n]⟩ t
        ∧ (∀ x : Speaker, x.ctorIdx ≠ w → w ≠ 2 → t.speakers.get x = s.speakers.get x)
        ∧ (∀ x : Speaker, x.ctorIdx = w ∨ w = 2 →
          (∀ v tone, (t.speakers.get x).hold.get v = some tone → tone.kind ≠ .host)
          ∧ (∀ p, (t.speakers.get x).service = some p → p.tone.kind ≠ .host)
          ∧ ((∀ v tone, (s.speakers.get x).hold.get v = some tone → tone.kind ≠ .host) →
            (∀ p, (s.speakers.get x).service = some p → p.tone.kind ≠ .host) →
            t.speakers.get x = s.speakers.get x)))

/-! ### Clock, supply and retained memory -/

/-- R162, R163, R164: the tick at the calendar's last count sets the count to 0 and makes the clock INVALID,
and while the part is stopped a tick changes the clock alone; CLOCK_SET refuses a date that does not exist
and a part with a leg or a payment in hand, and sets the count whose date is the one given. Model's choice:
the two tick rows at the last count, log 14. -/
def Obligations.TheClockIsSetWrapsAndRunsWhileStopped : Prop :=
  ∀ s : State,
    (s.clock.count = lastCount → ∃ t, exec .clockWrap s = .next t ∧ exec .secondTick s = .next t
      ∧ t.clock.count = 0 ∧ t.clock.valid = false ∧ (s.power = .running → t.odo.intervalMetres = 0))
    ∧ (s.power ≠ .running → ∃ t, exec .secondTick s = .next t ∧ changesOnly [.clock] s t
      ∧ t.clock.count = (if s.clock.count < lastCount then s.clock.count + 1 else 0))
    ∧ (ready s → ∀ y mo d h mi sec : Nat,
      let days := if mo = 2 then (if y % 4 = 0 then 29 else 28) else if mo ∈ [4, 6, 9, 11] then 30 else 31
      let there := 2000 ≤ y ∧ y ≤ 2099 ∧ 1 ≤ mo ∧ mo ≤ 12 ∧ 1 ≤ d ∧ d ≤ days ∧ h ≤ 23 ∧ mi ≤ 59 ∧ sec ≤ 59
      (¬there → exec (.clockSet y mo d h mi sec) s = .next (refusedWith .clockSet .badValue s))
      ∧ (there → ((∃ i, (s.leg i).state ≠ .free) ∨ s.settle.session.state.isOpen = true) →
        exec (.clockSet y mo d h mi sec) s = .next (refusedWith .clockSet .wrongState s))
      ∧ (there → (∀ i, (s.leg i).state = .free) → s.settle.session.state.isOpen = false →
        ∃ (n : Nat) (t : State), exec (.clockSet y mo d h mi sec) s = .next t ∧ changesOnly [.clock, .link] s t
          ∧ n ≤ lastCount ∧ dateOf n = ⟨y, mo, d, h, mi, sec⟩
          ∧ t.clock = { s.clock with count := n, valid := true, minuteTaken := false }
          ∧ replyIs .clockSet
            ⟨.ok, [.u32 n, .u16 y, .u8 mo, .u8 d, .u8 h, .u8 mi, .u8 sec, .u8 ((n / 86400 + 5) % 7)]⟩ t))

/-- R164: SUPPLY_FAIL and RESETn stop the part and keep every retained piece, SUPPLY_FAIL recording the
clock count; a battery failure with the supply absent sets the latch and can only spoil the check. Model's
choices: SUPPLY_FAIL while RESETn is held, log 37, the state of a stopped part, log 10 and 11, the check,
log 12, an event without its cause, log 4. -/
def Obligations.StoppingKeepsRetainedMemory : Prop :=
  ∀ s : State,
    (s.power ≠ .supplyFailed → ∃ t, exec .supplyFail s = .next t ∧ t.power = .supplyFailed
      ∧ changesOnly [.power, .odo, .settle, .tender, .sign, .intercom, .speakers, .clock, .retained, .link] s t
      ∧ t.retained = { s.retained with failCount := some s.clock.count, recorded := true }
      ∧ t.clock = { s.clock with minuteDue := false, minuteTaken := false }
      ∧ t.odo.k = s.odo.k ∧ t.odo.polarity = s.odo.polarity ∧ t.odo.window = s.odo.window
      ∧ t.odo.totalDistance = s.odo.totalDistance ∧ t.odo.hiredDistance = s.odo.hiredDistance
      ∧ t.settle =
        { s.settle with
          timer := none, saleLeft := 0
          reversals := s.settle.reversals.map (fun e => { e with left := 0 }) }
      ∧ t.sign.active = s.sign.active ∧ t.sign.cause = s.sign.cause ∧ t.sign.raiseTime = s.sign.raiseTime)
    ∧ (s.power = .supplyFailed → exec .supplyFail s = .next s)
    ∧ (s.power = .running → ∃ t u, exec .resetnAssert s = .next t ∧ exec .supplyFail s = .next u
      ∧ t = { u with power := .resetHeld, retained := s.retained })
    ∧ (s.power ≠ .running → exec .resetnAssert s = .next s)
    ∧ (s.power = .supplyFailed → ∃ t, exec .batteryFail s = .next t
      ∧ changesOnly [.clock, .retained, .freeCount] s t
      ∧ t.clock = { s.clock with batteryFail := true }
      ∧ t.retained = { s.retained with checkAgrees := t.retained.checkAgrees }
      ∧ (t.retained.checkAgrees = true → s.retained.checkAgrees = true))
    ∧ (s.power ≠ .supplyFailed → exec .batteryFail s = .next s)

/-- R13, R14, R56, R83, R84, R139, R165, R167: a restart from valid memory keeps every retained piece, stops
the running legs and decides the open session, sends T_ABORT, the held T_REVERSE frames and the first
T_STATUS_ASK, and reports the gap; from invalid memory it clears what FACTORY_CLEAR clears, and says so.
Volatile state starts afresh either way (R13, R139). Model's choices: the state of a stopped part, log 11,
the check, log 12, a RESTART of a running part, log 4, the layout of the payload, log 17, the gap of 0 from
invalid memory, log 27, the clear count that a FACTORY_CLEAR's EMERGENCY carries, log 42, the fields of a
session NONE, log 31. -/
def Obligations.ARestartRestoresOrClears : Prop :=
  ∀ s : State,
    (s.power = .running → exec .restart s = .next s)
    ∧ (s.power ≠ .running → ∃ t, exec .restart s = .next t ∧ t.power = .running ∧ t.pins = s.pins
      ∧ t.pending = s.pending ∧ t.freeCount = s.freeCount
      ∧ (s.clock.batteryFail = true → t.clock.count = 0 ∧ t.clock.valid = false ∧ t.clock.batteryFail = false)
      ∧ (s.clock.batteryFail = false → t.clock.count = s.clock.count ∧ t.clock.valid = s.clock.valid)
      ∧ t.retained.recorded = false ∧ t.link.rate = 57600 ∧ t.link.handling = none
      ∧ t.intercom.mode = .driverPtt ∧ t.sign.mode = .auto ∧ t.sign.choice = .standard
      ∧ t.sign.fault = ⟨false, false, false⟩ ∧ t.sign.pUser = Pattern.userDefault
      ∧ t.sign.testRunning = false ∧ t.sign.clearWindow = none
      ∧ t.odo =
        { t.odo with
          accepted := s.pins.dpulse, timing := none, r := 0, intervalMetres := 0, lastMetres := 0
          zeroCloses := 0, motion := .moving, measurement := .idle, measurePulses := 0, measureSeconds := 0 }
      ∧ t.retained.lastBattery = s.clock.batteryFail
      ∧ (¬(s.retained.checkAgrees = true ∧ s.retained.formatVersion = 1) →
        t.fare = FareEngine.cleared ∧ t.shifts = ShiftAccounts.cleared ∧ t.journal = Journal.cleared
        ∧ t.settle = Settlement.cleared ∧ t.odo.k = 0 ∧ t.odo.polarity = .rising ∧ t.odo.window = .ms1
        ∧ t.odo.totalDistance = 0 ∧ t.odo.hiredDistance = 0 ∧ t.sign.active = false ∧ t.sign.cause = none
        ∧ t.sign.raiseTime = none ∧ t.retained.calCount = 0 ∧ t.retained.calStamp = 0
        ∧ t.retained.formatVersion = 1 ∧ t.retained.checkAgrees = true ∧ t.retained.lastValid = false
        ∧ t.retained.lastGap = some 0
        ∧ (s.settle.session.state ≠ .none → announced .paymentState (paymentPayload Session.blank) t)
        ∧ announced .storeLost [] t
        ∧ announced .powerRestored
          [.u32 0, .u8 0, .u8 0, .u8 (if t.clock.valid = true then 0 else 1)] t)
      ∧ (s.retained.checkAgrees = true → s.retained.formatVersion = 1 →
        t.shifts = s.shifts ∧ t.journal = s.journal ∧ t.odo.k = s.odo.k
        ∧ t.odo.polarity = s.odo.polarity ∧ t.odo.window = s.odo.window
        ∧ t.odo.totalDistance = s.odo.totalDistance ∧ t.odo.hiredDistance = s.odo.hiredDistance
        ∧ tablesKept s t
        ∧ t.fare.seatMap = s.fare.seatMap ∧ t.settle.settings = s.settle.settings
        ∧ t.settle.sharing = s.settle.sharing ∧ t.settle.nextId = s.settle.nextId
        ∧ t.settle.stale = s.settle.stale ∧ t.settle.unheld = s.settle.unheld
        ∧ t.settle.reversals = s.settle.reversals.map (fun e => { e with left := 3000 })
        ∧ t.sign.active = s.sign.active ∧ t.sign.cause = s.sign.cause
        ∧ t.sign.raiseTime = s.sign.raiseTime
        ∧ t.retained = { s.retained with
          recorded := false, lastValid := true, lastBattery := s.clock.batteryFail
          lastGap := t.retained.lastGap }
        ∧ t.retained.lastGap =
          (if s.retained.recorded = false then some 0
          else match s.retained.failCount with
            | some c => if s.clock.batteryFail = false ∧ c ≤ t.clock.count then some (t.clock.count - c)
                else none
            | none => none)
        ∧ announced .powerRestored
          [.u32 (t.retained.lastGap.getD 0), .u8 (if t.retained.lastGap = none then 1 else 0), .u8 1,
           .u8 (if t.clock.valid = true then 0 else 1)] t
        ∧ (s.settle.reversals.length ≤ 5 → t.tender.queue =
          (match s.settle.session.state, s.settle.session.outstanding with
            | .authorising, some r => [.abort r]
            | .aborting, some r => [.abort r]
            | _, _ => [])
          ++ s.settle.reversals.map (fun e => .reverse e.ref e.amount) ++ [.statusAsk 0])
        ∧ (∀ i, ((s.leg i).state = .free ∨ (s.leg i).state = .stopped → t.leg i = s.leg i)
          ∧ ((s.leg i).state = .hired ∨ (s.leg i).state = .stopping → t.leg i =
            { s.leg i with
              state := .stopped, powerGap := true
              stopTime := some (if s.retained.recorded = true ∧ s.retained.failCount.isSome = true then
                s.retained.failCount.getD 0 else t.clock.count) })
          ∧ ((s.leg i).state = .paying → t.leg i =
            if s.settle.session.state = .tipWait ∧ (s.leg i).paymentId = some s.settle.session.paymentId then
              { s.leg i with state := .stopped, paymentId := none }
            else s.leg i))
        ∧ (∀ i, (t.leg i).state ≠ (s.leg i).state →
          (∀ j : Slot, j.number < i.number → (t.leg j).state = (s.leg j).state) →
          announced .legState (legStatePayload i t.fare) t)
        ∧ (s.settle.session.state = .tipWait → t.settle.session =
            { s.settle.session with
              state := .cancelled, closeCause := some .tipRestart, closeTime := some t.clock.count
              outstanding := none, abortCause := none }
          ∧ (s.settle.timer = none → t.settle.timer = none)
          ∧ announced .paymentState (paymentPayload t.settle.session) t)
        ∧ (s.settle.session.state = .authorising → ∀ r, s.settle.session.outstanding = some r →
          t.settle.session = { s.settle.session with state := .aborting, abortCause := some .restart }
          ∧ t.settle.timer = some ⟨.abort, 1000⟩ ∧ .abort r ∈ t.tender.queue
          ∧ announced .paymentState (paymentPayload t.settle.session) t)
        ∧ (s.settle.session.state = .aborting → ∀ r, s.settle.session.outstanding = some r →
          t.settle.session = s.settle.session ∧ t.settle.timer = some ⟨.abort, 1000⟩
          ∧ .abort r ∈ t.tender.queue)
        ∧ (s.settle.session.state = .retryWait → t.settle.session = s.settle.session
          ∧ t.settle.timer = some ⟨.retryIdle, 12000⟩)
        ∧ (s.settle.session.state.isOpen = false → t.settle.session = s.settle.session)))
    ∧ (ready s → calibrationOpen s = true → ∃ t, exec .factoryClear s = .next t
      ∧ changesOnly [.odo, .fare, .settle, .shifts, .journal, .sign, .retained, .link] s t
      ∧ t.fare = FareEngine.cleared ∧ t.settle = Settlement.cleared ∧ t.shifts = ShiftAccounts.cleared
      ∧ t.journal = Journal.cleared
      ∧ t.odo =
        { s.odo with
          polarity := .rising, window := .ms1, k := 0, totalDistance := 0, hiredDistance := 0, r := 0
          intervalMetres := 0, accepted := s.pins.dpulse, timing := none }
      ∧ t.sign.active = false ∧ t.sign.cause = none ∧ t.sign.raiseTime = none
      ∧ t.sign.mode = s.sign.mode ∧ t.sign.choice = s.sign.choice ∧ t.sign.fault = s.sign.fault
      ∧ t.sign.pUser = s.sign.pUser ∧ t.sign.testRunning = s.sign.testRunning
      ∧ (s.settle.session.state ≠ .none → announced .paymentState (paymentPayload Session.blank) t)
      ∧ (s.settle.session.state = .none → unraised .paymentState s t)
      ∧ (s.sign.active = true → announced .emergency (emergencyPayload t.sign (some s.clock.count)) t)
      ∧ t.retained.calCount = 0 ∧ t.retained.calStamp = 0 ∧ t.retained.recorded = false
      ∧ t.retained.formatVersion = 1
      ∧ announced .shiftState (shiftPayload t.shifts) t ∧ replyIs .factoryClear ⟨.ok, []⟩ t)

/-! ### Control link -/

/-- R170, R171, R175: a sound frame at each state of the two places, the reply that is sent whole and the
waiting frame that is then taken, an unlisted kind, and echo mode. Model's choices: log 7, 8, 9 and 39, and
an event without its cause, log 4. -/
def Obligations.FramesAreHeldInTwoPlaces : Prop :=
  ∀ (s : State) (f : Sys2Proof.Frame), s.power = .running →
    (s.link.handling = none → ∃ t, exec (.controlFrameReceived f) s = .next t
      ∧ takenAs f { s with link := s.link.heard } t)
    ∧ (s.link.handling.isSome = true → s.link.waiting = none →
      exec (.controlFrameReceived f) s = .next { s with link := { s.link.heard with waiting := some f } })
    ∧ (s.link.handling.isSome = true → s.link.waiting.isSome = true →
      exec (.controlFrameReceived f) s = .next { s with link :=
        { s.link.heard with overrun := true, overrunCount := min 65535 (s.link.overrunCount + 1) } })
    ∧ (s.link.handling = none ∨ s.link.noticeFrame.isSome = true → exec .replySent s = .next s)
    ∧ (s.link.handling.isSome = true → s.link.noticeFrame = none → s.link.after = .nothing →
      (s.link.waiting = none → exec .replySent s = .next { s with link := { s.link with handling := none } })
      ∧ (s.link.waiting = some f → ∃ t, exec .replySent s = .next t
        ∧ takenAs f { s with link := { s.link with handling := none, waiting := none } } t))
    ∧ (s.link.echo = true → s.link.handling = none →
      (f.kind ≠ 0x67#8 → exec (.frameEcho f) s
        = .next { s with link := { s.link with handling := some ⟨f.kind.toNat, some f, .echo⟩ } })
      ∧ exec .echoOff s = .next
          { s with link := { s.link with echo := false, handling := some ⟨0x67, none, .answer ⟨.ok, []⟩⟩ } })
    ∧ (ready s → ∀ kind : Byte, reqKind? kind.toNat = none → exec (.unlistedKind kind) s = .next
      { s with link := { s.link with handling := some ⟨kind.toNat, none, .answer ⟨.unknownKind, []⟩⟩ } })

/-- R168, R169, R170, R175, R176: LINK_CONFIG, LINK_RESET and ECHO_ON take effect when their reply has been
sent; LINK_STATUS; a break; a gap; and the receiver at each byte, which begins, assembles, discards and
counts, or completes a frame. A change of rate discards a frame only where a byte is being received then.
Model's choices: a rate of 4 bytes in the reply, log 17, what follows a reply, log 9, bytes and breaks as
rows and the byte at a change of rate, which is a free value, log 13, an event without its cause, log 4, a
gap at any count, log 5. -/
def Obligations.LinkChangesFollowTheReply : Prop :=
  ∀ s : State, s.power = .running →
    (ready s → (∀ r, r ∉ [9600, 19200, 38400, 57600, 115200] →
        exec (.linkConfig r) s = .next (refusedWith .linkConfig .badValue s))
      ∧ (∀ r, r ∈ [9600, 19200, 38400, 57600, 115200] → exec (.linkConfig r) s
        = .next (answered .linkConfig ⟨.ok, [.u32 r]⟩
          (if r = s.link.rate then s else { s with link := { s.link with after := .rateSwitch r } })))
      ∧ exec .linkReset s
        = .next (answered .linkReset ⟨.ok, []⟩ { s with link := { s.link with after := .linkReset } })
      ∧ exec .echoOn s
        = .next (answered .echoOn ⟨.ok, []⟩ { s with link := { s.link with after := .echoBegin } })
      ∧ exec .echoOff s = .next (refusedWith .echoOff .wrongState s)
      ∧ (∀ c, 1 < c → exec (.linkStatus c) s = .next (refusedWith .linkStatus .badValue s))
      ∧ (∀ c, c ≤ 1 → exec (.linkStatus c) s = .next (answered .linkStatus ⟨.ok, linkFields s.link⟩
          { s with link := { s.link with overrun := if c = 1 then false else s.link.overrun } })))
    ∧ (s.link.handling.isSome = true → s.link.noticeFrame = none → s.link.waiting = none →
      let l := { s.link with handling := none, after := .nothing }
      (∀ r, s.link.after = .rateSwitch r →
        (s.link.receiver = .hunting →
          exec .linkRateSwitch s = .next { s with link := { l with rate := r } })
        ∧ (s.link.receiver ≠ .hunting → exec .linkRateSwitch s = .next
          { s with
            freeCount := s.freeCount + 1
            link := if Config.byteBeingReceived s.freeCount = true then
                { l with rate := r, receiver := .hunting, gapCount := min 65535 (s.link.gapCount + 1) }
              else { l with rate := r } })
        ∧ exec .replySent s = exec .linkRateSwitch s)
      ∧ (s.link.after = .echoBegin → exec .echoModeBegin s = .next { s with link := { l with echo := true } }
        ∧ exec .replySent s = exec .echoModeBegin s)
      ∧ (s.link.after = .linkReset → exec .linkResetApply s = .next { s with link :=
          { l with
            receiver := .hunting, queue := [], overrun := false, stream := false, echo := false, enabled := BitVec.allOnes 20 } }
        ∧ exec .replySent s = exec .linkResetApply s))
    ∧ (s.link.after = .nothing → exec .linkRateSwitch s = .next s ∧ exec .echoModeBegin s = .next s
      ∧ exec .linkResetApply s = .next s)
    ∧ (∀ mid, exec (.lineBreak mid) s = .next { s with link :=
        { s.link with
          receiver := .hunting, handling := none, waiting := none, after := .nothing, queue := [], overrun := false
          stream := false, echo := false, enabled := BitVec.allOnes 20, noticeFrame := none
          gapCount := if mid = true ∨ s.link.receiver ≠ .hunting then min 65535 (s.link.gapCount + 1)
            else s.link.gapCount } })
    ∧ exec .controlGap s = .next { s with link :=
        { s.link with
          receiver := .hunting
          gapCount := if s.link.receiver = .hunting then s.link.gapCount
            else min 65535 (s.link.gapCount + 1) } }
    ∧ exec (.controlFrameDiscard []) s = .next s
    ∧ ∀ (b : Byte) (bs : List Byte),
      (∃ u, exec (.controlFrameDiscard [b]) s = .next u
        ∧ exec (.controlFrameDiscard (b :: bs)) s = exec (.controlFrameDiscard bs) u)
      ∧ (s.link.receiver = .hunting ∨ 3 ≤ s.link.quiet →
        exec (.controlFrameDiscard [b]) s = .next { s with link :=
          { s.link.heard with receiver := if b = 0xA5#8 then .assembling [] else .hunting } })
      ∧ (s.link.quiet < 3 →
        (s.link.receiver = .assembling [] → exec (.controlFrameDiscard [b]) s = .next { s with link :=
          if 2 ≤ b.toNat ∧ b.toNat ≤ 250 then { s.link with receiver := .assembling [b], quiet := 0 }
          else
            { s.link with
              receiver := .hunting, quiet := 0, lengthCount := min 65535 (s.link.lengthCount + 1) } })
        ∧ ∀ (n : Byte) (rest : List Byte), s.link.receiver = .assembling (n :: rest) →
          (rest.length ≤ n.toNat → exec (.controlFrameDiscard [b]) s = .next { s with link :=
            { s.link with receiver := .assembling (n :: rest ++ [b]), quiet := 0 } })
          ∧ ∀ (kind tag hi : Byte) (body : List Byte), rest = kind :: tag :: body ++ [hi] →
            rest.length = n.toNat + 1 →
            (hi.toNat * 256 + b.toNat ≠ (crc16 (n :: kind :: tag :: body)).toNat →
              exec (.controlFrameDiscard [b]) s = .next { s with link :=
                { s.link with
                  receiver := .hunting, quiet := 0, crcCount := min 65535 (s.link.crcCount + 1) } })
            ∧ (hi.toNat * 256 + b.toNat = (crc16 (n :: kind :: tag :: body)).toNat →
              exec (.controlFrameDiscard [b]) s = exec (.controlFrameReceived ⟨kind, tag, body⟩) s))

/-- R172, R173, R174: the enabled set after each mask operation with the queue that is left, the delivery
mode, the fetch of the oldest notice, and the notice frames of STREAM. Model's choice: NOTICE_FRAME_START
outside its condition changes nothing, log 4. -/
def Obligations.NoticesAreMaskedFetchedAndStreamed : Prop :=
  ∀ s : State, s.power = .running →
    (ready s → ∀ op set : Nat,
      (3 < op ∨ 1048576 ≤ set → exec (.noticeMask op set) s = .next (refusedWith .noticeMask .badValue s))
      ∧ (op ≤ 3 → set < 1048576 → ∃ t, exec (.noticeMask op set) s = .next t ∧ changesOnly [.link] s t
        ∧ (∀ k : NoticeKind, t.link.isEnabled k =
          (if op = 0 then bit set (k.code - 1)
          else if op = 1 then s.link.isEnabled k || bit set (k.code - 1)
          else if op = 2 then s.link.isEnabled k && !bit set (k.code - 1)
          else xor (s.link.isEnabled k) (bit set (k.code - 1))))
        ∧ t.link.queue = s.link.queue.filter (fun n => t.link.isEnabled n.kind)
        ∧ replyIs .noticeMask ⟨.ok, [.u32 t.link.enabled.toNat]⟩ t))
    ∧ (ready s → ∀ m, (1 < m → exec (.noticeMode m) s = .next (refusedWith .noticeMode .badValue s))
      ∧ (m ≤ 1 → exec (.noticeMode m) s = .next (answered .noticeMode ⟨.ok, [.u8 m]⟩
          { s with link := { s.link with stream := decide (m = 1) } })))
    ∧ (ready s → s.link.queue = [] → exec .noticeFetch s = .next (refusedWith .noticeFetch .notFound s))
    ∧ (∀ n ns, s.link.queue = n :: ns →
      (ready s → exec .noticeFetch s = .next (answered .noticeFetch ⟨.ok, .u8 n.kind.code :: n.payload⟩
        { s with link := { s.link with queue := ns } }))
      ∧ (s.link.stream = true → s.link.handling = none → s.link.echo = false → s.link.noticeFrame = none →
        exec .noticeFrameStart s = .next
          { s with link := { s.link with queue := ns, noticeFrame := some n } }))
    ∧ (s.link.stream = false ∨ s.link.handling.isSome = true ∨ s.link.echo = true
        ∨ s.link.noticeFrame.isSome = true ∨ s.link.queue = [] → exec .noticeFrameStart s = .next s)
    ∧ exec .noticeFrameEnd s = .next { s with link := { s.link with noticeFrame := none } }
    ∧ ∀ (k : NoticeKind) (p : List Field) (l : ControlLink), (l.queue.map Notice.kind).Nodup →
      (l.isEnabled k = false → l.raise k p = l)
      ∧ (l.isEnabled k = true → (∀ n ∈ l.queue, n.kind ≠ k) →
          l.raise k p = { l with queue := l.queue ++ [⟨k, p⟩] })
      ∧ (l.isEnabled k = true → ∀ before n after, l.queue = before ++ n :: after → n.kind = k →
          l.raise k p = { l with queue := before ++ ⟨k, p⟩ :: after })

/-- R169, R177, Table 12-3: the frame that spells a well-formed host request is decoded to that request, and
every frame that decodes to a request, whatever its length, is the one that spells it. Model's choices: the
layouts that R177 leaves open, log 17 and 18. -/
def Obligations.RequestFramesSpellTheirCommands : Prop :=
  (∀ (c : Instr) (tag : Byte), c.wellFormed = true → (requestParts c).isSome = true →
    ∃ f : Sys2Proof.Frame, encodeRequest tag c = some f ∧ f.tag = tag ∧ f.body.length ≤ 248
      ∧ decodeRequest f.kind f.body = .request c)
  ∧ ∀ (f : Sys2Proof.Frame) (c : Instr), decodeRequest f.kind f.body = .request c →
    encodeRequest f.tag c = some f
end

