-- ==== Sys2Proof/Laws/State.lean ====
section
/-!
SUPPORT. What each update of the state leaves as it was and what it writes, field by field, and the
entries of the things of which there is one for each seat, lamp, side, speaker, slot or level.
-/

namespace Sys2Proof.Machine

/-! ### One for each … -/

@[simp] theorem PerSeat.get_set_same {α : Type} (p : PerSeat α) (v : α) (x : Seat) : (p.set v x).get x = v := by
  cases x <;> rfl

theorem PerSeat.get_set_other {α : Type} (p : PerSeat α) (v : α) {x y : Seat} (h : y ≠ x) :
    (p.set v x).get y = p.get y := by
  cases x <;> cases y <;> first | rfl | exact absurd rfl h

@[simp] theorem PerLamp.get_set_same {α : Type} (p : PerLamp α) (v : α) (x : Lamp) : (p.set v x).get x = v := by
  cases x <;> rfl

theorem PerLamp.get_set_other {α : Type} (p : PerLamp α) (v : α) {x y : Lamp} (h : y ≠ x) :
    (p.set v x).get y = p.get y := by
  cases x <;> cases y <;> first | rfl | exact absurd rfl h

@[simp] theorem PerSide.get_set_same {α : Type} (p : PerSide α) (v : α) (x : Side) : (p.set v x).get x = v := by
  cases x <;> rfl

theorem PerSide.get_set_other {α : Type} (p : PerSide α) (v : α) {x y : Side} (h : y ≠ x) :
    (p.set v x).get y = p.get y := by
  cases x <;> cases y <;> first | rfl | exact absurd rfl h

@[simp] theorem PerSpeaker.get_set_same {α : Type} (p : PerSpeaker α) (v : α) (x : Speaker) : (p.set v x).get x = v := by
  cases x <;> rfl

theorem PerSpeaker.get_set_other {α : Type} (p : PerSpeaker α) (v : α) {x y : Speaker} (h : y ≠ x) :
    (p.set v x).get y = p.get y := by
  cases x <;> cases y <;> first | rfl | exact absurd rfl h

@[simp] theorem PerSlot.get_set_same {α : Type} (p : PerSlot α) (v : α) (x : Slot) : (p.set v x).get x = v := by
  cases x <;> rfl

theorem PerSlot.get_set_other {α : Type} (p : PerSlot α) (v : α) {x y : Slot} (h : y ≠ x) :
    (p.set v x).get y = p.get y := by
  cases x <;> cases y <;> first | rfl | exact absurd rfl h

@[simp] theorem PerLevel.get_set_same {α : Type} (p : PerLevel α) (v : α) (x : Level) : (p.set v x).get x = v := by
  cases x <;> rfl

theorem PerLevel.get_set_other {α : Type} (p : PerLevel α) (v : α) {x y : Level} (h : y ≠ x) :
    (p.set v x).get y = p.get y := by
  cases x <;> cases y <;> first | rfl | exact absurd rfl h

@[simp] theorem PerSlot.get_map {α β : Type} (p : PerSlot α) (g : α → β) (i : Slot) :
    (p.map g).get i = g (p.get i) := by
  cases i <;> rfl

theorem PerSlot.ext_get {α : Type} {p q : PerSlot α} (h : ∀ i, p.get i = q.get i) : p = q := by
  have h1 := h .s1
  have h2 := h .s2
  have h3 := h .s3
  have h4 := h .s4
  cases p
  cases q
  simp_all [PerSlot.get]

/-! ### Raising a notice changes the link alone -/

@[simp] theorem raise_power (k : NoticeKind) (payload : List Field) (s : State) : (raise k payload s).power = s.power := rfl
@[simp] theorem raise_pins (k : NoticeKind) (payload : List Field) (s : State) : (raise k payload s).pins = s.pins := rfl
@[simp] theorem raise_odo (k : NoticeKind) (payload : List Field) (s : State) : (raise k payload s).odo = s.odo := rfl
@[simp] theorem raise_fare (k : NoticeKind) (payload : List Field) (s : State) : (raise k payload s).fare = s.fare := rfl
@[simp] theorem raise_settle (k : NoticeKind) (payload : List Field) (s : State) : (raise k payload s).settle = s.settle := rfl
@[simp] theorem raise_tender (k : NoticeKind) (payload : List Field) (s : State) : (raise k payload s).tender = s.tender := rfl
@[simp] theorem raise_shifts (k : NoticeKind) (payload : List Field) (s : State) : (raise k payload s).shifts = s.shifts := rfl
@[simp] theorem raise_journal (k : NoticeKind) (payload : List Field) (s : State) : (raise k payload s).journal = s.journal := rfl
@[simp] theorem raise_sign (k : NoticeKind) (payload : List Field) (s : State) : (raise k payload s).sign = s.sign := rfl
@[simp] theorem raise_intercom (k : NoticeKind) (payload : List Field) (s : State) : (raise k payload s).intercom = s.intercom := rfl
@[simp] theorem raise_speakers (k : NoticeKind) (payload : List Field) (s : State) : (raise k payload s).speakers = s.speakers := rfl
@[simp] theorem raise_clock (k : NoticeKind) (payload : List Field) (s : State) : (raise k payload s).clock = s.clock := rfl
@[simp] theorem raise_retained (k : NoticeKind) (payload : List Field) (s : State) : (raise k payload s).retained = s.retained := rfl
@[simp] theorem raise_pending (k : NoticeKind) (payload : List Field) (s : State) : (raise k payload s).pending = s.pending := rfl
@[simp] theorem raise_freeCount (k : NoticeKind) (payload : List Field) (s : State) : (raise k payload s).freeCount = s.freeCount := rfl
@[simp] theorem raise_link (k : NoticeKind) (payload : List Field) (s : State) :
    (raise k payload s).link = s.link.raise k payload := rfl

/-! ### A change of the link -/

@[simp] theorem setLink_power (g : ControlLink → ControlLink) (s : State) : (setLink g s).power = s.power := rfl
@[simp] theorem setLink_pins (g : ControlLink → ControlLink) (s : State) : (setLink g s).pins = s.pins := rfl
@[simp] theorem setLink_odo (g : ControlLink → ControlLink) (s : State) : (setLink g s).odo = s.odo := rfl
@[simp] theorem setLink_fare (g : ControlLink → ControlLink) (s : State) : (setLink g s).fare = s.fare := rfl
@[simp] theorem setLink_settle (g : ControlLink → ControlLink) (s : State) : (setLink g s).settle = s.settle := rfl
@[simp] theorem setLink_tender (g : ControlLink → ControlLink) (s : State) : (setLink g s).tender = s.tender := rfl
@[simp] theorem setLink_shifts (g : ControlLink → ControlLink) (s : State) : (setLink g s).shifts = s.shifts := rfl
@[simp] theorem setLink_journal (g : ControlLink → ControlLink) (s : State) : (setLink g s).journal = s.journal := rfl
@[simp] theorem setLink_sign (g : ControlLink → ControlLink) (s : State) : (setLink g s).sign = s.sign := rfl
@[simp] theorem setLink_intercom (g : ControlLink → ControlLink) (s : State) : (setLink g s).intercom = s.intercom := rfl
@[simp] theorem setLink_speakers (g : ControlLink → ControlLink) (s : State) : (setLink g s).speakers = s.speakers := rfl
@[simp] theorem setLink_clock (g : ControlLink → ControlLink) (s : State) : (setLink g s).clock = s.clock := rfl
@[simp] theorem setLink_retained (g : ControlLink → ControlLink) (s : State) : (setLink g s).retained = s.retained := rfl
@[simp] theorem setLink_pending (g : ControlLink → ControlLink) (s : State) : (setLink g s).pending = s.pending := rfl
@[simp] theorem setLink_freeCount (g : ControlLink → ControlLink) (s : State) : (setLink g s).freeCount = s.freeCount := rfl
@[simp] theorem setLink_link (g : ControlLink → ControlLink) (s : State) : (setLink g s).link = g s.link := rfl

/-! ### A change of one leg -/

@[simp] theorem setLeg_power (s : State) (i : Slot) (l : Leg) : (s.setLeg i l).power = s.power := rfl
@[simp] theorem setLeg_pins (s : State) (i : Slot) (l : Leg) : (s.setLeg i l).pins = s.pins := rfl
@[simp] theorem setLeg_odo (s : State) (i : Slot) (l : Leg) : (s.setLeg i l).odo = s.odo := rfl
@[simp] theorem setLeg_settle (s : State) (i : Slot) (l : Leg) : (s.setLeg i l).settle = s.settle := rfl
@[simp] theorem setLeg_tender (s : State) (i : Slot) (l : Leg) : (s.setLeg i l).tender = s.tender := rfl
@[simp] theorem setLeg_shifts (s : State) (i : Slot) (l : Leg) : (s.setLeg i l).shifts = s.shifts := rfl
@[simp] theorem setLeg_journal (s : State) (i : Slot) (l : Leg) : (s.setLeg i l).journal = s.journal := rfl
@[simp] theorem setLeg_sign (s : State) (i : Slot) (l : Leg) : (s.setLeg i l).sign = s.sign := rfl
@[simp] theorem setLeg_intercom (s : State) (i : Slot) (l : Leg) : (s.setLeg i l).intercom = s.intercom := rfl
@[simp] theorem setLeg_speakers (s : State) (i : Slot) (l : Leg) : (s.setLeg i l).speakers = s.speakers := rfl
@[simp] theorem setLeg_clock (s : State) (i : Slot) (l : Leg) : (s.setLeg i l).clock = s.clock := rfl
@[simp] theorem setLeg_retained (s : State) (i : Slot) (l : Leg) : (s.setLeg i l).retained = s.retained := rfl
@[simp] theorem setLeg_link (s : State) (i : Slot) (l : Leg) : (s.setLeg i l).link = s.link := rfl
@[simp] theorem setLeg_pending (s : State) (i : Slot) (l : Leg) : (s.setLeg i l).pending = s.pending := rfl
@[simp] theorem setLeg_freeCount (s : State) (i : Slot) (l : Leg) : (s.setLeg i l).freeCount = s.freeCount := rfl
@[simp] theorem setLeg_leg_same (s : State) (i : Slot) (l : Leg) : (s.setLeg i l).leg i = l := by
  simp [State.setLeg, State.leg]

theorem setLeg_leg_other (s : State) (l : Leg) {i j : Slot} (h : j ≠ i) : (s.setLeg i l).leg j = s.leg j := by
  simp [State.setLeg, State.leg, PerSlot.get_set_other _ _ h]

@[simp] theorem setLeg_seatMap (s : State) (i : Slot) (l : Leg) :
    (s.setLeg i l).fare.seatMap = s.fare.seatMap := rfl

@[simp] theorem setLeg_tariffs (s : State) (i : Slot) (l : Leg) :
    (s.setLeg i l).fare.tariffs = s.fare.tariffs := rfl

/-! ### A change of one speaker -/

@[simp] theorem setSpeaker_power (s : State) (x : Speaker) (p : SpeakerState) : (s.setSpeaker x p).power = s.power := rfl
@[simp] theorem setSpeaker_pins (s : State) (x : Speaker) (p : SpeakerState) : (s.setSpeaker x p).pins = s.pins := rfl
@[simp] theorem setSpeaker_odo (s : State) (x : Speaker) (p : SpeakerState) : (s.setSpeaker x p).odo = s.odo := rfl
@[simp] theorem setSpeaker_fare (s : State) (x : Speaker) (p : SpeakerState) : (s.setSpeaker x p).fare = s.fare := rfl
@[simp] theorem setSpeaker_settle (s : State) (x : Speaker) (p : SpeakerState) : (s.setSpeaker x p).settle = s.settle := rfl
@[simp] theorem setSpeaker_tender (s : State) (x : Speaker) (p : SpeakerState) : (s.setSpeaker x p).tender = s.tender := rfl
@[simp] theorem setSpeaker_shifts (s : State) (x : Speaker) (p : SpeakerState) : (s.setSpeaker x p).shifts = s.shifts := rfl
@[simp] theorem setSpeaker_journal (s : State) (x : Speaker) (p : SpeakerState) : (s.setSpeaker x p).journal = s.journal := rfl
@[simp] theorem setSpeaker_sign (s : State) (x : Speaker) (p : SpeakerState) : (s.setSpeaker x p).sign = s.sign := rfl
@[simp] theorem setSpeaker_intercom (s : State) (x : Speaker) (p : SpeakerState) : (s.setSpeaker x p).intercom = s.intercom := rfl
@[simp] theorem setSpeaker_clock (s : State) (x : Speaker) (p : SpeakerState) : (s.setSpeaker x p).clock = s.clock := rfl
@[simp] theorem setSpeaker_retained (s : State) (x : Speaker) (p : SpeakerState) : (s.setSpeaker x p).retained = s.retained := rfl
@[simp] theorem setSpeaker_link (s : State) (x : Speaker) (p : SpeakerState) : (s.setSpeaker x p).link = s.link := rfl
@[simp] theorem setSpeaker_pending (s : State) (x : Speaker) (p : SpeakerState) : (s.setSpeaker x p).pending = s.pending := rfl
@[simp] theorem setSpeaker_freeCount (s : State) (x : Speaker) (p : SpeakerState) : (s.setSpeaker x p).freeCount = s.freeCount := rfl

/-! ### A change of the session or of its timer -/

@[simp] theorem setSession_power (g : Session → Session) (s : State) : (setSession g s).power = s.power := rfl
@[simp] theorem setSession_pins (g : Session → Session) (s : State) : (setSession g s).pins = s.pins := rfl
@[simp] theorem setSession_odo (g : Session → Session) (s : State) : (setSession g s).odo = s.odo := rfl
@[simp] theorem setSession_fare (g : Session → Session) (s : State) : (setSession g s).fare = s.fare := rfl
@[simp] theorem setSession_tender (g : Session → Session) (s : State) : (setSession g s).tender = s.tender := rfl
@[simp] theorem setSession_shifts (g : Session → Session) (s : State) : (setSession g s).shifts = s.shifts := rfl
@[simp] theorem setSession_journal (g : Session → Session) (s : State) : (setSession g s).journal = s.journal := rfl
@[simp] theorem setSession_sign (g : Session → Session) (s : State) : (setSession g s).sign = s.sign := rfl
@[simp] theorem setSession_intercom (g : Session → Session) (s : State) : (setSession g s).intercom = s.intercom := rfl
@[simp] theorem setSession_speakers (g : Session → Session) (s : State) : (setSession g s).speakers = s.speakers := rfl
@[simp] theorem setSession_clock (g : Session → Session) (s : State) : (setSession g s).clock = s.clock := rfl
@[simp] theorem setSession_retained (g : Session → Session) (s : State) : (setSession g s).retained = s.retained := rfl
@[simp] theorem setSession_link (g : Session → Session) (s : State) : (setSession g s).link = s.link := rfl
@[simp] theorem setSession_pending (g : Session → Session) (s : State) : (setSession g s).pending = s.pending := rfl
@[simp] theorem setSession_freeCount (g : Session → Session) (s : State) : (setSession g s).freeCount = s.freeCount := rfl
@[simp] theorem setTimer_power (t : Option SessionTimer) (s : State) : (setTimer t s).power = s.power := rfl
@[simp] theorem setTimer_pins (t : Option SessionTimer) (s : State) : (setTimer t s).pins = s.pins := rfl
@[simp] theorem setTimer_odo (t : Option SessionTimer) (s : State) : (setTimer t s).odo = s.odo := rfl
@[simp] theorem setTimer_fare (t : Option SessionTimer) (s : State) : (setTimer t s).fare = s.fare := rfl
@[simp] theorem setTimer_tender (t : Option SessionTimer) (s : State) : (setTimer t s).tender = s.tender := rfl
@[simp] theorem setTimer_shifts (t : Option SessionTimer) (s : State) : (setTimer t s).shifts = s.shifts := rfl
@[simp] theorem setTimer_journal (t : Option SessionTimer) (s : State) : (setTimer t s).journal = s.journal := rfl
@[simp] theorem setTimer_sign (t : Option SessionTimer) (s : State) : (setTimer t s).sign = s.sign := rfl
@[simp] theorem setTimer_intercom (t : Option SessionTimer) (s : State) : (setTimer t s).intercom = s.intercom := rfl
@[simp] theorem setTimer_speakers (t : Option SessionTimer) (s : State) : (setTimer t s).speakers = s.speakers := rfl
@[simp] theorem setTimer_clock (t : Option SessionTimer) (s : State) : (setTimer t s).clock = s.clock := rfl
@[simp] theorem setTimer_retained (t : Option SessionTimer) (s : State) : (setTimer t s).retained = s.retained := rfl
@[simp] theorem setTimer_link (t : Option SessionTimer) (s : State) : (setTimer t s).link = s.link := rfl
@[simp] theorem setTimer_pending (t : Option SessionTimer) (s : State) : (setTimer t s).pending = s.pending := rfl
@[simp] theorem setTimer_freeCount (t : Option SessionTimer) (s : State) : (setTimer t s).freeCount = s.freeCount := rfl
@[simp] theorem setSession_session (g : Session → Session) (s : State) :
    (setSession g s).settle.session = g s.settle.session := rfl

@[simp] theorem setTimer_timer (t : Option SessionTimer) (s : State) : (setTimer t s).settle.timer = t := rfl

@[simp] theorem setTimer_session (t : Option SessionTimer) (s : State) :
    (setTimer t s).settle.session = s.settle.session := rfl

@[simp] theorem setSession_timer (g : Session → Session) (s : State) :
    (setSession g s).settle.timer = s.settle.timer := rfl

/-! ### A change of the intercom controller -/

@[simp] theorem setIntercom_power (g : Intercom → Intercom) (s : State) : (setIntercom g s).power = s.power := rfl
@[simp] theorem setIntercom_pins (g : Intercom → Intercom) (s : State) : (setIntercom g s).pins = s.pins := rfl
@[simp] theorem setIntercom_odo (g : Intercom → Intercom) (s : State) : (setIntercom g s).odo = s.odo := rfl
@[simp] theorem setIntercom_fare (g : Intercom → Intercom) (s : State) : (setIntercom g s).fare = s.fare := rfl
@[simp] theorem setIntercom_settle (g : Intercom → Intercom) (s : State) : (setIntercom g s).settle = s.settle := rfl
@[simp] theorem setIntercom_tender (g : Intercom → Intercom) (s : State) : (setIntercom g s).tender = s.tender := rfl
@[simp] theorem setIntercom_shifts (g : Intercom → Intercom) (s : State) : (setIntercom g s).shifts = s.shifts := rfl
@[simp] theorem setIntercom_journal (g : Intercom → Intercom) (s : State) : (setIntercom g s).journal = s.journal := rfl
@[simp] theorem setIntercom_sign (g : Intercom → Intercom) (s : State) : (setIntercom g s).sign = s.sign := rfl
@[simp] theorem setIntercom_speakers (g : Intercom → Intercom) (s : State) : (setIntercom g s).speakers = s.speakers := rfl
@[simp] theorem setIntercom_clock (g : Intercom → Intercom) (s : State) : (setIntercom g s).clock = s.clock := rfl
@[simp] theorem setIntercom_retained (g : Intercom → Intercom) (s : State) : (setIntercom g s).retained = s.retained := rfl
@[simp] theorem setIntercom_link (g : Intercom → Intercom) (s : State) : (setIntercom g s).link = s.link := rfl
@[simp] theorem setIntercom_pending (g : Intercom → Intercom) (s : State) : (setIntercom g s).pending = s.pending := rfl
@[simp] theorem setIntercom_freeCount (g : Intercom → Intercom) (s : State) : (setIntercom g s).freeCount = s.freeCount := rfl
@[simp] theorem setIntercom_intercom (g : Intercom → Intercom) (s : State) :
    (setIntercom g s).intercom = g s.intercom := rfl

/-! ### Setting the lamp demands -/

@[simp] theorem refreshLamps_power (s : State) : (refreshLamps s).power = s.power := rfl
@[simp] theorem refreshLamps_pins (s : State) : (refreshLamps s).pins = s.pins := rfl
@[simp] theorem refreshLamps_odo (s : State) : (refreshLamps s).odo = s.odo := rfl
@[simp] theorem refreshLamps_fare (s : State) : (refreshLamps s).fare = s.fare := rfl
@[simp] theorem refreshLamps_settle (s : State) : (refreshLamps s).settle = s.settle := rfl
@[simp] theorem refreshLamps_tender (s : State) : (refreshLamps s).tender = s.tender := rfl
@[simp] theorem refreshLamps_shifts (s : State) : (refreshLamps s).shifts = s.shifts := rfl
@[simp] theorem refreshLamps_journal (s : State) : (refreshLamps s).journal = s.journal := rfl
@[simp] theorem refreshLamps_intercom (s : State) : (refreshLamps s).intercom = s.intercom := rfl
@[simp] theorem refreshLamps_speakers (s : State) : (refreshLamps s).speakers = s.speakers := rfl
@[simp] theorem refreshLamps_clock (s : State) : (refreshLamps s).clock = s.clock := rfl
@[simp] theorem refreshLamps_retained (s : State) : (refreshLamps s).retained = s.retained := rfl
@[simp] theorem refreshLamps_link (s : State) : (refreshLamps s).link = s.link := rfl
@[simp] theorem refreshLamps_pending (s : State) : (refreshLamps s).pending = s.pending := rfl
@[simp] theorem refreshLamps_freeCount (s : State) : (refreshLamps s).freeCount = s.freeCount := rfl

/-! ### Deriving the sign -/

@[simp] theorem derive_power (s : State) : (derive s).power = s.power := rfl
@[simp] theorem derive_pins (s : State) : (derive s).pins = s.pins := rfl
@[simp] theorem derive_odo (s : State) : (derive s).odo = s.odo := rfl
@[simp] theorem derive_fare (s : State) : (derive s).fare = s.fare := rfl
@[simp] theorem derive_settle (s : State) : (derive s).settle = s.settle := rfl
@[simp] theorem derive_tender (s : State) : (derive s).tender = s.tender := rfl
@[simp] theorem derive_shifts (s : State) : (derive s).shifts = s.shifts := rfl
@[simp] theorem derive_journal (s : State) : (derive s).journal = s.journal := rfl
@[simp] theorem derive_intercom (s : State) : (derive s).intercom = s.intercom := rfl
@[simp] theorem derive_speakers (s : State) : (derive s).speakers = s.speakers := rfl
@[simp] theorem derive_clock (s : State) : (derive s).clock = s.clock := rfl
@[simp] theorem derive_retained (s : State) : (derive s).retained = s.retained := rfl
@[simp] theorem derive_link (s : State) : (derive s).link = s.link := rfl
@[simp] theorem derive_pending (s : State) : (derive s).pending = s.pending := rfl
@[simp] theorem derive_freeCount (s : State) : (derive s).freeCount = s.freeCount := rfl

end Sys2Proof.Machine
end

