-- ==== Sys2Proof/Laws/Frames.lean ====
section
/-!
SUPPORT. What each shared operation may change: one frame for each, and how frames combine.
-/

namespace Sys2Proof.Machine

/-! ### Frames combine -/

theorem changesOnly_refl (parts : List Block) (s : State) : changesOnly parts s s := by
  simp [changesOnly]

theorem changesOnly_trans {parts : List Block} {s t u : State} (h1 : changesOnly parts s t)
    (h2 : changesOnly parts t u) : changesOnly parts s u := by
  simp only [changesOnly] at *
  obtain ⟨a1, a2, a3, a4, a5, a6, a7, a8, a9, a10, a11, a12, a13, a14, a15, a16⟩ := h1
  obtain ⟨b1, b2, b3, b4, b5, b6, b7, b8, b9, b10, b11, b12, b13, b14, b15, b16⟩ := h2
  have both {P : Prop} {α : Type} {x y z : α} (f : P ∨ y = x) (g : P ∨ z = y) : P ∨ z = x :=
    f.elim .inl (fun e => g.elim .inl (fun e' => .inr (e'.trans e)))
  exact ⟨both a1 b1, both a2 b2, both a3 b3, both a4 b4, both a5 b5, both a6 b6, both a7 b7,
    both a8 b8, both a9 b9, both a10 b10, both a11 b11, both a12 b12, both a13 b13, both a14 b14,
    both a15 b15, both a16 b16⟩

theorem changesOnly_mono {less more : List Block} {s t : State} (sub : ∀ b ∈ less, b ∈ more)
    (h : changesOnly less s t) : changesOnly more s t := by
  simp only [changesOnly] at *
  obtain ⟨a1, a2, a3, a4, a5, a6, a7, a8, a9, a10, a11, a12, a13, a14, a15, a16⟩ := h
  have up {b : Block} {P : Prop} (f : b ∈ less ∨ P) : b ∈ more ∨ P := f.imp_left (sub b)
  exact ⟨up a1, up a2, up a3, up a4, up a5, up a6, up a7, up a8, up a9, up a10, up a11, up a12,
    up a13, up a14, up a15, up a16⟩

/-! ### Operations that change the link alone -/

theorem raise_frame (k : NoticeKind) (payload : List Field) (s : State) :
    changesOnly [.link] s (raise k payload s) := by
  simp [changesOnly]

theorem raiseIf_frame (c : Bool) (k : NoticeKind) (payload : List Field) (s : State) :
    changesOnly [.link] s (raiseIf c k payload s) := by
  cases c
  · exact changesOnly_refl _ _
  · exact raise_frame k payload s

theorem raiseDropped_frame (x : Speaker) (lost : Option Dropped) (s : State) :
    changesOnly [.link] s (raiseDropped x lost s) := by
  cases lost
  · exact changesOnly_refl _ _
  · exact raise_frame _ _ _

theorem raiseLegStates_frame (changed : List Slot) (s : State) :
    changesOnly [.link] s (raiseLegStates changed s) := by
  cases changed
  · exact changesOnly_refl _ _
  · exact raise_frame _ _ _

theorem reportSign_frame (before : Sign) (s : State) : changesOnly [.link] s (reportSign before s) :=
  raiseIf_frame _ _ _ _

/-! ### Tones and speech change the speakers and the link -/

theorem requestTone_frame (x : Speaker) (t : Tone) (s : State) :
    changesOnly [.speakers, .link] s (requestTone x t s).1 := by
  refine changesOnly_trans (t := s.setSpeaker x ((s.speakers.get x).request t).1) ?_ ?_
  · simp [changesOnly]
  · exact changesOnly_mono (by simp) (raiseDropped_frame x _ _)

theorem askTone_frame (k : ToneKind) (s : State) : changesOnly [.speakers, .link] s (askTone k s) :=
  requestTone_frame _ _ s

theorem pathOpens_frame (x : Speaker) (s : State) : changesOnly [.speakers, .link] s (pathOpens x s) := by
  refine changesOnly_trans (t := s.setSpeaker x (s.speakers.get x).openPath.1) ?_ ?_
  · simp [changesOnly]
  · exact changesOnly_mono (by simp) (raiseDropped_frame x _ _)

theorem pathCloses_frame (x : Speaker) (s : State) : changesOnly [.speakers] s (pathCloses x s) := by
  simp [changesOnly, pathCloses]

/-! ### The sign -/

theorem resign_frame (s : State) : changesOnly [.sign, .link] s (resign s) := by
  refine changesOnly_trans (t := derive s) ?_ ?_
  · simp [changesOnly]
  · exact changesOnly_mono (by simp) (reportSign_frame _ _)

theorem resignToAuto_frame (s : State) : changesOnly [.sign, .link] s (resignToAuto s) := by
  refine changesOnly_trans (t := derive { s with sign := _ }) ?_
    (changesOnly_mono (by simp) (reportSign_frame _ _))
  simp [changesOnly]

/-! ### The tender link, the shift totals and the journal -/

theorem setTender_frame (changed : Bool) (t : TenderLink) (s : State) :
    changesOnly [.tender, .link] s (setTender changed t s) := by
  refine changesOnly_trans (t := { s with tender := t }) ?_ ?_
  · simp [changesOnly]
  · exact changesOnly_mono (by simp) (raiseIf_frame _ _ _ _)

theorem sendFrame_frame (m : PartMsg) (s : State) : changesOnly [.tender, .link] s (sendFrame m s) :=
  setTender_frame _ _ _

theorem addTotals_frame (g : Totals → Totals) (s : State) : changesOnly [.shifts] s (addTotals g s) := by
  unfold addTotals
  split <;> simp [changesOnly]

theorem placeRecord_frame (t : Trip) (s : State) : changesOnly [.journal, .link] s (placeRecord t s) := by
  refine changesOnly_trans (t := { s with journal := s.journal.place t }) ?_ ?_
  · simp [changesOnly]
  · exact changesOnly_mono (by simp) (raiseIf_frame _ _ _ _)

/-! ### The legs -/

theorem changeTariff_frame (i : Slot) (n : Nat) (s : State) :
    changesOnly [.fare, .speakers, .link] s (changeTariff i n s) := by
  simp only [changeTariff]
  split
  · exact changesOnly_refl _ _
  · refine changesOnly_trans (changesOnly_trans (t := s.setLeg i _) ?_
      (changesOnly_mono (by simp) (raise_frame _ _ _))) (changesOnly_mono (by simp) (askTone_frame _ _))
    simp [changesOnly]

theorem lockLegs_frame (p : Nat) (slots : List Slot) (s : State) :
    changesOnly [.fare, .link] s (lockLegs p slots s) := by
  refine changesOnly_trans (t := { s with fare := _ }) ?_
    (changesOnly_mono (by simp) (raiseLegStates_frame _ _))
  simp [changesOnly]

theorem unlockLegs_frame (p : Nat) (s : State) : changesOnly [.fare, .link] s (unlockLegs p s) := by
  refine changesOnly_trans (t := { s with fare := _ }) ?_
    (changesOnly_mono (by simp) (raiseLegStates_frame _ _))
  simp [changesOnly]

theorem releaseLegs_frame (p : Nat) (s : State) :
    changesOnly [.fare, .sign, .link] s (releaseLegs p s) := by
  refine changesOnly_trans (changesOnly_trans (t := { s with fare := _ }) ?_
    (changesOnly_mono (by simp) (raiseLegStates_frame _ _))) (changesOnly_mono (by simp) (resign_frame _))
  simp [changesOnly]

end Sys2Proof.Machine
end

