-- ==== Sys2Proof/Laws/Links.lean ====
section
/-!
SUPPORT. What the two links' shared operations do: the receiver of the control link (R170), the bytes
started of a head frame (R93), and the additions of a settlement (R104).
-/

namespace Sys2Proof.Machine

/-! ### The receiver of the control link -/

@[simp] theorem ControlLink.receives_receiver (r : Reader) (l : ControlLink) :
    (l.receives r).receiver = r := rfl
@[simp] theorem ControlLink.receives_quiet (r : Reader) (l : ControlLink) : (l.receives r).quiet = 0 := rfl

/-- A gap leaves the receiver hunting and counts a frame that was being assembled; nothing else changes. -/
theorem ControlLink.gap_eq (l : ControlLink) :
    l.gap = { l with
      receiver := .hunting
      gapCount := if l.receiver = .hunting then l.gapCount else incU16 l.gapCount } := by
  cases h : l.receiver <;> simp [ControlLink.gap, h]
  cases l; cases h; rfl

/-- A receiver that hunts, or has had a byte within 20 ms, has no gap to take. -/
theorem ControlLink.settleGap_eq {l : ControlLink} (h : l.receiver = .hunting ∨ l.quiet < 3) :
    l.settleGap = l := by
  rcases h with h | h <;> unfold ControlLink.settleGap ControlLink.gapOver
  · simp [h]
  · cases l.receiver <;> simp; omega

/-- A change of rate discards the frame being assembled, as a gap, only where a byte is being received. -/
theorem ControlLink.losesByte_eq (l : ControlLink) (receiving : Bool) :
    l.losesByte receiving = if receiving = true then l.gap else l := by
  unfold ControlLink.losesByte ControlLink.gap
  cases l.receiver <;> simp

/-- What the last byte of a sound frame leaves of the link before the frame is placed. -/
theorem ControlLink.settled_receives (l : ControlLink) : l.settleGap.receives .hunting = l.heard := by
  unfold ControlLink.settleGap ControlLink.gapOver ControlLink.receives ControlLink.heard
  cases h : l.receiver
  · simp
  · by_cases q : 3 ≤ l.quiet <;> simp [ControlLink.gap, h, q, incU16, satAdd]

/-! ### The head frame of the transmit queue -/

/-- No more bytes of the head frame are started than it has. -/
theorem TenderLink.starts_le (n : Nat) (t : TenderLink) :
    (t.starts n).headStarted ≤ (t.starts n).headLength := Nat.min_le_left _ _

/-- A frame has at least its start byte, length, kind and check byte. -/
theorem PartMsg.frame_length (m : PartMsg) : 4 ≤ m.frame.length := by
  simp [PartMsg.frame, tenderFrame]

/-- No more bytes are started of a frame that has just become the head than it has. -/
theorem TenderLink.newHead_le (t : TenderLink) (cts : Bool) :
    (t.newHead cts).headStarted ≤ (t.newHead cts).headLength := by
  unfold TenderLink.newHead
  cases h : t.queue with
  | nil => simp
  | cons m ms =>
    have := m.frame_length
    cases cts <;> simp [TenderLink.headLength]
    omega

/-! ### The additions of a settlement -/

/-- The cash taken of a settlement is added as one sum (R104, R106). -/
@[simp] theorem Totals.addTrips_cashTaken (ps : List Trip) (t : Totals) :
    (t.addTrips ps).cashTaken = addU32 t.cashTaken (ps.map Trip.cashTaken).sum.toNat := rfl

end Sys2Proof.Machine
end

