-- ==== Sys2Proof/Laws/Notices.lean ====
section
/-!
SUPPORT. What a raise does to the notice queue (R172), and that it keeps the queue's condition.
-/

namespace Sys2Proof.Machine

/-- The kinds in the queue after a notice is put in: as they were where its kind was there, else with
its kind at the end. -/
theorem putNotice_kinds (n : Notice) (q : List Notice) :
    (putNotice n q).map Notice.kind
      = if n.kind ∈ q.map Notice.kind then q.map Notice.kind else q.map Notice.kind ++ [n.kind] := by
  induction q with
  | nil => simp [putNotice]
  | cons m ms ih =>
    unfold putNotice
    split
    · next h => simp [h]
    · next h =>
      have h' : ¬n.kind = m.kind := fun e => h e.symm
      simp only [List.map_cons, List.mem_cons, h', false_or, ih]
      split <;> simp

/-- A notice put in the queue is in it, and every other one there was in it before. -/
theorem mem_putNotice {n m : Notice} {q : List Notice} (h : m ∈ putNotice n q) : m = n ∨ m ∈ q := by
  induction q with
  | nil => simpa [putNotice] using h
  | cons a as ih =>
    unfold putNotice at h
    split at h
    · rcases List.mem_cons.mp h with h | h
      · exact .inl h
      · exact .inr (List.mem_cons_of_mem _ h)
    · rcases List.mem_cons.mp h with h | h
      · exact .inr (by simp [h])
      · exact (ih h).imp_right (List.mem_cons_of_mem _)

theorem putNotice_nodup {n : Notice} {q : List Notice} (h : (q.map Notice.kind).Nodup) :
    ((putNotice n q).map Notice.kind).Nodup := by
  rw [putNotice_kinds]
  split
  · exact h
  · next hn => exact List.nodup_append.mpr ⟨h, by simp, by
      intro a ha b hb
      rintro rfl
      exact hn (by simpa [List.mem_singleton.mp hb] using ha)⟩

/-- A raise changes the queue alone. -/
@[simp] theorem raise_enabled (l : ControlLink) (k : NoticeKind) (payload : List Field) :
    (l.raise k payload).enabled = l.enabled := by
  unfold ControlLink.raise
  split <;> rfl

@[simp] theorem raise_handling (l : ControlLink) (k : NoticeKind) (payload : List Field) :
    (l.raise k payload).handling = l.handling := by
  unfold ControlLink.raise
  split <;> rfl

@[simp] theorem raise_echo (l : ControlLink) (k : NoticeKind) (payload : List Field) :
    (l.raise k payload).echo = l.echo := by
  unfold ControlLink.raise
  split <;> rfl

/-- A raise of a disabled kind does nothing (R172). -/
theorem raise_disabled {l : ControlLink} {k : NoticeKind} (h : l.isEnabled k = false)
    (payload : List Field) : l.raise k payload = l := by
  simp [ControlLink.raise, h]

/-- A raise keeps the queue's condition (R172). -/
theorem raise_noticesKept (k : NoticeKind) (payload : List Field) {s : State} (h : noticesKept s) :
    noticesKept (raise k payload s) := by
  unfold noticesKept at *
  simp only [raise_link]
  unfold ControlLink.raise
  split
  · next hk =>
    refine ⟨putNotice_nodup h.1, fun n hn => ?_⟩
    rcases mem_putNotice hn with rfl | hn
    · exact hk
    · exact h.2 n hn
  · exact h

end Sys2Proof.Machine
end

