-- ==== Sys2Proof/Laws/Requests.lean ====
section
/-!
SUPPORT. What a request given as a command comes to at a part that is ready for it, and what it comes to
at a part that does not run (R164, R170, R171, log 7).
-/

namespace Sys2Proof.Machine

/-- At a ready part a request is taken by its rule and its answer is placed. -/
theorem hostRequest_ready {s : State} (h : ready s) (k : ReqKind) (rule : State → Taken) :
    hostRequest k rule s = answered k (rule s).2 (rule s).1 := by
  obtain ⟨hp, hh, he⟩ := h
  simp [hostRequest, whileRunning, hp, repliesGone, hh, handle, echoes, he, occupy, setLink, answered,
    answering]

/-- At a stopped part a request changes nothing. -/
theorem hostRequest_stopped {s : State} (h : s.power ≠ .running) (k : ReqKind) (rule : State → Taken) :
    hostRequest k rule s = s := by
  unfold hostRequest whileRunning
  split
  · next hp => exact absurd hp h
  · rfl

/-- A block that acts only while the part runs. -/
@[simp] theorem whileRunning_running {s : State} (h : s.power = .running) (g : State → State) :
    whileRunning g s = g s := by
  simp [whileRunning, h]

theorem whileRunning_stopped {s : State} (h : s.power ≠ .running) (g : State → State) :
    whileRunning g s = s := by
  unfold whileRunning
  split
  · next hp => exact absurd hp h
  · rfl

/-- A placed answer leaves every other part of the state as the request's rule leaves it. -/
theorem answered_frame (k : ReqKind) (a : Answer) (s : State) : changesOnly [.link] s (answered k a s) := by
  simp [changesOnly, answered]

end Sys2Proof.Machine
end

