-- ==== Sys2Proof/Tests/Slice0.lean ====
section
/-!
SUPPORT. Tests of the model against the manual's own figures and worked tables, the refusals of
`Instr.wellFormed`, request frames written out from Tables 12-2 and 12-3, and for each statement with
hypotheses a witness: states and operands that meet them together.
-/

namespace Sys2Proof.Tests

open Sys2Proof Sys2Proof.Machine

/-! ### Small states -/

/-- The state that a command leaves. -/
def after (c : Instr) (s : State) : State :=
  match exec c s with
  | .next t => t
  | _ => s

/-- The code of the answer in the handling place. -/
def replied (s : State) : Option ReplyCode :=
  match s.link.handling with
  | some ⟨_, _, .answer a⟩ => some a.code
  | _ => none

/-- The body of the answer in the handling place. -/
def replyBody (s : State) : List Field :=
  match s.link.handling with
  | some ⟨_, _, .answer a⟩ => a.body
  | _ => []

/-- Tariff 1 of the worked fare case (2.4). -/
def tariffOne : Tariff := ⟨true, [0x44#8], 350, 20, 80, 20, 500, .single, true, true⟩

/-- Tariff 2 of the worked fare case. -/
def tariffTwo : Tariff := ⟨true, [], 300, 20, 70, 20, 0, .double, false, true⟩

/-- Tariff 1 as TARIFF_WRITE carries it. -/
def fieldsOne : TariffFields := ⟨1, [0x44#8], 350, 20, 80, 20, 500, 0, 1, 1⟩

/-- A cab on shift: calibrated, standing, its terminal UP, two tariffs and two extras kinds defined, with
one schedule entry for every day from minute 0. -/
def onShift : State :=
  { State.reset with
    odo := { State.reset.odo with k := 1000, motion := .stationary, zeroCloses := 3 }
    fare := { FareEngine.cleared with
      tariffs := (FareEngine.cleared.tariffs.set 0 tariffOne).set 1 tariffTwo
      schedule := FareEngine.cleared.schedule.set 0 ⟨⟨true, true, true, true, true, true, true⟩, 0, 2⟩
      kinds := (FareEngine.cleared.kinds.set 0 ⟨true, [], 50, 3⟩).set 1 ⟨true, [], 0, 8⟩ }
    settle := { Settlement.cleared with
      sharing := true
      settings := { Settings.cleared with currency := some [0x45#8, 0x55#8, 0x52#8], feeBp := 150, cashUnit := 5 } }
    tender := { TenderLink.restarted with up := true, readiness := some .ready, answered := true }
    shifts := { ShiftAccounts.cleared with record := { ShiftAccounts.cleared.record with
      isOpen := true, number := 1, openTime := some 768304800, odometerOpen := some 0 } }
    clock := { State.reset.clock with count := 768304800, valid := true }
    sign := { Sign.restarted with derived := .free, demand := ⟨.steady, .steady, .off⟩ }
    link := ControlLink.restarted }

/-- A leg on tariff 1 with seat L, with share consent. -/
def ride (state : LegState) : Leg :=
  { Leg.blank with
    state := state, selection := .scheduled, tariff := 1, flagFall := 350, q := -10000, fare := 350
    startTime := 768304800, stopTime := if state = .stopped ∨ state = .paying then some 768304800 else none
    seats := ⟨false, true, false, false⟩, share := true
    paymentId := if state = .paying then some 1 else none, segments := [⟨1, 0, 0, 350⟩] }

/-- The cab with that leg in slot 1 and the sign of Table 8-3. -/
def carrying (state : LegState) : State :=
  { onShift with
    fare := { onShift.fare with
      legs := ⟨ride state, Leg.blank, Leg.blank, Leg.blank⟩, seatMap := ⟨none, some .s1, none, none⟩ }
    sign := { onShift.sign with derived := .share, digit := some 3, demand := ⟨.off, .steady, .steady⟩ } }

/-- The cab with a card payment for that leg in an open state, at an attempt. -/
def paying (state : SessionState) (attempt : Nat) : State :=
  let s := carrying .paying
  { s with
    settle := { s.settle with
      session := { Session.blank with
        state := state, paymentId := 1, legs := [⟨.s1, 350⟩], due := 350, fee := 5, total := 355
        attempt := some attempt
        outstanding := if state = .authorising ∨ state = .aborting then some ⟨1, attempt⟩ else none
        abortCause := if state = .aborting then some .cancel else none
        beginTime := 768304800 }
      nextId := 2
      timer := (timerOf state).map (⟨·, 100⟩)
      saleLeft := 12000 } }

/-- A part in calibration open. -/
def calibrating : State := { State.reset with pins := { State.reset.pins with calen := true } }

/-- A stopped part. -/
def stopped : State := after .supplyFail (carrying .hired)

/-! ### `Instr.wellFormed` refuses -/

theorem test_wf_number_too_wide : Instr.wellFormed (.calSetK 65536) = false := by decide
theorem test_wf_number_fits : Instr.wellFormed (.calSetK 65535) = true := by decide
theorem test_wf_signed_too_large : Instr.wellFormed (.tonePlay 0 0 500 10 32768 1) = false := by decide
theorem test_wf_signed_too_small : Instr.wellFormed (.tonePlay 0 0 500 10 (-32769) 1) = false := by decide
theorem test_wf_text_too_long : Instr.wellFormed (.shiftOpen (List.replicate 256 0x41#8)) = false := by decide +kernel
theorem test_wf_body_too_long : Instr.wellFormed (.shiftOpen (List.replicate 248 0x41#8)) = false := by decide +kernel
theorem test_wf_body_fits : Instr.wellFormed (.shiftOpen (List.replicate 247 0x41#8)) = true := by decide +kernel
theorem test_wf_resend_entry : Instr.wellFormed (.resendTimerExpiry 5) = false := by decide
theorem test_wf_reference_payment : Instr.wellFormed (.tAborted ⟨0, 1⟩) = false := by decide
theorem test_wf_reference_attempt : Instr.wellFormed (.tProgress ⟨1, 4⟩ .online) = false := by decide
theorem test_wf_auth_code : Instr.wellFormed (.tApproved ⟨1, 1⟩ 0 []) = false := by decide
theorem test_wf_amount : Instr.wellFormed (.tApproved ⟨1, 1⟩ 4294967296 [0x31#8]) = false := by decide
theorem test_wf_reason : Instr.wellFormed (.tDeclined ⟨1, 1⟩ 0) = false := by decide
theorem test_wf_ask_number : Instr.wellFormed (.tStatus .ready 256) = false := by decide
theorem test_wf_frame : Instr.wellFormed (.controlFrameReceived ⟨1, 0, List.replicate 249 0⟩) = false := by decide +kernel
theorem test_wf_echo : Instr.wellFormed (.frameEcho ⟨1, 0, List.replicate 249 0⟩) = false := by decide +kernel
theorem test_wf_unlisted_kind : Instr.wellFormed (.unlistedKind 0x01#8) = false := by decide

/-! ### The wire: Tables 5-1, 5-3, 12-2, 12-3 and R169, R177 -/

theorem test_table_words_spell_none : decodeTableWord 8 1 = none := by decide
theorem test_crc8_table_5_1 : crc8 [0x01#8, 0x02#8] = 0x1B#8 := by decide +kernel
theorem test_crc16_worked : crc16 [0x01#8, 0x02#8] = 0x0E7C#16 := by decide +kernel
theorem test_decode_odo_status : decodeRequest 0x01#8 [] = .request .odoStatus := by decide
theorem test_decode_cal_set_k : decodeRequest 0x03#8 [0x03, 0xE8] = .request (.calSetK 1000) := by decide
theorem test_decode_tariff_write :
    decodeRequest 0x08#8 [1, 1, 1, 0x44, 0, 0, 1, 0x5E, 0, 20, 0, 80, 0, 20, 1, 0xF4, 0, 1, 1]
      = .request (.tariffWrite 1 fieldsOne) := by decide
theorem test_decode_leg_start : decodeRequest 0x10#8 [0x02, 0, 1] = .request (.legStart 2 0 1) := by decide
theorem test_decode_pay_tip :
    decodeRequest 0x21#8 [1, 0, 0, 0, 200] = .request (.payTip 1 200) := by decide
theorem test_decode_terminal_status : decodeRequest 0x28#8 [3] = .request (.terminalStatus 3) := by decide
theorem test_decode_shift_open : decodeRequest 0x30#8 [1, 0x41] = .request (.shiftOpen [0x41]) := by decide
theorem test_decode_trip_read : decodeRequest 0x38#8 [0, 0, 1, 2] = .request (.tripRead 258) := by decide
theorem test_decode_sign_mode : decodeRequest 0x40#8 [2, 1] = .request (.signMode 2 1) := by decide
theorem test_decode_intercom_settings :
    decodeRequest 0x49#8 [60, 3, 0xE8, 0, 60] = .request (.intercomSettings 60 1000 60) := by decide
theorem test_decode_tone_play :
    decodeRequest 0x50#8 [1, 3, 0x03, 0xE8, 0, 100, 0xFF, 0xFE, 2]
      = .request (.tonePlay 1 3 1000 100 (-2) 2) := by decide
theorem test_decode_clock_set :
    decodeRequest 0x58#8 [0x07, 0xE8, 5, 6, 10, 0, 0] = .request (.clockSet 2024 5 6 10 0 0) := by decide
theorem test_decode_notice_mask :
    decodeRequest 0x64#8 [0, 0, 0x0F, 0xFF, 0xFF] = .request (.noticeMask 0 1048575) := by decide
theorem test_decode_unlisted : decodeRequest 0x06#8 [] = .unknownKind := by decide
theorem test_decode_bad_length : decodeRequest 0x03#8 [1] = .badLength := by decide
theorem test_terminal_approved :
    termMsg? 0x12#8 [0, 7, 2, 0, 0, 2, 0xC7, 0x41, 0x42] = some (.approved ⟨7, 2⟩ 711 [0x41, 0x42]) := by decide
theorem test_terminal_malformed_stage : termMsg? 0x11#8 [0, 7, 2, 4] = none := by decide

/-! ### Reset (R165, first power-up) -/

theorem test_reset_queue_empty : State.reset.pending = [] := by decide
theorem test_reset_offers_the_first_notices :
    State.reset.link.queue.map Notice.kind = [.storeLost, .powerRestored] := by decide

/-! ### The receivers and the line (R93, R170) -/

/-- ODO_STATUS with tag 5; its CRC by hand from R169's register. -/
theorem test_receiver_completes_a_frame :
    replied (after (.controlFrameDiscard [0x00, 0xA5, 2, 0x01, 5, 0xC1, 0x68]) onShift) = some .ok := by
  decide +kernel
theorem test_receiver_counts_a_crc :
    (after (.controlFrameDiscard [0xA5, 2, 0x01, 5, 0xC1, 0x69]) onShift).link.crcCount = 1 := by decide +kernel
theorem test_receiver_counts_a_length :
    (after (.controlFrameDiscard [0xA5, 251, 0xA5]) onShift).link.lengthCount = 1 := by decide
theorem test_receiver_hunts_after_a_gap :
    let t := after (.controlFrameDiscard [0xA5, 2])
      { onShift with link := { onShift.link with receiver := .assembling [2], quiet := 3 } }
    t.link.gapCount = 1 ∧ t.link.receiver = .assembling [2] := by decide

/-- TL_CTS falls in the second byte of a T_STATUS_ASK of 5 bytes and rises: the third is started. -/
theorem test_cts_holds_the_next_byte :
    let s := { onShift with tender :=
      { onShift.tender with queue := [.statusAsk 1], headStarted := 2, sendLeft := 150 } }
    (after .tlFrameSent (after (.tlCtsChange false) s)).tender.queue = [.statusAsk 1]
      ∧ (after (.tlCtsChange true) (after (.tlCtsChange false) { s with pins := { s.pins with cts := true } })).tender.headStarted
        = 3 := by decide

/-! ### Worked figures of the manual -/

/-- Table 1-3, the third pulse: 2000 in the accumulator and K = 2400 give one metre and leave 600. -/
theorem test_third_pulse :
    (Odometry.countPulse { State.reset.odo with k := 2400, r := 2000 } true).r = 600 := by decide
theorem test_third_pulse_metre :
    (Odometry.countPulse { State.reset.odo with k := 2400, r := 2000 } true).intervalMetres = 1 := by decide

/-- Section 1.4, second case: 300 pulses at K = 1000 close as 100 metres. -/
theorem test_close_clamps :
    (after .secondTick { carrying .hired with odo :=
      { onShift.odo with intervalMetres := 300 } }).odo.totalDistance = 100 := by decide

/-- Table 2-4. -/
theorem test_carry_clamped : carry tariffOne { tariffTwo with includedDistance := 150 } (-4000) = -3000 := by
  decide
theorem test_carry_rounded_up :
    carry tariffOne { tariffTwo with includedDistance := 500 } (-4010) = -4020 := by decide
theorem test_carry_rescale : carry tariffOne tariffTwo 1200 = 1050 := by decide
theorem test_carry_remainder : carry tariffTwo tariffOne 1051 = 1201 := by decide

/-- Section 2.4, phase 1: one second at 10 m adds 200. -/
theorem test_tick_accrues :
    ((after .secondTick { carrying .hired with odo :=
      { onShift.odo with intervalMetres := 10 } }).leg .s1).q = -9800 := by decide

/-- Section 4.3.1: the shares of a fee of 9 and a tip of 92 over dues of 410 and 200. -/
theorem test_fee_shares : apportion 9 610 [410, 200] = [7, 2] := by decide
theorem test_tip_shares : apportion 92 610 [410, 200] = [62, 30] := by decide
theorem test_cash_shares : apportionSigned (-2) 612 [410, 202] = [-2, 0] := by decide
theorem test_cash_rounding : roundedDue 5 612 = 610 := by decide

/-- R68, R104: dues of 0, 3 and 3 with unit 5 settle at 5, the first leg taking the share of -1, and add 5
to the cash taken. -/
theorem test_cash_taken_of_a_negative_share :
    let paid (due : Nat) (share : Int) : Trip :=
      ⟨1, .s1, ⟨true, false, false, false⟩, 0, 1, 1, 10, due, 0, .cash share, [⟨1, 10, 1, due⟩], [], false⟩
    apportionSigned (cashDifference 5 6) 6 [0, 3, 3] = [-1, 0, 0]
      ∧ (Totals.zero.addTrips [paid 0 (-1), paid 3 0, paid 3 0]).cashTaken = 5 := by decide

/-- Section 4.3.1: a fixed tip of 200 under a limit of 700 is cut to the ceiling, then to the limit. -/
def limited : State :=
  let s := paying .tipWait 1
  { s with settle := { s.settle with
      settings := { s.settle.settings with limit := 700 }
      session := { s.settle.session with due := 610, fee := 9, total := 619 } } }
theorem test_tip_clamps : replyBody (after (.payTip 1 200) limited) = [.u32 81, .u8 3, .u32 700, .u8 2] := by
  decide
theorem test_tip_adjusted : replied (after (.payTip 1 200) limited) = some .adjusted := by decide

/-- Table 5-2: the 192nd byte in the ring deasserts TL_RTS, the take that leaves 64 asserts it. -/
theorem test_rts_falls :
    (after (.tlByteArrival 0 false) { onShift with tender :=
      { onShift.tender with ring := List.replicate 191 ⟨0, false⟩ } }).tender.rts = false := by decide +kernel
theorem test_rts_rises :
    (after .frameReaderTake { onShift with tender :=
      { onShift.tender with ring := List.replicate 65 ⟨0, false⟩, rts := false } }).tender.rts = true := by decide

/-- R127: with no shift open the sign is OFF_DUTY. -/
theorem test_shift_close_darkens : (after .shiftClose onShift).sign.derived = .offDuty := by decide

/-- R162: the seconds from 2000-01-01 00:00:00 to 2024-05-06 10:00:00, 8892 days and ten hours. -/
theorem test_clock_set : (after (.clockSet 2024 5 6 10 0 0) onShift).clock.count = 768304800 := by decide

/-- R164: a stop keeps the leg as it ran, and R165 makes it STOPPED with the fail time and a power gap. -/
theorem test_stop_keeps_leg : (stopped.leg .s1).state = .hired := by decide
theorem test_restart_stops_leg : ((after .restart stopped).leg .s1).powerGap = true := by decide

/-- R171: a refusal carries its code alone. -/
theorem test_refusal : replied (after (.legStop 5) onShift) = some .badValue := by decide

/-! ### Witnesses: the hypotheses of the statements are met -/

/-- The cab with a HIRED leg and a command waiting. -/
def riding : State := { carrying .hired with pending := [.legStop 1] }

theorem witness_StepRunsTheFrontCommand : riding.pending = .legStop 1 :: [] := by decide

/-- Running and stopped, with nothing due; and a second due, with the period at both of its cases. -/
theorem witness_IdleStepTakesADueEventOrABaseStep :
    (onShift.pending = [] ∧ dueEvents onShift = [] ∧ onShift.power = .running ∧ onShift.clock.period < 99)
      ∧ (stopped.pending = [] ∧ dueEvents stopped = [] ∧ stopped.power ≠ .running)
      ∧ ({ onShift with clock := { onShift.clock with secondDue := true } } : State).pending = []
      ∧ dueEvents { onShift with clock := { onShift.clock with secondDue := true } } = [.secondTick]
      ∧ ∃ s : State, s.intercom.vox.get .front = .attack 3 ∧ s.intercom.press.get .r = .pressing 3
        ∧ s.intercom.vox.get .rear = .low ∧ s.intercom.press.get .l = .released :=
  ⟨by decide, by decide, by decide, by decide,
    { onShift with intercom := { onShift.intercom with
        vox := ⟨.attack 3, .low⟩, press := ⟨.released, .released, .released, .pressing 3⟩ } }, by decide⟩

theorem witness_EveryRequestIsAnsweredAndARefusalChangesNothing :
    (requestParts (.legStop 1) = some (.legStop, [.num 1]) ∧ ready onShift)
      ∧ stopped.power ≠ .running ∧ replied (after (.legStop 5) onShift) = some .badValue :=
  ⟨⟨rfl, rfl, rfl, rfl⟩, by decide, by decide⟩

theorem riding_noticesKept : noticesKept riding := ⟨by decide, by decide⟩
theorem riding_seatsKept : seatsKept riding :=
  ⟨fun i => by cases i <;> decide, fun i => by cases i <;> decide,
    fun x i => by cases x <;> cases i <;> decide⟩
theorem riding_sharingKept : sharingKept riding := fun i j => by cases i <;> cases j <;> decide
theorem riding_meterKept : meterKept riding :=
  ⟨fun k => by unfold Tariff.inRange; revert k; decide, fun i => by cases i <;> decide,
    fun i => by unfold Leg.inBounds; cases i <;> decide⟩
theorem riding_sessionKept : sessionKept riding :=
  ⟨rfl, rfl, by decide, by decide, fun i => by cases i <;> decide, fun i => by cases i <;> decide⟩
theorem riding_journalKept : journalKept riding := by unfold journalKept; decide
theorem riding_buffersKept : buffersKept riding := by unfold buffersKept; decide
theorem riding_speechKept : speechKept riding :=
  ⟨fun x => by cases x <;> decide, fun y => by
    constructor
    · intro n t; cases y <;> cases n <;> intro h <;> cases h
    · cases y <;> trivial⟩
theorem riding_channelKept : channelKept riding := by unfold channelKept; decide
theorem riding_signKept : signKept riding := fun _ => ⟨rfl, rfl, rfl⟩
theorem riding_countersKept : countersKept riding := by unfold countersKept; decide
theorem riding_roomKept : roomKept riding := by unfold roomKept; decide
theorem riding_safe : safe riding :=
  ⟨riding_noticesKept, riding_seatsKept, riding_sharingKept, riding_meterKept, riding_sessionKept,
    riding_journalKept, riding_buffersKept, riding_speechKept, riding_channelKept, riding_signKept,
    riding_countersKept, riding_roomKept⟩
theorem riding_accountsKept : accountsKept riding := by unfold accountsKept; decide
theorem riding_steps : step riding = .next (after (.legStop 1) (carrying .hired)) := rfl

theorem witness_NoticesStayOneOfEachEnabledKind : noticesKept riding ∧ ∃ t, step riding = .next t :=
  ⟨riding_noticesKept, _, riding_steps⟩
theorem witness_LegsSeatsAndConsentStayInAgreement :
    (∃ t, step riding = .next t) ∧ seatsKept riding ∧ sharingKept riding :=
  ⟨⟨_, riding_steps⟩, riding_seatsKept, riding_sharingKept⟩
theorem witness_MeterFiguresStayInBounds : meterKept riding ∧ ∃ t, step riding = .next t :=
  ⟨riding_meterKept, _, riding_steps⟩
theorem witness_TheSessionStaysConsistent : sessionKept riding ∧ ∃ t, step riding = .next t :=
  ⟨riding_sessionKept, _, riding_steps⟩
theorem witness_TheJournalStaysARing : journalKept riding ∧ ∃ t, step riding = .next t :=
  ⟨riding_journalKept, _, riding_steps⟩
theorem witness_TheJournalKeepsRoomForEveryActiveLeg :
    (safe riding ∧ ∃ t, step riding = .next t) ∧ accountsKept riding
      ∧ (let a := riding.shifts.record.totals
         shiftOpen riding = true ∧ a.cardTaken < 4294967295 ∧ a.cashTaken < 4294967295 ∧ a.fare < 4294967295
          ∧ a.extras < 4294967295 ∧ a.cardFee < 4294967295 ∧ a.tips < 4294967295) :=
  ⟨⟨riding_safe, _, riding_steps⟩, riding_accountsKept, by decide⟩
theorem witness_NoListOutgrowsItsCapacity : buffersKept riding ∧ ∃ t, step riding = .next t :=
  ⟨riding_buffersKept, _, riding_steps⟩
theorem witness_SpeechSwitchesAndTonesStayApart :
    (∃ t, step riding = .next t) ∧ speechKept riding ∧ channelKept riding :=
  ⟨⟨_, riding_steps⟩, riding_speechKept, riding_channelKept⟩
theorem witness_TheSignAlwaysFollowsItsTables : signKept riding ∧ ∃ t, step riding = .next t :=
  ⟨riding_signKept, _, riding_steps⟩
theorem witness_CountersStayInRange : countersKept riding ∧ ∃ t, step riding = .next t :=
  ⟨riding_countersKept, _, riding_steps⟩

/-- K at its least with the accumulator at its most. -/
theorem witness_CountedPulsesBecomeMetres :
    (State.reset.odo.k = 0 ∧ State.reset.odo.r = 0)
      ∧ ∃ o : Odometry, o.k ≠ 0 ∧ 500 ≤ o.k ∧ o.r < o.k ∧ o.k = 500 ∧ o.r = 499 :=
  ⟨by decide, { State.reset.odo with k := 500, r := 499 }, by decide⟩

theorem witness_TheFilterAcceptsAndCountsEdges :
    onShift.power = .running ∧ onShift.pins.dpulse = !true
      ∧ ({ onShift with odo := { onShift.odo with timing := some 0 } } : State).pins.dpulse = false
      ∧ ({ onShift with odo := { onShift.odo with timing := some 0 } } : State).odo.timing.isSome = true := by
  decide

/-- The cab with a HIRED leg and metres in its interval. -/
def rolling (m : Nat) : State :=
  { carrying .hired with odo := { onShift.odo with intervalMetres := m } }

/-- The last second before the clock wraps; 100 and 101 metres; a part that stays STATIONARY and one that
moves again, on shift and not. -/
theorem witness_ASecondTickClosesTheInterval :
    (∃ s : State, s.power = .running ∧ s.clock.count < lastCount ∧ s.clock.count + 1 = lastCount)
      ∧ (∀ m, (rolling m).power = .running ∧ (rolling m).clock.count < lastCount ∧ shiftOpen (rolling m) = true
        ∧ (rolling m).odo.k ≠ 0 ∧ ((rolling m).fare.tariff 1).isDefined = true ∧ (rolling m).odo.intervalMetres = m)
      ∧ (State.reset.power = .running ∧ State.reset.clock.count < lastCount ∧ shiftOpen State.reset = false)
      ∧ (after .secondTick (rolling 0)).odo.motion = (rolling 0).odo.motion
      ∧ (after .secondTick (rolling 101)).odo.motion ≠ (rolling 101).odo.motion :=
  ⟨⟨{ onShift with clock := { onShift.clock with count := 3155759998 } }, by decide⟩,
    fun _ => ⟨rfl, (by decide : (768304800 : Nat) < lastCount), rfl, (by decide : (1000 : Nat) ≠ 0), rfl, rfl⟩,
    by decide, by decide, by decide⟩

/-- The measurement can be RUNNING, STARTING, IDLE or another. -/
def measuring (m : Measurement) : State := { calibrating with odo := { calibrating.odo with measurement := m } }

theorem witness_MeasurementsStartAndStop :
    (∀ m, (measuring m).pins.calen = true ∧ shiftOpen (measuring m) = false ∧ ready (measuring m)
        ∧ (measuring m).odo.measurement = m)
      ∧ (measuring .starting).power = .running :=
  ⟨fun _ => ⟨rfl, rfl, ⟨rfl, rfl, rfl⟩, rfl⟩, rfl⟩

theorem witness_PulseSettingsAreStoredAndCounted :
    (ready calibrating ∧ calibrationOpen calibrating = true)
      ∧ polarity? 1 = some .falling ∧ filterWindow? 4 = some .ms4 ∧ (1 < 2 ∧ 4 < 5)
      ∧ (500 ≤ 500 ∧ 40000 ≤ 40000) ∧ (499 < 500 ∧ 40000 < 40001) :=
  ⟨⟨⟨rfl, rfl, rfl⟩, rfl⟩, by decide⟩

theorem witness_TableWritesStoreTheirEntry :
    (ready calibrating ∧ calibrationOpen calibrating = true)
      ∧ (fieldsOne.isDefined = 1 ∧ textWithin 12 fieldsOne.name = true ∧ tariffOne.inRange
        ∧ tariffOne.isDefined = true ∧ tariffOne.name = fieldsOne.name
        ∧ tariffOne.flagFall = fieldsOne.flagFall ∧ tariffOne.stepAmount = fieldsOne.stepAmount
        ∧ tariffOne.distanceStep = fieldsOne.distanceStep ∧ tariffOne.timeStep = fieldsOne.timeStep
        ∧ tariffOne.includedDistance = fieldsOne.includedDistance
        ∧ fieldsOne.mode = (if tariffOne.mode = .single then 0 else 1)
        ∧ fieldsOne.sharePermitted = (if tariffOne.sharePermitted = true then 1 else 0)
        ∧ fieldsOne.manualSelectable = (if tariffOne.manualSelectable = true then 1 else 0))
      ∧ ({ fieldsOne with isDefined := 0 } : TariffFields).isDefined = 0
      ∧ (1 < 2 ∧ 8 < 9 ∧ textWithin 12 (List.replicate 13 0x41#8) = false ∧ 99999 < 100000 ∧ 9999 < 10000
        ∧ 3600 < 3601 ∧ 65535 < 65536)
      ∧ weekdays? 127 = some ⟨true, true, true, true, true, true, true⟩ ∧ (1439 ≤ 1439 ∧ 8 ≤ 8)
      ∧ (12 < 13 ∧ 127 < 128 ∧ 1439 < 1440)
      ∧ textWithin 12 (List.replicate 12 0x7E#8) = true ∧ (99999 ≤ 99999 ∧ 1 ≤ 1 ∧ 8 ≤ 8)
      ∧ ((⟨false, [], 0, 1⟩ : ExtraKind).isDefined = false ∧ textWithin 12 [0x1F#8] = false ∧ 8 < 9) :=
  ⟨⟨⟨rfl, rfl, rfl⟩, rfl⟩, by unfold Tariff.inRange; decide⟩

theorem witness_TheCalibrationLockComesFirst : ready onShift ∧ calibrationOpen onShift = false :=
  ⟨⟨rfl, rfl, rfl⟩, rfl⟩

theorem witness_TariffReadReturnsTheRecord :
    ready onShift ∧ ((0 = 0 ∨ 8 < 0) ∧ (9 = 0 ∨ 8 < 9)) ∧ (1 ≤ 1 ∧ 1 ≤ 8) ∧ 1 ≤ 8 ∧ 8 ≤ 8 :=
  ⟨⟨rfl, rfl, rfl⟩, by decide⟩

/-- The cab with the leg near a step: a fare, a Q of one second below a step and a last segment. -/
def nearStep (state : LegState) (fare : Nat) : State :=
  (carrying state).setLeg .s1 { ride state with q := 1599, fare := fare, segments := [⟨1, 0, 0, fare⟩] }

/-- A fare step, no step, a leg that reaches the cap, and a leg that becomes STOPPED. -/
theorem witness_ATickAccruesTheNotices :
    (nearStep .hired 350).power = .running ∧ (nearStep .hired 350).clock.count < lastCount
      ∧ ((nearStep .hired 350).leg .s1).segments = [] ++ [⟨1, 0, 0, 350⟩]
      ∧ ((after .secondTick (nearStep .hired 350)).leg .s1).fare ≠ ((nearStep .hired 350).leg .s1).fare
      ∧ ((after .secondTick (carrying .hired)).leg .s1).fare = ((carrying .hired).leg .s1).fare
      ∧ ((nearStep .hired 99999990).leg .s1).capped = false
      ∧ ((after .secondTick (nearStep .hired 99999990)).leg .s1).capped = true
      ∧ (∀ j : Slot, Slot.number .s1 < j.number → ((after .secondTick (nearStep .hired 99999990)).leg j).capped
        = ((nearStep .hired 99999990).leg j).capped)
      ∧ (∀ j : Slot, ((after .secondTick (carrying .hired)).leg j).capped = ((carrying .hired).leg j).capped)
      ∧ (∀ j : Slot, j.number < Slot.number .s1 → ((carrying .stopping).leg j).state ≠ .stopping)
      ∧ (∀ j : Slot, ((carrying .hired).leg j).state ≠ .stopping) := by
  refine ⟨by decide, by decide, rfl, by decide, by decide, by decide, by decide, ?_, ?_, ?_, ?_⟩ <;>
    exact fun j => by cases j <;> decide

theorem witness_ATickAccruesTheRunningLegs :
    (carrying .hired).power = .running ∧ (carrying .hired).clock.count < lastCount
      ∧ ((carrying .hired).leg .s1).state = .hired ∧ ((carrying .stopping).leg .s1).state = .stopping
      ∧ ((carrying .hired).fare.tariff ((carrying .hired).leg .s1).tariff).inRange
      ∧ ((carrying .hired).leg .s1).fare ≤ 99999999
      ∧ ((carrying .stopped).leg .s1).state ≠ .hired ∧ ((carrying .stopped).leg .s1).state ≠ .stopping := by
  unfold Tariff.inRange; decide

/-- Both ends of the range of Q, and the least Q that is not negative. -/
theorem witness_TheCarryKeepsAllowanceAndProgress :
    tariffOne.inRange ∧ tariffTwo.inRange
      ∧ (-((tariffOne.includedDistance * tariffOne.timeStep : Nat) : Int) ≤ -10000
        ∧ (-10000 : Int) < ((tariffOne.distanceStep * tariffOne.timeStep : Nat) : Int) ∧ (-10000 : Int) < 0)
      ∧ (-((tariffOne.includedDistance * tariffOne.timeStep : Nat) : Int) ≤ 0
        ∧ (1599 : Int) < ((tariffOne.distanceStep * tariffOne.timeStep : Nat) : Int) ∧ (0 : Int) ≤ 1599) := by
  unfold Tariff.inRange; decide

/-- A minute boundary has fallen and entry 1 names tariff 2. -/
def boundary : State :=
  let s := carrying .hired
  { s with clock := { s.clock with minuteDue := true } }

/-- Entries in every range of starts, one used and none. -/
theorem witness_AMinuteBoundaryFindsItsEntry :
    (∀ i : Fin 12, onShift.fare.schedule[i].startMinute ≤ 1439)
      ∧ (onShift.fare.entryInForce 768304800).isSome = true
      ∧ (∀ i : Fin 12, FareEngine.cleared.schedule[i].startMinute ≤ 1439)
      ∧ FareEngine.cleared.entryInForce 768304800 = none := by decide

theorem witness_AMinuteBoundaryMovesScheduledLegs :
    boundary.power = .running ∧ boundary.clock.valid = true ∧ boundary.clock.minuteDue = true
      ∧ boundary.fare.entryInForce boundary.clock.count
        = some ⟨1, ⟨⟨true, true, true, true, true, true, true⟩, 0, 2⟩⟩
      ∧ (boundary.leg .s1).segments.length ≤ 4 ∧ (boundary.leg .s1).selection = .scheduled
      ∧ (boundary.leg .s1).state = .hired := by
  decide

theorem witness_ReadoutsChangeNothing :
    (ready onShift ∧ (12 < 13 ∧ 0 = 0) ∧ (4 < 5 ∧ 0 = 0))
      ∧ ∃ s : State, ready s ∧ s.odo.lastMetres ≤ 100 ∧ s.odo.lastMetres = 100 :=
  ⟨⟨⟨rfl, rfl, rfl⟩, by decide, by decide⟩,
    { onShift with odo := { onShift.odo with lastMetres := 100 } }, ⟨rfl, rfl, rfl⟩, by decide⟩

/-- A first leg without consent on the scheduled tariff, and a second with it on tariff 1. -/
theorem witness_LegStartTakesTheLowestFreeSlot :
    (ready onShift ∧ calibrated onShift = true ∧ shiftOpen onShift = true
        ∧ (onShift.leg .s1).state = .free ∧ (∀ j : Slot, j.number < Slot.number .s1 → (onShift.leg j).state ≠ .free)
        ∧ seatSet? 15 = some ⟨true, true, true, true⟩ ∧ (∀ x, onShift.fare.seatMap.get x = none)
        ∧ 2 = scheduledTariff onShift ∧ (∀ j, (onShift.leg j).state = .free)
        ∧ activeLegs onShift + 1 ≤ onShift.journal.room)
      ∧ (ready (carrying .hired) ∧ calibrated (carrying .hired) = true ∧ shiftOpen (carrying .hired) = true
        ∧ ((carrying .hired).leg .s2).state = .free
        ∧ (∀ j : Slot, j.number < Slot.number .s2 → ((carrying .hired).leg j).state ≠ .free)
        ∧ seatSet? 1 = some ⟨true, false, false, false⟩
        ∧ (∀ x, (⟨true, false, false, false⟩ : SeatSet).get x = true → (carrying .hired).fare.seatMap.get x = none)
        ∧ ((carrying .hired).fare.tariff 1).isDefined = true ∧ (carrying .hired).settle.sharing = true
        ∧ ((carrying .hired).fare.tariff 1).sharePermitted = true
        ∧ (∀ j, ((carrying .hired).leg j).state ≠ .free → ((carrying .hired).leg j).share = true)
        ∧ activeLegs (carrying .hired) + 1 ≤ (carrying .hired).journal.room) :=
  ⟨⟨⟨rfl, rfl, rfl⟩, rfl, rfl, rfl, fun j => by cases j <;> decide, rfl, fun x => by cases x <;> rfl,
      by decide, fun j => by cases j <;> rfl, by decide⟩,
    ⟨rfl, rfl, rfl⟩, rfl, rfl, rfl, fun j => by cases j <;> decide, rfl, fun x => by cases x <;> decide,
      rfl, rfl, rfl, fun j => by cases j <;> decide, by decide⟩

/-- Each refusal of LEG_START in its order: values, calibration, shift, slots, seats, the tariff, sharing
and the journal; and the scheduled tariff with an entry in force and without. -/
theorem witness_LegStartIsRefusedInOrder :
    ((15 < 16 ∧ 8 < 9 ∧ 1 < 2) ∧ ¬(15 < 15 ∨ 15 = 0 ∨ 8 < 8 ∨ 1 < 1))
      ∧ (ready State.reset ∧ calibrated State.reset = false)
      ∧ (∃ s : State, ready s ∧ calibrated s = true ∧ shiftOpen s = false)
      ∧ (∃ s : State, ready s ∧ calibrated s = true ∧ shiftOpen s = true ∧ ∀ i, (s.leg i).state ≠ .free)
      ∧ (ready (carrying .hired) ∧ calibrated (carrying .hired) = true ∧ shiftOpen (carrying .hired) = true
        ∧ (∃ i, ((carrying .hired).leg i).state = .free) ∧ seatSet? 2 = some ⟨false, true, false, false⟩
        ∧ ((⟨false, true, false, false⟩ : SeatSet).get .l = true ∧ (carrying .hired).fare.seatMap.get .l ≠ none)
        ∧ seatSet? 1 = some ⟨true, false, false, false⟩
        ∧ (∀ x, (⟨true, false, false, false⟩ : SeatSet).get x = true → (carrying .hired).fare.seatMap.get x = none)
        ∧ ((carrying .hired).fare.tariff 8).isDefined = false
        ∧ ((carrying .hired).fare.tariff 1).isDefined = true
        ∧ ((carrying .hired).fare.tariff 2).sharePermitted = false
        ∧ ∃ j, ((carrying .hired).leg j).state ≠ .free)
      ∧ (∃ s : State, ready s ∧ calibrated s = true ∧ shiftOpen s = true ∧ (∀ i, (s.leg i).state = .free)
        ∧ s.journal.room < activeLegs s + 1)
      ∧ (onShift.clock.valid = true ∧ (onShift.fare.entryInForce onShift.clock.count).isSome = true)
      ∧ State.reset.clock.valid = false :=
  ⟨by decide, ⟨⟨rfl, rfl, rfl⟩, by decide⟩,
    ⟨{ onShift with shifts := ShiftAccounts.cleared }, ⟨rfl, rfl, rfl⟩, by decide⟩,
    ⟨{ onShift with fare := { onShift.fare with
        legs := ⟨ride .hired, ride .hired, ride .hired, ride .hired⟩ } }, ⟨rfl, rfl, rfl⟩, by decide, by decide,
      fun i => by cases i <;> decide⟩,
    ⟨⟨rfl, rfl, rfl⟩, by decide, by decide, ⟨.s2, by decide⟩, by decide, by decide, by decide,
      fun x => by cases x <;> decide, by decide, by decide, by decide, .s1, by decide⟩,
    ⟨{ onShift with journal := { onShift.journal with next := 4294967296 } }, ⟨rfl, rfl, rfl⟩, by decide,
      by decide, fun i => by cases i <;> rfl, by decide⟩,
    by decide, by decide⟩

/-- A leg in each state, in a slot whose number is in range. -/
theorem carrying_state (x : LegState) : ready (carrying x) ∧ ((carrying x).leg .s1).state = x :=
  ⟨⟨rfl, rfl, rfl⟩, rfl⟩

theorem witness_LegStopBeginsAStop :
    (∀ x, ready (carrying x) ∧ ((carrying x).leg .s1).state = x) ∧ Slot.number .s1 = 1
      ∧ (0 = 0 ∨ 4 < 0) ∧ (5 = 0 ∨ 4 < 5) := ⟨carrying_state, by decide⟩

theorem witness_LegResumeRestartsTheMeter :
    (∀ x, ready (carrying x) ∧ ((carrying x).leg .s1).state = x)
      ∧ (0 = 0 ∨ 4 < 0) ∧ (5 = 0 ∨ 4 < 5)
      ∧ ((carrying .stopped).leg .s1).segments.length ≤ 4
      ∧ ((carrying .stopped).leg .s1).selection = .scheduled ∧ (carrying .stopped).clock.valid = true
      ∧ (carrying .stopped).fare.entryInForce (carrying .stopped).clock.count
        = some ⟨1, ⟨⟨true, true, true, true, true, true, true⟩, 0, 2⟩⟩ := ⟨carrying_state, by decide⟩

theorem witness_LegVoidWritesARecordAndFreesTheLeg :
    (∀ x, ready (carrying x) ∧ ((carrying x).leg .s1).state = x)
      ∧ ((0 = 0 ∨ 4 < 0) ∧ (5 = 0 ∨ 4 < 5))
      ∧ ((carrying .hired).leg .s1).fare = ((carrying .hired).leg .s1).flagFall
      ∧ ((carrying .hired).leg .s1).extras = [] ∧ shiftOpen (carrying .hired) = true
      ∧ (carrying .hired).journal.ring.length < 128 ∧ 1 ≤ (carrying .hired).journal.room
      ∧ ∃ s : State, s.journal.ring.length = 128 ∧ 1 ≤ s.journal.room :=
  ⟨carrying_state, by decide, by decide, by decide, by decide, by decide, by decide,
    { onShift with journal := ⟨List.replicate 128 ⟨1, ⟨1, .s1, ⟨true, false, false, false⟩, 0, 1, 1, 10, 350, 0,
        .void, [], [], false⟩, true, true⟩, 129⟩ }, by decide +kernel⟩

/-- Tariff 1 may be taken by the leg with share consent, tariff 2 not. -/
theorem witness_LegTariffFixesTheSelection :
    (∀ x, ready (carrying x) ∧ ((carrying x).leg .s1).state = x) ∧ (1 ≤ 1 ∧ 1 ≤ 8 ∧ 8 ≤ 8)
      ∧ ((0 = 0 ∨ 4 < 0 ∨ 1 = 0 ∨ 8 < 1) ∧ (5 = 0 ∨ 4 < 5 ∨ 1 = 0 ∨ 8 < 1)
        ∧ (1 = 0 ∨ 4 < 1 ∨ 0 = 0 ∨ 8 < 0) ∧ (1 = 0 ∨ 4 < 1 ∨ 9 = 0 ∨ 8 < 9))
      ∧ ((carrying .hired).fare.tariff 1).isDefined = true
      ∧ ((carrying .hired).fare.tariff 1).manualSelectable = true
      ∧ ((carrying .hired).fare.tariff 1).sharePermitted = true
      ∧ ((carrying .hired).leg .s1).segments.length ≤ 4
      ∧ ((carrying .hired).leg .s1).share = true
      ∧ ((carrying .hired).fare.tariff 2).isDefined = true
      ∧ ((carrying .hired).fare.tariff 2).manualSelectable = true
      ∧ ((carrying .hired).fare.tariff 2).sharePermitted = false
      ∧ ((carrying .hired).fare.tariff 8).isDefined = false := ⟨carrying_state, by decide⟩

theorem witness_ExtrasAreAddedAndRemovedAtTheEnd :
    (∀ x, ready (carrying x) ∧ ((carrying x).leg .s1).state = x)
      ∧ ((0 = 0 ∨ 4 < 0) ∧ (5 = 0 ∨ 4 < 5) ∧ (0 = 0 ∨ 12 < 0) ∧ (13 = 0 ∨ 12 < 13))
      ∧ (Slot.number .s1 = 1 ∧ (11 : Fin 12).val + 1 = 12)
      ∧ ((carrying .hired).leg .s1).extras = []
      ∧ ∃ s : State, ready s ∧ (s.leg .s1).state = .hired ∧ (s.leg .s1).extras = [] ++ [⟨1, 50⟩] :=
  ⟨carrying_state, by decide, by decide, by decide,
    (carrying .hired).setLeg .s1 { ride .hired with extras := [⟨1, 50⟩], extrasTotal := 50 },
    ⟨rfl, rfl, rfl⟩, by decide⟩

/-- Settings with every value at an end of its range, refused and taken. -/
theorem witness_PaySettingsAreClampedAndStored :
    ready onShift ∧ onShift.settle.session.state.isOpen = false
      ∧ (ready (paying .retryWait 1) ∧ (paying .retryWait 1).settle.session.state.isOpen = true)
      ∧ (let f : SettingsFields := ⟨[0x41#8, 0x5A#8, 0x41#8], 1000, 99999, 50, 50, 50, 50, 100, 9999999, 100⟩
         (f.currency = [] ∨ f.currency.length = 3 ∧ ∀ b ∈ f.currency, 65 ≤ b.toNat ∧ b.toNat ≤ 90)
          ∧ f.cashUnit ∈ [1, 5, 10, 25, 50, 100])
      ∧ ¬((2 : Nat) ∈ [1, 5, 10, 25, 50, 100]) :=
  ⟨⟨rfl, rfl, rfl⟩, rfl, ⟨⟨rfl, rfl, rfl⟩, rfl⟩, by decide⟩

theorem witness_CashIsRoundedToTheNearestMultiple :
    0 < 10 ∧ 2 * (615 % 10) = 10 ∧ roundedDue 10 615 = 620 := by decide

theorem witness_SharesAddUpToTheAmount :
    610 = ([410, 200] : List Nat).sum ∧ 0 = ([0, 0] : List Nat).sum ∧ (-2 : Int) < 0 ∧ (0 : Int) ≤ 0 := by decide

theorem witness_ACardPaymentBegins :
    ready (carrying .stopped) ∧ shiftOpen (carrying .stopped) = true
      ∧ (carrying .stopped).odo.motion = .stationary ∧ slotSet? 1 = some [.s1]
      ∧ (∀ i ∈ ([.s1] : List Slot), ((carrying .stopped).leg i).state = .stopped)
      ∧ (carrying .stopped).settle.session.state.isOpen = false
      ∧ (carrying .stopped).settle.settings.currency.isSome = true ∧ (carrying .stopped).tender.up = true
      ∧ (carrying .stopped).settle.reversals.length < 4
      ∧ 350 = (([.s1] : List Slot).map (fun i =>
          ((carrying .stopped).leg i).fare + ((carrying .stopped).leg i).extrasTotal)).sum
      ∧ 5 = min ((350 * (carrying .stopped).settle.settings.feeBp + 5000) / 10000)
          (carrying .stopped).settle.settings.feeCap
      ∧ 350 + 5 ≤ (carrying .stopped).settle.settings.limit :=
  ⟨⟨rfl, rfl, rfl⟩, by decide⟩

/-- Each refusal of PAY_BEGIN in its order. -/
theorem witness_ACardPaymentIsRefusedInOrder :
    ((15 < 16 ∧ 1 < 2) ∧ ¬(15 < 1 ∨ 1 = 0 ∨ 1 < 0 ∨ 1 < 1))
      ∧ (ready State.reset ∧ slotSet? 1 = some [.s1] ∧ shiftOpen State.reset = false)
      ∧ (∃ s : State, ready s ∧ shiftOpen s = true ∧ s.odo.motion = .moving)
      ∧ (ready (carrying .paying) ∧ shiftOpen (carrying .paying) = true
        ∧ (carrying .paying).odo.motion = .stationary ∧ ((carrying .paying).leg .s1).state = .paying)
      ∧ (ready (carrying .hired) ∧ shiftOpen (carrying .hired) = true
        ∧ (carrying .hired).odo.motion = .stationary ∧ ((carrying .hired).leg .s1).state ≠ .paying
        ∧ ((carrying .hired).leg .s1).state ≠ .stopped)
      ∧ (∀ g : Settlement → Settlement, ∀ t : TenderLink,
        ready { carrying .stopped with settle := g (carrying .stopped).settle, tender := t }
        ∧ shiftOpen { carrying .stopped with settle := g (carrying .stopped).settle, tender := t } = true)
      ∧ (carrying .stopped).odo.motion = .stationary ∧ ((carrying .stopped).leg .s1).state = .stopped
      ∧ (carrying .stopped).settle.session.state.isOpen = false ∧ Settings.cleared.currency = none
      ∧ TenderLink.restarted.up = false ∧ (paying .retryWait 1).settle.session.state.isOpen = true
      ∧ 4 ≤ (List.replicate 4 (⟨⟨1, 1⟩, 5, 3000⟩ : Reversal)).length
      ∧ 100 < 350 + min ((350 * 150 + 5000) / 10000) 99999 :=
  ⟨by decide, ⟨⟨rfl, rfl, rfl⟩, by decide⟩,
    ⟨{ onShift with odo := { onShift.odo with motion := .moving } }, ⟨rfl, rfl, rfl⟩, by decide⟩,
    ⟨⟨rfl, rfl, rfl⟩, by decide⟩, ⟨⟨rfl, rfl, rfl⟩, by decide⟩, fun _ _ => ⟨⟨rfl, rfl, rfl⟩, rfl⟩, by decide⟩

/-- A payment in each open state at each attempt. -/
theorem paying_state (x : SessionState) (n : Nat) :
    ready (paying x n) ∧ (paying x n).settle.session.state = x
      ∧ (paying x n).settle.session.attempt = some n := ⟨⟨rfl, rfl, rfl⟩, rfl, rfl⟩

theorem witness_ThreeWaysIntoAuthorising :
    (∀ x n, ready (paying x n) ∧ (paying x n).settle.session.state = x
        ∧ (paying x n).settle.session.attempt = some n)
      ∧ (paying .tipWait 1).settle.session.due + (paying .tipWait 1).settle.session.fee
        ≤ (paying .tipWait 1).settle.settings.limit
      ∧ 53 = ((paying .tipWait 1).settle.session.due * (paying .tipWait 1).settle.settings.preset3 + 50) / 100
      ∧ (paying .retryWait 1).tender.up = true ∧ (paying .retryWait 1).settle.reversals.length < 4
      ∧ (({ paying .retryWait 1 with tender := TenderLink.restarted } : State).tender.up = false)
      ∧ ∃ s : State, ready s ∧ s.settle.session.state = .retryWait ∧ s.tender.up = true
        ∧ 4 ≤ s.settle.reversals.length ∧ s.settle.reversals.length = 4 :=
  ⟨paying_state, by decide, by decide, by decide, by decide, by decide,
    (let s := paying .retryWait 1
     { s with settle := { s.settle with reversals := List.replicate 4 ⟨⟨1, 1⟩, 5, 3000⟩ } }),
    ⟨rfl, rfl, rfl⟩, by decide⟩

theorem witness_CancelsAndTimeoutsByState :
    (∀ x n, ready (paying x n) ∧ (paying x n).settle.session.state = x
        ∧ (paying x n).settle.session.attempt = some n)
      ∧ (paying .authorising 3).settle.session.outstanding = some ⟨1, 3⟩
      ∧ (paying .authorising 3).settle.session.outstanding ≠ some ⟨2, 1⟩ := ⟨paying_state, by decide⟩

/-- An attempt that may be followed by another and the last, an abort by the host and by a timeout, and a
stale-reference memory that is full. -/
theorem witness_AttemptsEndWithoutApproval :
    ((paying .authorising 2).power = .running ∧ (paying .authorising 2).settle.session.outstanding = some ⟨1, 2⟩
        ∧ (paying .authorising 2).settle.session.state = .authorising
        ∧ (paying .authorising 2).settle.session.attempt.getD 0 < 3)
      ∧ (paying .authorising 3).settle.session.outstanding = some ⟨1, 3⟩
      ∧ 3 ≤ (paying .authorising 3).settle.session.attempt.getD 0
      ∧ ((paying .aborting 1).settle.session.outstanding = some ⟨1, 1⟩
        ∧ (paying .aborting 1).settle.session.state = .aborting
        ∧ (paying .aborting 1).settle.session.abortCause = some .cancel
        ∧ (paying .aborting 1).settle.stale.length < 8)
      ∧ ∃ s : State, s.power = .running ∧ s.settle.session.outstanding = some ⟨1, 1⟩
        ∧ s.settle.session.state = .aborting ∧ s.settle.session.abortCause ≠ some .cancel
        ∧ s.settle.stale.length = 8 ∧ (⟨1, 1⟩ : Ref) ∉ s.settle.stale :=
  ⟨by decide, by decide, by decide, by decide,
    (let s := paying .aborting 1
     { s with settle := { s.settle with
        stale := List.replicate 8 ⟨9, 1⟩
        session := { s.settle.session with abortCause := some .timeout } } }), by decide⟩

theorem carrying_seatsKept : seatsKept (carrying .paying) :=
  ⟨fun i => by cases i <;> decide, fun i => by cases i <;> decide,
    fun x i => by cases x <;> cases i <;> decide⟩
theorem paying_seatsKept (x : SessionState) (n : Nat) : seatsKept (paying x n) := carrying_seatsKept

theorem witness_PaymentsSettleInOneEvent :
    (sessionKept (paying .authorising 1) ∧ seatsKept (paying .authorising 1)
        ∧ (paying .authorising 1).power = .running
        ∧ (paying .authorising 1).settle.session.state.isOpen = true
        ∧ (paying .authorising 1).settle.session.outstanding = some ⟨1, 1⟩)
      ∧ (sessionKept (paying .retryWait 2) ∧ seatsKept (paying .retryWait 2) ∧ ready (paying .retryWait 2)
        ∧ (paying .retryWait 2).settle.session.state = .retryWait)
      ∧ (sessionKept (carrying .stopped) ∧ seatsKept (carrying .stopped) ∧ ready (carrying .stopped)
        ∧ shiftOpen (carrying .stopped) = true ∧ (carrying .stopped).odo.motion = .stationary
        ∧ slotSet? 1 = some [.s1] ∧ (∀ i ∈ ([.s1] : List Slot), ((carrying .stopped).leg i).state = .stopped)
        ∧ (carrying .stopped).settle.session.state.isOpen = false
        ∧ (carrying .stopped).settle.session.state ≠ .retryWait)
      ∧ ((carrying .stopped).shifts.record.totals.inRange
        ∧ -2147483648 ≤ (carrying .stopped).shifts.record.totals.cashRounding + -1
        ∧ (carrying .stopped).shifts.record.totals.cashRounding + -1 ≤ 2147483647) :=
  ⟨⟨⟨⟨Or.inl rfl, rfl, rfl⟩, rfl, by decide, by decide, fun i => by cases i <;> decide,
        fun i => by cases i <;> decide⟩, paying_seatsKept _ _, by decide⟩,
    ⟨⟨⟨Or.inr rfl, rfl⟩, rfl, by decide, by decide, fun i => by cases i <;> decide,
        fun i => by cases i <;> decide⟩, paying_seatsKept _ _, ⟨rfl, rfl, rfl⟩, rfl⟩,
    ⟨⟨rfl, rfl, by decide, by decide, fun i => by cases i <;> decide,
        fun i => by cases i <;> decide⟩,
      ⟨fun i => by cases i <;> decide, fun i => by cases i <;> decide,
        fun x i => by cases x <;> cases i <;> decide⟩, ⟨rfl, rfl, rfl⟩, by decide⟩,
    by unfold Totals.inRange; decide⟩

/-- An attempt that the response timer has made ABORTING. -/
def timedOut (n : Nat) : State :=
  let s := paying .aborting n
  { s with settle := { s.settle with session := { s.settle.session with abortCause := some .timeout } } }

/-- An entry held for a reference that is not outstanding, and an amount that is not the total in AUTHORISING
and in ABORTING, with the host's cause and another, below the third attempt and at it. -/
theorem witness_ReversalsAreSentAndHeld :
    (carrying .hired).power = .running ∧ (carrying .hired).settle.session.outstanding ≠ some ⟨1, 1⟩
      ∧ ((paying .authorising 1).settle.session.outstanding = some ⟨1, 1⟩
        ∧ (paying .authorising 1).settle.session.state = .authorising
        ∧ 354 ≠ (paying .authorising 1).settle.session.total
        ∧ (paying .authorising 1).settle.session.abortCause = none
        ∧ (paying .authorising 1).settle.session.attempt.getD 0 < 3
        ∧ (paying .authorising 3).settle.session.outstanding = some ⟨1, 3⟩
        ∧ (paying .authorising 3).settle.session.state = .authorising
        ∧ 354 ≠ (paying .authorising 3).settle.session.total
        ∧ (paying .authorising 3).settle.session.abortCause = none
        ∧ 3 ≤ (paying .authorising 3).settle.session.attempt.getD 0)
      ∧ ((paying .aborting 1).settle.session.outstanding = some ⟨1, 1⟩
        ∧ (paying .aborting 1).settle.session.state = .aborting
        ∧ 354 ≠ (paying .aborting 1).settle.session.total
        ∧ (paying .aborting 1).settle.session.abortCause = some .cancel)
      ∧ (∀ n : Fin 3, (timedOut (n + 1)).power = .running
        ∧ (timedOut (n + 1)).settle.session.outstanding = some ⟨1, n + 1⟩
        ∧ (timedOut (n + 1)).settle.session.state = .aborting
        ∧ 354 ≠ (timedOut (n + 1)).settle.session.total
        ∧ (timedOut (n + 1)).settle.session.abortCause ≠ some .cancel)
      ∧ (1 < 3 ∧ 3 ≤ 3)
      ∧ ∃ s : State, s.power = .running ∧ s.settle.reversals = [] ++ ⟨⟨1, 1⟩, 5, 10⟩ :: [] :=
  ⟨by decide, by decide, by decide, by decide, by decide, by decide,
    { onShift with settle := { onShift.settle with reversals := [⟨⟨1, 1⟩, 5, 10⟩] } }, by decide⟩

/-- The tender link with a byte at the front of its ring. -/
def receiving (reader : Reader) (b : RingByte) : State :=
  { onShift with tender := { onShift.tender with reader := reader, ring := [b] } }

/-- A ring with one place left and a full ring; each reader state with a byte of each case, the last byte of
a T_STATUS (body 0 and 5, check byte by hand from R87's register) among them. -/
theorem witness_BytesBecomeMessages :
    (onShift.power = .running ∧ onShift.tender.ring.length < 256
        ∧ onShift.tender.sinceByte = none
        ∧ (after (.tlByteArrival 0 true) onShift).tender.sinceByte = some 0
        ∧ (List.replicate 255 (⟨0, false⟩ : RingByte)).length < 256
        ∧ 256 ≤ (List.replicate 256 (⟨0, false⟩ : RingByte)).length)
      ∧ ((receiving .hunting ⟨0x3C#8, false⟩).tender.handedOn = none
        ∧ (receiving .hunting ⟨0x3C#8, false⟩).tender.ring = ⟨0x3C#8, false⟩ :: [])
      ∧ ((2 : Byte).toNat ≥ 2 ∧ (64 : Byte).toNat ≤ 64)
      ∧ (receiving (.assembling [3, 0x16, 0, 5]) ⟨crc8 [3, 0x16, 0, 5], false⟩).tender.ring.length = 1
      ∧ [(0x16 : Byte), 0, 5].length = (3 : Byte).toNat ∧ termMsg? 0x16#8 [0, 5] = some (.status .ready 5)
      ∧ termMsg? 0x16#8 [2, 5] = none ∧ termMsg? 0x14#8 [0, 1, 1] = some (.aborted ⟨1, 1⟩)
      ∧ ((4 : Nat) ≤ 4 ∧ 3 < 4) ∧ replied (after (.terminalStatus 3) onShift) = some .ok := by
  simp only [List.length_replicate]; decide

/-- A queue with one place left, a full one, one with a T_STATUS_ASK, and a head of 7 bytes of which none,
one or all are started, with TL_CTS asserted or not. -/
def sending (n started : Nat) (cts : Bool) : State :=
  { onShift with
    pins := { onShift.pins with cts := cts }
    tender := { onShift.tender with
      queue := .abort ⟨1, 1⟩ :: List.replicate n (.statusAsk 4), headStarted := started, sendLeft := 100 } }

theorem witness_FramesAreQueuedSentAndDiscarded :
    (∀ j, PartMsg.statusAsk j ∉ [PartMsg.abort ⟨1, 1⟩])
      ∧ (sending 6 1 true).power = .running ∧ (sending 6 1 true).tender.queue.length < 8
      ∧ 8 ≤ (sending 7 1 true).tender.queue.length
      ∧ (sending 1 1 true).tender.queue = [.abort ⟨1, 1⟩] ++ .statusAsk 4 :: []
      ∧ [PartMsg.abort ⟨1, 1⟩] ≠ [] ∧ (PartMsg.abort ⟨1, 1⟩).frame.length = 7
      ∧ (sending 1 0 true).tender.headStarted = 0
      ∧ ((sending 1 6 false).pins.cts = false ∧ (sending 1 6 false).tender.headStarted ≠ 7)
      ∧ (0 < (sending 1 1 true).tender.headStarted ∧ (sending 1 1 true).pins.cts = true)
      ∧ (sending 1 7 false).tender.headStarted = 7
      ∧ (sending 0 1 true).tender.queue ≠ []
      ∧ (({ sending 0 1 true with tender :=
          { (sending 0 1 true).tender with answered := false, unanswered := 2 } } : State).tender.answered = false) :=
  ⟨fun _ => (by simp), by decide⟩

/-- The driver text at its longest, and the report list below and at its capacity. -/
theorem witness_ShiftsOpenAndClose :
    (ready onShift ∧ shiftOpen onShift = true ∧ (∀ i, (onShift.leg i).state = .free)
        ∧ onShift.settle.session.state.isOpen = false ∧ onShift.shifts.reports.length < 8)
      ∧ ((List.replicate 8 0x7E#8).length ≤ 8 ∧ ∀ b ∈ List.replicate 8 0x7E#8, 32 ≤ b.toNat ∧ b.toNat ≤ 126)
      ∧ ¬((List.replicate 9 0x20#8).length ≤ 8)
      ∧ (∃ s : State, ready s ∧ shiftOpen s = false ∧ calibrated s = true ∧ s.clock.valid = true)
      ∧ (ready calibrating ∧ shiftOpen calibrating = false ∧ calibrated calibrating = false)
      ∧ ∃ s : State, ready s ∧ shiftOpen s = true ∧ (∀ i, (s.leg i).state = .free)
        ∧ s.settle.session.state.isOpen = false ∧ 8 ≤ s.shifts.reports.length
        ∧ ∀ p ∈ s.shifts.reports, p.isRead = false :=
  ⟨⟨⟨rfl, rfl, rfl⟩, rfl, fun i => by cases i <;> rfl, rfl, by decide⟩, by decide, by decide,
    ⟨{ onShift with shifts := ShiftAccounts.cleared }, ⟨rfl, rfl, rfl⟩, by decide⟩,
    ⟨⟨rfl, rfl, rfl⟩, by decide⟩,
    { onShift with shifts := { onShift.shifts with
        reports := List.replicate 8 ⟨ShiftAccounts.cleared.record, false⟩ } },
    ⟨rfl, rfl, rfl⟩, rfl, fun i => by cases i <;> rfl, rfl, by decide, by
      intro p hp; rw [List.eq_of_mem_replicate hp]⟩

/-- A trip record. -/
def trip (seq : Nat) (isRead : Bool) : TripRecord :=
  ⟨seq, ⟨1, .s1, ⟨true, false, false, false⟩, 0, 1, 1, 10, 350, 0, .void, [⟨1, 10, 1, 350⟩], [], false⟩, false, isRead⟩

/-- A part with a report and three trip records, the first read. -/
def recorded : State :=
  { onShift with
    shifts := { onShift.shifts with reports := [⟨{ onShift.shifts.record with number := 7 }, false⟩] }
    journal := ⟨[trip 1 true, trip 2 false, trip 3 false], 4⟩ }

theorem witness_FetchesReturnARecordAndMarkItRead :
    ready recorded ∧ 0 < 7
      ∧ recorded.shifts.reports = [] ++ ⟨{ onShift.shifts.record with number := 7 }, false⟩ :: []
      ∧ (∀ p ∈ recorded.shifts.reports, p.record.number ≠ 8)
      ∧ recorded.journal.ring = [trip 1 true] ++ trip 2 false :: [trip 3 false] ∧ 0 < (trip 2 false).seq
      ∧ (∀ q ∈ [trip 1 true] ++ [trip 3 false], q.seq ≠ (trip 2 false).seq)
      ∧ (∀ q ∈ [trip 1 true], q.isRead = true) ∧ (trip 2 false).isRead = false
      ∧ (∀ r ∈ recorded.journal.ring, r.seq ≠ 9) ∧ (∀ r ∈ onShift.journal.ring, r.isRead = true) :=
  ⟨⟨rfl, rfl, rfl⟩, by decide, rfl, by decide, rfl, by decide⟩

/-- The sign of a part without a shift, with every lamp off. -/
theorem witness_SignModesFollowTheTables :
    (ready onShift ∧ shiftOpen onShift = true ∧ (∀ i, (onShift.leg i).state = .free)
        ∧ calibrated onShift = true ∧ onShift.sign.active = false ∧ onShift.sign.fault.free = false
        ∧ (after (.signMode 2 1) onShift).sign.testRunning = false)
      ∧ (ready (carrying .hired) ∧ ∃ i, ((carrying .hired).leg i).state ≠ .free)
      ∧ (ready State.reset ∧ shiftOpen State.reset = false ∧ State.reset.sign.derived = .offDuty
        ∧ State.reset.sign.active = false ∧ State.reset.sign.testRunning = false
        ∧ ∀ x, State.reset.sign.demand.get x = .off)
      ∧ onShift.sign.derived ≠ .offDuty :=
  ⟨⟨⟨rfl, rfl, rfl⟩, rfl, fun i => by cases i <;> rfl, by decide⟩,
    ⟨⟨rfl, rfl, rfl⟩, .s1, by decide⟩,
    ⟨⟨rfl, rfl, rfl⟩, rfl, rfl, rfl, rfl, fun x => by cases x <;> rfl⟩, by decide⟩

/-- A part without a shift near the end of a lamp test: SHARE's generator in the last step of its gap, and
PANEL's in REST or in its gap too. -/
def lampTesting (panel : Phase) : State :=
  let g (x : Phase) : Generator := ⟨x, 2, 0, 0, 0, State.reset.sign.pattern .lampTest⟩
  { State.reset with sign := { State.reset.sign with
      testRunning := true, demand := ⟨.pattern .lampTest, .pattern .lampTest, .pattern .lampTest⟩
      generator := ⟨g .rest, g panel, g .gap⟩ } }

/-- R137: the phase end that brings the last generator to REST ends the test with the lamps off. -/
theorem test_lampTest_completes :
    (after (.patternPhaseEnd .share) (lampTesting .rest)).sign.testRunning = false
      ∧ (after (.patternPhaseEnd .share) (lampTesting .rest)).sign.demand = ⟨.off, .off, .off⟩ := by decide

theorem witness_PatternsRunAndLampsFault :
    (let n : Generator := ⟨.gap, 1, 0, 0, 1, ⟨1, 1, 1, 256, .continuous⟩⟩
     n.phase = .gap ∧ n.gapLow ≤ 255 ∧ 0 < n.gapLow + 256 * n.gapHigh)
      ∧ (onShift.power = .running ∧ ready onShift ∧ onShift.sign.testRunning = false
        ∧ onShift.sign.driver .free = true ∧ onShift.pins.sense.get .free = false
        ∧ onShift.sign.fault.get .free = false ∧ onShift.sign.driver .share = false)
      ∧ (∀ x, (lampTesting x).power = .running ∧ (lampTesting x).sign.testRunning = true)
      ∧ (∀ y, y ≠ .share → ((lampTesting .rest).sign.generator.get y).phase = .rest)
      ∧ ((lampTesting .gap).sign.generator.get .panel).phase ≠ .rest :=
  ⟨by decide, ⟨rfl, ⟨rfl, rfl, rfl⟩, by decide⟩, fun _ => ⟨rfl, rfl⟩,
    fun y h => by cases y <;> first | rfl | exact absurd rfl h, by decide⟩

/-- A hold of EMERG that has not lasted 1 s, with the emergency state ACTIVE or not. -/
def holding (active begunActive window : Bool) : State :=
  { onShift with sign := { onShift.sign with
      active := active, hold := some ⟨99, false, false, begunActive⟩
      clearWindow := if window then some 400 else none } }

theorem witness_TheEmergencyIsRaisedAndClearedByHolds :
    (ready onShift ∧ onShift.sign.active = false)
      ∧ (ready (holding true true true) ∧ (holding true true true).sign.active = true)
      ∧ (∀ a b w, (holding a b w).power = .running
        ∧ (holding a b w).sign.hold = some ⟨99, false, false, b⟩ ∧ (holding a b w).sign.active = a)
      ∧ (holding true false false).sign.clearWindow = none
      ∧ (holding true false true).sign.clearWindow.isSome = true :=
  ⟨⟨⟨rfl, rfl, rfl⟩, rfl⟩, ⟨⟨rfl, rfl, rfl⟩, rfl⟩, fun _ _ _ => ⟨rfl, rfl, rfl⟩, by decide⟩

/-- The intercom in OPEN with a channel state and the rear's line and qualifier. -/
def talking (c : Channel) (line : Bool) (q : Qualifier) : State :=
  { onShift with
    pins := { onShift.pins with voxR := line }
    intercom := { onShift.intercom with
      mode := .openMode, channel := c, vox := ⟨.low, q⟩
      hangLeft := if c = .hangRear then some 50 else none
      talk := if c = .quiet then none else some ⟨100, 60⟩ } }

theorem witness_VoicesTakeAndLeaveTheChannel :
    (∀ c l q, (talking c l q).power = .running ∧ voxLine (talking c l q).pins .rear = l
        ∧ (talking c l q).intercom.channel = c ∧ (talking c l q).intercom.vox.get .rear = q
        ∧ (talking c l q).intercom.heldOff.get .rear = false
        ∧ (talking c l q).intercom.heldOff.front = false ∧ voxAllowed (talking c l q).intercom .rear = true
        ∧ (talking c l q).pins.ptt = false)
      ∧ (Channel.hangs .hangRear .rear = true ∧ Channel.hangs .quiet .rear = false
        ∧ Channel.side? .rearTalk = some .rear)
      ∧ mayTake (talking .quiet true (.attack 1)) .front = false
      ∧ (∃ s : State, s.power = .running ∧ s.pins.ptt = true ∧ s.intercom.heldOff.front = false)
      ∧ (∀ c, c ≠ Channel.rearTalk → ∃ s : State, s.power = .running ∧ voxLine s.pins .rear = true
        ∧ s.intercom.heldOff.get .rear = true ∧ s.intercom.channel = c ∧ s.intercom.channel.talks .rear = false
        ∧ ∀ y, y ≠ .rear → mayTake s y = false)
      ∧ (∃ s : State, s.power = .running ∧ s.pins.ptt = true ∧ s.intercom.heldOff.front = true
        ∧ s.intercom.channel = .quiet ∧ s.pins.voxF = false ∧ s.intercom.vox.front = .low
        ∧ mayTake s .rear = false)
      ∧ ∃ s : State, s.power = .running ∧ s.pins.ptt = true ∧ s.intercom.heldOff.front = true
        ∧ s.intercom.channel = .rearTalk ∧ s.pins.voxF = true :=
  ⟨fun _ _ _ => ⟨rfl, rfl, rfl, rfl, rfl, rfl, rfl, rfl⟩, by decide, by decide,
    ⟨{ onShift with pins := { onShift.pins with ptt := true } }, by decide⟩,
    fun c h =>
      ⟨{ talking c true .qualified with intercom :=
          { (talking c true .qualified).intercom with heldOff := ⟨false, true⟩ } },
        rfl, rfl, rfl, rfl, by cases c <;> first | rfl | exact absurd rfl h,
        fun y _ => by cases y <;> rfl⟩,
    ⟨{ talking .quiet false .low with
        pins := { onShift.pins with ptt := true }
        intercom := { (talking .quiet false .low).intercom with heldOff := ⟨true, false⟩ } }, by decide⟩,
    { talking .rearTalk false .low with
      pins := { onShift.pins with ptt := true, voxF := true }
      intercom := { (talking .rearTalk false .low).intercom with heldOff := ⟨true, false⟩ } }, by decide⟩

/-- A part in PRIVATE with a call of seat C waiting, seat R's button pressed and a call window. -/
def called : State :=
  { onShift with intercom := { onShift.intercom with
      mode := .privateMode, calls := ⟨false, false, true, false⟩, window := some 1, channel := .rearTalk
      talk := some ⟨100, 60⟩, press := ⟨.released, .released, .released, .pressing 1⟩ } }

theorem witness_ModesSettingsAndSeatCalls :
    (ready called ∧ called.intercom.calls.get .c = true
        ∧ cycleFrom called.intercom.pointer = [.f, .l] ++ .c :: [.r]
        ∧ (∀ y ∈ ([.f, .l] : List Seat), called.intercom.calls.get y = false))
      ∧ (ready onShift ∧ onShift.intercom.calls = SeatSet.empty ∧ onShift.intercom.window = none)
      ∧ (3 < 4 ∧ 3 ≤ 3) ∧ called.intercom.press.get .r = .pressing 1
      ∧ called.intercom.calls.get .r = false ∧ called.intercom.window.isSome = true
      ∧ called.intercom.channel.side? = some .rear ∧ called.intercom.mode = .privateMode :=
  ⟨⟨⟨rfl, rfl, rfl⟩, by decide⟩, ⟨⟨rfl, rfl, rfl⟩, by decide⟩, by decide⟩

/-- The front speaker with a tone in service, speech and a held tone. -/
def sounding (level : Level) (onPhase : Bool) (current : Nat) (speech : Speech) (held : Option Tone) : State :=
  { onShift with speakers := { onShift.speakers with front :=
      ⟨some ⟨⟨.host, level, 500, 10, 5, 2⟩, current, onPhase, 1⟩, ⟨held, none, none, none⟩, speech⟩ } }

/-- That speaker MUTED by a tone of a level, with these tones in its slots of level 2 and 3. -/
def muting (level : Level) (two three : Option Tone) : State :=
  let s := sounding level false 2 .muted none
  { s with speakers := { s.speakers with front :=
      { s.speakers.front with hold := ⟨none, none, two, three⟩ } } }

theorem witness_TonesEnterWaitAndHandOn :
    (ready onShift ∧ Speaker.ctorIdx .front = 0 ∧ Level.number .l3 = 3
        ∧ (onShift.speakers.get .front).speech = .none ∧ (onShift.speakers.get .front).service = none)
      ∧ (1 < 2 ∧ 3 < 4 ∧ 2 < 3 ∧ 2 ≤ 2)
      ∧ (∀ l b n m h, ready (sounding l b n m h)
        ∧ ((sounding l b n m h).speakers.get .front).service
          = some ⟨⟨.host, l, 500, 10, 5, 2⟩, n, b, 1⟩
        ∧ ((sounding l b n m h).speakers.get .front).speech = m
        ∧ ((sounding l b n m h).speakers.get .front).hold.get .l0 = h
        ∧ ((sounding l b n m h).speakers.get .front).hold.get .l3 = none)
      ∧ (Level.number .l3 ≤ 3 ∧ Level.number .l2 < 3 ∧ 1 < 2 ∧ 2 ≤ 2)
      ∧ (∀ l a b, ready (muting l a b)
        ∧ ((muting l a b).speakers.get .front).service = some ⟨⟨.host, l, 500, 10, 5, 2⟩, 2, false, 1⟩
        ∧ ((muting l a b).speakers.get .front).speech = .muted
        ∧ ((muting l a b).speakers.get .front).hold.get .l2 = a
        ∧ ((muting l a b).speakers.get .front).hold.get .l3 = b)
      ∧ ∃ s : State, ready s ∧ (s.speakers.get .front).speechFits ∧ (s.speakers.get .front).speech = .speaking
        ∧ (s.speakers.get .front).service = none :=
  ⟨⟨⟨rfl, rfl, rfl⟩, by decide⟩, by decide, fun _ _ _ _ _ => ⟨⟨rfl, rfl, rfl⟩, rfl, rfl, rfl, rfl⟩, by decide,
    fun _ _ _ => ⟨⟨rfl, rfl, rfl⟩, rfl, rfl, rfl, rfl⟩,
    { onShift with speakers := { onShift.speakers with front :=
        { onShift.speakers.front with speech := .speaking } } },
    ⟨rfl, rfl, rfl⟩, rfl, rfl, rfl⟩

/-- 29 February of the calendar's first year is there, of its second not. -/
theorem witness_TheClockIsSetWrapsAndRunsWhileStopped :
    (∃ s : State, s.clock.count = lastCount ∧ s.power = .running) ∧ stopped.power ≠ .running
      ∧ (ready onShift ∧ (∀ i, (onShift.leg i).state = .free) ∧ onShift.settle.session.state.isOpen = false)
      ∧ (ready (carrying .hired) ∧ ∃ i, ((carrying .hired).leg i).state ≠ .free)
      ∧ replied (after (.clockSet 2000 2 29 23 59 59) onShift) = some .ok
      ∧ replied (after (.clockSet 2001 2 29 0 0 0) onShift) = some .badValue :=
  ⟨⟨{ onShift with clock := { onShift.clock with count := lastCount } }, by decide⟩, by decide,
    ⟨⟨rfl, rfl, rfl⟩, fun i => by cases i <;> rfl, rfl⟩, ⟨⟨rfl, rfl, rfl⟩, .s1, by decide⟩, by decide⟩

theorem witness_StoppingKeepsRetainedMemory :
    (carrying .hired).power ≠ .supplyFailed ∧ (carrying .hired).power = .running
      ∧ stopped.power = .supplyFailed ∧ (after .resetnAssert (carrying .hired)).power = .resetHeld := by decide

/-- A payment in each open state at a supply failure. -/
def stoppedPaying (x : SessionState) : State := after .supplyFail (paying x 1)

/-- Calibration open after a payment that was cancelled. -/
def cancelled : State :=
  { calibrating with settle := { calibrating.settle with session := { Session.blank with
      state := .cancelled, paymentId := 7 } } }

/-- R83: a factory clear that makes a closed session NONE raises PAYMENT_STATE, one that finds it NONE does
not. -/
theorem test_factoryClear_raises_paymentState :
    ((after .factoryClear cancelled).link.queue.any (fun n => n.kind = .paymentState)) = true
      ∧ ((after .factoryClear calibrating).link.queue.any (fun n => n.kind = .paymentState)) = false := by
  decide +kernel

theorem witness_ARestartRestoresOrClears :
    (stopped.power ≠ .running ∧ stopped.clock.batteryFail = false ∧ stopped.retained.checkAgrees = true
        ∧ stopped.retained.formatVersion = 1 ∧ (stopped.leg .s1).state = .hired
        ∧ stopped.retained.recorded = true ∧ stopped.retained.failCount.isSome = true
        ∧ stopped.settle.reversals.length ≤ 5 ∧ onShift.power = .running)
      ∧ (∃ s : State, s.power ≠ .running ∧ s.clock.batteryFail = true
        ∧ ¬(s.retained.checkAgrees = true ∧ s.retained.formatVersion = 1)
        ∧ s.settle.session.state ≠ .none)
      ∧ ((stoppedPaying .tipWait).settle.session.state = .tipWait
        ∧ ((stoppedPaying .tipWait).leg .s1).state = .paying
        ∧ ((stoppedPaying .tipWait).leg .s1).paymentId = some (stoppedPaying .tipWait).settle.session.paymentId)
      ∧ ((stoppedPaying .authorising).settle.session.state = .authorising
        ∧ (stoppedPaying .authorising).settle.session.outstanding = some ⟨1, 1⟩)
      ∧ ((stoppedPaying .aborting).settle.session.state = .aborting
        ∧ (stoppedPaying .aborting).settle.session.outstanding = some ⟨1, 1⟩)
      ∧ (stoppedPaying .retryWait).settle.session.state = .retryWait
      ∧ (stoppedPaying .tipWait).settle.timer = none
      ∧ (ready calibrating ∧ calibrationOpen calibrating = true ∧ calibrating.settle.session.state = .none)
      ∧ (ready cancelled ∧ calibrationOpen cancelled = true ∧ cancelled.settle.session.state ≠ .none)
      ∧ (∃ s : State, ready s ∧ calibrationOpen s = true ∧ s.sign.active = true) :=
  ⟨by decide,
    (let s := stoppedPaying .tipWait
     ⟨{ s with
      clock := { s.clock with batteryFail := true }
      retained := { s.retained with checkAgrees := false } }, by decide⟩),
    by decide, by decide, by decide, by decide, by decide, ⟨⟨rfl, rfl, rfl⟩, rfl, rfl⟩,
    ⟨⟨rfl, rfl, rfl⟩, by decide⟩,
    { calibrating with sign := { calibrating.sign with active := true } }, ⟨rfl, rfl, rfl⟩, by decide⟩

/-- The link with a frame held, and one waiting or none. -/
def holdingFrame (waiting : Option Sys2Proof.Frame) (after : AfterReply) : State :=
  { onShift with link := { onShift.link with
      handling := some ⟨0x01, some ⟨0x01, 5, []⟩, .answer ⟨.ok, []⟩⟩, waiting := waiting, after := after } }

theorem witness_FramesAreHeldInTwoPlaces :
    (onShift.power = .running ∧ ready onShift ∧ decodeRequest 0x06#8 [] = .unknownKind
        ∧ decodeRequest 0x03#8 [1] = .badLength ∧ decodeRequest 0x11#8 [1] = .request (.legStop 1)
        ∧ requestParts (.legStop 1) = some (.legStop, [.num 1]) ∧ reqKind? 0x06 = none
        ∧ onShift.link.handling = none ∧ onShift.link.echo = false)
      ∧ (∀ f a, (holdingFrame f a).link.handling.isSome = true ∧ (holdingFrame f a).link.waiting = f
        ∧ (holdingFrame f a).link.noticeFrame = none ∧ (holdingFrame f a).link.after = a)
      ∧ ∃ s : State, s.power = .running ∧ s.link.echo = true ∧ s.link.handling = none :=
  ⟨⟨rfl, ⟨rfl, rfl, rfl⟩, by decide⟩, fun _ _ => ⟨rfl, rfl, rfl, rfl⟩,
    { onShift with link := { onShift.link with echo := true } }, by decide⟩

/-- The control link's receiver in a state, base steps after the last byte. -/
def listening (r : Reader) (n : Nat) : State :=
  { onShift with link := { onShift.link with receiver := r, quiet := n } }

/-- A LINK_CONFIG reply is being sent while the receiver is in a state. -/
def switching (r : Reader) : State :=
  let s := holdingFrame none (.rateSwitch 9600)
  { s with link := { s.link with receiver := r } }

/-- R168: at a change of rate a frame between two of its bytes goes on, one with a byte on the line is
discarded as a gap. -/
theorem test_rateSwitch_discards_by_the_byte :
    let l := (switching (.assembling [2, 1])).link
    (ControlLink.replyGone false l).receiver = .assembling [2, 1]
      ∧ (ControlLink.replyGone true l).receiver = .hunting ∧ (ControlLink.replyGone true l).gapCount = 1
      ∧ (after .replySent (switching .hunting)).link.rate = 9600 := by decide

theorem witness_LinkChangesFollowTheReply :
    (onShift.power = .running ∧ ready onShift ∧ (9601 ∉ [9600, 19200, 38400, 57600, 115200])
        ∧ (115200 ∈ [9600, 19200, 38400, 57600, 115200]) ∧ onShift.link.after = .nothing)
      ∧ (∀ a, (holdingFrame none a).link.handling.isSome = true ∧ (holdingFrame none a).link.noticeFrame = none
        ∧ (holdingFrame none a).link.waiting = none ∧ (holdingFrame none a).link.after = a)
      ∧ (∀ r, (switching r).power = .running ∧ (switching r).link.handling.isSome = true
        ∧ (switching r).link.noticeFrame = none ∧ (switching r).link.waiting = none
        ∧ (switching r).link.after = .rateSwitch 9600 ∧ (switching r).link.receiver = r)
      ∧ (∀ r n, (listening r n).power = .running ∧ (listening r n).link.receiver = r
        ∧ (listening r n).link.quiet = n)
      ∧ ((2 < 3 ∧ 3 ≤ 3) ∧ ¬(2 ≤ (1 : Byte).toNat) ∧ ¬((251 : Byte).toNat ≤ 250) ∧ 2 ≤ (2 : Byte).toNat
        ∧ (250 : Byte).toNat ≤ 250)
      ∧ ([0x01, 5] : List Byte).length ≤ (2 : Byte).toNat
      ∧ ([0x01, 5, 0xC1] : List Byte) = 0x01 :: 5 :: [] ++ [0xC1]
      ∧ ([0x01, 5, 0xC1] : List Byte).length = (2 : Byte).toNat + 1
      ∧ (0xC1 : Byte).toNat * 256 + (0x68 : Byte).toNat = (crc16 [2, 0x01, 5]).toNat
      ∧ (0xC1 : Byte).toNat * 256 + (0x69 : Byte).toNat ≠ (crc16 [2, 0x01, 5]).toNat :=
  ⟨⟨rfl, ⟨rfl, rfl, rfl⟩, by decide⟩, fun _ => ⟨rfl, rfl, rfl, rfl⟩,
    fun _ => ⟨rfl, rfl, rfl, rfl, rfl, rfl⟩, fun _ _ => ⟨rfl, rfl, rfl⟩, by decide +kernel⟩

/-- A part with a notice queued and STREAM on. -/
def noticing : State :=
  { onShift with link := { onShift.link with queue := [⟨.motion, [.u8 0]⟩], stream := true } }

theorem witness_NoticesAreMaskedFetchedAndStreamed :
    (noticing.power = .running ∧ ready noticing ∧ noticing.link.queue = ⟨.motion, [.u8 0]⟩ :: []
        ∧ noticing.link.stream = true ∧ noticing.link.noticeFrame = none
        ∧ noticing.link.isEnabled .motion = true ∧ (∀ n ∈ noticing.link.queue, n.kind ≠ .call)
        ∧ noticing.link.queue = [] ++ ⟨.motion, [.u8 0]⟩ :: []
        ∧ (noticing.link.queue.map Notice.kind).Nodup)
      ∧ (ready onShift ∧ onShift.link.queue = [])
      ∧ ((3 < 4 ∨ 1048576 ≤ 0) ∧ (3 < 0 ∨ 1048576 ≤ 1048576) ∧ 3 ≤ 3 ∧ 1048575 < 1048576) :=
  ⟨⟨rfl, ⟨rfl, rfl, rfl⟩, by decide⟩, ⟨⟨rfl, rfl, rfl⟩, rfl⟩, by decide⟩

theorem witness_RequestFramesSpellTheirCommands :
    ((Instr.calSetK 65535).wellFormed = true ∧ (requestParts (.calSetK 65535)).isSome = true)
      ∧ decodeRequest 0x03#8 [0xFF, 0xFF] = .request (.calSetK 65535) := by decide

end Sys2Proof.Tests
end

