-- ==== Sys2Proof/Proofs/TariffRead.lean ====
section
/-!
PROOF. TARIFF_READ (R18): the numbers of the tariff table, a record's fields as a reply spells them, what the
rule answers in each case, and from these O24.
-/

namespace Sys2Proof.Machine

/-! ### Tariff numbers and the record behind one (Table 2-1) -/

theorem tariffIndex?_eq_none_iff (n : Nat) : tariffIndex? n = none ↔ n = 0 ∨ 8 < n := by
  simp only [tariffIndex?, dite_eq_right_iff, reduceCtorEq, imp_false]
  omega

theorem exists_tariffIndex? {n : Nat} (hlow : 1 ≤ n) (hhigh : n ≤ 8) : ∃ i, tariffIndex? n = some i :=
  ⟨_, dif_pos ⟨hlow, hhigh⟩⟩

theorem FareEngine.tariff_of_index {n : Nat} {i : Fin 8} (h : tariffIndex? n = some i) (e : FareEngine) :
    e.tariff n = e.tariffs[i] := by
  simp only [FareEngine.tariff, h]

/-! ### A record as a reply spells it -/

/-- The coding of the mode in Table 2-1: 0 for SINGLE, 1 for the other. -/
theorem TariffMode.ctorIdx_eq (m : TariffMode) : m.ctorIdx = if m = .single then 0 else 1 := by
  cases m <;> rfl

/-- Name is a length and its characters, a yes or no and the mode are 0 or 1, the rest are plain numbers. -/
theorem tariffReply_eq (d : Tariff) :
    tariffReply d =
      [.u8 (if d.isDefined then 1 else 0), .u8 d.name.length, .raw d.name, .u32 d.flagFall,
       .u16 d.stepAmount, .u16 d.distanceStep, .u16 d.timeStep, .u16 d.includedDistance,
       .u8 (if d.mode = .single then 0 else 1), .u8 (if d.sharePermitted then 1 else 0),
       .u8 (if d.manualSelectable then 1 else 0)] := by
  rw [← TariffMode.ctorIdx_eq]
  rfl

/-! ### The rule and the request -/

theorem takeTariffRead_outside {n : Nat} (h : n = 0 ∨ 8 < n) (s : State) :
    takeTariffRead n s = refuse .badValue s := by
  have hnone : tariffIndex? n = none := (tariffIndex?_eq_none_iff n).mpr h
  simp only [takeTariffRead, hnone]

theorem takeTariffRead_inside {n : Nat} (hlow : 1 ≤ n) (hhigh : n ≤ 8) (s : State) :
    takeTariffRead n s = report (tariffReply (s.fare.tariff n)) s := by
  obtain ⟨i, hi⟩ := exists_tariffIndex? hlow hhigh
  simp only [takeTariffRead, hi, FareEngine.tariff_of_index hi]

theorem exec_tariffRead (n : Nat) (s : State) :
    exec (.tariffRead n) s = .next (hostRequest .tariffRead (takeTariffRead n) s) := rfl

/-- Settles O24: a ready part places the rule's answer, and the rule refuses or reports by the number. -/
theorem tariffReadReturnsTheRecord : Obligations.TariffReadReturnsTheRecord := by
  intro n s hready
  rw [exec_tariffRead, hostRequest_ready hready]
  constructor
  case left =>
    intro houtside
    rw [takeTariffRead_outside houtside]
    rfl
  case right =>
    intro hlow hhigh
    rw [takeTariffRead_inside hlow hhigh, tariffReply_eq]
    rfl

end Sys2Proof.Machine
end

