-- ==== Sys2Proof/Proofs/CashRounding.lean ====
section
/-!
PROOF. The rounded due (R67): it is a multiple of the unit within half a unit of the due, hence the nearest
one; what a cash settlement leaves in the session (R80); and from these O36.
-/

namespace Sys2Proof.Machine

/-! ### The rounded due -/

/-- The due and half a unit, divided by the unit: the rounded due is what the remainder leaves. -/
theorem roundedDue_add_mod (u due : Nat) : roundedDue u due + (due + u / 2) % u = due + u / 2 :=
  Nat.div_add_mod' (due + u / 2) u

theorem roundedDue_le (u due : Nat) : roundedDue u due ≤ due + u / 2 :=
  Nat.div_mul_le_self (due + u / 2) u

theorem lt_roundedDue_add {u : Nat} (hu : 0 < u) (due : Nat) : due + u / 2 < roundedDue u due + u := by
  have hmod : (due + u / 2) % u < u := Nat.mod_lt _ hu
  have hdiv := roundedDue_add_mod u due
  omega

theorem roundedDue_half {u due : Nat} (hhalf : 2 * (due % u) = u) : roundedDue u due = due + u / 2 := by
  have hdiv : u * (due / u) + due % u = due := Nat.div_add_mod due u
  have hmultiple : due + u / 2 = u * (due / u + 1) := by
    rw [Nat.mul_add, Nat.mul_one]
    omega
  exact Nat.div_mul_cancel ⟨_, hmultiple⟩

theorem cashDifference_bounds {u : Nat} (hu : 0 < u) (due : Nat) :
    -((u - 1 - u / 2 : Nat) : Int) ≤ cashDifference u due ∧ cashDifference u due ≤ (u / 2 : Nat) := by
  have hlow := lt_roundedDue_add hu due
  have hhigh := roundedDue_le u due
  unfold cashDifference
  omega

/-- Any other multiple of the unit is a whole unit or more from the rounded due, and so no nearer to the due
than that is. -/
theorem roundedDue_nearest {u : Nat} (hu : 0 < u) (due m : Nat) :
    ((roundedDue u due : Int) - due).natAbs ≤ ((m * u : Nat) - due : Int).natAbs := by
  have hlow := lt_roundedDue_add hu due
  have hhigh := roundedDue_le u due
  rcases lt_trichotomy m ((due + u / 2) / u) with hless | rfl | hmore
  · have hunit : (m + 1) * u ≤ roundedDue u due := Nat.mul_le_mul_right u hless
    rw [Nat.succ_mul] at hunit
    omega
  · rfl
  · have hunit : roundedDue u due + u ≤ m * u := by
      rw [roundedDue, ← Nat.succ_mul]
      exact Nat.mul_le_mul_right u hmore
    omega

/-! ### The session of a settlement -/

theorem changesOnly.settle_eq {parts : List Block} {s t : State} (h : changesOnly parts s t)
    (hout : Block.settle ∉ parts) : t.settle = s.settle := by
  obtain ⟨_, _, _, _, hsettle, _⟩ := h
  exact hsettle.resolve_left hout

theorem placeRecords_settle (ps : List Trip) (s : State) :
    (ps.foldl (fun t p => placeRecord p t) s).settle = s.settle := by
  induction ps generalizing s with
  | nil => rfl
  | cons p ps ih => exact (ih (placeRecord p s)).trans ((placeRecord_frame p s).settle_eq (by decide))

theorem recordsTrips_settle (ps : List Trip) (s : State) : (recordsTrips ps s).settle = s.settle :=
  ((addTotals_frame _ _).settle_eq (by decide)).trans (placeRecords_settle ps s)

/-- Only the closing of the session writes to it: the records, the release of the legs, the tone and the
notice leave the settlement as it is. -/
theorem settles_session (close : Session → Session) (paid : List LegPaid) (s : State) :
    (settles close paid s).settle.session = close s.settle.session := by
  have hsettle : (settles close paid s).settle = (setTimer none (setSession close s)).settle :=
    calc (settles close paid s).settle
      _ = (askTone .approved _).settle := (raise_frame _ _ _).settle_eq (by decide)
      _ = (releaseLegs s.settle.session.paymentId _).settle := (askTone_frame _ _).settle_eq (by decide)
      _ = (recordsTrips _ _).settle := (releaseLegs_frame _ _).settle_eq (by decide)
      _ = _ := recordsTrips_settle _ _
  rw [hsettle, setTimer_session, setSession_session]

theorem settlesByCash_session (s : State) :
    (settlesByCash s).settle.session = s.settle.session.paidCash s.settle.settings.cashUnit s.clock.count :=
  settles_session _ _ s

/-- Settles O36: the rounded due lies within half a unit of the due, and a cash settlement closes its session
with it. -/
theorem cashIsRoundedToTheNearestMultiple : Obligations.CashIsRoundedToTheNearestMultiple := by
  constructor
  case left =>
    intro u due hu
    obtain ⟨hlow, hhigh⟩ := cashDifference_bounds hu due
    refine ⟨⟨_, rfl⟩, roundedDue_nearest hu due, roundedDue_half, rfl, hlow, hhigh, ?_⟩
    rintro rfl
    omega
  case right =>
    intro s
    rw [settlesByCash_session]
    exact ⟨rfl, rfl, rfl, rfl⟩

end Sys2Proof.Machine
end

