-- ==== Sys2Proof/Proofs/Apportionment.lean ====
section
/-!
PROOF. The shares of an amount (R68): the whole parts are at most the amount, so the remainder given to the
first leg makes the shares add up; a signed amount is shared by its magnitude; and from these O37.
-/

namespace Sys2Proof.Machine

/-! ### Shares of an amount that is not negative -/

theorem apportion_cons (x due d : Nat) (ds : List Nat) :
    apportion x due (d :: ds)
      = (x * d / due + (x - ((d :: ds).map (fun e => x * e / due)).sum)) :: ds.map (fun e => x * e / due) := rfl

theorem length_apportion (x due : Nat) (dues : List Nat) : (apportion x due dues).length = dues.length := by
  cases dues with
  | nil => rfl
  | cons d ds => simp [apportion_cons]

/-- Whole parts taken leg by leg are together at most the whole part of all. -/
theorem sum_wholeParts_le (x due : Nat) (dues : List Nat) :
    (dues.map (fun e => x * e / due)).sum ≤ x * dues.sum / due := by
  induction dues with
  | nil => exact Nat.zero_le _
  | cons d ds ih =>
    rw [List.map_cons, List.sum_cons, List.sum_cons, Nat.mul_add]
    exact (Nat.add_le_add_left ih _).trans Nat.div_add_div_le_add_div

theorem sum_apportion (x : Nat) {d due : Nat} {ds : List Nat} (hdue : due = (d :: ds).sum) :
    (apportion x due (d :: ds)).sum = x := by
  have hle : ((d :: ds).map (fun e => x * e / due)).sum ≤ x :=
    calc ((d :: ds).map (fun e => x * e / due)).sum
      _ ≤ x * (d :: ds).sum / due := sum_wholeParts_le x due (d :: ds)
      _ ≤ x := Nat.div_le_of_le_mul (by rw [hdue, Nat.mul_comm])
  rw [List.map_cons, List.sum_cons] at hle
  rw [apportion_cons, List.sum_cons, List.map_cons, List.sum_cons]
  omega

/-- With one leg its share is the sum of the shares. -/
theorem apportion_singleton (x : Nat) {d due : Nat} (hdue : due = [d].sum) : apportion x due [d] = [x] := by
  have hsum := sum_apportion x hdue
  rw [apportion_cons, List.map_nil, List.sum_singleton] at hsum
  rw [apportion_cons, List.map_nil, hsum]

/-- Shares by a due of 0 have no whole parts. -/
theorem apportion_zero_due (x d : Nat) (ds : List Nat) :
    apportion x 0 (d :: ds) = x :: ds.map (fun _ => 0) := by
  simp [apportion_cons]

/-! ### Shares of a signed amount -/

/-- The model reads shares as integers before it gives them their sign. -/
theorem sharesAsInts_eq (shares : List Nat) :
    (shares >>= fun n => pure (n : Int)) = shares.map (fun n : Nat => (n : Int)) :=
  List.flatMap_pure_eq_map _ _

theorem apportionSigned_neg {z : Int} (hz : z < 0) (due : Nat) (dues : List Nat) :
    apportionSigned z due dues = (apportion z.natAbs due dues).map (fun n => -(n : Int)) := by
  simp only [apportionSigned, hz, if_true]

theorem apportionSigned_nonneg {z : Int} (hz : 0 ≤ z) (due : Nat) (dues : List Nat) :
    apportionSigned z due dues = (apportion z.natAbs due dues).map (fun n => (n : Int)) := by
  simp only [apportionSigned, Int.not_lt.mpr hz, if_false]

theorem length_apportionSigned (z : Int) (due : Nat) (dues : List Nat) :
    (apportionSigned z due dues).length = dues.length := by
  rw [apportionSigned, List.length_map, sharesAsInts_eq, List.length_map, length_apportion]

theorem sum_apportionSigned (z : Int) {d due : Nat} {ds : List Nat} (hdue : due = (d :: ds).sum) :
    (apportionSigned z due (d :: ds)).sum = z := by
  have hsum := sum_apportion z.natAbs hdue
  rcases Int.lt_or_le z 0 with hz | hz
  · rw [apportionSigned_neg hz, sharesAsInts_eq, ← List.sum_neg, ← Nat.cast_list_sum, hsum]
    omega
  · rw [apportionSigned_nonneg hz, List.map_id', sharesAsInts_eq, ← Nat.cast_list_sum, hsum]
    omega

/-! ### Dues and shares together -/

/-- Adding up pairs adds up both lists. -/
theorem sum_map_zip_add {α β M : Type} [AddCommMonoid M] (f : α → M) (g : β → M) {as : List α} {bs : List β}
    (hlen : as.length = bs.length) :
    ((as.zip bs).map (fun e => f e.1 + g e.2)).sum = (as.map f).sum + (bs.map g).sum := by
  have hfst : (as.zip bs).map (fun e => f e.1) = as.map f := by
    rw [← Function.comp_def f Prod.fst, ← List.map_map, List.map_fst_zip hlen.le]
  have hsnd : (as.zip bs).map (fun e => g e.2) = bs.map g := by
    rw [← Function.comp_def g Prod.snd, ← List.map_map, List.map_snd_zip hlen.ge]
  rw [List.sum_map_add, hfst, hsnd]

/-- Dues with shares of fee and of tip. -/
theorem sum_dues_with_shares (x y : Nat) {d due : Nat} {ds : List Nat} (hdue : due = (d :: ds).sum) :
    (((d :: ds).zip ((apportion x due (d :: ds)).zip (apportion y due (d :: ds)))).map
      (fun e => e.1 + e.2.1 + e.2.2)).sum = due + x + y := by
  have hshares : (apportion x due (d :: ds)).length = (apportion y due (d :: ds)).length := by
    rw [length_apportion, length_apportion]
  have hdues : (d :: ds).length = ((apportion x due (d :: ds)).zip (apportion y due (d :: ds))).length := by
    rw [List.length_zip, ← hshares, Nat.min_self, length_apportion]
  simp only [Nat.add_assoc]
  rw [sum_map_zip_add (fun n => n) (fun e => e.1 + e.2) hdues,
    sum_map_zip_add (fun n => n) (fun n => n) hshares, List.map_id', List.map_id', List.map_id',
    sum_apportion x hdue, sum_apportion y hdue, hdue]

/-- Dues with shares of a cash adjustment. -/
theorem sum_dues_with_signedShares (z : Int) {d due : Nat} {ds : List Nat} (hdue : due = (d :: ds).sum) :
    (((d :: ds).zip (apportionSigned z due (d :: ds))).map (fun e => (e.1 : Int) + e.2)).sum = due + z := by
  rw [sum_map_zip_add (fun n : Nat => (n : Int)) (fun n => n) (length_apportionSigned _ _ _).symm,
    List.map_id', sum_apportionSigned z hdue, ← Nat.cast_list_sum, hdue]

/-- Settles O37: the whole parts are at most the amount, so the remainder at the first leg completes it. -/
theorem sharesAddUpToTheAmount : Obligations.SharesAddUpToTheAmount := by
  intro x y z d ds due hdue
  refine ⟨⟨_, apportion_cons x due d ds⟩, sum_apportion x hdue, ?zeroDue, ?oneLeg, sum_apportionSigned z hdue,
    fun hz => apportionSigned_neg hz _ _, fun hz => apportionSigned_nonneg hz _ _,
    sum_dues_with_shares x y hdue, sum_dues_with_signedShares z hdue⟩
  case zeroDue =>
    rintro rfl
    exact apportion_zero_due x d ds
  case oneLeg =>
    rintro rfl
    exact apportion_singleton x hdue

end Sys2Proof.Machine
end

