-- ==== Sys2Proof/Proofs/Blocks.lean ====
section
/-!
PROOF. What an event changes and that it keeps the notice queue's condition (R172), as a calculus: read block by
block, in sequence and widened; and what each operation does that the rules and the events are composed of.
-/

set_option Elab.async false

namespace Sys2Proof.Machine

/-! ### A frame, block by block -/

/-- A part of the state is as it was. -/
def Block.same (s t : State) : Block → Prop
  | .power => t.power = s.power
  | .pins => t.pins = s.pins
  | .odo => t.odo = s.odo
  | .fare => t.fare = s.fare
  | .settle => t.settle = s.settle
  | .tender => t.tender = s.tender
  | .shifts => t.shifts = s.shifts
  | .journal => t.journal = s.journal
  | .sign => t.sign = s.sign
  | .intercom => t.intercom = s.intercom
  | .speakers => t.speakers = s.speakers
  | .clock => t.clock = s.clock
  | .retained => t.retained = s.retained
  | .link => t.link = s.link
  | .pending => t.pending = s.pending
  | .freeCount => t.freeCount = s.freeCount

theorem changesOnly_iff {parts : List Block} {s t : State} :
    changesOnly parts s t ↔ ∀ b, b ∈ parts ∨ b.same s t := by
  constructor
  · rintro ⟨h1, h2, h3, h4, h5, h6, h7, h8, h9, h10, h11, h12, h13, h14, h15, h16⟩ b
    cases b <;> assumption
  · intro h
    exact ⟨h .power, h .pins, h .odo, h .fare, h .settle, h .tender, h .shifts, h .journal, h .sign,
      h .intercom, h .speakers, h .clock, h .retained, h .link, h .pending, h .freeCount⟩

/-- A part that a frame does not name is as it was. -/
theorem changesOnly.same {parts : List Block} {s t : State} (h : changesOnly parts s t) (b : Block)
    (hb : b ∉ parts := by decide) : b.same s t :=
  (changesOnly_iff.mp h b).resolve_left hb

/-! ### Events: a frame, and the notice queue's condition kept -/

/-- Only the listed parts change, and the notice queue's condition is kept. -/
structure acts (parts : List Block) (s t : State) : Prop where
  frame : changesOnly parts s t
  notices : noticesKept s → noticesKept t

theorem acts_refl (parts : List Block) (s : State) : acts parts s s := ⟨changesOnly_refl _ _, id⟩

theorem noticesKept_of_link {s t : State} (h : t.link = s.link) : noticesKept s → noticesKept t := by
  unfold noticesKept
  rw [h]
  exact id

/-- The link at restart has an empty queue. -/
theorem noticesKept_restarted {s : State} (h : s.link = ControlLink.restarted) : noticesKept s := by
  simp [noticesKept, h, ControlLink.restarted]

/-- Where the link stays, so does the condition on its queue. -/
theorem acts.of_frame {parts : List Block} {s t : State} (h : changesOnly parts s t)
    (hlink : .link ∉ parts := by decide) : acts parts s t :=
  ⟨h, noticesKept_of_link (h.same .link hlink)⟩

/-- A part that an event does not name is as it was. -/
theorem acts.same {parts : List Block} {s t : State} (h : acts parts s t) (b : Block)
    (hb : b ∉ parts := by decide) : b.same s t := h.frame.same b hb

theorem acts.widen {less more : List Block} {s t : State} (h : acts less s t)
    (sub : ∀ b ∈ less, b ∈ more := by decide) : acts more s t := ⟨changesOnly_mono sub h.frame, h.notices⟩

/-- Two events one after the other change what either changes. -/
theorem acts.seq {p q : List Block} {s t u : State} (h : acts p s t) (h' : acts q t u) : acts (p ++ q) s u :=
  ⟨changesOnly_trans (changesOnly_mono (fun _ hb => List.mem_append_left _ hb) h.frame)
    (changesOnly_mono (fun _ hb => List.mem_append_right _ hb) h'.frame), h'.notices ∘ h.notices⟩

theorem acts.trans {p : List Block} {s t u : State} (h : acts p s t) (h' : acts p t u) : acts p s u :=
  ⟨changesOnly_trans h.frame h'.frame, h'.notices ∘ h.notices⟩

theorem acts.ite {p : List Block} {s t u : State} {c : Prop} [Decidable c]
    (h : c → acts p s t) (h' : ¬c → acts p s u) : acts p s (if c then t else u) := by
  split
  · exact h ‹_›
  · exact h' ‹_›

theorem whileRunning_acts {p : List Block} {g : State → State} {s : State}
    (h : s.power = .running → acts p s (g s)) : acts p s (whileRunning g s) := by
  unfold whileRunning
  split
  · exact h ‹_›
  · exact acts_refl _ _

/-- Events of one frame one after the other. -/
theorem foldl_acts {α : Type} {p : List Block} {g : State → α → State}
    (h : ∀ s a, acts p s (g s a)) (xs : List α) (s : State) : acts p s (xs.foldl g s) := by
  induction xs generalizing s with
  | nil => exact acts_refl _ _
  | cons x xs ih => exact (h s x).trans (ih _)

/-! ### Raising notices -/

theorem raise_acts (k : NoticeKind) (payload : List Field) (s : State) : acts [.link] s (raise k payload s) :=
  ⟨raise_frame k payload s, raise_noticesKept k payload⟩

theorem raiseIf_acts (c : Bool) (k : NoticeKind) (payload : List Field) (s : State) :
    acts [.link] s (raiseIf c k payload s) :=
  .ite (fun _ => raise_acts k payload s) (fun _ => acts_refl _ _)

theorem raiseDropped_acts (x : Speaker) (lost : Option Dropped) (s : State) :
    acts [.link] s (raiseDropped x lost s) := by
  cases lost with
  | none => exact acts_refl _ _
  | some d => exact raise_acts _ _ s

theorem raiseLegStates_acts (changed : List Slot) (s : State) : acts [.link] s (raiseLegStates changed s) := by
  cases changed with
  | nil => exact acts_refl _ _
  | cons i _ => exact raise_acts _ _ s

theorem reportSign_acts (before : Sign) (s : State) : acts [.link] s (reportSign before s) :=
  raiseIf_acts _ _ _ s

/-! ### A change of one block -/

theorem withPins_acts (s : State) (x : Pins) : acts [.pins] s { s with pins := x } := .of_frame (by simp [changesOnly])
theorem withOdo_acts (s : State) (x : Odometry) : acts [.odo] s { s with odo := x } := .of_frame (by simp [changesOnly])
theorem withFare_acts (s : State) (x : FareEngine) : acts [.fare] s { s with fare := x } :=
  .of_frame (by simp [changesOnly])
theorem withSettle_acts (s : State) (x : Settlement) : acts [.settle] s { s with settle := x } :=
  .of_frame (by simp [changesOnly])
theorem withTender_acts (s : State) (x : TenderLink) : acts [.tender] s { s with tender := x } :=
  .of_frame (by simp [changesOnly])
theorem withShifts_acts (s : State) (x : ShiftAccounts) : acts [.shifts] s { s with shifts := x } :=
  .of_frame (by simp [changesOnly])
theorem withJournal_acts (s : State) (x : Journal) : acts [.journal] s { s with journal := x } :=
  .of_frame (by simp [changesOnly])
theorem withSign_acts (s : State) (x : Sign) : acts [.sign] s { s with sign := x } := .of_frame (by simp [changesOnly])
theorem withClock_acts (s : State) (x : Clock) : acts [.clock] s { s with clock := x } :=
  .of_frame (by simp [changesOnly])
theorem setIntercom_acts (g : Intercom → Intercom) (s : State) : acts [.intercom] s (setIntercom g s) :=
  .of_frame (by simp [changesOnly])
theorem setSession_acts (g : Session → Session) (s : State) : acts [.settle] s (setSession g s) :=
  .of_frame (by simp [changesOnly])
theorem setTimer_acts (x : Option SessionTimer) (s : State) : acts [.settle] s (setTimer x s) :=
  .of_frame (by simp [changesOnly])
theorem setSpeaker_acts (s : State) (x : Speaker) (p : SpeakerState) :
    acts [.speakers] s (s.setSpeaker x p) := .of_frame (by simp [changesOnly])
theorem setLeg_acts (s : State) (i : Slot) (l : Leg) : acts [.fare] s (s.setLeg i l) :=
  .of_frame (by simp [changesOnly])
theorem refreshLamps_acts (s : State) : acts [.sign] s (refreshLamps s) := .of_frame (by simp [changesOnly])
theorem derive_acts (s : State) : acts [.sign] s (derive s) := .of_frame (by simp [changesOnly])
theorem countCalibration_acts (s : State) : acts [.retained] s (countCalibration s) :=
  .of_frame (by simp [changesOnly, countCalibration])

/-! ### Tones, the sign, the tender link, totals and the journal -/

theorem requestTone_acts (x : Speaker) (t : Tone) (s : State) :
    acts [.speakers, .link] s (requestTone x t s).1 :=
  ((setSpeaker_acts s x _).seq (raiseDropped_acts x _ _)).widen

theorem askTone_acts (k : ToneKind) (s : State) : acts [.speakers, .link] s (askTone k s) :=
  requestTone_acts _ _ s

theorem pathOpens_acts (x : Speaker) (s : State) : acts [.speakers, .link] s (pathOpens x s) :=
  ((setSpeaker_acts s x _).seq (raiseDropped_acts x _ _)).widen

theorem pathCloses_acts (x : Speaker) (s : State) : acts [.speakers] s (pathCloses x s) := setSpeaker_acts s x _

theorem resign_acts (s : State) : acts [.sign, .link] s (resign s) :=
  ((derive_acts s).seq (reportSign_acts _ _)).widen

theorem resignToAuto_acts (s : State) : acts [.sign, .link] s (resignToAuto s) :=
  (((withSign_acts s _).seq (derive_acts _)).seq (reportSign_acts _ _)).widen

theorem setTender_acts (changed : Bool) (t : TenderLink) (s : State) :
    acts [.tender, .link] s (setTender changed t s) :=
  ((withTender_acts s t).seq (raiseIf_acts _ _ _ _)).widen

theorem sendFrame_acts (m : PartMsg) (s : State) : acts [.tender, .link] s (sendFrame m s) := setTender_acts _ _ s

theorem addTotals_acts (g : Totals → Totals) (s : State) : acts [.shifts] s (addTotals g s) :=
  .of_frame (addTotals_frame g s)

theorem placeRecord_acts (t : Trip) (s : State) : acts [.journal, .link] s (placeRecord t s) :=
  ((withJournal_acts s _).seq (raiseIf_acts _ _ _ _)).widen

/-! ### Tariff changes and the payment interface -/

theorem changeTariff_acts (i : Slot) (n : Nat) (s : State) :
    acts [.fare, .speakers, .link] s (changeTariff i n s) :=
  .ite (fun _ => acts_refl _ _)
    (fun _ => (((setLeg_acts s i _).seq (raise_acts _ _ _)).seq (askTone_acts _ _)).widen)

theorem lockLegs_acts (p : Nat) (slots : List Slot) (s : State) : acts [.fare, .link] s (lockLegs p slots s) :=
  ((withFare_acts s _).seq (raiseLegStates_acts slots _)).widen

theorem unlockLegs_acts (p : Nat) (s : State) : acts [.fare, .link] s (unlockLegs p s) :=
  ((withFare_acts s _).seq (raiseLegStates_acts _ _)).widen

theorem releaseLegs_acts (p : Nat) (s : State) : acts [.fare, .sign, .link] s (releaseLegs p s) :=
  (((withFare_acts s _).seq (raiseLegStates_acts _ _)).seq (resign_acts _)).widen

/-! ### Answers -/

theorem refuse_acts (code : ReplyCode) (s : State) : acts [] s (refuse code s).1 := acts_refl _ _
theorem report_acts (body : List Field) (s : State) : acts [] s (report body s).1 := acts_refl _ _

/-! ### The intercom controller -/

theorem raiseIntercom_acts (s : State) : acts [.link] s (raiseIntercom s) := raise_acts _ _ _

theorem beginTurn_acts (x : Side) (s : State) : acts [.intercom, .speakers, .link] s (beginTurn x s) :=
  ((setIntercom_acts _ s).seq (pathOpens_acts _ _)).widen

theorem takeChannel_acts (s : State) : acts [.intercom, .speakers, .link] s (takeChannel s) := by
  have henter (x : Side) : acts [.intercom, .speakers, .link] s (enterTalk x s) :=
    ((beginTurn_acts x s).seq (raiseIntercom_acts _)).widen
  unfold takeChannel
  split
  · exact .ite (fun _ => henter _) (fun _ => .ite (fun _ => henter _) (fun _ => acts_refl _ _))
  · exact acts_refl _ _

theorem goQuiet_acts (s : State) : acts [.intercom, .speakers] s (goQuiet s) := by
  have hend : acts [.speakers] s (endDemand s) := by
    unfold endDemand
    split
    · exact pathCloses_acts _ _
    · exact acts_refl _ _
  exact (hend.seq (setIntercom_acts _ _)).widen

theorem quietThenTake_acts (s : State) : acts [.intercom, .speakers, .link] s (quietThenTake s) :=
  (((goQuiet_acts s).seq (raiseIntercom_acts _)).seq (takeChannel_acts _)).widen

theorem hangIfSilent_acts (x : Side) (s : State) : acts [.intercom, .link] s (hangIfSilent x s) :=
  .ite (fun _ => ((setIntercom_acts _ s).seq (raiseIntercom_acts _)).widen) (fun _ => acts_refl _ _)

theorem returnToTalk_acts (x : Side) (s : State) : acts [.intercom, .link] s (returnToTalk x s) :=
  ((setIntercom_acts _ s).seq (raiseIntercom_acts _)).widen

theorem endHoldOff_acts (x : Side) (s : State) : acts [.intercom, .speakers, .link] s (endHoldOff x s) :=
  .ite (fun _ => ((setIntercom_acts _ s).seq (takeChannel_acts _)).widen) (fun _ => acts_refl _ _)

theorem voxRises_acts (x : Side) (s : State) : acts [.intercom, .link] s (voxRises x s) :=
  .ite (fun _ => ((setIntercom_acts _ s).seq (returnToTalk_acts _ _)).widen)
    (fun _ => (setIntercom_acts _ s).widen)

theorem voxFalls_acts (x : Side) (s : State) : acts [.intercom, .speakers, .link] s (voxFalls x s) :=
  (((setIntercom_acts _ s).seq (hangIfSilent_acts x _)).seq (endHoldOff_acts x _)).widen

theorem attackExpires_acts (x : Side) (s : State) :
    acts [.intercom, .speakers, .link] s (attackExpires x s) := by
  have hrise (t : State) : acts [.intercom, .speakers, .link] t (voiceRises x t) :=
    .ite (fun _ => (returnToTalk_acts x t).widen) (fun _ => takeChannel_acts t)
  unfold attackExpires
  split
  · exact ((setIntercom_acts _ s).seq (hrise _)).widen
  · exact acts_refl _ _
  · exact acts_refl _ _

theorem pttPresses_acts (s : State) : acts [.intercom, .speakers, .link] s (pttPresses s) := by
  have hover : acts [.intercom, .speakers, .link] s (overrideRear s) :=
    (((pathCloses_acts _ s).seq (beginTurn_acts _ _)).seq (raiseIntercom_acts _)).widen
  unfold pttPresses
  refine .ite (fun _ => acts_refl _ _) (fun _ => ?_)
  cases s.intercom.channel with
  | quiet => exact takeChannel_acts s
  | frontTalk => exact acts_refl _ _
  | hangFront => exact (returnToTalk_acts _ s).widen
  | rearTalk | hangRear => exact hover

theorem hangExpires_acts (s : State) : acts [.intercom, .speakers, .link] s (hangExpires s) := by
  unfold hangExpires
  cases s.intercom.channel with
  | hangFront | hangRear => exact quietThenTake_acts s
  | quiet | frontTalk | rearTalk => exact acts_refl _ _

theorem maxTalkExpires_acts (s : State) : acts [.intercom, .speakers, .link] s (maxTalkExpires s) := by
  unfold maxTalkExpires
  cases s.intercom.channel.side? with
  | none => exact acts_refl _ _
  | some x =>
    exact ((((((goQuiet_acts s).seq (setIntercom_acts _ _)).seq (raiseIntercom_acts _)).seq
      (raise_acts _ _ _)).seq (askTone_acts _ _)).seq (takeChannel_acts _)).widen

theorem changeMode_acts (m : IntercomMode) (s : State) :
    acts [.intercom, .speakers, .link] s (changeMode m s) :=
  (((setIntercom_acts _ s).seq ((acts.ite (fun _ => goQuiet_acts _)
    (fun _ => acts_refl _ _)).seq (raiseIntercom_acts _))).seq (takeChannel_acts _)).widen

theorem storeTimes_acts (a h m : Nat) (s : State) : acts [.intercom, .link] s (storeTimes a h m s) :=
  .ite (fun _ => (setIntercom_acts _ s).widen)
    (fun _ => ((setIntercom_acts _ s).seq (raiseIntercom_acts _)).widen)

theorem answersCall_acts (x : Seat) (s : State) : acts [.intercom, .speakers, .link] s (answersCall x s) :=
  (((setIntercom_acts _ s).seq (raiseIntercom_acts _)).seq (takeChannel_acts _)).widen

theorem raiseCall_acts (x : Seat) (s : State) : acts [.intercom, .speakers, .link] s (raiseCall x s) :=
  .ite (fun _ => ((setIntercom_acts _ s).seq (raise_acts _ _ _)).widen)
    (fun _ => (((setIntercom_acts _ s).seq (raise_acts _ _ _)).seq (askTone_acts _ _)).widen)

theorem pressTaken_acts (x : Seat) (s : State) : acts [.intercom, .speakers, .link] s (pressTaken x s) := by
  unfold pressTaken
  split
  · exact .ite (fun _ => (setIntercom_acts _ s).widen)
      (fun _ => ((setIntercom_acts _ s).seq (raiseCall_acts x _)).widen)
  · exact acts_refl _ _
  · exact acts_refl _ _

theorem windowEnds_acts (s : State) : acts [.intercom, .speakers, .link] s (windowEnds s) := by
  unfold windowEnds
  cases s.intercom.window with
  | none => exact acts_refl _ _
  | some _ =>
    cases s.intercom.channel with
    | rearTalk | hangRear => exact ((setIntercom_acts _ s).seq (quietThenTake_acts _)).widen
    | quiet | frontTalk | hangFront => exact ((setIntercom_acts _ s).seq (raiseIntercom_acts _)).widen

theorem restartIntercom_acts (s : State) :
    acts [.intercom, .speakers, .link] s (restartIntercom s) := by
  have hset : acts [.intercom] s { s with intercom := Intercom.atRestart s.pins } := .of_frame (by simp [changesOnly])
  exact .ite (fun _ => (hset.seq (beginTurn_acts _ _)).widen) (fun _ => hset.widen)

/-! ### The speakers -/

theorem tonePhaseEnds_acts (x : Speaker) (s : State) : acts [.speakers] s (tonePhaseEnds x s) :=
  setSpeaker_acts _ _ _

theorem stopHostOn_acts (x : Speaker) (s : State) : acts [.speakers] s (stopHostOn x s).1 :=
  setSpeaker_acts _ _ _

/-! ### The sign controller -/

theorem finishTest_acts (s : State) : acts [.sign, .link] s (finishTest s) :=
  .ite (fun _ => (((withSign_acts s _).seq (refreshLamps_acts _)).seq (reportSign_acts _ _)).widen)
    (fun _ => acts_refl _ _)

theorem patternPhaseEnds_acts (x : Lamp) (s : State) : acts [.sign, .link] s (patternPhaseEnds x s) :=
  ((withSign_acts s _).seq (finishTest_acts _)).widen

theorem darkTimerExpires_acts (x : Lamp) (s : State) : acts [.sign, .link] s (darkTimerExpires x s) :=
  .ite (fun _ => (((withSign_acts s _).seq (raise_acts _ _ _)).seq (refreshLamps_acts _)).widen)
    (fun _ => acts_refl _ _)

theorem emergencyRises_acts (c : EmergencyCause) (s : State) :
    acts [.sign, .link] s (emergencyRises c s) :=
  ((((withSign_acts s _).seq (refreshLamps_acts _)).seq (raise_acts _ _ _)).seq (reportSign_acts _ _)).widen

theorem emergencyClears_acts (s : State) : acts [.sign, .link] s (emergencyClears s) :=
  (((withSign_acts s _).seq (refreshLamps_acts _)).seq (raise_acts _ _ _)).widen

theorem holdReaches_acts (s : State) : acts [.sign, .link] s (holdReaches s) := by
  unfold holdReaches
  cases s.sign.hold with
  | none => exact acts_refl _ _
  | some h =>
    refine .ite (fun _ => acts_refl _ _) (fun _ => .ite (fun _ => .ite (fun _ => ?_) (fun _ => ?_))
      (fun _ => ?_))
    · exact (withSign_acts s _).widen
    · exact ((withSign_acts s _).seq (emergencyRises_acts _ _)).widen
    · cases s.sign.clearWindow with
      | none => exact (withSign_acts s _).widen
      | some _ => exact ((withSign_acts s _).seq (emergencyClears_acts _)).widen

theorem restartSign_acts (s : State) : acts [.sign] s (restartSign s) :=
  ((withSign_acts s _).seq (derive_acts _)).widen

/-! ### The shift accounts -/

theorem raiseShiftState_acts (s : State) : acts [.link] s (raiseShiftState s) := raise_acts _ _ _

theorem opensShift_acts (driver : Text) (s : State) :
    acts [.odo, .settle, .shifts, .sign, .link] s (opensShift driver s) :=
  (((acts.of_frame (show changesOnly [.odo, .settle, .shifts] s { s with shifts := _, settle := _, odo := _ } by
    simp [changesOnly])).seq (resign_acts _)).seq (raiseShiftState_acts _)).widen

theorem closesShift_acts (s : State) : acts [.shifts, .journal, .sign, .link] s (closesShift s) :=
  (((acts.of_frame (show changesOnly [.shifts, .journal] s { s with shifts := _, journal := _ } by
    simp [changesOnly])).seq (resignToAuto_acts _)).seq (raiseShiftState_acts _)).widen

/-! ### The interval close -/

theorem takeInterval_acts (c : Nat) (s : State) : acts [.odo, .link] s (takeInterval c s) :=
  ((withOdo_acts s _).seq (raiseIf_acts _ _ _ _)).widen

theorem closeOdometry_acts (m : Nat) (hired : Bool) (s : State) :
    acts [.odo, .link] s (closeOdometry m hired s) :=
  ((withOdo_acts s _).seq (raiseIf_acts _ _ _ _)).widen

theorem raiseFareStep_acts (s : State) : acts [.link] s (raiseFareStep s) := raise_acts _ _ _

theorem raiseCap_acts (before : FareEngine) (i : Slot) (s : State) :
    acts [.link] s (raiseCap before i s) := raiseIf_acts _ _ _ _

theorem closeFares_acts (m : Nat) (s : State) : acts [.fare, .link] s (closeFares m s) :=
  ((((((((withFare_acts s _).seq (raiseCap_acts _ .s1 _)).seq (raiseCap_acts _ .s2 _)).seq
    (raiseCap_acts _ .s3 _)).seq (raiseCap_acts _ .s4 _)).seq
    (acts.ite (fun _ => raiseFareStep_acts _) (fun _ => acts_refl _ _))).seq
    (withFare_acts _ _)).seq (raiseLegStates_acts _ _)).widen

theorem closeInterval_acts (s : State) : acts [.odo, .fare, .shifts, .link] s (closeInterval s) :=
  ((((takeInterval_acts _ s).seq (closeFares_acts _ _)).seq (addTotals_acts _ _)).seq
    (closeOdometry_acts _ _ _)).widen

theorem ticks_acts (s : State) : acts [.clock, .odo, .fare, .shifts, .link] s (ticks s) := by
  have hreach (t : State) : acts [.odo, .fare, .shifts, .link] t (tickReachesOdometry t) :=
    ((withOdo_acts t _).seq (closeInterval_acts _)).widen
  exact ((withClock_acts s _).seq (whileRunning_acts (fun _ => hreach _))).widen

/-! ### Tariff changes and legs -/

theorem changeIfFollows_acts (n : Nat) (s : State) (i : Slot) :
    acts [.fare, .speakers, .link] s (changeIfFollows n s i) :=
  .ite (fun _ => changeTariff_acts _ _ _) (fun _ => acts_refl _ _)

theorem boundaryAt_acts (count : Nat) (s : State) :
    acts [.fare, .speakers, .link] s (boundaryAt count s) := by
  unfold boundaryAt
  split
  · exact foldl_acts (changeIfFollows_acts _) _ s
  · exact acts_refl _ _

theorem minuteBoundary_acts (s : State) :
    acts [.clock, .fare, .speakers, .link] s (minuteBoundary s) :=
  .ite (fun _ => .ite (fun _ => ((withClock_acts s _).seq (boundaryAt_acts _ _)).widen)
    (fun _ => acts_refl _ _)) (fun _ => ((withClock_acts s _).seq (boundaryAt_acts _ _)).widen)

theorem catchUp_acts (i : Slot) (s : State) : acts [.fare, .speakers, .link] s (catchUp i s) := by
  unfold catchUp
  split
  · split
    · exact changeTariff_acts _ _ _
    · exact acts_refl _ _
  · exact acts_refl _ _

theorem raiseLegState_acts (i : Slot) (s : State) : acts [.link] s (raiseLegState i s) := raise_acts _ _ _

theorem startsLeg_acts (i : Slot) (l : Leg) (s : State) :
    acts [.fare, .speakers, .sign, .link] s (startsLeg i l s) :=
  ((((withFare_acts s _).seq (raiseLegState_acts i _)).seq (askTone_acts _ _)).seq (resignToAuto_acts _)).widen

theorem voidsLeg_acts (i : Slot) (s : State) :
    acts [.fare, .journal, .shifts, .sign, .link] s (voidsLeg i s) :=
  (((((placeRecord_acts _ s).seq (addTotals_acts _ _)).seq (withFare_acts _ _)).seq
    (raiseLegState_acts i _)).seq (resign_acts _)).widen

theorem fixesTariff_acts (i : Slot) (n : Nat) (s : State) :
    acts [.fare, .speakers, .link] s (fixesTariff i n s) :=
  ((setLeg_acts s i _).seq (changeTariff_acts _ _ _)).widen

theorem addExtra_acts (i : Slot) (k : ExtraKind) (kind amount : Nat) (s : State) :
    acts [.fare, .link] s (addExtra i k kind amount s).1 := by
  simp only [addExtra]
  split
  · exact acts_refl _ _
  · split
    · exact acts_refl _ _
    · split
      · exact acts_refl _ _
      · exact ((setLeg_acts s i _).seq (raiseFareStep_acts _)).widen

theorem removeExtra_acts (i : Slot) (s : State) : acts [.fare, .link] s (removeExtra i s).1 := by
  unfold removeExtra
  split
  · exact acts_refl _ _
  · exact ((setLeg_acts s i _).seq (raiseFareStep_acts _)).widen

/-! ### The settlement unit -/

theorem raisePayment_acts (s : State) : acts [.link] s (raisePayment s) := raise_acts _ _ _

theorem closeUnpaid_acts (x : SessionState) (c : CloseCause) (s : State) :
    acts [.settle, .fare, .link] s (closeUnpaid x c s) :=
  ((((setSession_acts _ s).seq (setTimer_acts _ _)).seq (unlockLegs_acts _ _)).seq
    (raisePayment_acts _)).widen

theorem enterRetryWait_acts (s : State) : acts [.settle, .link] s (enterRetryWait s) :=
  (((setSession_acts _ s).seq (setTimer_acts _ _)).seq (raisePayment_acts _)).widen

theorem endsUnapproved_acts (reason : DeclineReason) (s : State) :
    acts [.settle, .fare, .shifts, .speakers, .link] s (endsUnapproved reason s) := by
  have hdecline := ((setSession_acts (fun p => { p with declineReason := some reason, outstanding := none }) s).seq
    (addTotals_acts Totals.addDecline _)).seq (askTone_acts .declined _)
  exact .ite (fun _ => (hdecline.seq (enterRetryWait_acts _)).widen)
    (fun _ => (hdecline.seq (closeUnpaid_acts _ _ _)).widen)

theorem enterAborting_acts (c : AbortCause) (r : Ref) (s : State) :
    acts [.settle, .tender, .link] s (enterAborting c r s) :=
  ((((sendFrame_acts _ s).seq (setSession_acts _ _)).seq (setTimer_acts _ _)).seq (raisePayment_acts _)).widen

theorem abortEnds_acts (reason : DeclineReason) (s : State) :
    acts [.settle, .fare, .shifts, .speakers, .link] s (abortEnds reason s) := by
  unfold abortEnds
  split
  · exact (closeUnpaid_acts _ _ s).widen
  · exact endsUnapproved_acts _ s

theorem removeStale_acts (r : Ref) (s : State) : acts [.settle] s (removeStale r s) := withSettle_acts _ _
theorem enterStale_acts (r : Ref) (s : State) : acts [.settle] s (enterStale r s) := withSettle_acts _ _

theorem makeReversal_acts (places : Nat) (r : Ref) (amount : Nat) (s : State) :
    acts [.settle, .tender, .shifts, .link] s (makeReversal places r amount s) :=
  (((sendFrame_acts _ s).seq (withSettle_acts _ _)).seq (addTotals_acts _ _)).widen

theorem resendExpires_acts (entry : Nat) (s : State) :
    acts [.settle, .tender, .link] s (resendExpires entry s) := by
  unfold resendExpires
  split
  · exact ((withSettle_acts s _).seq (sendFrame_acts _ _)).widen
  · exact acts_refl _ _

theorem recordsTrips_acts (ps : List Trip) (s : State) :
    acts [.journal, .shifts, .link] s (recordsTrips ps s) :=
  ((foldl_acts (fun t p => placeRecord_acts p t) ps s).seq (addTotals_acts _ _)).widen

theorem settles_acts (close : Session → Session) (paid : List LegPaid) (s : State) :
    acts [.settle, .fare, .journal, .shifts, .sign, .speakers, .link] s (settles close paid s) :=
  ((((((setSession_acts _ s).seq (setTimer_acts _ _)).seq (recordsTrips_acts _ _)).seq
    (releaseLegs_acts _ _)).seq (askTone_acts _ _)).seq (raisePayment_acts _)).widen

theorem settlesByCash_acts (s : State) :
    acts [.settle, .fare, .journal, .shifts, .sign, .speakers, .link] s (settlesByCash s) :=
  settles_acts _ _ s

theorem enterAuthorising_acts (s : State) :
    acts [.settle, .tender, .speakers, .link] s (enterAuthorising s) :=
  (((((setSession_acts _ s).seq (sendFrame_acts _ _)).seq (withSettle_acts _ _)).seq
    (askTone_acts _ _)).seq (raisePayment_acts _)).widen

theorem enterTipWait_acts (s : State) : acts [.settle, .speakers, .link] s (enterTipWait s) :=
  ((((setSession_acts _ s).seq (setTimer_acts _ _)).seq (askTone_acts _ _)).seq (raisePayment_acts _)).widen

theorem tipExpires_acts (s : State) : acts [.settle, .tender, .speakers, .link] s (tipExpires s) := by
  unfold tipExpires
  split
  · exact ((setSession_acts _ s).seq (enterAuthorising_acts _)).widen
  · exact acts_refl _ _

theorem takesTip_acts (asked : Nat) (s : State) :
    acts [.settle, .tender, .speakers, .link] s (takesTip asked s).1 :=
  ((setSession_acts _ s).seq (enterAuthorising_acts _)).widen

theorem takesProgress_acts (r : Ref) (x : Stage) (s : State) :
    acts [.settle, .link] s (takesProgress r x s) :=
  .ite (fun _ => (((setSession_acts _ s).seq (setTimer_acts _ _)).seq (raisePayment_acts _)).widen)
    (fun _ => acts_refl _ _)

theorem takesLateApproval_acts (r : Ref) (amount : Nat) (s : State) :
    acts [.settle, .tender, .shifts, .link] s (takesLateApproval r amount s) :=
  ((((makeReversal_acts _ _ _ s).seq (removeStale_acts _ _)).seq (addTotals_acts _ _)).seq
    (raise_acts _ _ _)).widen

theorem approves_acts (r : Ref) (amount : Nat) (authCode : Text) (s : State) :
    acts [.settle, .tender, .fare, .journal, .shifts, .sign, .speakers, .link] s
      (approves r amount authCode s) := by
  have htake : acts [.settle, .tender, .fare, .journal, .shifts, .sign, .speakers, .link] s
      (takesApproval r amount authCode s) :=
    .ite (fun _ => ((removeStale_acts r s).seq (settles_acts _ _ _)).widen)
      (fun _ => (((removeStale_acts r s).seq (makeReversal_acts _ _ _ _)).seq (abortEnds_acts _ _)).widen)
  exact .ite (fun _ => htake) (fun _ => (takesLateApproval_acts _ _ s).widen)

theorem declines_acts (r : Ref) (reason : Nat) (s : State) :
    acts [.settle, .fare, .shifts, .speakers, .link] s (declines r reason s) := by
  refine .ite (fun _ => ?_) (fun _ => (removeStale_acts r s).widen)
  split
  · exact ((removeStale_acts r s).seq (abortEnds_acts _ _)).widen
  · exact ((removeStale_acts r s).seq (endsUnapproved_acts _ _)).widen

theorem confirmsAbort_acts (r : Ref) (s : State) :
    acts [.settle, .fare, .shifts, .speakers, .link] s (confirmsAbort r s) := by
  refine .ite (fun _ => ?_) (fun _ => (removeStale_acts r s).widen)
  split
  · exact ((removeStale_acts r s).seq (abortEnds_acts _ _)).widen
  · exact acts_refl _ _

theorem responseExpires_acts (s : State) : acts [.settle, .tender, .link] s (responseExpires s) := by
  unfold responseExpires
  split
  · exact enterAborting_acts _ _ s
  · exact acts_refl _ _

theorem abortExpires_acts (s : State) :
    acts [.settle, .fare, .shifts, .speakers, .link] s (abortExpires s) := by
  unfold abortExpires
  split
  · exact ((enterStale_acts _ s).seq (abortEnds_acts _ _)).widen
  · exact acts_refl _ _

theorem retryIdleExpires_acts (s : State) : acts [.settle, .fare, .link] s (retryIdleExpires s) := by
  unfold retryIdleExpires
  split
  · exact closeUnpaid_acts _ _ s
  · exact acts_refl _ _

theorem beginsPayment_acts (slots : List Slot) (t : Tender) (offer : Bool) (s : State) :
    acts [.settle, .fare, .link] s (beginsPayment slots t offer s) :=
  ((withSettle_acts s _).seq (lockLegs_acts _ _ _)).widen

theorem beginsBy_acts (slots : List Slot) (offer : Bool) (s : State) (t : Tender) :
    acts [.settle, .fare, .tender, .journal, .shifts, .sign, .speakers, .link] s
      (beginsBy slots offer s t).1 := by
  cases t with
  | card =>
    exact ((beginsPayment_acts slots .card offer s).seq (acts.ite
      (fun _ => (enterTipWait_acts _).widen (more := [.settle, .tender, .speakers, .link]))
      (fun _ => enterAuthorising_acts _))).widen
  | cash => exact ((beginsPayment_acts slots .cash offer s).seq (settlesByCash_acts _)).widen

/-! ### The tender link -/

theorem frameSent_acts (s : State) : acts [.tender] s (frameSent s) :=
  .ite (fun _ => withTender_acts _ _) (fun _ => acts_refl _ _)

theorem sendTimerExpires_acts (s : State) : acts [.tender, .link] s (sendTimerExpires s) :=
  .ite (fun _ => acts_refl _ _) (fun _ => setTender_acts _ _ _)

theorem byteArrives_acts (b : Byte) (gap : Bool) (s : State) :
    acts [.tender, .link] s (byteArrives b gap s) :=
  .ite (fun _ => setTender_acts _ _ _) (fun _ => (withTender_acts _ _).widen)

theorem takesStatus_acts (x : Readiness) (n : Nat) (s : State) :
    acts [.tender, .link] s (takesStatus x n s) := setTender_acts _ _ _

theorem frameAlive_acts (s : State) : acts [.tender, .link] s (frameAlive s) := setTender_acts _ _ _

theorem frameComplete_acts (kind : Byte) (body : List Byte) (s : State) :
    acts [.tender, .link] s (frameComplete kind body s) := by
  unfold frameComplete
  split
  · exact ((frameAlive_acts s).seq (takesStatus_acts _ _ _)).widen
  · exact ((frameAlive_acts s).seq (withTender_acts _ _)).widen
  · exact ((frameAlive_acts s).seq (withTender_acts _ _)).widen

theorem checkFrame_acts (taken : List Byte) (s : State) :
    acts [.tender, .link] s (checkFrame taken s) := by
  unfold checkFrame
  exact .ite (fun _ => ((withTender_acts s _).seq (frameComplete_acts _ _ _)).widen)
    (fun _ => (withTender_acts s _).widen)

theorem assembleByte_acts (taken : List Byte) (b : Byte) (s : State) :
    acts [.tender, .link] s (assembleByte taken b s) := by
  unfold assembleByte
  split
  · exact .ite (fun _ => (withTender_acts s _).widen) (fun _ => (withTender_acts s _).widen)
  · exact .ite (fun _ => (withTender_acts s _).widen) (fun _ => checkFrame_acts _ s)

theorem readByte_acts (b : RingByte) (s : State) : acts [.tender, .link] s (readByte b s) := by
  unfold readByte
  split
  · exact (withTender_acts s _).widen
  · exact .ite (fun _ => (withTender_acts s _).widen) (fun _ => assembleByte_acts _ _ s)

theorem readerTakes_acts (s : State) : acts [.tender, .link] s (readerTakes s) := by
  unfold readerTakes
  split
  · exact ((withTender_acts s _).seq (readByte_acts _ _)).widen
  · exact acts_refl _ _

theorem heartbeatExpires_acts (s : State) : acts [.tender, .link] s (heartbeatExpires s) :=
  ((setTender_acts _ _ s).seq (sendFrame_acts _ _)).widen

/-! ### Supply, restart and factory clear -/

theorem stopBlocks_acts (s : State) :
    acts [.odo, .settle, .tender, .sign, .intercom, .speakers, .clock, .link] s (stopBlocks s) :=
  ⟨by simp [changesOnly, stopBlocks], fun _ => noticesKept_restarted rfl⟩

theorem clearRetained_acts (s : State) :
    acts [.odo, .fare, .settle, .shifts, .journal, .sign, .retained] s (clearRetained s) :=
  .of_frame (by simp [changesOnly, clearRetained])

theorem reportPayment_acts (was : SessionState) (s : State) : acts [.link] s (reportPayment was s) :=
  .ite (fun _ => acts_refl _ _) (fun _ => raisePayment_acts s)

theorem factoryClears_acts (s : State) :
    acts [.odo, .fare, .settle, .shifts, .journal, .sign, .retained, .link] s (factoryClears s) :=
  ((((((withOdo_acts s _).seq (clearRetained_acts _)).seq (resign_acts _)).seq (raiseShiftState_acts _)).seq
    (raiseIf_acts _ _ _ _)).seq (reportPayment_acts _ _)).widen

theorem restoreSession_acts (s : State) :
    acts [.fare, .settle, .tender, .link] s (restoreSession s) := by
  simp only [restoreSession]
  split
  · exact ((withFare_acts s _).seq (setSession_acts _ _)).widen
  · exact (((sendFrame_acts _ s).seq (setSession_acts _ _)).seq (setTimer_acts _ _)).widen
  · exact ((sendFrame_acts _ s).seq (setTimer_acts _ _)).widen
  · exact (setTimer_acts _ s).widen
  · exact acts_refl _ _

theorem resendAll_acts (s : State) : acts [.settle, .tender, .link] s (resendAll s) :=
  ((withSettle_acts s _).seq (foldl_acts (fun _ _ => sendFrame_acts _ _) _ _)).widen

theorem restoreMoney_acts (s : State) : acts [.fare, .settle, .tender, .link] s (restoreMoney s) :=
  ((((withFare_acts s _).seq (restoreSession_acts _)).seq (resendAll_acts _)).seq (sendFrame_acts _ _)).widen

theorem restartBlocks_acts (s : State) :
    acts [.odo, .fare, .settle, .tender, .sign, .intercom, .speakers, .link] s (restartBlocks s) :=
  ((((acts.mk (parts := [.odo, .tender, .speakers, .link]) (t := restartVolatile s)
    (by simp [changesOnly, restartVolatile]) (fun _ => noticesKept_restarted rfl)).seq (restoreMoney_acts _)).seq (restartSign_acts _)).seq
    (restartIntercom_acts _)).widen

theorem restartNotices_acts (e : FareEngine) (was : SessionState) (valid : Bool) (gap : Option Nat) (s : State) :
    acts [.link] s (restartNotices e was valid gap s) :=
  ((((raiseLegStates_acts _ s).seq (reportPayment_acts _ _)).seq (raiseIf_acts _ _ _ _)).seq
    (raise_acts _ _ _)).widen

end Sys2Proof.Machine
end

