-- ==== Sys2Proof/Proofs/Commands.lean ====
section
/-!
PROOF. What each command may change: the rule of each host request, each event that takes no frame, and how a
condition that these keep is kept by the requests and frames that the control link takes, and so by every step.
-/

set_option Elab.async false

namespace Sys2Proof.Machine

/-! ### The parts that a command may change -/

/-- The parts of the state that the rule of a request or an event may change. -/
def blocksOf : Instr → List Block
  | .dpulseConfig _ _ => [.odo, .retained]
  | .calSetK _ => [.odo, .retained, .sign, .link]
  | .calMeasureStart | .calMeasureStop => [.odo]
  | .tariffWrite _ _ => [.fare, .retained, .sign, .link]
  | .scheduleWrite _ _ _ _ | .extraKindWrite _ _ _ _ _ => [.fare, .retained]
  | .legStart _ _ _ => [.fare, .speakers, .sign, .link]
  | .legStop _ | .legExtraAdd _ _ _ | .legExtraRemove _ => [.fare, .link]
  | .legResume _ | .legTariff _ _ => [.fare, .speakers, .link]
  | .legVoid _ => [.fare, .journal, .shifts, .sign, .link]
  | .shareSet _ => [.settle, .sign, .link]
  | .paySettingsWrite _ => [.settle]
  | .payBegin _ _ _ => [.settle, .fare, .tender, .journal, .shifts, .sign, .speakers, .link]
  | .payTip _ _ | .payAuthorise | .tipTimerExpiry => [.settle, .tender, .speakers, .link]
  | .payCash => [.settle, .fare, .journal, .shifts, .sign, .speakers, .link]
  | .payCancel => [.settle, .fare, .tender, .link]
  | .terminalStatus _ | .tlFrameSent => [.tender]
  | .shiftOpen _ => [.odo, .settle, .shifts, .sign, .link]
  | .shiftClose => [.shifts, .journal, .sign, .link]
  | .reportRead _ => [.shifts]
  | .tripRead _ | .tripNextUnread => [.journal]
  | .signMode _ _ | .lampTest | .emergencyRaise | .patternPhaseEnd _ | .darkTimerExpiry _ | .emergHold1s =>
    [.sign, .link]
  | .lampFaultClear _ | .patternWrite _ _ _ _ _ _ | .clearWindowEnd => [.sign]
  | .intercomMode _ | .callAnswer | .attackExpiry _ | .hangTimerExpiry | .maxTalkExpiry | .callPressTaken _
  | .callWindowEnd => [.intercom, .speakers, .link]
  | .intercomSettings _ _ _ | .intercomDefaults | .callClear => [.intercom, .link]
  | .tonePlay _ _ _ _ _ _ => [.speakers, .link]
  | .toneStop _ | .tonePhaseEnd _ => [.speakers]
  | .clockSet _ _ _ _ _ _ => [.clock]
  | .factoryClear => [.odo, .fare, .settle, .shifts, .journal, .sign, .retained, .link]
  | .linkConfig _ | .linkStatus _ | .linkReset | .noticeMode _ | .noticeMask _ _ | .noticeFetch | .echoOn
  | .echoOff | .controlGap | .lineBreak _ | .noticeFrameStart | .noticeFrameEnd => [.link]
  | .dpulseChange _ | .calenChange _ => [.pins, .odo]
  | .filterWindowExpiry => [.odo]
  | .secondTick | .clockWrap => [.clock, .odo, .fare, .shifts, .link]
  | .minuteBoundary => [.clock, .fare, .speakers, .link]
  | .responseTimerExpiry | .resendTimerExpiry _ => [.settle, .tender, .link]
  | .abortTimerExpiry => [.settle, .fare, .shifts, .speakers, .link]
  | .retryIdleTimerExpiry => [.settle, .fare, .link]
  | .tlByteArrival _ _ | .frameReaderTake | .tStatus _ _ | .heartbeatExpiry | .sendTimerExpiry => [.tender, .link]
  | .tProgress _ _ => [.tender, .settle, .link]
  | .tApproved _ _ _ => [.settle, .tender, .fare, .journal, .shifts, .sign, .speakers, .link]
  | .tDeclined _ _ | .tAborted _ => [.tender, .settle, .fare, .shifts, .speakers, .link]
  | .tReversed _ => [.tender, .settle]
  | .tlCtsChange _ => [.pins, .tender]
  | .lampSenseChange _ _ | .emergChange _ => [.pins, .sign]
  | .voxChange _ _ | .pttPress | .pttRelease => [.pins, .intercom, .speakers, .link]
  | .callButtonChange _ _ => [.pins, .intercom]
  | .supplyFail =>
    [.power, .odo, .settle, .tender, .sign, .intercom, .speakers, .clock, .retained, .link]
  | .resetnAssert => [.power, .odo, .settle, .tender, .sign, .intercom, .speakers, .clock, .link]
  | .batteryFail => [.clock, .retained, .freeCount]
  | .restart =>
    [.power, .odo, .fare, .settle, .tender, .shifts, .journal, .sign, .intercom, .speakers, .clock, .retained, .link]
  | _ => []

/-! ### The condition on the notice queue, at the link (R172) -/

/-- The queue holds one notice of each kind at most, and only of enabled kinds. -/
def ControlLink.queueKept (l : ControlLink) : Prop :=
  (l.queue.map Notice.kind).Nodup ∧ ∀ n ∈ l.queue, l.isEnabled n.kind = true

theorem noticesKept_iff (s : State) : noticesKept s ↔ s.link.queueKept := Iff.rfl

/-- A change of the link that leaves queue and enabled set. -/
theorem queueKept_congr {l l' : ControlLink} (hq : l'.queue = l.queue) (he : l'.enabled = l.enabled) :
    l.queueKept → l'.queueKept := by
  unfold ControlLink.queueKept ControlLink.isEnabled
  rw [hq, he]
  exact id

theorem queueKept_nil {l : ControlLink} (h : l.queue = []) : l.queueKept := by
  simp [ControlLink.queueKept, h]

/-- The queue may lose notices. -/
theorem queueKept_sublist {l l' : ControlLink} (hq : l'.queue.Sublist l.queue) (he : l'.enabled = l.enabled)
    (h : l.queueKept) : l'.queueKept := by
  obtain ⟨hnodup, hen⟩ := h
  refine ⟨hnodup.sublist (hq.map _), fun n hn => ?_⟩
  have := hen n (hq.subset hn)
  simpa [ControlLink.isEnabled, he] using this

theorem queueKept_enable (l : ControlLink) (set : BitVec 20) (h : l.queueKept) : (l.enable set).queueKept := by
  refine ⟨h.1.sublist ((List.filter_sublist).map _), fun n hn => ?_⟩
  simpa [ControlLink.isEnabled, ControlLink.enable] using (List.mem_filter.mp hn).2

theorem setLink_frame (g : ControlLink → ControlLink) (s : State) : changesOnly [.link] s (setLink g s) := by
  simp [changesOnly]

/-- A change of the link beside the notice queue and the enabled set. -/
theorem link_acts {s t : State} (h : changesOnly [.link] s t) (hq : t.link.queue = s.link.queue)
    (he : t.link.enabled = s.link.enabled) : acts [.link] s t :=
  ⟨h, queueKept_congr hq he⟩

theorem queueKept_gap (l : ControlLink) (h : l.queueKept) : l.gap.queueKept := by
  rw [ControlLink.gap_eq]
  exact queueKept_congr (l := l) rfl rfl h

theorem queueKept_reset (l : ControlLink) : l.reset.queueKept := queueKept_nil rfl

theorem queueKept_beginNotice (l : ControlLink) (h : l.queueKept) : l.beginNotice.queueKept := by
  unfold ControlLink.beginNotice
  split
  · exact queueKept_sublist (List.drop_sublist 1 l.queue) rfl h
  · exact h

/-! ### The rule of each request -/

theorem takeDpulseConfig_acts (p w : Nat) (s : State) : acts [.odo, .retained] s (takeDpulseConfig p w s).1 := by
  unfold takeDpulseConfig
  split
  · exact acts_refl _ _
  · split
    · exact ((withOdo_acts s _).seq (countCalibration_acts _)).widen
    · exact acts_refl _ _

theorem takeCalSetK_acts (k : Nat) (s : State) : acts [.odo, .retained, .sign, .link] s (takeCalSetK k s).1 := by
  unfold takeCalSetK
  split
  · exact acts_refl _ _
  · split
    · exact acts_refl _ _
    · exact (((withOdo_acts s _).seq (countCalibration_acts _)).seq (resign_acts _)).widen

theorem takeCalMeasureStart_acts (s : State) : acts [.odo] s (takeCalMeasureStart s).1 := by
  unfold takeCalMeasureStart
  split
  · exact acts_refl _ _
  · split
    · exact withOdo_acts _ _
    · exact withOdo_acts _ _
    all_goals exact acts_refl _ _

theorem takeCalMeasureStop_acts (s : State) : acts [.odo] s (takeCalMeasureStop s).1 := by
  unfold takeCalMeasureStop
  split
  · exact acts_refl _ _
  · split
    · exact withOdo_acts _ _
    all_goals exact acts_refl _ _

theorem takeTariffWrite_acts (n : Nat) (f : TariffFields) (s : State) :
    acts [.fare, .retained, .sign, .link] s (takeTariffWrite n f s).1 := by
  unfold takeTariffWrite
  split
  · exact acts_refl _ _
  · split
    · exact (((withFare_acts s _).seq (countCalibration_acts _)).seq (resign_acts _)).widen
    · exact acts_refl _ _

theorem takeScheduleWrite_acts (e d m t : Nat) (s : State) :
    acts [.fare, .retained] s (takeScheduleWrite e d m t s).1 := by
  unfold takeScheduleWrite
  split
  · exact acts_refl _ _
  · split
    · split
      · exact acts_refl _ _
      · exact ((withFare_acts s _).seq (countCalibration_acts _)).widen
    · exact acts_refl _ _

theorem takeExtraKindWrite_acts (n d : Nat) (name : Text) (a l : Nat) (s : State) :
    acts [.fare, .retained] s (takeExtraKindWrite n d name a l s).1 := by
  unfold takeExtraKindWrite
  split
  · exact acts_refl _ _
  · split
    · exact ((withFare_acts s _).seq (countCalibration_acts _)).widen
    · exact acts_refl _ _

theorem takeTariffRead_acts (n : Nat) (s : State) : acts [] s (takeTariffRead n s).1 := by
  unfold takeTariffRead
  split <;> exact acts_refl _ _

theorem takeExtraKindRead_acts (n : Nat) (s : State) : acts [] s (takeExtraKindRead n s).1 := by
  unfold takeExtraKindRead
  split <;> exact acts_refl _ _

theorem takeLegRead_acts (n : Nat) (s : State) : acts [] s (takeLegRead n s).1 := by
  unfold takeLegRead
  split <;> exact acts_refl _ _

theorem takeLegStart_acts (x t c : Nat) (s : State) :
    acts [.fare, .speakers, .sign, .link] s (takeLegStart x t c s).1 := by
  simp only [takeLegStart]
  repeat' split
  all_goals first
    | exact acts_refl _ _
    | exact startsLeg_acts _ _ s

theorem takeLegStop_acts (i : Nat) (s : State) : acts [.fare, .link] s (takeLegStop i s).1 := by
  unfold takeLegStop
  split
  · exact acts_refl _ _
  · split
    · exact acts_refl _ _
    · exact ((setLeg_acts s _ _).seq (raiseLegState_acts _ _)).widen
    all_goals exact acts_refl _ _

theorem takeLegResume_acts (i : Nat) (s : State) : acts [.fare, .speakers, .link] s (takeLegResume i s).1 := by
  unfold takeLegResume
  split
  · exact acts_refl _ _
  · split
    · exact acts_refl _ _
    · exact acts_refl _ _
    · exact acts_refl _ _
    · exact ((setLeg_acts s _ _).seq (raiseLegState_acts _ _)).widen
    · exact (((setLeg_acts s _ _).seq (raiseLegState_acts _ _)).seq (catchUp_acts _ _)).widen

theorem takeLegVoid_acts (i : Nat) (s : State) :
    acts [.fare, .journal, .shifts, .sign, .link] s (takeLegVoid i s).1 := by
  unfold takeLegVoid
  repeat' split
  all_goals first
    | exact acts_refl _ _
    | exact voidsLeg_acts _ s

theorem takeLegTariff_acts (i t : Nat) (s : State) : acts [.fare, .speakers, .link] s (takeLegTariff i t s).1 := by
  simp only [takeLegTariff]
  repeat' split
  all_goals first
    | exact acts_refl _ _
    | exact fixesTariff_acts _ _ s

theorem takeLegExtraAdd_acts (i k a : Nat) (s : State) : acts [.fare, .link] s (takeLegExtraAdd i k a s).1 := by
  unfold takeLegExtraAdd
  repeat' split
  all_goals first
    | exact acts_refl _ _
    | exact addExtra_acts _ _ _ _ s

theorem takeLegExtraRemove_acts (i : Nat) (s : State) : acts [.fare, .link] s (takeLegExtraRemove i s).1 := by
  unfold takeLegExtraRemove
  repeat' split
  all_goals first
    | exact acts_refl _ _
    | exact removeExtra_acts _ s

theorem takeShareSet_acts (b : Nat) (s : State) : acts [.settle, .sign, .link] s (takeShareSet b s).1 := by
  unfold takeShareSet
  split
  · exact ((withSettle_acts s _).seq (resign_acts _)).widen
  · exact acts_refl _ _

theorem takePaySettingsWrite_acts (f : SettingsFields) (s : State) :
    acts [.settle] s (takePaySettingsWrite f s).1 := by
  unfold takePaySettingsWrite
  split
  · exact acts_refl _ _
  · split
    · exact acts_refl _ _
    · exact withSettle_acts _ _

theorem takePayBegin_acts (l t o : Nat) (s : State) :
    acts [.settle, .fare, .tender, .journal, .shifts, .sign, .speakers, .link] s (takePayBegin l t o s).1 := by
  unfold takePayBegin
  repeat' split
  all_goals first
    | exact acts_refl _ _
    | exact beginsBy_acts _ _ s _

theorem takePayTip_acts (x v : Nat) (s : State) :
    acts [.settle, .tender, .speakers, .link] s (takePayTip x v s).1 := by
  unfold takePayTip
  repeat' split
  all_goals first
    | exact acts_refl _ _
    | exact takesTip_acts _ s

theorem takePayAuthorise_acts (s : State) : acts [.settle, .tender, .speakers, .link] s (takePayAuthorise s).1 := by
  simp only [takePayAuthorise]
  repeat' split
  all_goals first
    | exact acts_refl _ _
    | exact ((setSession_acts _ s).seq (enterAuthorising_acts _)).widen

theorem takePayCash_acts (s : State) :
    acts [.settle, .fare, .journal, .shifts, .sign, .speakers, .link] s (takePayCash s).1 := by
  simp only [takePayCash]
  split
  · exact settlesByCash_acts s
  · exact acts_refl _ _

theorem takePayCancel_acts (s : State) : acts [.settle, .fare, .tender, .link] s (takePayCancel s).1 := by
  unfold takePayCancel
  repeat' split
  all_goals first
    | exact acts_refl _ _
    | exact (closeUnpaid_acts _ _ s).widen
    | exact (enterAborting_acts _ _ s).widen

theorem takeTerminalStatus_acts (c : Nat) (s : State) : acts [.tender] s (takeTerminalStatus c s).1 := by
  unfold takeTerminalStatus
  split
  · exact acts_refl _ _
  · exact withTender_acts _ _

theorem takeShiftOpen_acts (d : Text) (s : State) :
    acts [.odo, .settle, .shifts, .sign, .link] s (takeShiftOpen d s).1 := by
  simp only [takeShiftOpen]
  repeat' split
  all_goals first
    | exact acts_refl _ _
    | exact opensShift_acts _ s

theorem takeShiftClose_acts (s : State) : acts [.shifts, .journal, .sign, .link] s (takeShiftClose s).1 := by
  simp only [takeShiftClose]
  repeat' split
  all_goals first
    | exact acts_refl _ _
    | exact closesShift_acts s

theorem takeReportRead_acts (n : Nat) (s : State) : acts [.shifts] s (takeReportRead n s).1 := by
  unfold takeReportRead
  split
  · exact acts_refl _ _
  · split
    · exact withShifts_acts _ _
    · exact acts_refl _ _

theorem takeTripRead_acts (n : Nat) (s : State) : acts [.journal] s (takeTripRead n s).1 := by
  unfold takeTripRead
  split
  · exact acts_refl _ _
  · split
    · exact withJournal_acts _ _
    · exact acts_refl _ _

theorem takeTripNextUnread_acts (s : State) : acts [.journal] s (takeTripNextUnread s).1 := by
  unfold takeTripNextUnread
  split
  · exact withJournal_acts _ _
  · exact acts_refl _ _

theorem takeSignMode_acts (m c : Nat) (s : State) : acts [.sign, .link] s (takeSignMode m c s).1 := by
  have happly (g : Sign) : acts [.sign, .link] s (reportSign s.sign (derive { s with sign := g })) :=
    (((withSign_acts s g).seq (derive_acts _)).seq (reportSign_acts _ _)).widen
  simp only [takeSignMode]
  repeat' split
  all_goals first
    | exact acts_refl _ _
    | exact happly _

theorem takeLampTest_acts (s : State) : acts [.sign, .link] s (takeLampTest s).1 := by
  simp only [takeLampTest]
  split
  · exact acts_refl _ _
  · exact (((withSign_acts s _).seq (refreshLamps_acts _)).seq (reportSign_acts _ _)).widen

theorem takeLampFaultClear_acts (x : Nat) (s : State) : acts [.sign] s (takeLampFaultClear x s).1 := by
  simp only [takeLampFaultClear]
  split
  · exact acts_refl _ _
  · exact ((withSign_acts s _).seq (refreshLamps_acts _)).widen

theorem takePatternWrite_acts (n a b c g m : Nat) (s : State) :
    acts [.sign] s (takePatternWrite n a b c g m s).1 := by
  simp only [takePatternWrite]
  repeat' split
  all_goals first
    | exact acts_refl _ _
    | exact withSign_acts _ _

theorem takeEmergencyRaise_acts (s : State) : acts [.sign, .link] s (takeEmergencyRaise s).1 :=
  .ite (fun _ => acts_refl _ _) (fun _ => emergencyRises_acts _ s)

theorem takeIntercomMode_acts (m : Nat) (s : State) :
    acts [.intercom, .speakers, .link] s (takeIntercomMode m s).1 := by
  simp only [takeIntercomMode]
  split
  · exact acts_refl _ _
  · exact .ite (fun _ => acts_refl _ _) (fun _ => changeMode_acts _ s)

theorem takeCallAnswer_acts (s : State) : acts [.intercom, .speakers, .link] s (takeCallAnswer s).1 := by
  simp only [takeCallAnswer]
  split
  · exact answersCall_acts _ s
  · exact acts_refl _ _

theorem takeTonePlay_acts (x n p a : Nat) (b : Int) (r : Nat) (s : State) :
    acts [.speakers, .link] s (takeTonePlay x n p a b r s).1 := by
  unfold takeTonePlay
  split
  · exact requestTone_acts _ _ s
  · exact acts_refl _ _

/-- The host tones of several speakers ended one after the other. -/
theorem stopHostOn_foldl_acts (xs : List Speaker) (a : State × Nat) :
    acts [.speakers] a.1
      (xs.foldl (fun a x => let (t, m) := stopHostOn x a.1; (t, a.2 + m)) a).1 := by
  induction xs generalizing a with
  | nil => exact acts_refl _ _
  | cons x xs ih => exact (stopHostOn_acts x a.1).trans (ih ((stopHostOn x a.1).1, a.2 + (stopHostOn x a.1).2))

theorem takeToneStop_acts (x : Nat) (s : State) : acts [.speakers] s (takeToneStop x s).1 := by
  unfold takeToneStop
  split
  · exact stopHostOn_foldl_acts _ (s, 0)
  · exact acts_refl _ _

theorem takeClockSet_acts (t : DateTime) (s : State) : acts [.clock] s (takeClockSet t s).1 := by
  unfold takeClockSet
  split
  · exact acts_refl _ _
  · split
    · exact acts_refl _ _
    · exact withClock_acts _ _

theorem takeFactoryClear_acts (s : State) :
    acts [.odo, .fare, .settle, .shifts, .journal, .sign, .retained, .link] s (takeFactoryClear s).1 := by
  unfold takeFactoryClear
  split
  · exact acts_refl _ _
  · exact factoryClears_acts s

theorem takeLinkConfig_acts (r : Nat) (s : State) : acts [.link] s (takeLinkConfig r s).1 := by
  unfold takeLinkConfig
  split
  · exact acts_refl _ _
  · split
    · exact acts_refl _ _
    · exact link_acts (setLink_frame _ s) rfl rfl

theorem takeLinkStatus_acts (c : Nat) (s : State) : acts [.link] s (takeLinkStatus c s).1 := by
  unfold takeLinkStatus
  split
  · exact link_acts (setLink_frame _ s) rfl rfl
  · exact acts_refl _ _

theorem takeNoticeMode_acts (m : Nat) (s : State) : acts [.link] s (takeNoticeMode m s).1 := by
  unfold takeNoticeMode
  split
  · exact link_acts (setLink_frame _ s) rfl rfl
  · exact acts_refl _ _

theorem takeNoticeMask_acts (o k : Nat) (s : State) : acts [.link] s (takeNoticeMask o k s).1 := by
  unfold takeNoticeMask
  split
  · exact acts_refl _ _
  · split
    · exact ⟨setLink_frame _ s, queueKept_enable _ _⟩
    · exact acts_refl _ _

theorem takeNoticeFetch_acts (s : State) : acts [.link] s (takeNoticeFetch s).1 := by
  unfold takeNoticeFetch
  split
  · next n ns hq => exact ⟨setLink_frame _ s, queueKept_sublist (by simp [hq]) rfl⟩
  · exact acts_refl _ _

theorem takeEchoOff_acts (s : State) : acts [.link] s (takeEchoOff s).1 := by
  unfold takeEchoOff
  split
  · exact link_acts (setLink_frame _ s) rfl rfl
  · exact acts_refl _ _

/-- The rule of a request changes the parts that the request names. -/
theorem rule_acts : ∀ (c : Instr) (rule : State → Taken), ruleOf c = some rule →
    ∀ s, acts (blocksOf c) s (rule s).1
  | .odoStatus, _, rfl, s => acts_refl _ s
  | .dpulseConfig _ _, _, rfl, s => takeDpulseConfig_acts _ _ s
  | .calSetK _, _, rfl, s => takeCalSetK_acts _ s
  | .calMeasureStart, _, rfl, s => takeCalMeasureStart_acts s
  | .calMeasureStop, _, rfl, s => takeCalMeasureStop_acts s
  | .tariffWrite _ _, _, rfl, s => takeTariffWrite_acts _ _ s
  | .tariffRead _, _, rfl, s => takeTariffRead_acts _ s
  | .scheduleWrite _ _ _ _, _, rfl, s => takeScheduleWrite_acts _ _ _ _ s
  | .scheduleRead, _, rfl, s => acts_refl _ s
  | .extraKindWrite _ _ _ _ _, _, rfl, s => takeExtraKindWrite_acts _ _ _ _ _ s
  | .extraKindRead _, _, rfl, s => takeExtraKindRead_acts _ s
  | .calStatus, _, rfl, s => acts_refl _ s
  | .legStart _ _ _, _, rfl, s => takeLegStart_acts _ _ _ s
  | .legStop _, _, rfl, s => takeLegStop_acts _ s
  | .legResume _, _, rfl, s => takeLegResume_acts _ s
  | .legVoid _, _, rfl, s => takeLegVoid_acts _ s
  | .legTariff _ _, _, rfl, s => takeLegTariff_acts _ _ s
  | .legExtraAdd _ _ _, _, rfl, s => takeLegExtraAdd_acts _ _ _ s
  | .legExtraRemove _, _, rfl, s => takeLegExtraRemove_acts _ s
  | .legRead _, _, rfl, s => takeLegRead_acts _ s
  | .shareSet _, _, rfl, s => takeShareSet_acts _ s
  | .paySettingsWrite _, _, rfl, s => takePaySettingsWrite_acts _ s
  | .paySettingsRead, _, rfl, s => acts_refl _ s
  | .payBegin _ _ _, _, rfl, s => takePayBegin_acts _ _ _ s
  | .payTip _ _, _, rfl, s => takePayTip_acts _ _ s
  | .payAuthorise, _, rfl, s => takePayAuthorise_acts s
  | .payCash, _, rfl, s => takePayCash_acts s
  | .payCancel, _, rfl, s => takePayCancel_acts s
  | .payStatus, _, rfl, s => acts_refl _ s
  | .terminalStatus _, _, rfl, s => takeTerminalStatus_acts _ s
  | .shiftOpen _, _, rfl, s => takeShiftOpen_acts _ s
  | .shiftClose, _, rfl, s => takeShiftClose_acts s
  | .shiftRead, _, rfl, s => acts_refl _ s
  | .reportList, _, rfl, s => acts_refl _ s
  | .reportRead _, _, rfl, s => takeReportRead_acts _ s
  | .tripRead _, _, rfl, s => takeTripRead_acts _ s
  | .tripNextUnread, _, rfl, s => takeTripNextUnread_acts s
  | .journalStatus, _, rfl, s => acts_refl _ s
  | .signMode _ _, _, rfl, s => takeSignMode_acts _ _ s
  | .signStatus, _, rfl, s => acts_refl _ s
  | .lampTest, _, rfl, s => takeLampTest_acts s
  | .lampFaultClear _, _, rfl, s => takeLampFaultClear_acts _ s
  | .patternWrite _ _ _ _ _ _, _, rfl, s => takePatternWrite_acts _ _ _ _ _ _ s
  | .emergencyRaise, _, rfl, s => takeEmergencyRaise_acts s
  | .emergencyClear, _, rfl, s => acts_refl _ s
  | .intercomMode _, _, rfl, s => takeIntercomMode_acts _ s
  | .intercomSettings _ _ _, _, rfl, s => storeTimes_acts _ _ _ s
  | .intercomDefaults, _, rfl, s => storeTimes_acts _ _ _ s
  | .intercomStatus, _, rfl, s => acts_refl _ s
  | .callAnswer, _, rfl, s => takeCallAnswer_acts s
  | .callClear, _, rfl, s => ((setIntercom_acts _ s).seq (raiseIntercom_acts _)).widen
  | .tonePlay _ _ _ _ _ _, _, rfl, s => takeTonePlay_acts _ _ _ _ _ _ s
  | .toneStop _, _, rfl, s => takeToneStop_acts _ s
  | .speakerStatus, _, rfl, s => acts_refl _ s
  | .clockSet _ _ _ _ _ _, _, rfl, s => takeClockSet_acts _ s
  | .clockRead, _, rfl, s => acts_refl _ s
  | .retainedStatus, _, rfl, s => acts_refl _ s
  | .factoryClear, _, rfl, s => takeFactoryClear_acts s
  | .partIdent, _, rfl, s => acts_refl _ s
  | .linkConfig _, _, rfl, s => takeLinkConfig_acts _ s
  | .linkStatus _, _, rfl, s => takeLinkStatus_acts _ s
  | .linkReset, _, rfl, s => link_acts (setLink_frame _ s) rfl rfl
  | .noticeMode _, _, rfl, s => takeNoticeMode_acts _ s
  | .noticeMask _ _, _, rfl, s => takeNoticeMask_acts _ _ s
  | .noticeFetch, _, rfl, s => takeNoticeFetch_acts s
  | .echoOn, _, rfl, s => link_acts (setLink_frame _ s) rfl rfl
  | .echoOff, _, rfl, s => takeEchoOff_acts s

/-- A request is given to its rule, and its parts name its kind. -/
theorem exec_request {c : Instr} {rule : State → Taken} (h : ruleOf c = some rule) :
    ∃ k vs, requestParts c = some (k, vs) ∧ ∀ s, exec c s = .next (hostRequest k rule s) := by
  cases c <;> cases h <;> exact ⟨_, _, rfl, fun _ => rfl⟩

/-- A command with the parts of a request has a rule. -/
theorem rule_of_parts {c : Instr} {k : ReqKind} {vs : List Val} (h : requestParts c = some (k, vs)) :
    ∃ rule, ruleOf c = some rule ∧ ∀ s, exec c s = .next (hostRequest k rule s) := by
  cases c <;> cases h <;> exact ⟨_, rfl, fun _ => rfl⟩

/-! ### Events that take no frame -/

/-- The events that may bring a frame to the handling place. -/
def takesFrames : Instr → Bool
  | .controlFrameReceived _ | .unlistedKind _ | .frameEcho _ | .replySent | .linkRateSwitch | .linkResetApply
  | .echoModeBegin | .controlFrameDiscard _ => true
  | _ => false

theorem execDpulseChange_acts (level : Bool) (s : State) :
    acts [.pins, .odo] s (if s.pins.dpulse = level then s
      else whileRunning (fun t => { t with odo := t.odo.inputChanges level (calibrated t) })
        { s with pins := { s.pins with dpulse := level } }) :=
  .ite (fun _ => acts_refl _ _)
    (fun _ => ((withPins_acts s _).seq (whileRunning_acts (fun _ => withOdo_acts _ _))).widen)

theorem calenChange_acts (level : Bool) (s : State) :
    acts [.pins, .odo] s (whileRunning
      (fun t => if calibrationOpen s && !level then { t with odo := t.odo.calibrationEnds } else t)
      { s with pins := { s.pins with calen := level } }) :=
  ((withPins_acts s _).seq (whileRunning_acts (fun _ =>
    .ite (fun _ => withOdo_acts _ _) (fun _ => acts_refl _ _)))).widen

theorem filterExpires_acts (s : State) : acts [.odo] s (filterExpires s) := by
  unfold filterExpires
  split
  · exact withOdo_acts _ _
  · exact acts_refl _ _

theorem takesMessage_acts {p : List Block} {g : State → State} (h : ∀ t, acts p t (g t)) (m : TermMsg)
    (s : State) : acts (.tender :: p) s (takesMessage m g s) :=
  (withTender_acts s _).seq (h _)

/-- A change of the pins, and after it what the part does while it runs. -/
theorem pinsThen_acts {p : List Block} {g : State → State} (h : ∀ t, acts p t (g t)) (s : State) (x : Pins) :
    acts (.pins :: p) s (whileRunning g { s with pins := x }) :=
  (withPins_acts s x).seq (whileRunning_acts (fun _ => h _))

theorem takesApproved_acts (r : Ref) (n : Nat) (a : Text) (s : State) :
    acts [.settle, .tender, .fare, .journal, .shifts, .sign, .speakers, .link] s
      (takesMessage (.approved r n a) (approves r n a) s) :=
  (takesMessage_acts (approves_acts r n a) _ s).widen

theorem statusTaken_acts (x : Readiness) (n : Nat) (s : State) :
    acts [.tender, .link] s (takesStatus x n (frameAlive s)) :=
  ((frameAlive_acts s).seq (takesStatus_acts x n _)).widen

theorem voxRises_wide (x : Side) (s : State) : acts [.intercom, .speakers, .link] s (voxRises x s) :=
  (voxRises_acts x s).widen

theorem execSupplyFail_acts (s : State) : ∃ t, execSupplyFail s = .next t ∧
    acts [.power, .odo, .settle, .tender, .sign, .intercom, .speakers, .clock, .retained, .link] s t := by
  have hstop : acts [.power, .odo, .settle, .tender, .sign, .intercom, .speakers, .clock, .retained, .link] s
      { stopBlocks (recordFail s) with power := .supplyFailed } :=
    ⟨by simp [changesOnly, stopBlocks, recordFail], fun _ => noticesKept_restarted rfl⟩
  refine ⟨_, rfl, ?_⟩
  split
  · exact hstop
  · exact hstop
  · exact acts_refl _ _

theorem execResetnAssert_acts (s : State) : ∃ t, execResetnAssert s = .next t ∧
    acts [.power, .odo, .settle, .tender, .sign, .intercom, .speakers, .clock, .link] s t := by
  refine ⟨_, rfl, ?_⟩
  split
  · exact ⟨by simp [changesOnly, stopBlocks], fun _ => noticesKept_restarted rfl⟩
  · exact acts_refl _ _
  · exact acts_refl _ _

theorem execBatteryFail_acts (s : State) : ∃ t, execBatteryFail s = .next t ∧
    acts [.clock, .retained, .freeCount] s t := by
  refine ⟨_, rfl, ?_⟩
  split
  · exact .of_frame (by simp [changesOnly])
  · exact acts_refl _ _
  · exact acts_refl _ _

theorem restarts_acts (s : State) :
    acts [.power, .odo, .fare, .settle, .tender, .shifts, .journal, .sign, .intercom, .speakers, .clock, .retained,
      .link] s (restarts s) := by
  have hstart : acts [.power, .clock] s { s with power := .running, clock := s.clock.atRestart } :=
    .of_frame (by simp [changesOnly])
  have hretained (t : State) (r : Retained) : acts [.retained] t { t with retained := r } :=
    .of_frame (by simp [changesOnly])
  exact ((((hstart.seq (acts.ite (fun _ => acts_refl _ _) (fun _ => clearRetained_acts _))).seq
    (restartBlocks_acts _)).seq (hretained _ _)).seq (restartNotices_acts _ _ _ _ _)).widen

theorem execRestart_acts (s : State) : ∃ t, execRestart s = .next t ∧
    acts (blocksOf .restart) s t := by
  refine ⟨_, rfl, ?_⟩
  split
  · exact restarts_acts s
  · exact restarts_acts s
  · exact acts_refl _ _

/-- An event that takes no frame completes and changes the parts it names. -/
theorem event_acts : ∀ c : Instr, ruleOf c = none → takesFrames c = false →
    ∀ s, ∃ t, exec c s = .next t ∧ acts (blocksOf c) s t
  | .dpulseChange l, _, _, s => ⟨_, rfl, execDpulseChange_acts l s⟩
  | .filterWindowExpiry, _, _, s => ⟨_, rfl, whileRunning_acts (fun _ => filterExpires_acts s)⟩
  | .secondTick, _, _, s => ⟨_, rfl, ticks_acts s⟩
  | .clockWrap, _, _, s => ⟨_, rfl, .ite (fun _ => acts_refl _ _) (fun _ => ticks_acts s)⟩
  | .minuteBoundary, _, _, s => ⟨_, rfl, whileRunning_acts (fun _ => minuteBoundary_acts s)⟩
  | .calenChange l, _, _, s => ⟨_, rfl, calenChange_acts l s⟩
  | .tipTimerExpiry, _, _, s => ⟨_, rfl, whileRunning_acts (fun _ => tipExpires_acts s)⟩
  | .responseTimerExpiry, _, _, s => ⟨_, rfl, whileRunning_acts (fun _ => responseExpires_acts s)⟩
  | .abortTimerExpiry, _, _, s => ⟨_, rfl, whileRunning_acts (fun _ => abortExpires_acts s)⟩
  | .retryIdleTimerExpiry, _, _, s => ⟨_, rfl, whileRunning_acts (fun _ => retryIdleExpires_acts s)⟩
  | .resendTimerExpiry i, _, _, s => ⟨_, rfl, whileRunning_acts (fun _ => resendExpires_acts i s)⟩
  | .tlByteArrival b g, _, _, s => ⟨_, rfl, whileRunning_acts (fun _ => byteArrives_acts b g s)⟩
  | .frameReaderTake, _, _, s => ⟨_, rfl, whileRunning_acts (fun _ => readerTakes_acts s)⟩
  | .tProgress r x, _, _, s =>
    ⟨_, rfl, whileRunning_acts (fun _ => takesMessage_acts (takesProgress_acts r x) _ s)⟩
  | .tApproved r n a, _, _, s =>
    ⟨_, rfl, whileRunning_acts (fun _ => takesApproved_acts r n a s)⟩
  | .tDeclined r n, _, _, s => ⟨_, rfl, whileRunning_acts (fun _ => takesMessage_acts (declines_acts r n) _ s)⟩
  | .tAborted r, _, _, s => ⟨_, rfl, whileRunning_acts (fun _ => takesMessage_acts (confirmsAbort_acts r) _ s)⟩
  | .tReversed r, _, _, s =>
    ⟨_, rfl, whileRunning_acts (fun _ => takesMessage_acts (fun t => withSettle_acts t _) _ s)⟩
  | .tStatus x n, _, _, s =>
    ⟨_, rfl, whileRunning_acts (fun _ => statusTaken_acts x n s)⟩
  | .heartbeatExpiry, _, _, s => ⟨_, rfl, whileRunning_acts (fun _ => heartbeatExpires_acts s)⟩
  | .tlCtsChange _, _, _, s => ⟨_, rfl, pinsThen_acts (fun t => withTender_acts t _) s _⟩
  | .tlFrameSent, _, _, s => ⟨_, rfl, whileRunning_acts (fun _ => frameSent_acts s)⟩
  | .sendTimerExpiry, _, _, s => ⟨_, rfl, whileRunning_acts (fun _ => sendTimerExpires_acts s)⟩
  | .patternPhaseEnd x, _, _, s => ⟨_, rfl, whileRunning_acts (fun _ => patternPhaseEnds_acts x s)⟩
  | .lampSenseChange _ _, _, _, s => ⟨_, rfl, pinsThen_acts (fun t => withSign_acts t _) s _⟩
  | .darkTimerExpiry x, _, _, s => ⟨_, rfl, whileRunning_acts (fun _ => darkTimerExpires_acts x s)⟩
  | .emergChange _, _, _, s =>
    ⟨_, rfl, .ite (fun _ => acts_refl _ _) (fun _ => pinsThen_acts (fun t => withSign_acts t _) s _)⟩
  | .emergHold1s, _, _, s => ⟨_, rfl, whileRunning_acts (fun _ => holdReaches_acts s)⟩
  | .clearWindowEnd, _, _, s => ⟨_, rfl, whileRunning_acts (fun _ => withSign_acts s _)⟩
  | .voxChange x true, _, _, s =>
    ⟨_, rfl, .ite (fun _ => acts_refl _ _) (fun _ => pinsThen_acts (voxRises_wide x) s _)⟩
  | .voxChange x false, _, _, s =>
    ⟨_, rfl, .ite (fun _ => acts_refl _ _) (fun _ => pinsThen_acts (voxFalls_acts x) s _)⟩
  | .attackExpiry x, _, _, s => ⟨_, rfl, whileRunning_acts (fun _ => attackExpires_acts x s)⟩
  | .pttPress, _, _, s =>
    ⟨_, rfl, .ite (fun _ => acts_refl _ _) (fun _ => pinsThen_acts pttPresses_acts s _)⟩
  | .pttRelease, _, _, s =>
    ⟨_, rfl, .ite (fun _ => pinsThen_acts (p := [.intercom, .speakers, .link])
      (fun t => ((hangIfSilent_acts .front t).seq (endHoldOff_acts .front _)).widen) s _)
      (fun _ => acts_refl _ _)⟩
  | .hangTimerExpiry, _, _, s => ⟨_, rfl, whileRunning_acts (fun _ => hangExpires_acts s)⟩
  | .maxTalkExpiry, _, _, s => ⟨_, rfl, whileRunning_acts (fun _ => maxTalkExpires_acts s)⟩
  | .callButtonChange _ _, _, _, s =>
    ⟨_, rfl, .ite (fun _ => acts_refl _ _) (fun _ => pinsThen_acts (setIntercom_acts _) s _)⟩
  | .callPressTaken x, _, _, s => ⟨_, rfl, whileRunning_acts (fun _ => pressTaken_acts x s)⟩
  | .callWindowEnd, _, _, s => ⟨_, rfl, whileRunning_acts (fun _ => windowEnds_acts s)⟩
  | .tonePhaseEnd x, _, _, s => ⟨_, rfl, whileRunning_acts (fun _ => tonePhaseEnds_acts x s)⟩
  | .supplyFail, _, _, s => execSupplyFail_acts s
  | .resetnAssert, _, _, s => execResetnAssert_acts s
  | .batteryFail, _, _, s => execBatteryFail_acts s
  | .restart, _, _, s => execRestart_acts s
  | .controlGap, _, _, s =>
    ⟨_, rfl, whileRunning_acts (fun _ => ⟨setLink_frame _ s, queueKept_gap _⟩)⟩
  | .lineBreak _, _, _, s =>
    ⟨_, rfl, whileRunning_acts (fun _ => ⟨setLink_frame _ s, fun _ => queueKept_reset _⟩)⟩
  | .noticeFrameStart, _, _, s =>
    ⟨_, rfl, whileRunning_acts (fun _ => ⟨setLink_frame _ s, queueKept_beginNotice _⟩)⟩
  | .noticeFrameEnd, _, _, s => ⟨_, rfl, whileRunning_acts (fun _ => link_acts (setLink_frame _ s) rfl rfl)⟩

/-! ### Conditions that the control link's takings keep -/

/-- A condition that every rule keeps at a running part, and that does not look at the control link beyond the
condition on its queue. -/
structure keptByTakings (P : State → Prop) : Prop where
  link : ∀ (s : State) (l : ControlLink), (s.link.queueKept → l.queueKept) → P s → P { s with link := l }
  free : ∀ (s : State) (n : Nat), P s → P { s with freeCount := n }
  rule : ∀ (c : Instr) (rule : State → Taken), ruleOf c = some rule →
    ∀ s, s.power = .running → P s → P (rule s).1

section
variable {P : State → Prop}

/-- The condition holds and the part runs. -/
def whileOn (P : State → Prop) (s : State) : Prop := P s ∧ s.power = .running

theorem keptByTakings.rule_on (h : keptByTakings P) {c : Instr} {rule : State → Taken} (hc : ruleOf c = some rule)
    {s : State} (hs : whileOn P s) : whileOn P (rule s).1 := by
  refine ⟨h.rule c rule hc s hs.2 hs.1, ?_⟩
  have hpower : Block.power ∉ blocksOf c := by cases c <;> cases hc <;> simp [blocksOf]
  rw [← hs.2]
  exact (rule_acts c rule hc s).same .power hpower

theorem keptByTakings.setLink_on (h : keptByTakings P) {g : ControlLink → ControlLink} {s : State}
    (hg : s.link.queueKept → (g s.link).queueKept) (hs : whileOn P s) : whileOn P (setLink g s) :=
  ⟨h.link s _ hg hs.1, hs.2⟩

theorem keptByTakings.handle_on (h : keptByTakings P) {rule : State → Taken}
    (hrule : ∀ s, whileOn P s → whileOn P (rule s).1) (kind : Nat) (f : Option Sys2Proof.Frame) {s : State}
    (hs : whileOn P s) : whileOn P (handle kind f rule s) := by
  unfold handle
  split
  · exact h.setLink_on (queueKept_congr rfl rfl) hs
  · exact h.setLink_on (queueKept_congr rfl rfl) (hrule s hs)

theorem keptByTakings.takeBody_on (h : keptByTakings P) (f : Sys2Proof.Frame) {s : State}
    (hs : whileOn P s) : whileOn P (takeBody f s).1 := by
  unfold takeBody
  split
  · exact h.rule_on (c := .echoOff) rfl hs
  · unfold takeDecoded
    split
    · exact hs
    · exact hs
    · split
      · next hc => exact h.rule_on hc hs
      · exact hs

theorem keptByTakings.takeFrame_on (h : keptByTakings P) (f : Sys2Proof.Frame) {s : State}
    (hs : whileOn P s) : whileOn P (takeFrame f s) :=
  h.handle_on (fun _ => h.takeBody_on f) _ _ hs

theorem keptByTakings.takeWaiting_on (h : keptByTakings P) {s : State} (hs : whileOn P s) :
    whileOn P (takeWaiting s) := by
  unfold takeWaiting
  split
  · exact h.takeFrame_on _ (h.setLink_on (queueKept_congr rfl rfl) hs)
  · exact hs

theorem queueKept_losesByte (receiving : Bool) (l : ControlLink) (h : l.queueKept) :
    (l.losesByte receiving).queueKept := by
  rw [ControlLink.losesByte_eq]
  split
  · exact queueKept_gap l h
  · exact h

theorem queueKept_replyGone (receiving : Bool) (l : ControlLink) (h : l.queueKept) :
    (l.replyGone receiving).queueKept := by
  have hempty : ({ l with handling := none, after := .nothing } : ControlLink).queueKept :=
    queueKept_congr rfl rfl h
  unfold ControlLink.replyGone
  cases l.after with
  | nothing => exact hempty
  | rateSwitch rate => exact queueKept_congr rfl rfl (queueKept_losesByte receiving _ hempty)
  | linkReset => exact queueKept_reset _
  | echoBegin => exact queueKept_congr rfl rfl hempty

theorem keptByTakings.finishReply_on (h : keptByTakings P) {s : State} (hs : whileOn P s) :
    whileOn P (finishReply s) := by
  have hgone : whileOn P (setLink (ControlLink.replyGone (Config.byteBeingReceived s.freeCount)) s) :=
    h.setLink_on (queueKept_replyGone _ _) hs
  refine h.takeWaiting_on ?_
  split
  · exact ⟨h.free _ _ hgone.1, hgone.2⟩
  · exact hgone

theorem keptByTakings.replyIsSent_on (h : keptByTakings P) {s : State} (hs : whileOn P s) :
    whileOn P (replyIsSent s) := by
  unfold replyIsSent
  split
  · exact h.finishReply_on hs
  · exact hs

theorem keptByTakings.repliesGone_on (h : keptByTakings P) {s : State} (hs : whileOn P s) :
    whileOn P (repliesGone s) := by
  simp only [repliesGone]
  split
  · exact h.replyIsSent_on (h.replyIsSent_on (h.setLink_on (queueKept_congr rfl rfl) hs))
  · exact hs

theorem keptByTakings.placeFrame_on (h : keptByTakings P) (f : Sys2Proof.Frame) {s : State}
    (hs : whileOn P s) : whileOn P (placeFrame f s) := by
  unfold placeFrame
  split
  · exact h.takeFrame_on f hs
  · exact h.setLink_on (queueKept_congr rfl rfl) hs
  · exact h.setLink_on (queueKept_congr rfl rfl) hs

theorem queueKept_settleGap (l : ControlLink) (h : l.queueKept) : l.settleGap.queueKept := by
  unfold ControlLink.settleGap
  split
  · exact queueKept_gap l h
  · exact h

theorem keptByTakings.frameEnds_on (h : keptByTakings P) (bytes : List Byte) {s : State}
    (hs : whileOn P s) : whileOn P (frameEnds bytes s) := by
  have hhears : whileOn P (setLink (ControlLink.receives .hunting) s) :=
    h.setLink_on (queueKept_congr rfl rfl) hs
  unfold frameEnds
  split
  · exact h.placeFrame_on _ hhears
  · exact h.setLink_on (queueKept_congr rfl rfl) hhears

theorem keptByTakings.assembleControl_on (h : keptByTakings P) (taken : List Byte) (b : Byte) {s : State}
    (hs : whileOn P s) : whileOn P (assembleControl taken b s) := by
  unfold assembleControl
  split
  · split
    · exact h.setLink_on (queueKept_congr rfl rfl) hs
    · exact h.setLink_on (queueKept_congr rfl rfl) hs
  · split
    · exact h.setLink_on (queueKept_congr rfl rfl) hs
    · exact h.frameEnds_on _ hs

theorem keptByTakings.controlByte_on (h : keptByTakings P) (b : Byte) {s : State}
    (hs : whileOn P s) : whileOn P (controlByte s b) := by
  have hgap : whileOn P (setLink ControlLink.settleGap s) := h.setLink_on (queueKept_settleGap _) hs
  simp only [controlByte]
  split
  · exact h.setLink_on (queueKept_congr rfl rfl) hgap
  · exact h.assembleControl_on _ b hgap

theorem keptByTakings.controlBytes_on (h : keptByTakings P) (bytes : List Byte) {s : State}
    (hs : whileOn P s) : whileOn P (bytes.foldl controlByte s) := by
  induction bytes generalizing s with
  | nil => exact hs
  | cons b bs ih => exact ih (h.controlByte_on b hs)

theorem keptByTakings.frameArrives_on (h : keptByTakings P) (f : Sys2Proof.Frame) {s : State}
    (hs : whileOn P s) : whileOn P (frameArrives f s) :=
  h.placeFrame_on f (h.setLink_on (fun hq => queueKept_congr rfl rfl (queueKept_settleGap _ hq)) hs)

theorem keptByTakings.unlisted_on (h : keptByTakings P) (kind : Byte) {s : State} (hs : whileOn P s) :
    whileOn P (unlisted kind s) := by
  unfold unlisted
  split
  · exact hs
  · exact h.handle_on (fun _ ht => ht) _ _ (h.repliesGone_on hs)

theorem keptByTakings.echoFrame_on (h : keptByTakings P) (f : Sys2Proof.Frame) {s : State}
    (hs : whileOn P s) : whileOn P (echoFrame f s) := by
  unfold echoFrame
  split
  · exact h.setLink_on (queueKept_congr rfl rfl) (h.repliesGone_on hs)
  · exact hs

/-- What acts only while the part runs keeps a condition that it keeps at a running part. -/
theorem whileRunning_keeps {g : State → State} (hg : ∀ s, whileOn P s → whileOn P (g s)) {s : State} (hs : P s) :
    P (whileRunning g s) := by
  unfold whileRunning
  split
  · next hp => exact (hg s ⟨hs, hp⟩).1
  · exact hs

theorem keptByTakings.hostRequest (h : keptByTakings P) {c : Instr} {rule : State → Taken}
    (hc : ruleOf c = some rule) (k : ReqKind) {s : State} (hs : P s) : P (hostRequest k rule s) :=
  whileRunning_keeps (fun _ ht => h.handle_on (fun _ => h.rule_on hc) _ _ (h.repliesGone_on ht)) hs

/-- An event that may bring a frame to the handling place completes and keeps the condition. -/
theorem keptByTakings.event (h : keptByTakings P) : ∀ c : Instr, takesFrames c = true →
    ∀ s, P s → ∃ t, exec c s = .next t ∧ P t
  | .controlFrameReceived f, _, _, hs => ⟨_, rfl, whileRunning_keeps (fun _ => h.frameArrives_on f) hs⟩
  | .unlistedKind k, _, _, hs => ⟨_, rfl, whileRunning_keeps (fun _ => h.unlisted_on k) hs⟩
  | .frameEcho f, _, _, hs => ⟨_, rfl, whileRunning_keeps (fun _ => h.echoFrame_on f) hs⟩
  | .replySent, _, _, hs => ⟨_, rfl, whileRunning_keeps (fun _ => h.replyIsSent_on) hs⟩
  | .linkRateSwitch, _, _, hs => ⟨_, rfl, whileRunning_keeps (fun t ht => by
      split
      · exact h.replyIsSent_on ht
      · exact ht) hs⟩
  | .linkResetApply, _, _, hs => ⟨_, rfl, whileRunning_keeps (fun t ht => by
      split
      · exact h.replyIsSent_on ht
      · exact ht) hs⟩
  | .echoModeBegin, _, _, hs => ⟨_, rfl, whileRunning_keeps (fun t ht => by
      split
      · exact h.replyIsSent_on ht
      · exact ht) hs⟩
  | .controlFrameDiscard bs, _, _, hs => ⟨_, rfl, whileRunning_keeps (fun _ => h.controlBytes_on bs) hs⟩

/-- A command completes and keeps a condition that the takings and the events that take no frame keep. -/
theorem keptByTakings.exec (h : keptByTakings P)
    (event : ∀ c : Instr, ruleOf c = none → takesFrames c = false →
      ∀ s t, Machine.exec c s = .next t → acts (blocksOf c) s t → P s → P t)
    (c : Instr) (s : State) (hs : P s) : ∃ t, Machine.exec c s = .next t ∧ P t := by
  cases hc : ruleOf c with
  | some rule =>
    obtain ⟨k, _, _, hexec⟩ := exec_request hc
    exact ⟨_, hexec s, h.hostRequest hc k hs⟩
  | none =>
    cases hf : takesFrames c with
    | true => exact h.event c hf s hs
    | false =>
      obtain ⟨t, ht, hacts⟩ := event_acts c hc hf s
      exact ⟨t, ht, event c hc hf s t ht hacts hs⟩

/-- Every step keeps a condition that the takings, the other events and a base step keep. -/
theorem keptByTakings.step (h : keptByTakings P)
    (event : ∀ c : Instr, ruleOf c = none → takesFrames c = false →
      ∀ s t, Machine.exec c s = .next t → acts (blocksOf c) s t → P s → P t)
    (pending : ∀ (s : State) (q : List Instr), P s → P { s with pending := q })
    (base : ∀ s, P s → P (baseStep s)) (s t : State) (hs : P s) (ht : step s = .next t) : P t := by
  unfold Machine.step at ht
  split at ht
  · next c rest _ =>
    obtain ⟨u, hu, hP⟩ := h.exec event c _ (pending s rest hs)
    rw [hu] at ht
    cases ht
    exact hP
  · cases ht
    unfold idle
    split
    · exact pending s _ hs
    · exact base s hs

end

/-! ### Conditions on some parts of the state -/

/-- A condition that looks at the listed parts alone. -/
def readsOnly (parts : List Block) (P : State → Prop) : Prop :=
  ∀ s t : State, (∀ b ∈ parts, b.same s t) → P s → P t

/-- A command that names none of the parts a condition looks at keeps it. -/
theorem readsOnly.keeps {D : List Block} {P : State → Prop} (h : readsOnly D P) {parts : List Block} {s t : State}
    (ha : acts parts s t) (hD : ∀ b ∈ D, b ∉ parts) : P s → P t :=
  h s t (fun b hb => ha.same b (hD b hb))

/-- The command names a part of a list. -/
def touches (D : List Block) (c : Instr) : Bool := D.any (fun b => (blocksOf c).contains b)

theorem not_touches {D : List Block} {c : Instr} (h : touches D c = false) : ∀ b ∈ D, b ∉ blocksOf c := by
  simpa [touches] using h

/-- Every step keeps a condition on some parts that is kept by the rules and the events that name one of those
parts and by a base step. -/
theorem step_keeps {D : List Block} {P : State → Prop} (reads : readsOnly D P)
    (hD : Block.link ∉ D ∧ Block.pending ∉ D ∧ Block.freeCount ∉ D)
    (rule : ∀ (c : Instr) (r : State → Taken), ruleOf c = some r → touches D c = true →
      ∀ s, s.power = .running → P s → P (r s).1)
    (event : ∀ c : Instr, ruleOf c = none → takesFrames c = false → touches D c = true →
      ∀ s t, exec c s = .next t → P s → P t)
    (base : ∀ s, P s → P (baseStep s)) (s t : State) (hs : P s) (ht : step s = .next t) : P t := by
  obtain ⟨hlink, hpending, hfree⟩ := hD
  have other {b : Block} (hb : b ∉ D) {x y : State} (hxy : ∀ b', b' = b ∨ b'.same x y) : P x → P y :=
    reads x y (fun b' hb' => (hxy b').resolve_left (fun e => hb (e ▸ hb')))
  have htakings : keptByTakings P :=
    { link := fun s l _ => other hlink (fun b => by cases b <;> simp [Block.same])
      free := fun s n => other hfree (fun b => by cases b <;> simp [Block.same])
      rule := fun c r hc s hp hP => by
        cases hto : touches D c with
        | true => exact rule c r hc hto s hp hP
        | false => exact reads.keeps (rule_acts c r hc s) (not_touches hto) hP }
  refine htakings.step (fun c hc hf s t ht ha hP => ?_)
    (fun s q => other hpending (fun b => by cases b <;> simp [Block.same])) base s t hs ht
  cases hto : touches D c with
  | true => exact event c hc hf hto s t ht hP
  | false => exact reads.keeps ha (not_touches hto) hP

end Sys2Proof.Machine
end

