-- ==== Sys2Proof/Proofs/Completion.lean ====
section
/-!
PROOF. Every command completes and leaves the waiting commands (O3), every request is answered and a refusal
changes nothing (O4), a step runs the front command (O1), the calibration lock (O23), and every step keeps the
condition on the notice queue (O7).
-/

set_option Elab.async false

namespace Sys2Proof.Machine

/-! ### The waiting commands -/

theorem pending_not_mem_blocksOf (c : Instr) : Block.pending ∉ blocksOf c := by
  cases c <;> simp [blocksOf]

/-- No taking of a request touches the waiting commands. -/
theorem pending_keptByTakings (q : List Instr) : keptByTakings (fun s => s.pending = q) where
  link _ _ _ hs := hs
  free _ _ hs := hs
  rule c rule hc s _ hs := ((rule_acts c rule hc s).same .pending (pending_not_mem_blocksOf c)).trans hs

/-- Settles O3: every rule and every event names its parts, and the waiting commands are none of them. -/
theorem everyCommandCompletesAndKeepsTheQueue : Obligations.EveryCommandCompletesAndKeepsTheQueue := by
  intro c s
  exact (pending_keptByTakings s.pending).exec
    (fun c _ _ _ _ _ ha hs => (ha.same .pending (pending_not_mem_blocksOf c)).trans hs) c s rfl

/-- Settles O1, by the definition of a step. -/
theorem stepRunsTheFrontCommand : Obligations.StepRunsTheFrontCommand := by
  intro c rest s hq
  unfold step
  rw [hq]

/-! ### Answers -/

/-- An answer other than OK and ADJUSTED is a refusal: its code alone, and the state as it was. -/
def refusesCleanly (s : State) (r : Taken) : Prop :=
  r.2.code ≠ .ok → r.2.code ≠ .adjusted → r.1 = s ∧ r.2.body = []

theorem refusesCleanly_refuse (code : ReplyCode) (s : State) : refusesCleanly s (refuse code s) :=
  fun _ _ => ⟨rfl, rfl⟩

theorem refusesCleanly_ok {s : State} {r : Taken} (h : r.2.code = .ok) : refusesCleanly s r :=
  fun hne _ => absurd h hne

theorem refusesCleanly_okOr (b : Bool) (body : List Field) (s t : State) :
    refusesCleanly s (t, Answer.okOr b body) := by
  intro hok hadjusted
  cases b
  · exact absurd rfl hok
  · exact absurd rfl hadjusted

/-- Every branch of a rule refuses with a code alone, or answers OK or ADJUSTED. -/
theorem rule_refusesCleanly {c : Instr} {rule : State → Taken} (h : ruleOf c = some rule) (s : State) :
    refusesCleanly s (rule s) := by
  cases c <;> cases h
  all_goals
    try simp only [takeDpulseConfig, takeCalSetK, takeCalMeasureStart, takeCalMeasureStop, takeTariffWrite,
      takeTariffRead, takeScheduleWrite, takeExtraKindWrite, takeExtraKindRead, takeLegStart, takeLegStop,
      takeLegResume, takeLegVoid, takeLegTariff, takeLegExtraAdd, addExtra, takeLegExtraRemove, removeExtra,
      takeLegRead, takeShareSet, takePaySettingsWrite, takePayBegin, beginsBy, takePayTip, takesTip,
      takePayAuthorise, takePayCash, takePayCancel, takeTerminalStatus, takeShiftOpen, takeShiftClose,
      takeReportRead, takeTripRead, takeTripNextUnread, takeSignMode, takeLampTest, takeLampFaultClear,
      takePatternWrite, takeIntercomMode, takeIntercomSettings, takeCallAnswer, takeTonePlay, takeToneStop,
      takeClockSet, takeFactoryClear, takeLinkConfig, takeLinkStatus, takeNoticeMode, takeNoticeMask,
      takeNoticeFetch, takeEchoOff]
  all_goals repeat' split
  all_goals first
    | exact refusesCleanly_refuse _ _
    | exact refusesCleanly_ok rfl
    | exact refusesCleanly_okOr _ _ _ _

/-- Settles O4: at a ready part a request comes to its rule, at a stopped part to nothing. -/
theorem everyRequestIsAnsweredAndARefusalChangesNothing :
    Obligations.EveryRequestIsAnsweredAndARefusalChangesNothing := by
  intro c k vs s hparts
  obtain ⟨rule, hrule, hexec⟩ := rule_of_parts hparts
  rw [hexec]
  constructor
  · intro hready
    exact ⟨_, _, by rw [hostRequest_ready hready], rule_refusesCleanly hrule s⟩
  · intro hstopped
    rw [hostRequest_stopped hstopped]

/-! ### The calibration lock -/

/-- Settles O23: each of the rules tests the lock first. -/
theorem theCalibrationLockComesFirst : Obligations.TheCalibrationLockComesFirst := by
  intro s hready hlock
  have locked {k : ReqKind} {rule : State → Taken} (hrule : rule s = refuse .calLocked s) :
      hostRequest k rule s = refusedWith k .calLocked s := by
    rw [hostRequest_ready hready, hrule]
    rfl
  refine ⟨fun p w => ?_, fun k => ?_, ?_, ?_, fun n f => ?_, fun e d m n => ?_, fun n d x a l => ?_, ?_⟩
  · exact congrArg _ (locked (by simp [takeDpulseConfig, hlock]))
  · exact congrArg _ (locked (by simp [takeCalSetK, hlock]))
  · exact congrArg _ (locked (by simp [takeCalMeasureStart, hlock]))
  · exact congrArg _ (locked (by simp [takeCalMeasureStop, hlock]))
  · exact congrArg _ (locked (by simp [takeTariffWrite, hlock]))
  · exact congrArg _ (locked (by simp [takeScheduleWrite, hlock]))
  · exact congrArg _ (locked (by simp [takeExtraKindWrite, hlock]))
  · exact congrArg _ (locked (by simp [takeFactoryClear, hlock]))

/-! ### The notice queue -/

theorem noticesKept_baseStep (s : State) (h : noticesKept s) : noticesKept (baseStep s) := by
  unfold baseStep whileRunning
  split
  · exact queueKept_congr (l := s.link) rfl rfl h
  · exact h

theorem noticesKept_keptByTakings : keptByTakings noticesKept where
  link _ _ hl hs := hl hs
  free _ _ hs := hs
  rule c rule hc s _ hs := (rule_acts c rule hc s).notices hs

/-- Settles O7: each rule and event reaches the queue through raises alone, which merge by kind. -/
theorem noticesStayOneOfEachEnabledKind : Obligations.NoticesStayOneOfEachEnabledKind := by
  intro s t hs ht
  exact noticesKept_keptByTakings.step (fun _ _ _ _ _ _ ha => ha.notices) (fun _ _ hs => hs) noticesKept_baseStep
    s t hs ht

end Sys2Proof.Machine
end

