-- ==== Sys2Proof/Proofs/Counters.lean ====
section
/-!
PROOF. The counters of the odometry unit and the clock stay in their ranges (R3, R5, R7, R161, R162): what keeps
the condition on each of the two, and from these O16.
-/

set_option Elab.async false

namespace Sys2Proof.Machine

/-! ### The two conditions -/

/-- The counters of the odometry unit are in their ranges. -/
def Odometry.inRange (o : Odometry) : Prop :=
  (o.k = 0 → o.r = 0) ∧ (o.k ≠ 0 → 500 ≤ o.k ∧ o.k ≤ 40000 ∧ o.r < o.k)
    ∧ o.intervalMetres ≤ 65535 ∧ o.lastMetres ≤ 100 ∧ o.zeroCloses ≤ 3

/-- The clock count is within the calendar and the base period within the second. -/
def Clock.inRange (c : Clock) : Prop := c.count ≤ lastCount ∧ c.period ≤ 99

theorem countersKept_iff (s : State) : countersKept s ↔ s.odo.inRange ∧ s.clock.inRange := by
  simp only [countersKept, Odometry.inRange, Clock.inRange, and_assoc]

theorem countersKept_readsOnly : readsOnly [.odo, .clock] countersKept := by
  intro s t hsame hs
  have hodo : t.odo = s.odo := hsame .odo (by simp)
  have hclock : t.clock = s.clock := hsame .clock (by simp)
  rwa [countersKept_iff, hodo, hclock, ← countersKept_iff]

/-! ### The odometry unit -/

/-- The condition looks at five fields. -/
theorem Odometry.inRange_congr {o p : Odometry} (hk : p.k = o.k) (hr : p.r = o.r)
    (hi : p.intervalMetres = o.intervalMetres) (hl : p.lastMetres = o.lastMetres)
    (hz : p.zeroCloses = o.zeroCloses) (h : o.inRange) : p.inRange := by
  unfold Odometry.inRange
  rw [hk, hr, hi, hl, hz]
  exact h

theorem Odometry.inRange_pulseToMetres {o : Odometry} (h : o.inRange) (c : Bool) : (o.pulseToMetres c).inRange := by
  unfold Odometry.pulseToMetres
  split
  · exact h
  · next hk =>
    obtain ⟨_, hset, hinterval, hlast, hzero⟩ := h
    obtain ⟨hlow, hhigh, _⟩ := hset hk
    refine ⟨fun hk0 => absurd hk0 hk, fun _ => ⟨hlow, hhigh, Nat.mod_lt _ (by omega)⟩, ?_, hlast, hzero⟩
    dsimp only
    split
    · exact Nat.min_le_left _ _
    · exact hinterval

theorem Odometry.inRange_countPulse {o : Odometry} (h : o.inRange) (c : Bool) : (o.countPulse c).inRange := by
  unfold Odometry.countPulse Odometry.pulseToMeasurement
  split
  · exact inRange_congr rfl rfl rfl rfl rfl (inRange_pulseToMetres h c)
  · exact inRange_pulseToMetres h c

theorem Odometry.inRange_accept {o : Odometry} (h : o.inRange) (level c : Bool) : (o.accept level c).inRange := by
  have hset : ({ o with accepted := level, timing := none } : Odometry).inRange := h
  unfold Odometry.accept
  dsimp only
  split
  · exact inRange_countPulse hset c
  · exact hset

theorem Odometry.inRange_inputChanges {o : Odometry} (h : o.inRange) (level c : Bool) :
    (o.inputChanges level c).inRange := by
  unfold Odometry.inputChanges
  split
  · exact h
  · split
    · exact inRange_accept h level c
    · exact h

theorem Odometry.inRange_measureTick {o : Odometry} (h : o.inRange) : o.measureTick.inRange := by
  unfold Odometry.measureTick
  split <;> exact h

theorem Odometry.inRange_calibrationEnds {o : Odometry} (h : o.inRange) : o.calibrationEnds.inRange := by
  unfold Odometry.calibrationEnds
  split <;> exact h

theorem Odometry.inRange_takeInterval {o : Odometry} (h : o.inRange) (c : Nat) : (o.takeInterval c).inRange := by
  obtain ⟨hunset, hset, _, _, hzero⟩ := h
  refine ⟨fun hk => ?_, fun hk => ?_, Nat.zero_le _, Nat.min_le_left _ _, hzero⟩
  · have := hunset hk
    simp [Odometry.takeInterval, this]
  · obtain ⟨hlow, hhigh, hr⟩ := hset hk
    refine ⟨hlow, hhigh, ?_⟩
    simp only [Odometry.takeInterval]
    split <;> omega

theorem Odometry.inRange_addTotals {o : Odometry} (h : o.inRange) (m : Nat) (hired : Bool) :
    (o.addTotals m hired).inRange := h

theorem Odometry.inRange_judgeMotion {o : Odometry} (h : o.inRange) (m : Nat) : (o.judgeMotion m).inRange := by
  obtain ⟨hunset, hset, hinterval, hlast, _⟩ := h
  unfold Odometry.judgeMotion
  split
  · exact ⟨hunset, hset, hinterval, hlast, Nat.min_le_left _ _⟩
  · exact ⟨hunset, hset, hinterval, hlast, Nat.zero_le _⟩

/-- At restart R is 0; K stands in its range or is 0. -/
theorem Odometry.inRange_restarted {o : Odometry} (h : o.k ≠ 0 → 500 ≤ o.k ∧ o.k ≤ 40000) (dpulse : Bool) :
    (o.restarted dpulse).inRange :=
  ⟨fun _ => rfl, fun hk => ⟨(h hk).1, (h hk).2, Nat.pos_of_ne_zero hk⟩, Nat.zero_le _, Nat.zero_le _, Nat.zero_le _⟩

theorem Odometry.k_of_inRange {o : Odometry} (h : o.inRange) (hk : o.k ≠ 0) : 500 ≤ o.k ∧ o.k ≤ 40000 :=
  ⟨(h.2.1 hk).1, (h.2.1 hk).2.1⟩

theorem Odometry.inRange_factoryCleared {o : Odometry} (h : o.inRange) (dpulse : Bool) :
    (o.factoryCleared dpulse).toDefaults.inRange := by
  obtain ⟨_, _, _, hlast, hzero⟩ := h
  exact ⟨fun _ => rfl, fun hk => absurd rfl hk, Nat.zero_le _, hlast, hzero⟩

/-! ### The clock -/

theorem nextCount_le (n : Nat) : nextCount n ≤ lastCount := by
  unfold nextCount
  split
  · omega
  · exact Nat.zero_le _

theorem Clock.inRange_tick {c : Clock} (h : c.inRange) (runs : Bool) : (c.tick runs).inRange :=
  ⟨nextCount_le _, h.2⟩

theorem Clock.inRange_baseStep {c : Clock} (h : c.inRange) : c.baseStep.inRange := by
  unfold Clock.baseStep
  split
  · exact ⟨h.1, Nat.zero_le _⟩
  · exact ⟨h.1, by dsimp only; omega⟩

theorem Clock.inRange_atRestart {c : Clock} (h : c.inRange) : c.atRestart.inRange := by
  unfold Clock.atRestart
  split
  · exact ⟨Nat.zero_le _, Nat.zero_le _⟩
  · exact h

/-- The months that are left of a year hold the days of the month that is meant. -/
theorem monthLengths_take_add_le (year : Nat) {month : Nat} (h : 1 ≤ monthLength year month) :
    ((monthLengths year).take (month - 1)).sum + monthLength year month ≤ 365 + (if isLeap year then 1 else 0) := by
  have hsum : (monthLengths year).sum = 365 + (if isLeap year then 1 else 0) := by
    simp only [monthLengths]
    cases isLeap year <;> rfl
  cases month with
  | zero => simp [monthLength] at h
  | succ m =>
    rw [Nat.add_sub_cancel, monthLength, ← hsum]
    rw [monthLength] at h
    have hm : m < (monthLengths year).length := by
      by_contra hge
      rw [List.getD_eq_default _ _ (by omega)] at h
      omega
    rw [List.getD_eq_getElem _ _ hm]
    calc ((monthLengths year).take m).sum + (monthLengths year)[m]
      _ = ((monthLengths year).take (m + 1)).sum := (List.sum_take_succ _ m hm).symm
      _ ≤ (monthLengths year).sum := (List.take_sublist _ _).sum_le_sum (fun _ _ => Nat.zero_le _)

/-- The count of a date in the calendar is at most the last. -/
theorem DateTime.count_le {t : DateTime} (h : t.exists = true) : t.count ≤ lastCount := by
  simp only [DateTime.exists, Bool.and_eq_true, decide_eq_true_eq] at h
  obtain ⟨⟨⟨⟨⟨⟨hlow, hhigh⟩, hday⟩, hmonth⟩, hhour⟩, hminute⟩, hsecond⟩ := h
  have hyear := monthLengths_take_add_le t.year (month := t.month) (by omega)
  have hdays : daysToYear t.year + ((monthLengths t.year).take (t.month - 1)).sum + (t.day - 1) < 36525 := by
    unfold daysToYear
    simp only [isLeap, beq_iff_eq] at hyear
    split at hyear <;> omega
  unfold DateTime.count lastCount
  omega

/-! ### Rules, events and base steps -/

theorem countersKept_of {s t : State} (h : countersKept s) (ho : s.odo.inRange → t.odo.inRange)
    (hc : s.clock.inRange → t.clock.inRange) : countersKept t :=
  (countersKept_iff t).mpr (((countersKept_iff s).mp h).imp ho hc)

theorem takeInterval_odo (c : Nat) (s : State) : (takeInterval c s).odo = s.odo.takeInterval c :=
  (raiseIf_acts _ _ _ _).same .odo

theorem closeOdometry_odo (m : Nat) (hired : Bool) (s : State) :
    (closeOdometry m hired s).odo = (s.odo.addTotals m hired).judgeMotion m :=
  (raiseIf_acts _ _ _ _).same .odo

/-- What an interval close makes of the odometry unit (R5 to R7). -/
theorem closeInterval_odo (s : State) :
    (closeInterval s).odo
      = ((s.odo.takeInterval (closingCount s)).addTotals (clampMetres (closingCount s)) (anyRuns s)).judgeMotion
          (clampMetres (closingCount s)) := by
  have hkeep : (addTotals (Totals.addInterval (clampMetres (closingCount s)) (anyRuns s))
      (closeFares (clampMetres (closingCount s)) (takeInterval (closingCount s) s))).odo
        = (takeInterval (closingCount s) s).odo :=
    ((closeFares_acts _ _).seq (addTotals_acts _ _)).same .odo
  rw [← takeInterval_odo, ← hkeep]
  exact closeOdometry_odo _ _ _

theorem countersKept_closeInterval (s : State) (h : countersKept s) : countersKept (closeInterval s) := by
  refine countersKept_of h (fun ho => ?_) (fun hc => ?_)
  · rw [closeInterval_odo]
    exact Odometry.inRange_judgeMotion (Odometry.inRange_addTotals (Odometry.inRange_takeInterval ho _) _ _) _
  · rwa [(closeInterval_acts s).same .clock]

theorem countersKept_ticks (s : State) (h : countersKept s) : countersKept (ticks s) := by
  unfold ticks whileRunning
  have hclock : countersKept { s with clock := s.clock.tick (running s) } :=
    countersKept_of h id (fun hc => Clock.inRange_tick hc _)
  split
  · exact countersKept_closeInterval _ (countersKept_of hclock Odometry.inRange_measureTick id)
  · exact hclock

theorem countersKept_rule : ∀ (c : Instr) (r : State → Taken), ruleOf c = some r →
    touches [.odo, .clock] c = true → ∀ s, s.power = .running → countersKept s → countersKept (r s).1
  | .dpulseConfig p w, _, rfl, _ => by
    intro s _ h
    simp only [takeDpulseConfig]
    split
    · exact h
    · split
      · exact countersKept_of h id id
      · exact h
  | .calSetK k, _, rfl, _ => by
    intro s _ h
    simp only [takeCalSetK]
    split
    · exact h
    · split
      · exact h
      · next hk =>
        simp only [Bool.or_eq_true, decide_eq_true_eq, not_or] at hk
        refine countersKept_readsOnly.keeps (resign_acts _) (by decide) (countersKept_of h (fun ho => ?_) id)
        obtain ⟨_, _, hinterval, hlast, hzero⟩ := ho
        exact ⟨fun _ => rfl, fun _ => ⟨by dsimp [countCalibration]; omega, by dsimp [countCalibration]; omega,
          by dsimp [countCalibration]; omega⟩, hinterval, hlast, hzero⟩
  | .calMeasureStart, _, rfl, _ => by
    intro s _ h
    simp only [takeCalMeasureStart]
    repeat' split
    all_goals exact h
  | .calMeasureStop, _, rfl, _ => by
    intro s _ h
    simp only [takeCalMeasureStop]
    repeat' split
    all_goals exact h
  | .shiftOpen d, _, rfl, _ => by
    intro s _ h
    simp only [takeShiftOpen]
    repeat' split
    any_goals exact h
    refine countersKept_readsOnly.keeps ((resign_acts _).seq (raiseShiftState_acts _)) (by decide)
      (countersKept_of h (fun ho => ?_) id)
    dsimp only
    split
    · exact Odometry.inRange_calibrationEnds ho
    · exact ho
  | .factoryClear, _, rfl, _ => by
    intro s _ h
    simp only [takeFactoryClear]
    split
    · exact h
    · exact countersKept_readsOnly.keeps (((resign_acts _).seq (raiseShiftState_acts _)).seq
        ((raiseIf_acts _ _ _ _).seq (reportPayment_acts _ _))) (by decide)
        (countersKept_of h (fun ho => Odometry.inRange_factoryCleared ho _) id)
  | .clockSet y mo d ho mi se, _, rfl, _ => by
    intro s _ h
    simp only [takeClockSet]
    split
    · exact h
    · next hexists =>
      split
      · exact h
      · refine countersKept_of h id (fun hc => ⟨DateTime.count_le ?_, hc.2⟩)
        simpa using hexists

theorem countersKept_stopBlocks {s t : State} (ho : t.odo = s.odo.restarted s.pins.dpulse)
    (hc : t.clock.count = s.clock.count ∧ t.clock.period = s.clock.period) (h : countersKept s) :
    countersKept t := by
  refine countersKept_of h (fun hodo => ?_) (fun hclock => ?_)
  · rw [ho]
    exact Odometry.inRange_restarted (Odometry.k_of_inRange hodo) _
  · unfold Clock.inRange
    rw [hc.1, hc.2]
    exact hclock

theorem countersKept_restarts (s : State) (h : countersKept s) : countersKept (restarts s) := by
  have hstart : countersKept { s with power := .running, clock := s.clock.atRestart } :=
    countersKept_of h id Clock.inRange_atRestart
  have hvolatile (t : State) (hk : t.odo.k ≠ 0 → 500 ≤ t.odo.k ∧ t.odo.k ≤ 40000) (hc : t.clock.inRange) :
      countersKept (restartVolatile t) :=
    (countersKept_iff _).mpr ⟨Odometry.inRange_restarted hk _, hc⟩
  have hblocks (t : State) (hk : t.odo.k ≠ 0 → 500 ≤ t.odo.k ∧ t.odo.k ≤ 40000) (hc : t.clock.inRange) :
      countersKept (restartBlocks t) :=
    countersKept_readsOnly.keeps (((restoreMoney_acts _).seq (restartSign_acts _)).seq (restartIntercom_acts _))
      (by decide) (hvolatile t hk hc)
  obtain ⟨hodo, hclock⟩ := (countersKept_iff _).mp hstart
  refine countersKept_readsOnly.keeps (restartNotices_acts _ _ _ _ _) (by decide) (hblocks _ ?_ ?_)
  · split
    · exact Odometry.k_of_inRange hodo
    · exact fun hk => absurd rfl hk
  · split <;> exact hclock

theorem countersKept_event : ∀ c : Instr, ruleOf c = none → takesFrames c = false →
    touches [.odo, .clock] c = true → ∀ s t, exec c s = .next t → countersKept s → countersKept t
  | .dpulseChange l, _, _, _ => by
    rintro s t ⟨⟩ h
    unfold whileRunning
    repeat' split
    · exact h
    · exact countersKept_of h (fun ho => Odometry.inRange_inputChanges ho _ _) id
    · exact h
  | .filterWindowExpiry, _, _, _ => by
    rintro s t ⟨⟩ h
    unfold whileRunning filterExpires
    repeat' split
    · exact countersKept_of h (fun ho => Odometry.inRange_accept ho _ _) id
    · exact h
    · exact h
  | .secondTick, _, _, _ => by
    rintro s t ⟨⟩ h
    exact countersKept_ticks s h
  | .clockWrap, _, _, _ => by
    rintro s t ⟨⟩ h
    split
    · exact h
    · exact countersKept_ticks s h
  | .minuteBoundary, _, _, _ => by
    rintro s t ⟨⟩ h
    have hboundary (n : Nat) (u : State) (hu : countersKept u) : countersKept (boundaryAt n u) :=
      countersKept_readsOnly.keeps (boundaryAt_acts n u) (by decide) hu
    unfold whileRunning minuteBoundary
    repeat' split
    · exact hboundary _ _ h
    · exact h
    · exact hboundary _ _ h
    · exact h
  | .calenChange l, _, _, _ => by
    rintro s t ⟨⟩ h
    unfold whileRunning
    repeat' split
    · exact countersKept_of h Odometry.inRange_calibrationEnds id
    · exact h
    · exact h
  | .supplyFail, _, _, _ => by
    rintro s t ⟨⟩ h
    split
    · exact countersKept_stopBlocks rfl ⟨rfl, rfl⟩ h
    · exact countersKept_stopBlocks rfl ⟨rfl, rfl⟩ h
    · exact h
  | .resetnAssert, _, _, _ => by
    rintro s t ⟨⟩ h
    split
    · exact countersKept_stopBlocks rfl ⟨rfl, rfl⟩ h
    · exact h
    · exact h
  | .batteryFail, _, _, _ => by
    rintro s t ⟨⟩ h
    split
    · exact h
    · exact h
    · exact h
  | .restart, _, _, _ => by
    rintro s t ⟨⟩ h
    split
    · exact countersKept_restarts s h
    · exact countersKept_restarts s h
    · exact h

theorem countersKept_baseStep (s : State) (h : countersKept s) : countersKept (baseStep s) := by
  have hclock : countersKept { s with clock := s.clock.baseStep } := countersKept_of h id Clock.inRange_baseStep
  unfold baseStep whileRunning
  split
  · exact countersKept_of hclock id id
  · exact hclock

/-- Settles O16. -/
theorem countersStayInRange : Obligations.CountersStayInRange := by
  intro s t hs ht
  exact step_keeps countersKept_readsOnly (by decide) countersKept_rule countersKept_event countersKept_baseStep
    s t hs ht

end Sys2Proof.Machine
end

