-- ==== Sys2Proof/Proofs/JournalRing.lean ====
section
/-!
PROOF. The journal stays a ring of at most 128 consecutive records (R114, R118): placing, marking and fetching keep
its sequence numbers, and from these O11.
-/

set_option Elab.async false

namespace Sys2Proof.Machine

/-! ### The ring -/

/-- At most 128 records with the numbers up to the one before the next. -/
def Journal.isRing (j : Journal) : Prop :=
  j.ring.length ≤ 128 ∧ j.ring.length < j.next
    ∧ j.ring.map TripRecord.seq = List.range' (j.next - j.ring.length) j.ring.length

theorem journalKept_iff (s : State) : journalKept s ↔ s.journal.isRing := by
  have hrange (n a : Nat) : (List.range n).map (· + a) = List.range' a n := by
    rw [List.range'_eq_map_range]
    exact List.map_congr_left (fun _ _ => Nat.add_comm _ _)
  unfold journalKept Journal.isRing
  rw [hrange]

theorem journalKept_readsOnly : readsOnly [.journal] journalKept := by
  intro s t hsame hs
  have hj : t.journal = s.journal := hsame .journal (by simp)
  rwa [journalKept_iff, hj, ← journalKept_iff]

/-- Consecutive numbers of which the first leaves and the next enters. -/
theorem drop_range'_append (a m : Nat) :
    (List.range' a (m + 1)).drop 1 ++ [a + 1 + m] = List.range' (a + 1) (m + 1) := by
  rw [List.range'_succ, List.drop_one, List.tail_cons, List.range'_concat, Nat.one_mul]

theorem Journal.seq_place_full {j : Journal} (h : j.isRing) (hfull : 128 ≤ j.ring.length) (p : Trip) :
    (j.place p).ring.length = j.ring.length
      ∧ (j.place p).ring.map TripRecord.seq = List.range' (j.next + 1 - j.ring.length) j.ring.length := by
  obtain ⟨_, hnext, hseq⟩ := h
  obtain ⟨m, hm⟩ : ∃ m, j.ring.length = m + 1 := ⟨j.ring.length - 1, by omega⟩
  have hring : (j.place p).ring = j.ring.drop 1 ++ [⟨j.next, p, false, false⟩] := by
    simp only [Journal.place, hfull, if_true]
  rw [hring, List.map_append, List.map_drop, hseq, hm, ← show j.next - (m + 1) + 1 = j.next + 1 - (m + 1) by omega,
    ← drop_range'_append]
  refine ⟨by simp [hm], ?_⟩
  simp only [List.map_cons, List.map_nil]
  congr 2
  omega

theorem Journal.seq_place_room {j : Journal} (h : j.isRing) (hroom : ¬128 ≤ j.ring.length) (p : Trip) :
    (j.place p).ring.length = j.ring.length + 1
      ∧ (j.place p).ring.map TripRecord.seq = List.range' (j.next - j.ring.length) (j.ring.length + 1) := by
  obtain ⟨_, hnext, hseq⟩ := h
  have hring : (j.place p).ring = j.ring ++ [⟨j.next, p, false, false⟩] := by
    simp only [Journal.place, hroom, if_false]
  rw [hring, List.map_append, hseq, List.range'_concat]
  refine ⟨by simp, ?_⟩
  simp only [List.map_cons, List.map_nil]
  congr 2
  omega

theorem Journal.isRing_place {j : Journal} (h : j.isRing) (p : Trip) : (j.place p).isRing := by
  have hnext : (j.place p).next = j.next + 1 := rfl
  have hbound := h.1
  have hless := h.2.1
  by_cases hfull : 128 ≤ j.ring.length
  · obtain ⟨hlen, hseq⟩ := seq_place_full h hfull p
    exact ⟨by omega, by omega, by rw [hseq, hlen, hnext]⟩
  · obtain ⟨hlen, hseq⟩ := seq_place_room h hfull p
    exact ⟨by omega, by omega, by rw [hseq, hlen, hnext, Nat.add_sub_add_right]⟩

/-- A change of marks leaves length and numbers. -/
theorem Journal.isRing_map {j : Journal} (h : j.isRing) {g : TripRecord → TripRecord}
    (hg : ∀ r, (g r).seq = r.seq) : ({ j with ring := j.ring.map g } : Journal).isRing := by
  obtain ⟨hlen, hnext, hseq⟩ := h
  have hmap : (j.ring.map g).map TripRecord.seq = j.ring.map TripRecord.seq := by
    rw [List.map_map]
    exact List.map_congr_left (fun r _ => hg r)
  refine ⟨?_, ?_, ?_⟩
  · simpa using hlen
  · simpa using hnext
  · simpa [hmap] using hseq

theorem Journal.isRing_setRead {j : Journal} (h : j.isRing) (n : Nat) : (j.setRead n).isRing :=
  isRing_map h (fun r => by split <;> rfl)

theorem Journal.isRing_markClosed {j : Journal} (h : j.isRing) : j.markClosed.isRing :=
  isRing_map h (fun _ => rfl)

theorem Journal.isRing_cleared : Journal.cleared.isRing := by
  simp [Journal.isRing, Journal.cleared]

/-! ### Records placed -/

theorem placeRecord_journal (p : Trip) (s : State) : (placeRecord p s).journal = s.journal.place p :=
  (raiseIf_acts _ _ _ _).same .journal

theorem foldl_placeRecord_journal (ps : List Trip) (s : State) :
    (ps.foldl (fun t p => placeRecord p t) s).journal = ps.foldl Journal.place s.journal := by
  induction ps generalizing s with
  | nil => rfl
  | cons p ps ih =>
    rw [List.foldl_cons, ih, placeRecord_journal]
    rfl

theorem recordsTrips_journal (ps : List Trip) (s : State) :
    (recordsTrips ps s).journal = ps.foldl Journal.place s.journal := by
  rw [← foldl_placeRecord_journal]
  exact (addTotals_acts _ _).same .journal

/-- A settlement places its records in their order. -/
theorem settles_journal (close : Session → Session) (paid : List LegPaid) (s : State) :
    (settles close paid s).journal = (paid.map (fun x => settledTrip x s)).foldl Journal.place s.journal := by
  have hafter := (((releaseLegs_acts s.settle.session.paymentId
    (recordsTrips (paid.map (fun x => settledTrip x s)) (setTimer none (setSession close s)))).seq
    (askTone_acts .approved _)).seq (raisePayment_acts _)).same .journal
  exact hafter.trans (recordsTrips_journal _ _)

theorem voidsLeg_journal (i : Slot) (s : State) : (voidsLeg i s).journal = s.journal.place (voidTrip i s) := by
  have htotals : (addTotals Totals.addVoid (placeRecord (voidTrip i s) s)).journal
      = (placeRecord (voidTrip i s) s).journal := (addTotals_acts _ _).same .journal
  rw [← placeRecord_journal, ← htotals]
  exact ((raiseLegState_acts i _).seq (resign_acts _)).same .journal

theorem Journal.isRing_foldl_place {j : Journal} (h : j.isRing) (ps : List Trip) :
    (ps.foldl Journal.place j).isRing := by
  induction ps generalizing j with
  | nil => exact h
  | cons p ps ih => exact ih (isRing_place h p)

theorem journalKept_settles (close : Session → Session) (paid : List LegPaid) {s : State} (h : journalKept s) :
    journalKept (settles close paid s) := by
  rw [journalKept_iff, settles_journal]
  exact Journal.isRing_foldl_place ((journalKept_iff s).mp h) _

/-! ### Rules, events and O11 -/

theorem journalKept_rule : ∀ (c : Instr) (r : State → Taken), ruleOf c = some r →
    touches [.journal] c = true → ∀ s, s.power = .running → journalKept s → journalKept (r s).1
  | .legVoid i, _, rfl, _ => by
    intro s _ h
    simp only [takeLegVoid]
    repeat' split
    any_goals exact h
    all_goals
      rw [journalKept_iff, voidsLeg_journal]
      exact Journal.isRing_place ((journalKept_iff s).mp h) _
  | .payBegin l t o, _, rfl, _ => by
    intro s _ h
    simp only [takePayBegin]
    repeat' split
    any_goals exact h
    next slots tender offer _ _ _ _ _ _ =>
      have hbegun : journalKept (beginsPayment slots tender offer s) :=
        journalKept_readsOnly.keeps (beginsPayment_acts _ _ _ s) (by decide) h
      cases tender with
      | cash => exact journalKept_settles _ _ hbegun
      | card =>
        simp only [beginsBy, beginsCard]
        split
        · exact journalKept_readsOnly.keeps (enterTipWait_acts _) (by decide) hbegun
        · exact journalKept_readsOnly.keeps (enterAuthorising_acts _) (by decide) hbegun
  | .payCash, _, rfl, _ => by
    intro s _ h
    simp only [takePayCash]
    split
    · exact journalKept_settles _ _ h
    · exact h
  | .shiftClose, _, rfl, _ => by
    intro s _ h
    simp only [takeShiftClose]
    repeat' split
    any_goals exact h
    refine journalKept_readsOnly.keeps ((resignToAuto_acts _).seq (raiseShiftState_acts _)) (by decide) ?_
    rw [journalKept_iff]
    exact Journal.isRing_markClosed ((journalKept_iff s).mp h)
  | .tripRead n, _, rfl, _ => by
    intro s _ h
    simp only [takeTripRead]
    repeat' split
    any_goals exact h
    exact (journalKept_iff _).mpr (Journal.isRing_setRead ((journalKept_iff s).mp h) _)
  | .tripNextUnread, _, rfl, _ => by
    intro s _ h
    simp only [takeTripNextUnread]
    split
    · exact (journalKept_iff _).mpr (Journal.isRing_setRead ((journalKept_iff s).mp h) _)
    · exact h
  | .factoryClear, _, rfl, _ => by
    intro s _ h
    simp only [takeFactoryClear]
    split
    · exact h
    · exact journalKept_readsOnly.keeps (((resign_acts _).seq (raiseShiftState_acts _)).seq
        ((raiseIf_acts _ _ _ _).seq (reportPayment_acts _ _))) (by decide)
        ((journalKept_iff _).mpr Journal.isRing_cleared)

theorem journalKept_restarts (s : State) (h : journalKept s) : journalKept (restarts s) := by
  have hblocks (t : State) (ht : journalKept t) : journalKept (restartBlocks t) :=
    journalKept_readsOnly.keeps (restartBlocks_acts t) (by decide) ht
  refine journalKept_readsOnly.keeps (restartNotices_acts _ _ _ _ _) (by decide) (hblocks _ ?_)
  split
  · exact h
  · exact (journalKept_iff _).mpr Journal.isRing_cleared

theorem journalKept_approves (r : Ref) (n : Nat) (a : Text) {s : State} (h : journalKept s) :
    journalKept (approves r n a s) := by
  unfold approves takesApproval
  repeat' split
  · exact journalKept_settles _ _ (s := removeStale r s) h
  · exact journalKept_readsOnly.keeps (((removeStale_acts r s).seq (makeReversal_acts _ _ _ _)).seq
      (abortEnds_acts _ _)) (by decide) h
  · exact journalKept_readsOnly.keeps (takesLateApproval_acts _ _ s) (by decide) h

theorem journalKept_event : ∀ c : Instr, ruleOf c = none → takesFrames c = false →
    touches [.journal] c = true → ∀ s t, exec c s = .next t → journalKept s → journalKept t
  | .tApproved r n a, _, _, _ => by
    rintro s t ⟨⟩ h
    unfold whileRunning
    split
    · exact journalKept_approves r n a (s := { s with tender := _ }) h
    · exact h
  | .restart, _, _, _ => by
    rintro s t ⟨⟩ h
    split
    · exact journalKept_restarts s h
    · exact journalKept_restarts s h
    · exact h

/-- A base step counts timers. -/
theorem baseStep_acts (s : State) :
    acts [.clock, .odo, .settle, .tender, .sign, .intercom, .speakers, .link] s (baseStep s) := by
  refine ⟨?_, noticesKept_baseStep s⟩
  unfold baseStep whileRunning
  split <;> simp [changesOnly, timersStep]

/-- Settles O11. -/
theorem theJournalStaysARing : Obligations.TheJournalStaysARing := by
  intro s t hs ht
  exact step_keeps journalKept_readsOnly (by decide) journalKept_rule journalKept_event
    (fun s => journalKept_readsOnly.keeps (baseStep_acts s) (by decide)) s t hs ht

end Sys2Proof.Machine
end

