-- ==== Sys2Proof/Proofs/Effects.lean ====
section
/-!
PROOF. What the operations of the settlement unit, the tender link, the shift accounts and the legs' payment interface
write, part by part: one equation for each part that an operation changes, and one for those that it leaves.
-/

set_option Elab.async false

namespace Sys2Proof.Machine

/-! ### What an operation leaves, as equations -/

/-- The control link alone may differ. -/
abbrev linkDiffers (s t : State) : Prop :=
  t.power = s.power ∧ t.pins = s.pins ∧ t.odo = s.odo ∧ t.fare = s.fare ∧ t.settle = s.settle ∧ t.tender =
    s.tender ∧ t.shifts = s.shifts ∧ t.journal = s.journal ∧ t.sign = s.sign ∧ t.intercom = s.intercom ∧
    t.speakers = s.speakers ∧ t.clock = s.clock ∧ t.retained = s.retained ∧ t.pending = s.pending ∧
    t.freeCount = s.freeCount

/-- Speakers and control link alone may differ. -/
abbrev speakersDiffers (s t : State) : Prop :=
  t.power = s.power ∧ t.pins = s.pins ∧ t.odo = s.odo ∧ t.fare = s.fare ∧ t.settle = s.settle ∧ t.tender =
    s.tender ∧ t.shifts = s.shifts ∧ t.journal = s.journal ∧ t.sign = s.sign ∧ t.intercom = s.intercom ∧
    t.clock = s.clock ∧ t.retained = s.retained ∧ t.pending = s.pending ∧ t.freeCount = s.freeCount

/-- Tender link and control link alone may differ. -/
abbrev tenderDiffers (s t : State) : Prop :=
  t.power = s.power ∧ t.pins = s.pins ∧ t.odo = s.odo ∧ t.fare = s.fare ∧ t.settle = s.settle ∧ t.shifts =
    s.shifts ∧ t.journal = s.journal ∧ t.sign = s.sign ∧ t.intercom = s.intercom ∧ t.speakers = s.speakers ∧
    t.clock = s.clock ∧ t.retained = s.retained ∧ t.pending = s.pending ∧ t.freeCount = s.freeCount

/-- The shift accounts alone may differ. -/
abbrev shiftsDiffers (s t : State) : Prop :=
  t.power = s.power ∧ t.pins = s.pins ∧ t.odo = s.odo ∧ t.fare = s.fare ∧ t.settle = s.settle ∧ t.tender =
    s.tender ∧ t.journal = s.journal ∧ t.sign = s.sign ∧ t.intercom = s.intercom ∧ t.speakers = s.speakers ∧
    t.clock = s.clock ∧ t.retained = s.retained ∧ t.link = s.link ∧ t.pending = s.pending ∧ t.freeCount =
    s.freeCount

/-- Journal and control link alone may differ. -/
abbrev journalDiffers (s t : State) : Prop :=
  t.power = s.power ∧ t.pins = s.pins ∧ t.odo = s.odo ∧ t.fare = s.fare ∧ t.settle = s.settle ∧ t.tender =
    s.tender ∧ t.shifts = s.shifts ∧ t.sign = s.sign ∧ t.intercom = s.intercom ∧ t.speakers = s.speakers ∧
    t.clock = s.clock ∧ t.retained = s.retained ∧ t.pending = s.pending ∧ t.freeCount = s.freeCount

/-- Sign and control link alone may differ. -/
abbrev signDiffers (s t : State) : Prop :=
  t.power = s.power ∧ t.pins = s.pins ∧ t.odo = s.odo ∧ t.fare = s.fare ∧ t.settle = s.settle ∧ t.tender =
    s.tender ∧ t.shifts = s.shifts ∧ t.journal = s.journal ∧ t.intercom = s.intercom ∧ t.speakers = s.speakers
    ∧ t.clock = s.clock ∧ t.retained = s.retained ∧ t.pending = s.pending ∧ t.freeCount = s.freeCount

/-- Fare engine and control link alone may differ. -/
abbrev fareDiffers (s t : State) : Prop :=
  t.power = s.power ∧ t.pins = s.pins ∧ t.odo = s.odo ∧ t.settle = s.settle ∧ t.tender = s.tender ∧ t.shifts
    = s.shifts ∧ t.journal = s.journal ∧ t.sign = s.sign ∧ t.intercom = s.intercom ∧ t.speakers = s.speakers ∧
    t.clock = s.clock ∧ t.retained = s.retained ∧ t.pending = s.pending ∧ t.freeCount = s.freeCount

theorem linkDiffers_of {s t : State} (h : acts [.link] s t) : linkDiffers s t := by
  simpa [changesOnly] using h.frame

theorem speakersDiffers_of {s t : State} (h : acts [.speakers, .link] s t) : speakersDiffers s t := by
  simpa [changesOnly] using h.frame

theorem tenderDiffers_of {s t : State} (h : acts [.tender, .link] s t) : tenderDiffers s t := by
  simpa [changesOnly] using h.frame

theorem journalDiffers_of {s t : State} (h : acts [.journal, .link] s t) : journalDiffers s t := by
  simpa [changesOnly] using h.frame

theorem signDiffers_of {s t : State} (h : acts [.sign, .link] s t) : signDiffers s t := by
  simpa [changesOnly] using h.frame

theorem fareDiffers_of {s t : State} (h : acts [.fare, .link] s t) : fareDiffers s t := by
  simpa [changesOnly] using h.frame

/-! ### The shared operations -/

@[simp] theorem raiseIf_rest (c : Bool) (k : NoticeKind) (payload : List Field) (s : State) :
    linkDiffers s (raiseIf c k payload s) := linkDiffers_of (raiseIf_acts c k payload s)

@[simp] theorem raiseLegStates_rest (changed : List Slot) (s : State) :
    linkDiffers s (raiseLegStates changed s) := linkDiffers_of (raiseLegStates_acts changed s)

@[simp] theorem raiseLegState_rest (i : Slot) (s : State) : linkDiffers s (raiseLegState i s) :=
  linkDiffers_of (raiseLegState_acts i s)

@[simp] theorem raiseFareStep_rest (s : State) : linkDiffers s (raiseFareStep s) :=
  linkDiffers_of (raiseFareStep_acts s)

@[simp] theorem raisePayment_rest (s : State) : linkDiffers s (raisePayment s) := linkDiffers_of (raisePayment_acts s)

@[simp] theorem reportPayment_rest (was : SessionState) (s : State) : linkDiffers s (reportPayment was s) :=
  linkDiffers_of (reportPayment_acts was s)

@[simp] theorem raiseShiftState_rest (s : State) : linkDiffers s (raiseShiftState s) :=
  linkDiffers_of (raiseShiftState_acts s)

@[simp] theorem raiseIntercom_rest (s : State) : linkDiffers s (raiseIntercom s) :=
  linkDiffers_of (raiseIntercom_acts s)

@[simp] theorem raiseDropped_rest (x : Speaker) (lost : Option Dropped) (s : State) :
    linkDiffers s (raiseDropped x lost s) := linkDiffers_of (raiseDropped_acts x lost s)

@[simp] theorem reportSign_rest (before : Sign) (s : State) : linkDiffers s (reportSign before s) :=
  linkDiffers_of (reportSign_acts before s)

@[simp] theorem restartNotices_rest (e : FareEngine) (was : SessionState) (valid : Bool) (gap : Option Nat) (s : State) :
    linkDiffers s (restartNotices e was valid gap s) := linkDiffers_of (restartNotices_acts e was valid gap s)

@[simp] theorem askTone_rest (k : ToneKind) (s : State) : speakersDiffers s (askTone k s) :=
  speakersDiffers_of (askTone_acts k s)

@[simp] theorem requestTone_rest (x : Speaker) (t : Tone) (s : State) : speakersDiffers s (requestTone x t s).1 :=
  speakersDiffers_of (requestTone_acts x t s)

@[simp] theorem setTender_rest (changed : Bool) (t : TenderLink) (s : State) :
    tenderDiffers s (setTender changed t s) := tenderDiffers_of (setTender_acts changed t s)

@[simp] theorem sendFrame_rest (m : PartMsg) (s : State) : tenderDiffers s (sendFrame m s) :=
  tenderDiffers_of (sendFrame_acts m s)

@[simp] theorem addTotals_rest (g : Totals → Totals) (s : State) : shiftsDiffers s (addTotals g s) := by
  simpa [changesOnly] using (addTotals_acts g s).frame

@[simp] theorem placeRecord_rest (p : Trip) (s : State) : journalDiffers s (placeRecord p s) :=
  journalDiffers_of (placeRecord_acts p s)

@[simp] theorem resign_rest (s : State) : signDiffers s (resign s) := signDiffers_of (resign_acts s)

@[simp] theorem resignToAuto_rest (s : State) : signDiffers s (resignToAuto s) := signDiffers_of (resignToAuto_acts s)

@[simp] theorem lockLegs_rest (p : Nat) (slots : List Slot) (s : State) : fareDiffers s (lockLegs p slots s) :=
  fareDiffers_of (lockLegs_acts p slots s)

@[simp] theorem unlockLegs_rest (p : Nat) (s : State) : fareDiffers s (unlockLegs p s) :=
  fareDiffers_of (unlockLegs_acts p s)

@[simp] theorem releaseLegs_rest (p : Nat) (s : State) :
    (releaseLegs p s).power = s.power ∧ (releaseLegs p s).pins = s.pins ∧ (releaseLegs p s).odo = s.odo
      ∧ (releaseLegs p s).settle = s.settle ∧ (releaseLegs p s).tender = s.tender
      ∧ (releaseLegs p s).shifts = s.shifts ∧ (releaseLegs p s).journal = s.journal
      ∧ (releaseLegs p s).intercom = s.intercom ∧ (releaseLegs p s).speakers = s.speakers
      ∧ (releaseLegs p s).clock = s.clock := by
  simp [releaseLegs]

/-- The state that a restart's blocks start from: running, with the clock read and the memory checked (R165). -/
def restartMemory (s : State) : State :=
  let s1 := { s with power := .running, clock := s.clock.atRestart }
  if s.retained.isValid then s1 else clearRetained s1

/-- After its blocks have started, a restart writes its figures and raises its notices. -/
@[simp] theorem restarts_rest (s : State) :
    (restarts s).power = (restartBlocks (restartMemory s)).power
      ∧ (restarts s).odo = (restartBlocks (restartMemory s)).odo
      ∧ (restarts s).fare = (restartBlocks (restartMemory s)).fare
      ∧ (restarts s).settle = (restartBlocks (restartMemory s)).settle
      ∧ (restarts s).tender = (restartBlocks (restartMemory s)).tender
      ∧ (restarts s).shifts = (restartBlocks (restartMemory s)).shifts
      ∧ (restarts s).journal = (restartBlocks (restartMemory s)).journal
      ∧ (restarts s).sign = (restartBlocks (restartMemory s)).sign
      ∧ (restarts s).intercom = (restartBlocks (restartMemory s)).intercom
      ∧ (restarts s).speakers = (restartBlocks (restartMemory s)).speakers
      ∧ (restarts s).clock = (restartBlocks (restartMemory s)).clock := by
  simp [restarts, restartMemory]

@[simp] theorem restartBlocks_rest (s : State) :
    (restartBlocks s).power = s.power ∧ (restartBlocks s).pins = s.pins ∧ (restartBlocks s).shifts = s.shifts
      ∧ (restartBlocks s).journal = s.journal ∧ (restartBlocks s).clock = s.clock
      ∧ (restartBlocks s).retained = s.retained := by
  have h := restartBlocks_acts s
  exact ⟨h.same .power, h.same .pins, h.same .shifts, h.same .journal, h.same .clock, h.same .retained⟩

/-! ### The tender link -/

@[simp] theorem setTender_tender (changed : Bool) (t : TenderLink) (s : State) : (setTender changed t s).tender = t := by
  simp [setTender]

/-- A frame is given to the transmit queue (R92). -/
@[simp] theorem sendFrame_tender (m : PartMsg) (s : State) :
    (sendFrame m s).tender = (s.tender.give s.pins.cts m).1 := by
  simp [sendFrame]

/-! ### The legs' payment interface -/

/-- The legs that a lock makes PAYING (R53). -/
def FareEngine.lock (e : FareEngine) (p : Nat) (slots : List Slot) : FareEngine :=
  slots.foldl (fun e i =>
    { e with legs := e.legs.set { e.legs.get i with state := .paying, paymentId := some p } i }) e

/-- The legs that a release makes FREE (R55). -/
def FareEngine.release (e : FareEngine) (p : Nat) : FareEngine := (e.slotsPaying p).foldl FareEngine.freeLeg e

@[simp] theorem lockLegs_fare (p : Nat) (slots : List Slot) (s : State) :
    (lockLegs p slots s).fare = s.fare.lock p slots := by
  simp [lockLegs, FareEngine.lock]

@[simp] theorem unlockLegs_fare (p : Nat) (s : State) : (unlockLegs p s).fare = s.fare.unlock p := by
  simp [unlockLegs]

@[simp] theorem releaseLegs_fare (p : Nat) (s : State) : (releaseLegs p s).fare = s.fare.release p := by
  simp [releaseLegs, FareEngine.release]

/-! ### The shift accounts and the journal -/

@[simp] theorem placeRecord_journal_place (p : Trip) (s : State) : (placeRecord p s).journal = s.journal.place p :=
  placeRecord_journal p s

theorem addTotals_shifts (g : Totals → Totals) (s : State) :
    (addTotals g s).shifts =
      if shiftOpen s then { s.shifts with record := { s.shifts.record with totals := g s.shifts.record.totals } }
      else s.shifts := by
  unfold addTotals shiftOpen
  split <;> rfl

@[simp] theorem addTotals_reports (g : Totals → Totals) (s : State) :
    (addTotals g s).shifts.reports = s.shifts.reports := by
  rw [addTotals_shifts]
  split <;> rfl

@[simp] theorem addTotals_isOpen (g : Totals → Totals) (s : State) :
    (addTotals g s).shifts.record.isOpen = s.shifts.record.isOpen := by
  rw [addTotals_shifts]
  split <;> rfl

@[simp] theorem addTotals_number (g : Totals → Totals) (s : State) :
    (addTotals g s).shifts.record.number = s.shifts.record.number := by
  rw [addTotals_shifts]
  split <;> rfl

theorem foldl_placeRecord_acts (ps : List Trip) (s : State) :
    acts [.journal, .link] s (ps.foldl (fun t p => placeRecord p t) s) :=
  foldl_acts (fun t p => placeRecord_acts p t) ps s

@[simp] theorem foldl_placeRecord_rest (ps : List Trip) (s : State) :
    journalDiffers s (ps.foldl (fun t p => placeRecord p t) s) := journalDiffers_of (foldl_placeRecord_acts ps s)

@[simp] theorem recordsTrips_rest (ps : List Trip) (s : State) :
    (recordsTrips ps s).power = s.power ∧ (recordsTrips ps s).pins = s.pins ∧ (recordsTrips ps s).odo = s.odo
      ∧ (recordsTrips ps s).fare = s.fare ∧ (recordsTrips ps s).settle = s.settle
      ∧ (recordsTrips ps s).tender = s.tender ∧ (recordsTrips ps s).sign = s.sign
      ∧ (recordsTrips ps s).intercom = s.intercom ∧ (recordsTrips ps s).speakers = s.speakers
      ∧ (recordsTrips ps s).clock = s.clock := by
  simp [recordsTrips]

theorem recordsTrips_shifts (ps : List Trip) (s : State) :
    (recordsTrips ps s).shifts = (addTotals (Totals.addTrips ps) s).shifts := by
  cases h : s.shifts.record.isOpen <;> simp [recordsTrips, addTotals_shifts, shiftOpen, h]

/-! ### What each payment event writes of the settlement unit -/

@[simp] theorem closeUnpaid_settle (x : SessionState) (c : CloseCause) (s : State) :
    (closeUnpaid x c s).settle
      = { s.settle with session := s.settle.session.close x c s.clock.count, timer := none } := by
  simp [closeUnpaid, setTimer, setSession]

@[simp] theorem enterRetryWait_settle (s : State) :
    (enterRetryWait s).settle
      = { s.settle with
          session := { s.settle.session with state := .retryWait, outstanding := none, abortCause := none }
          timer := some ⟨.retryIdle, 12000⟩ } := by
  simp [enterRetryWait, setTimer, setSession]

/-- The session after an attempt that ended without approval (R73). -/
def Session.unapproved (p : Session) (reason : DeclineReason) (count : Nat) : Session :=
  let q := { p with declineReason := some reason, outstanding := none }
  if p.attempt.getD 0 < 3 then { q with state := .retryWait, outstanding := none, abortCause := none }
  else q.close .failed .declines count

@[simp] theorem endsUnapproved_settle (reason : DeclineReason) (s : State) :
    (endsUnapproved reason s).settle
      = { s.settle with
          session := s.settle.session.unapproved reason s.clock.count
          timer := if s.settle.session.attempt.getD 0 < 3 then some ⟨.retryIdle, 12000⟩ else none } := by
  unfold endsUnapproved Session.unapproved
  dsimp only
  split <;> simp [setSession]

@[simp] theorem enterAborting_settle (c : AbortCause) (r : Ref) (s : State) :
    (enterAborting c r s).settle
      = { s.settle with
          session := { s.settle.session with state := .aborting, abortCause := some c }
          timer := some ⟨.abort, 1000⟩ } := by
  simp [enterAborting, setTimer, setSession]

theorem makeReversal_settle (places : Nat) (r : Ref) (amount : Nat) (s : State) :
    (makeReversal places r amount s).settle
      = if reversalPlaced places s then
          { s.settle with reversals := s.settle.reversals ++ [⟨r, amount, 3000⟩] }
        else { s.settle with unheld := satAdd 255 s.settle.unheld 1 } := by
  simp [makeReversal]

@[simp] theorem resendExpires_settle (entry : Nat) (s : State) :
    (resendExpires entry s).settle
      = { s.settle with reversals := restartResend entry s.settle.reversals } := by
  unfold resendExpires
  split
  · simp
  · next h =>
    have hid : restartResend entry s.settle.reversals = s.settle.reversals := by
      unfold restartResend
      rw [List.getElem?_eq_none_iff] at h
      exact List.ext_getElem (by simp) (fun i hi _ => by
        have : i ≠ entry := by simp at hi; omega
        simp [this])
    rw [hid]

@[simp] theorem settles_settle (close : Session → Session) (paid : List LegPaid) (s : State) :
    (settles close paid s).settle = { s.settle with session := close s.settle.session, timer := none } := by
  simp [settles, releaseLegs, setTimer, setSession]

@[simp] theorem enterAuthorising_settle (s : State) :
    (enterAuthorising s).settle
      = { s.settle with
          session := { s.settle.session with
            state := .authorising
            outstanding := some ⟨s.settle.session.paymentId, s.settle.session.attempt.getD 0⟩
            stage := none, abortCause := none }
          timer := some ⟨.response, 6000⟩, saleLeft := 18000 } := by
  simp [enterAuthorising, setSession]

@[simp] theorem enterTipWait_settle (s : State) :
    (enterTipWait s).settle
      = { s.settle with session := { s.settle.session with state := .tipWait }, timer := some ⟨.tip, 3000⟩ } := by
  simp [enterTipWait, setTimer, setSession]

@[simp] theorem takesLateApproval_settle (r : Ref) (amount : Nat) (s : State) :
    (takesLateApproval r amount s).settle
      = (removeStale r (makeReversal 5 r amount s)).settle := by
  simp [takesLateApproval]

@[simp] theorem beginsPayment_settle (slots : List Slot) (t : Tender) (offer : Bool) (s : State) :
    (beginsPayment slots t offer s).settle
      = { s.settle with session := begunSession slots t offer s, nextId := nextPaymentId s.settle.nextId } := by
  simp [beginsPayment]

theorem foldl_sendFrame_acts {α : Type} (g : α → PartMsg) (xs : List α) (s : State) :
    acts [.tender, .link] s (xs.foldl (fun t x => sendFrame (g x) t) s) :=
  foldl_acts (fun t x => sendFrame_acts (g x) t) xs s

@[simp] theorem foldl_sendFrame_rest {α : Type} (g : α → PartMsg) (xs : List α) (s : State) :
    tenderDiffers s (xs.foldl (fun t x => sendFrame (g x) t) s) :=
  tenderDiffers_of (foldl_sendFrame_acts g xs s)

@[simp] theorem resendAll_settle (s : State) :
    (resendAll s).settle
      = { s.settle with reversals := s.settle.reversals.map (fun (e : Reversal) => { e with left := 3000 }) } :=
  (foldl_sendFrame_acts (fun e : Reversal => .reverse e.ref e.amount) _ _).same .settle

/-! ### What each payment event writes of the fare engine -/

@[simp] theorem closeUnpaid_fare (x : SessionState) (c : CloseCause) (s : State) :
    (closeUnpaid x c s).fare = s.fare.unlock s.settle.session.paymentId := by
  simp [closeUnpaid]

@[simp] theorem enterRetryWait_fare (s : State) : (enterRetryWait s).fare = s.fare := by simp [enterRetryWait]

@[simp] theorem endsUnapproved_fare (reason : DeclineReason) (s : State) :
    (endsUnapproved reason s).fare
      = if s.settle.session.attempt.getD 0 < 3 then s.fare else s.fare.unlock s.settle.session.paymentId := by
  unfold endsUnapproved
  dsimp only
  split <;> simp

@[simp] theorem settles_fare (close : Session → Session) (paid : List LegPaid) (s : State) :
    (settles close paid s).fare = s.fare.release s.settle.session.paymentId := by
  simp [settles]

@[simp] theorem beginsPayment_fare (slots : List Slot) (t : Tender) (offer : Bool) (s : State) :
    (beginsPayment slots t offer s).fare = s.fare.lock s.settle.nextId slots := by
  simp [beginsPayment]

/-! ### The tender link's part -/

@[simp] theorem enterAborting_tender (c : AbortCause) (r : Ref) (s : State) :
    (enterAborting c r s).tender = (s.tender.give s.pins.cts (.abort r)).1 := by
  simp [enterAborting]

@[simp] theorem enterAuthorising_tender (s : State) :
    (enterAuthorising s).tender
      = (s.tender.give s.pins.cts (.sale ⟨s.settle.session.paymentId, s.settle.session.attempt.getD 0⟩
          s.settle.session.total (s.settle.settings.currency.getD []))).1 := by
  simp [enterAuthorising]

@[simp] theorem makeReversal_tender (places : Nat) (r : Ref) (amount : Nat) (s : State) :
    (makeReversal places r amount s).tender = (s.tender.give s.pins.cts (.reverse r amount)).1 := by
  simp [makeReversal]

end Sys2Proof.Machine
end

