-- ==== Sys2Proof/Proofs/Buffers.lean ====
section
/-!
PROOF. No list outgrows its capacity (R78, R79, R88, R92, R93, R109): the tender link's ring, queue and head frame, the
settlement unit's two lists and the shift accounts' reports, each on its own; and from these O13.
-/

set_option Elab.async false

namespace Sys2Proof.Machine

/-! ### The three conditions -/

/-- Receive ring and transmit queue within their sizes, and no more bytes of the head frame started than it has. -/
def TenderLink.fits (t : TenderLink) : Prop :=
  t.ring.length ≤ 256 ∧ t.queue.length ≤ 8 ∧ t.headStarted ≤ t.headLength

/-- Reversal list and stale-reference memory within their sizes, the latter with no reference twice. -/
def Settlement.fits (u : Settlement) : Prop := u.reversals.length ≤ 5 ∧ u.stale.length ≤ 8 ∧ u.stale.Nodup

/-- The report list within its size. -/
def ShiftAccounts.fits (a : ShiftAccounts) : Prop := a.reports.length ≤ 8

theorem buffersKept_iff (s : State) : buffersKept s ↔ s.tender.fits ∧ s.settle.fits ∧ s.shifts.fits := by
  unfold buffersKept TenderLink.fits Settlement.fits ShiftAccounts.fits
  constructor
  · rintro ⟨h1, h2, h3, h4, h5, h6, h7⟩
    exact ⟨⟨h1, h2, h7⟩, ⟨h3, h4, h5⟩, h6⟩
  · rintro ⟨⟨h1, h2, h7⟩, ⟨h3, h4, h5⟩, h6⟩
    exact ⟨h1, h2, h3, h4, h5, h6, h7⟩

/-- A condition on one part alone. -/
theorem readsOnly_tender {P : TenderLink → Prop} : readsOnly [.tender] (fun s => P s.tender) := by
  intro s t hsame hs
  have h : t.tender = s.tender := hsame .tender (by simp)
  simpa [h] using hs

theorem readsOnly_settle {P : Settlement → Prop} : readsOnly [.settle] (fun s => P s.settle) := by
  intro s t hsame hs
  have h : t.settle = s.settle := hsame .settle (by simp)
  simpa [h] using hs

theorem readsOnly_shifts {P : ShiftAccounts → Prop} : readsOnly [.shifts] (fun s => P s.shifts) := by
  intro s t hsame hs
  have h : t.shifts = s.shifts := hsame .shifts (by simp)
  simpa [h] using hs

/-! ### The tender link -/

/-- A change beside ring, queue and head frame. -/
theorem TenderLink.fits_congr {t u : TenderLink} (hr : u.ring.length ≤ 256) (hq : u.queue = t.queue)
    (hh : u.headStarted = t.headStarted) (h : t.fits) : u.fits := by
  unfold TenderLink.fits TenderLink.headLength at *
  rw [hq, hh]
  exact ⟨hr, h.2⟩

theorem TenderLink.fits_newHead {t : TenderLink} (hr : t.ring.length ≤ 256) (hq : t.queue.length ≤ 8) (cts : Bool) :
    (t.newHead cts).fits := by
  refine ⟨?_, ?_, t.newHead_le cts⟩
  · unfold newHead
    split <;> exact hr
  · unfold newHead
    split <;> exact hq

theorem TenderLink.fits_dropHead {t : TenderLink} (h : t.fits) (cts : Bool) : (t.dropHead cts).fits :=
  fits_newHead (t := { t with queue := t.queue.drop 1 }) h.1 (by simp; have := h.2.1; omega) cts

theorem PartMsg.statusAsk_length (m n : Nat) : (PartMsg.statusAsk m).frame.length = (PartMsg.statusAsk n).frame.length := by
  simp [PartMsg.frame, PartMsg.body, tenderFrame, bytesOf]

/-- A merged ask leaves the number of frames and the length of the first. -/
theorem newAsk_length {n : Nat} {ms q : List PartMsg} (h : newAsk n ms = some q) :
    q.length = ms.length ∧ q.head?.map (fun m => m.frame.length) = ms.head?.map (fun m => m.frame.length) := by
  induction ms generalizing q with
  | nil => simp [newAsk] at h
  | cons m ms ih =>
    cases m with
    | statusAsk k =>
      simp only [newAsk, Option.some.injEq] at h
      subst h
      exact ⟨rfl, by simp [PartMsg.statusAsk_length n k]⟩
    | sale _ _ _ | abort _ | reverse _ _ =>
      simp only [newAsk, Option.map_eq_some_iff] at h
      obtain ⟨rest, hrest, rfl⟩ := h
      exact ⟨by simp [(ih hrest).1], rfl⟩

theorem TenderLink.merged_length {t : TenderLink} {m : PartMsg} {q : List PartMsg} (h : t.merged m = some q) :
    q.length = t.queue.length
      ∧ q.head?.map (fun m => m.frame.length) = t.queue.head?.map (fun m => m.frame.length) := by
  cases m with
  | sale _ _ _ | abort _ | reverse _ _ => cases h
  | statusAsk n =>
    simp only [merged, mergeAsk] at h
    cases hq : t.queue with
    | nil => simp [hq] at h
    | cons m ms =>
      simp only [hq] at h
      split at h
      · obtain ⟨rest, hrest, rfl⟩ := Option.map_eq_some_iff.mp h
        exact ⟨by simp [(newAsk_length hrest).1], rfl⟩
      · exact newAsk_length h

theorem TenderLink.headLength_eq (t : TenderLink) :
    t.headLength = (t.queue.head?.map (fun m => m.frame.length)).getD 0 := by
  unfold headLength
  cases t.queue <;> rfl

theorem TenderLink.fits_give {t : TenderLink} (h : t.fits) (cts : Bool) (m : PartMsg) : (t.give cts m).1.fits := by
  obtain ⟨hring, hqueue, hhead⟩ := h
  unfold give
  split
  · next q hq =>
    obtain ⟨hlen, hfirst⟩ := merged_length hq
    refine ⟨hring, ?_, ?_⟩
    · simpa [hlen] using hqueue
    · rw [headLength_eq] at hhead ⊢
      simpa [hfirst] using hhead
  · split
    · exact ⟨hring, hqueue, hhead⟩
    · next hroom =>
      have hlen : (t.queue ++ [m]).length ≤ 8 := by simp; omega
      dsimp only
      split
      · exact fits_newHead (t := { t with queue := t.queue ++ [m] }) hring hlen cts
      · next hne =>
        refine ⟨hring, hlen, ?_⟩
        rw [headLength_eq] at hhead ⊢
        cases hq : t.queue with
        | nil => simp [hq] at hne
        | cons a as => simpa [hq] using hhead

theorem TenderLink.fits_starts {t : TenderLink} (h : t.fits) (n : Nat) : (t.starts n).fits :=
  ⟨h.1, h.2.1, t.starts_le n⟩

theorem TenderLink.fits_baseStep {t : TenderLink} (h : t.fits) (cts : Bool) : (t.baseStep cts).fits := by
  refine ⟨h.1, h.2.1, ?_⟩
  cases cts with
  | true => exact t.starts_le 38
  | false => exact h.2.2

theorem TenderLink.fits_restarted (rts : Bool) : ({ TenderLink.restarted with rts := rts } : TenderLink).fits := by
  simp [fits, restarted]

/-- The condition on the tender link, of a state. -/
def tenderFits (s : State) : Prop := s.tender.fits

theorem tenderFits_readsOnly : readsOnly [.tender] tenderFits := readsOnly_tender

theorem tenderFits_sendFrame {s : State} (h : tenderFits s) (m : PartMsg) : tenderFits (sendFrame m s) := by
  simpa [tenderFits] using TenderLink.fits_give h s.pins.cts m

theorem tenderFits_enterAuthorising {s : State} (h : tenderFits s) : tenderFits (enterAuthorising s) := by
  simpa [tenderFits] using TenderLink.fits_give h _ _

theorem tenderFits_enterAborting {s : State} (h : tenderFits s) (c : AbortCause) (r : Ref) :
    tenderFits (enterAborting c r s) := by
  simpa [tenderFits] using TenderLink.fits_give h _ _

theorem tenderFits_makeReversal {s : State} (h : tenderFits s) (places : Nat) (r : Ref) (n : Nat) :
    tenderFits (makeReversal places r n s) := by
  simpa [tenderFits] using TenderLink.fits_give h _ _

theorem tenderFits_setTender {s : State} {t : TenderLink} (h : t.fits) (changed : Bool) :
    tenderFits (setTender changed t s) := by
  simpa [tenderFits] using h

theorem tenderFits_rule : ∀ (c : Instr) (r : State → Taken), ruleOf c = some r →
    touches [.tender] c = true → ∀ s, s.power = .running → tenderFits s → tenderFits (r s).1
  | .payBegin l t o, _, rfl, _ => by
    intro s _ h
    simp only [takePayBegin]
    repeat' split
    any_goals exact h
    next slots tender offer _ _ _ _ _ _ =>
      have hbegun : tenderFits (beginsPayment slots tender offer s) :=
        tenderFits_readsOnly.keeps (beginsPayment_acts _ _ _ s) (by decide) h
      cases tender with
      | cash => exact tenderFits_readsOnly.keeps (settlesByCash_acts _) (by decide) hbegun
      | card =>
        simp only [beginsBy, beginsCard]
        split
        · exact tenderFits_readsOnly.keeps (enterTipWait_acts _) (by decide) hbegun
        · exact tenderFits_enterAuthorising hbegun
  | .payTip x v, _, rfl, _ => by
    intro s _ h
    simp only [takePayTip]
    repeat' split
    any_goals exact h
    exact tenderFits_enterAuthorising (s := setSession _ s) h
  | .payAuthorise, _, rfl, _ => by
    intro s _ h
    simp only [takePayAuthorise]
    repeat' split
    any_goals exact h
    exact tenderFits_enterAuthorising (s := setSession _ s) h
  | .payCancel, _, rfl, _ => by
    intro s _ h
    simp only [takePayCancel]
    repeat' split
    any_goals exact h
    · exact tenderFits_readsOnly.keeps (closeUnpaid_acts _ _ s) (by decide) h
    · exact tenderFits_readsOnly.keeps (closeUnpaid_acts _ _ s) (by decide) h
    · exact tenderFits_enterAborting h _ _
  | .terminalStatus c, _, rfl, _ => by
    intro s _ h
    simp only [takeTerminalStatus]
    split
    · exact h
    · exact h

theorem tenderFits_frameAlive {s : State} (h : tenderFits s) : tenderFits (frameAlive s) :=
  tenderFits_setTender (t := s.tender.alive) (TenderLink.fits_congr h.1 rfl rfl h) _

theorem tenderFits_takesStatus {s : State} (h : tenderFits s) (x : Readiness) (n : Nat) :
    tenderFits (takesStatus x n s) := by
  refine tenderFits_setTender ?_ _
  exact TenderLink.fits_congr (t := s.tender) h.1 rfl rfl h

theorem tenderFits_checkFrame {s : State} (h : tenderFits s) (taken : List Byte) : tenderFits (checkFrame taken s) := by
  unfold checkFrame
  dsimp only
  split
  · have halive : tenderFits (frameAlive { s with tender := { s.tender with reader := .hunting } }) :=
      tenderFits_frameAlive h
    unfold frameComplete
    dsimp only
    split
    · exact tenderFits_takesStatus halive _ _
    · exact halive
    · exact halive
  · exact h

theorem tenderFits_readByte {s : State} (h : tenderFits s) (b : RingByte) : tenderFits (readByte b s) := by
  have hhunt (t : TenderLink) (ht : t.fits) : (t.hunt b.byte).fits := by
    unfold TenderLink.hunt
    split <;> exact ht
  unfold readByte
  split
  · exact hhunt _ h
  · split
    · exact hhunt _ h
    · unfold assembleByte
      repeat' split
      any_goals exact h
      exact tenderFits_checkFrame h _

theorem tenderFits_readerTakes {s : State} (h : tenderFits s) : tenderFits (readerTakes s) := by
  unfold readerTakes
  split
  · next hring =>
    refine tenderFits_readByte ?_ _
    refine TenderLink.fits_congr (t := s.tender) ?_ rfl rfl h
    have hlen := h.1
    rw [hring, List.length_cons] at hlen
    exact Nat.le_of_succ_le hlen
  · exact h

theorem tenderFits_byteArrives {s : State} (h : tenderFits s) (b : Byte) (gap : Bool) :
    tenderFits (byteArrives b gap s) := by
  unfold byteArrives
  split
  · exact tenderFits_setTender (t := s.tender.dropByte) (TenderLink.fits_congr h.1 rfl rfl h) _
  · refine TenderLink.fits_congr (t := s.tender) ?_ rfl rfl h
    simp [TenderLink.enter]
    omega

theorem tenderFits_heartbeatExpires {s : State} (h : tenderFits s) : tenderFits (heartbeatExpires s) :=
  tenderFits_sendFrame (tenderFits_setTender (t := s.tender.beat) (TenderLink.fits_congr h.1 rfl rfl h) _) _

theorem tenderFits_approves {s : State} (h : tenderFits s) (r : Ref) (n : Nat) (a : Text) :
    tenderFits (approves r n a s) := by
  have hstale : tenderFits (removeStale r s) := h
  unfold approves takesApproval
  repeat' split
  · exact tenderFits_readsOnly.keeps (settles_acts _ _ _) (by decide) hstale
  · exact tenderFits_readsOnly.keeps (abortEnds_acts _ _) (by decide) (tenderFits_makeReversal hstale _ _ _)
  · exact tenderFits_readsOnly.keeps (((removeStale_acts _ _).seq (addTotals_acts _ _)).seq (raise_acts _ _ _))
      (by decide) (tenderFits_makeReversal h _ _ _)

theorem tenderFits_restarts (s : State) : tenderFits (restarts s) := by
  have hsession (t : State) (ht : tenderFits t) : tenderFits (restoreSession t) := by
    simp only [restoreSession]
    split
    · exact ht
    · exact tenderFits_sendFrame ht _
    · exact tenderFits_sendFrame ht _
    · exact ht
    · exact ht
  have hresend (t : State) (ht : tenderFits t) : tenderFits (resendAll t) := by
    unfold resendAll
    refine List.foldlRecOn (motive := tenderFits) _ _ ?_ (fun u hu e _ => tenderFits_sendFrame hu _)
    exact ht
  have hblocks (t : State) : tenderFits (restartBlocks t) :=
    tenderFits_readsOnly.keeps ((restartSign_acts _).seq (restartIntercom_acts _)) (by decide)
      (tenderFits_sendFrame (hresend _ (hsession { restartVolatile t with fare := _ }
        (TenderLink.fits_restarted true))) _)
  unfold restarts
  dsimp only
  exact tenderFits_readsOnly.keeps (restartNotices_acts _ _ _ _ _) (by decide) (hblocks _)

/-- What runs only at a running part keeps a condition that it keeps. -/
theorem whileRunning_keep {P : State → Prop} {g : State → State} {s : State} (h : P s)
    (hg : s.power = .running → P s → P (g s)) : P (whileRunning g s) := by
  unfold whileRunning
  split
  · next hp => exact hg hp h
  · exact h

theorem tenderFits_handedOver {s : State} (h : tenderFits s) (m : TermMsg) :
    tenderFits { s with tender := s.tender.handedOver m } := by
  unfold tenderFits TenderLink.handedOver at *
  dsimp only
  split <;> exact h

theorem tenderFits_event : ∀ c : Instr, ruleOf c = none → takesFrames c = false →
    touches [.tender] c = true → ∀ s t, exec c s = .next t → tenderFits s → tenderFits t
  | .tipTimerExpiry, _, _, _ => by
    rintro s t ⟨⟩ h
    refine whileRunning_keep h (fun _ h => ?_)
    unfold tipExpires
    split
    · exact tenderFits_enterAuthorising (s := setSession _ s) h
    · exact h
  | .responseTimerExpiry, _, _, _ => by
    rintro s t ⟨⟩ h
    refine whileRunning_keep h (fun _ h => ?_)
    unfold responseExpires
    split
    · exact tenderFits_enterAborting h _ _
    · exact h
  | .resendTimerExpiry e, _, _, _ => by
    rintro s t ⟨⟩ h
    refine whileRunning_keep h (fun _ h => ?_)
    unfold resendExpires
    split
    · refine tenderFits_sendFrame ?_ _
      exact h
    · exact h
  | .tlFrameSent, _, _, _ => by
    rintro s t ⟨⟩ h
    refine whileRunning_keep h (fun _ h => ?_)
    unfold frameSent
    split
    · exact TenderLink.fits_dropHead h _
    · exact h
  | .sendTimerExpiry, _, _, _ => by
    rintro s t ⟨⟩ h
    refine whileRunning_keep h (fun _ h => ?_)
    unfold sendTimerExpires
    split
    · exact h
    · exact tenderFits_setTender (TenderLink.fits_dropHead (t := s.tender.discardTx) h _) _
  | .tlByteArrival b g, _, _, _ => by
    rintro s t ⟨⟩ h
    exact whileRunning_keep h (fun _ h => tenderFits_byteArrives h b g)
  | .frameReaderTake, _, _, _ => by
    rintro s t ⟨⟩ h
    exact whileRunning_keep h (fun _ h => tenderFits_readerTakes h)
  | .tStatus x n, _, _, _ => by
    rintro s t ⟨⟩ h
    exact whileRunning_keep h (fun _ h => tenderFits_takesStatus (tenderFits_frameAlive h) x n)
  | .heartbeatExpiry, _, _, _ => by
    rintro s t ⟨⟩ h
    exact whileRunning_keep h (fun _ h => tenderFits_heartbeatExpires h)
  | .tProgress r x, _, _, _ => by
    rintro s t ⟨⟩ h
    exact whileRunning_keep h (fun _ h => tenderFits_readsOnly.keeps (takesProgress_acts _ _ _) (by decide)
      (tenderFits_handedOver h _))
  | .tApproved r n a, _, _, _ => by
    rintro s t ⟨⟩ h
    exact whileRunning_keep h (fun _ h => tenderFits_approves (tenderFits_handedOver h _) r n a)
  | .tDeclined r n, _, _, _ => by
    rintro s t ⟨⟩ h
    exact whileRunning_keep h (fun _ h => tenderFits_readsOnly.keeps (declines_acts _ _ _) (by decide)
      (tenderFits_handedOver h _))
  | .tAborted r, _, _, _ => by
    rintro s t ⟨⟩ h
    exact whileRunning_keep h (fun _ h => tenderFits_readsOnly.keeps (confirmsAbort_acts _ _) (by decide)
      (tenderFits_handedOver h _))
  | .tReversed r, _, _, _ => by
    rintro s t ⟨⟩ h
    exact whileRunning_keep h (fun _ h => tenderFits_handedOver h (.reversed r))
  | .tlCtsChange l, _, _, _ => by
    rintro s t ⟨⟩ h
    refine whileRunning_keep (s := { s with pins := _ }) h (fun _ h => ?_)
    unfold tenderFits TenderLink.ctsChanges
    dsimp only
    split
    · exact TenderLink.fits_starts h 1
    · exact h
  | .supplyFail, _, _, _ => by
    rintro s t ⟨⟩ h
    split
    · exact TenderLink.fits_restarted false
    · exact TenderLink.fits_restarted false
    · exact h
  | .resetnAssert, _, _, _ => by
    rintro s t ⟨⟩ h
    split
    · exact TenderLink.fits_restarted false
    · exact h
    · exact h
  | .restart, _, _, _ => by
    rintro s t ⟨⟩ h
    split
    · exact tenderFits_restarts s
    · exact tenderFits_restarts s
    · exact h

theorem tenderFits_step (s t : State) (h : tenderFits s) (ht : step s = .next t) : tenderFits t := by
  refine step_keeps tenderFits_readsOnly (by decide) tenderFits_rule tenderFits_event (fun s h => ?_) s t h ht
  unfold baseStep
  exact whileRunning_keep (s := { s with clock := _ }) h (fun _ h => TenderLink.fits_baseStep h _)

/-! ### The settlement unit's lists -/

/-- The condition on the settlement unit's lists, of a state. -/
def listsFit (s : State) : Prop := s.settle.fits

theorem listsFit_readsOnly : readsOnly [.settle] listsFit := readsOnly_settle

/-- A change beside the two lists. -/
theorem listsFit_congr {s t : State} (h : listsFit s) (hr : t.settle.reversals = s.settle.reversals)
    (hs : t.settle.stale = s.settle.stale) : listsFit t := by
  unfold listsFit Settlement.fits at *
  rwa [hr, hs]

theorem listsFit_closeUnpaid {s : State} (h : listsFit s) (x : SessionState) (c : CloseCause) :
    listsFit (closeUnpaid x c s) := listsFit_congr h (by simp) (by simp)

theorem listsFit_endsUnapproved {s : State} (h : listsFit s) (reason : DeclineReason) :
    listsFit (endsUnapproved reason s) := listsFit_congr h (by simp) (by simp)

theorem listsFit_abortEnds {s : State} (h : listsFit s) (reason : DeclineReason) :
    listsFit (abortEnds reason s) := by
  unfold abortEnds
  split
  · exact listsFit_closeUnpaid h _ _
  · exact listsFit_endsUnapproved h _

theorem listsFit_settles {s : State} (h : listsFit s) (close : Session → Session) (paid : List LegPaid) :
    listsFit (settles close paid s) := listsFit_congr h (by simp) (by simp)

theorem listsFit_enterAuthorising {s : State} (h : listsFit s) : listsFit (enterAuthorising s) :=
  listsFit_congr h (by simp) (by simp)

theorem listsFit_enterAborting {s : State} (h : listsFit s) (c : AbortCause) (r : Ref) :
    listsFit (enterAborting c r s) := listsFit_congr h (by simp) (by simp)

/-- A reversal is placed only in a list with room (R79). -/
theorem listsFit_makeReversal {s : State} (h : listsFit s) {places : Nat} (hp : places ≤ 5) (r : Ref) (n : Nat) :
    listsFit (makeReversal places r n s) := by
  obtain ⟨hrev, hstale, hnodup⟩ := h
  unfold listsFit
  rw [makeReversal_settle]
  split
  · next hplaced =>
    refine ⟨?_, hstale, hnodup⟩
    simp [reversalPlaced] at hplaced
    simp
    omega
  · exact ⟨hrev, hstale, hnodup⟩

theorem listsFit_removeStale {s : State} (h : listsFit s) (r : Ref) : listsFit (removeStale r s) :=
  ⟨h.1, (List.length_filter_le _ _).trans h.2.1, h.2.2.sublist List.filter_sublist⟩

/-- A reference enters the stale memory once, and a ninth drops the oldest (R78). -/
theorem staleAfter_fits {rs : List Ref} (hlen : rs.length ≤ 8) (hnodup : rs.Nodup) (r : Ref) :
    (staleAfter r rs).length ≤ 8 ∧ (staleAfter r rs).Nodup := by
  have hkept : (rs.filter (· != r)).length ≤ 8 := (List.length_filter_le _ _).trans hlen
  have hnew {ks : List Ref} (hsub : ks.Sublist (rs.filter (· != r))) : (ks ++ [r]).Nodup := by
    refine List.nodup_append.mpr ⟨hnodup.sublist (hsub.trans List.filter_sublist), by simp, fun a ha b hb => ?_⟩
    have := (List.mem_filter.mp (hsub.subset ha)).2
    simpa [List.mem_singleton.mp hb] using this
  unfold staleAfter
  dsimp only
  split
  · refine ⟨?_, hnew (List.drop_sublist 1 _)⟩
    simp
    omega
  · refine ⟨?_, hnew (List.Sublist.refl _)⟩
    simp
    omega

theorem listsFit_enterStale {s : State} (h : listsFit s) (r : Ref) : listsFit (enterStale r s) :=
  ⟨h.1, staleAfter_fits h.2.1 h.2.2 r⟩

theorem dropReversal_length (r : Ref) (es : List Reversal) : (dropReversal r es).length ≤ es.length := by
  induction es with
  | nil => simp [dropReversal]
  | cons e es ih =>
    unfold dropReversal
    split <;> simp
    exact ih

theorem listsFit_cleared {s : State} (h : s.settle = Settlement.cleared) : listsFit s := by
  simp [listsFit, Settlement.fits, h, Settlement.cleared]

theorem listsFit_rule : ∀ (c : Instr) (r : State → Taken), ruleOf c = some r →
    touches [.settle] c = true → ∀ s, s.power = .running → listsFit s → listsFit (r s).1
  | .shareSet b, _, rfl, _ => by
    intro s _ h
    simp only [takeShareSet]
    split
    · exact listsFit_readsOnly.keeps (s := { s with settle := { s.settle with sharing := _ } }) (resign_acts _)
        (by decide) h
    · exact h
  | .paySettingsWrite f, _, rfl, _ => by
    intro s _ h
    simp only [takePaySettingsWrite]
    repeat' split
    all_goals exact h
  | .payBegin l t o, _, rfl, _ => by
    intro s _ h
    simp only [takePayBegin]
    repeat' split
    any_goals exact h
    next slots tender offer _ _ _ _ _ _ =>
      have hbegun : listsFit (beginsPayment slots tender offer s) := listsFit_congr h (by simp) (by simp)
      cases tender with
      | cash => exact listsFit_settles hbegun _ _
      | card =>
        simp only [beginsBy, beginsCard]
        split
        · exact listsFit_congr hbegun (by simp) (by simp)
        · exact listsFit_enterAuthorising hbegun
  | .payTip x v, _, rfl, _ => by
    intro s _ h
    simp only [takePayTip]
    repeat' split
    any_goals exact h
    exact listsFit_enterAuthorising (s := setSession _ s) h
  | .payAuthorise, _, rfl, _ => by
    intro s _ h
    simp only [takePayAuthorise]
    repeat' split
    any_goals exact h
    exact listsFit_enterAuthorising (s := setSession _ s) h
  | .payCash, _, rfl, _ => by
    intro s _ h
    simp only [takePayCash]
    split
    · exact listsFit_settles h _ _
    · exact h
  | .payCancel, _, rfl, _ => by
    intro s _ h
    simp only [takePayCancel]
    repeat' split
    any_goals exact h
    · exact listsFit_closeUnpaid h _ _
    · exact listsFit_closeUnpaid h _ _
    · exact listsFit_enterAborting h _ _
  | .shiftOpen d, _, rfl, _ => by
    intro s _ h
    simp only [takeShiftOpen]
    repeat' split
    any_goals exact h
    all_goals exact listsFit_congr h (by simp [opensShift]) (by simp [opensShift])
  | .factoryClear, _, rfl, _ => by
    intro s _ h
    simp only [takeFactoryClear]
    split
    · exact h
    · exact listsFit_cleared (by simp [factoryClears, clearRetained])

theorem listsFit_approves {s : State} (h : listsFit s) (r : Ref) (n : Nat) (a : Text) :
    listsFit (approves r n a s) := by
  have hstale : listsFit (removeStale r s) := listsFit_removeStale h r
  unfold approves takesApproval
  repeat' split
  · exact listsFit_settles hstale _ _
  · exact listsFit_abortEnds (listsFit_makeReversal hstale (by decide) _ _) _
  · have hlate : listsFit (removeStale r (makeReversal 5 r n s)) :=
      listsFit_removeStale (listsFit_makeReversal h (by decide) _ _) _
    unfold listsFit at *
    rwa [takesLateApproval_settle]

theorem listsFit_declines {s : State} (h : listsFit s) (r : Ref) (n : Nat) : listsFit (declines r n s) := by
  have hstale : listsFit (removeStale r s) := listsFit_removeStale h r
  unfold declines
  dsimp only
  repeat' split
  · exact listsFit_abortEnds hstale _
  · exact listsFit_endsUnapproved hstale _
  · exact hstale

theorem listsFit_confirmsAbort {s : State} (h : listsFit s) (r : Ref) : listsFit (confirmsAbort r s) := by
  have hstale : listsFit (removeStale r s) := listsFit_removeStale h r
  unfold confirmsAbort
  repeat' split
  · exact listsFit_abortEnds hstale _
  · exact h
  · exact hstale

/-- Of a restart's memory the two lists are as they were or empty. -/
theorem listsFit_restarts {s : State} (h : listsFit s) : listsFit (restarts s) := by
  have hblocks (t : State) (ht : listsFit t) : listsFit (restartBlocks t) := by
    have hfare (x : FareEngine) : listsFit (restoreSession { restartVolatile t with fare := x }) := by
      simp only [restoreSession]
      split <;> exact listsFit_congr ht (by simp [restartVolatile, setTimer, setSession])
        (by simp [restartVolatile, setTimer, setSession])
    have hmoney : listsFit (restoreMoney (restartVolatile t)) := by
      have hs := hfare ((restartVolatile t).fare.restored
        (restoreTime (restartVolatile t).retained (restartVolatile t).clock.count))
      unfold listsFit Settlement.fits restoreMoney at *
      simpa using hs
    exact listsFit_readsOnly.keeps ((restartSign_acts _).seq (restartIntercom_acts _)) (by decide) hmoney
  unfold restarts
  dsimp only
  refine listsFit_readsOnly.keeps (restartNotices_acts _ _ _ _ _) (by decide) (hblocks _ ?_)
  split
  · exact h
  · exact listsFit_cleared rfl

theorem listsFit_event : ∀ c : Instr, ruleOf c = none → takesFrames c = false →
    touches [.settle] c = true → ∀ s t, exec c s = .next t → listsFit s → listsFit t
  | .tipTimerExpiry, _, _, _ => by
    rintro s t ⟨⟩ h
    refine whileRunning_keep h (fun _ h => ?_)
    unfold tipExpires
    split
    · exact listsFit_enterAuthorising (s := setSession _ s) h
    · exact h
  | .responseTimerExpiry, _, _, _ => by
    rintro s t ⟨⟩ h
    refine whileRunning_keep h (fun _ h => ?_)
    unfold responseExpires
    split
    · exact listsFit_enterAborting h _ _
    · exact h
  | .resendTimerExpiry e, _, _, _ => by
    rintro s t ⟨⟩ h
    refine whileRunning_keep h (fun _ h => ?_)
    unfold listsFit Settlement.fits at *
    simpa [restartResend] using h
  | .abortTimerExpiry, _, _, _ => by
    rintro s t ⟨⟩ h
    refine whileRunning_keep h (fun _ h => ?_)
    unfold abortExpires
    split
    · exact listsFit_abortEnds (listsFit_enterStale h _) _
    · exact h
  | .retryIdleTimerExpiry, _, _, _ => by
    rintro s t ⟨⟩ h
    refine whileRunning_keep h (fun _ h => ?_)
    unfold retryIdleExpires
    split
    · exact listsFit_closeUnpaid h _ _
    · exact h
  | .tProgress r x, _, _, _ => by
    rintro s t ⟨⟩ h
    refine whileRunning_keep h (fun _ h => ?_)
    unfold takesMessage takesProgress
    split
    · exact listsFit_congr h (by simp [setTimer, setSession]) (by simp [setTimer, setSession])
    · exact h
  | .tApproved r n a, _, _, _ => by
    rintro s t ⟨⟩ h
    refine whileRunning_keep h (fun _ h => listsFit_approves ?_ r n a)
    exact h
  | .tDeclined r n, _, _, _ => by
    rintro s t ⟨⟩ h
    refine whileRunning_keep h (fun _ h => listsFit_declines ?_ r n)
    exact h
  | .tAborted r, _, _, _ => by
    rintro s t ⟨⟩ h
    refine whileRunning_keep h (fun _ h => listsFit_confirmsAbort ?_ r)
    exact h
  | .tReversed r, _, _, _ => by
    rintro s t ⟨⟩ h
    exact whileRunning_keep h (fun _ h => ⟨(dropReversal_length r _).trans h.1, h.2⟩)
  | .supplyFail, _, _, _ => by
    rintro s t ⟨⟩ h
    split
    · exact ⟨by simpa [stopBlocks, Settlement.untimed, recordFail] using h.1, h.2⟩
    · exact ⟨by simpa [stopBlocks, Settlement.untimed, recordFail] using h.1, h.2⟩
    · exact h
  | .resetnAssert, _, _, _ => by
    rintro s t ⟨⟩ h
    split
    · exact ⟨by simpa [stopBlocks, Settlement.untimed] using h.1, h.2⟩
    · exact h
    · exact h
  | .restart, _, _, _ => by
    rintro s t ⟨⟩ h
    split
    · exact listsFit_restarts h
    · exact listsFit_restarts h
    · exact h

theorem listsFit_step (s t : State) (h : listsFit s) (ht : step s = .next t) : listsFit t := by
  refine step_keeps listsFit_readsOnly (by decide) listsFit_rule listsFit_event (fun s h => ?_) s t h ht
  unfold baseStep
  refine whileRunning_keep (s := { s with clock := _ }) h (fun _ h => ⟨?_, h.2⟩)
  simpa [timersStep, Settlement.baseStep] using h.1

/-! ### The report list -/

/-- The condition on the report list, of a state. -/
def reportsFit (s : State) : Prop := s.shifts.fits

theorem reportsFit_readsOnly : readsOnly [.shifts] reportsFit := readsOnly_shifts

theorem reportsFit_congr {s t : State} (h : reportsFit s) (hr : t.shifts.reports = s.shifts.reports) :
    reportsFit t := by
  unfold reportsFit ShiftAccounts.fits at *
  rwa [hr]

/-- Where some report is read, dropping the oldest read one takes one away. -/
theorem dropOldestRead_length {ps : List Report} (h : (ps.filter (fun p => !p.isRead)).length ≠ ps.length) :
    (dropOldestRead ps).length + 1 = ps.length := by
  induction ps with
  | nil => simp at h
  | cons p ps ih =>
    unfold dropOldestRead
    cases hp : p.isRead with
    | true => simp
    | false =>
      simp [hp] at h
      simp
      exact ih (by simpa using h)

theorem markRead_length (n : Nat) (ps : List Report) : (markRead n ps).length = ps.length := by
  induction ps with
  | nil => rfl
  | cons p ps ih =>
    unfold markRead
    split <;> simp [ih]

theorem addReport_length {a : ShiftAccounts} (h : a.fits) (hroom : ¬(a.full && a.unread == a.reports.length) = true)
    (r : ShiftRecord) : (a.addReport r).length ≤ 8 := by
  unfold ShiftAccounts.addReport
  cases hfull : a.full with
  | false =>
    have : ¬8 ≤ a.reports.length := by simpa [ShiftAccounts.full] using hfull
    simp
    omega
  | true =>
    have hunread : a.unread ≠ a.reports.length := by simpa [hfull] using hroom
    have := dropOldestRead_length hunread
    have hlen : a.reports.length ≤ 8 := h
    simp
    omega

@[simp] theorem settles_reports (close : Session → Session) (paid : List LegPaid) (s : State) :
    (settles close paid s).shifts.reports = s.shifts.reports := by
  simp [settles, recordsTrips_shifts]

@[simp] theorem closeUnpaid_shifts (x : SessionState) (c : CloseCause) (s : State) :
    (closeUnpaid x c s).shifts = s.shifts := by
  simp [closeUnpaid]

@[simp] theorem endsUnapproved_reports (reason : DeclineReason) (s : State) :
    (endsUnapproved reason s).shifts.reports = s.shifts.reports := by
  unfold endsUnapproved
  dsimp only
  split <;> simp [enterRetryWait]

@[simp] theorem makeReversal_reports (places : Nat) (r : Ref) (n : Nat) (s : State) :
    (makeReversal places r n s).shifts.reports = s.shifts.reports := by
  simp [makeReversal]

theorem abortEnds_reports (reason : DeclineReason) (s : State) :
    (abortEnds reason s).shifts.reports = s.shifts.reports := by
  unfold abortEnds
  split <;> simp

theorem approves_reports (r : Ref) (n : Nat) (a : Text) (s : State) :
    (approves r n a s).shifts.reports = s.shifts.reports := by
  unfold approves takesApproval
  repeat' split
  · simp [settlesByCard, removeStale]
  · simp [abortEnds_reports, removeStale]
  · simp [takesLateApproval, removeStale]

theorem reportsFit_rule : ∀ (c : Instr) (r : State → Taken), ruleOf c = some r →
    touches [.shifts] c = true → ∀ s, s.power = .running → reportsFit s → reportsFit (r s).1
  | .legVoid i, _, rfl, _ => by
    intro s _ h
    simp only [takeLegVoid]
    repeat' split
    any_goals exact h
    all_goals exact reportsFit_congr h (by simp [voidsLeg])
  | .payBegin l t o, _, rfl, _ => by
    intro s _ h
    simp only [takePayBegin]
    repeat' split
    any_goals exact h
    next slots tender offer _ _ _ _ _ _ =>
      have hbegun : reportsFit (beginsPayment slots tender offer s) :=
        reportsFit_readsOnly.keeps (beginsPayment_acts _ _ _ s) (by decide) h
      cases tender with
      | cash => exact reportsFit_congr hbegun (settles_reports _ _ _)
      | card =>
        simp only [beginsBy, beginsCard]
        split
        · exact reportsFit_readsOnly.keeps (enterTipWait_acts _) (by decide) hbegun
        · exact reportsFit_readsOnly.keeps (enterAuthorising_acts _) (by decide) hbegun
  | .payCash, _, rfl, _ => by
    intro s _ h
    simp only [takePayCash]
    split
    · exact reportsFit_congr h (settles_reports _ _ _)
    · exact h
  | .shiftOpen d, _, rfl, _ => by
    intro s _ h
    simp only [takeShiftOpen]
    repeat' split
    any_goals exact h
    all_goals exact reportsFit_congr h (by simp [opensShift])
  | .shiftClose, _, rfl, _ => by
    intro s _ h
    simp only [takeShiftClose]
    repeat' split
    any_goals exact h
    next hroom =>
      have := addReport_length h hroom (closedRecord s)
      simpa [reportsFit, ShiftAccounts.fits, closesShift] using this
  | .reportRead n, _, rfl, _ => by
    intro s _ h
    simp only [takeReportRead]
    repeat' split
    any_goals exact h
    simpa [reportsFit, ShiftAccounts.fits, markRead_length] using h
  | .factoryClear, _, rfl, _ => by
    intro s _ h
    simp only [takeFactoryClear]
    split
    · exact h
    · simp [reportsFit, ShiftAccounts.fits, factoryClears, clearRetained, ShiftAccounts.cleared]

theorem closeInterval_reports (s : State) : (closeInterval s).shifts.reports = s.shifts.reports := by
  have hfares (m : Nat) (t : State) : (closeFares m t).shifts = t.shifts := (closeFares_acts m t).same .shifts
  have hodo (m : Nat) (b : Bool) (t : State) : (closeOdometry m b t).shifts = t.shifts :=
    (closeOdometry_acts m b t).same .shifts
  have htake (c : Nat) (t : State) : (takeInterval c t).shifts = t.shifts := (takeInterval_acts c t).same .shifts
  simp [closeInterval, hfares, hodo, htake]

theorem reportsFit_ticks {s : State} (h : reportsFit s) : reportsFit (ticks s) := by
  unfold ticks
  refine whileRunning_keep (s := { s with clock := _ }) h (fun _ h => reportsFit_congr h ?_)
  simp [tickReachesOdometry, closeInterval_reports]

theorem reportsFit_event : ∀ c : Instr, ruleOf c = none → takesFrames c = false →
    touches [.shifts] c = true → ∀ s t, exec c s = .next t → reportsFit s → reportsFit t
  | .secondTick, _, _, _ => by
    rintro s t ⟨⟩ h
    exact reportsFit_ticks h
  | .clockWrap, _, _, _ => by
    rintro s t ⟨⟩ h
    split
    · exact h
    · exact reportsFit_ticks h
  | .abortTimerExpiry, _, _, _ => by
    rintro s t ⟨⟩ h
    refine whileRunning_keep h (fun _ h => ?_)
    unfold abortExpires
    split
    · exact reportsFit_congr h (by simp [abortEnds_reports, enterStale])
    · exact h
  | .tApproved r n a, _, _, _ => by
    rintro s t ⟨⟩ h
    exact whileRunning_keep h (fun _ h => reportsFit_congr h (by simp [takesMessage, approves_reports]))
  | .tDeclined r n, _, _, _ => by
    rintro s t ⟨⟩ h
    refine whileRunning_keep h (fun _ h => reportsFit_congr h ?_)
    unfold takesMessage declines
    dsimp only
    repeat' split
    all_goals simp [abortEnds_reports, removeStale]
  | .tAborted r, _, _, _ => by
    rintro s t ⟨⟩ h
    refine whileRunning_keep h (fun _ h => reportsFit_congr h ?_)
    unfold takesMessage confirmsAbort
    repeat' split
    all_goals simp [abortEnds_reports, removeStale]
  | .restart, _, _, _ => by
    have hrestarts (s : State) (h : reportsFit s) : reportsFit (restarts s) := by
      unfold reportsFit at *
      simp only [restarts_rest, restartBlocks_rest, restartMemory]
      split
      · exact h
      · exact Nat.zero_le _
    rintro s t ⟨⟩ h
    split
    · exact hrestarts s h
    · exact hrestarts s h
    · exact h

theorem reportsFit_step (s t : State) (h : reportsFit s) (ht : step s = .next t) : reportsFit t :=
  step_keeps reportsFit_readsOnly (by decide) reportsFit_rule reportsFit_event
    (fun s => reportsFit_readsOnly.keeps (baseStep_acts s) (by decide)) s t h ht

/-- Settles O13. -/
theorem noListOutgrowsItsCapacity : Obligations.NoListOutgrowsItsCapacity := by
  intro s t hs ht
  obtain ⟨htender, hsettle, hshifts⟩ := (buffersKept_iff s).mp hs
  exact (buffersKept_iff t).mpr
    ⟨tenderFits_step s t htender ht, listsFit_step s t hsettle ht, reportsFit_step s t hshifts ht⟩

end Sys2Proof.Machine
end

