-- ==== Sys2Proof/Proofs/Guards.lean ====
section
/-!
PROOF. What must hold for a request to be taken: of each request that is tested in several steps, that it leaves the
state as it was or passed every test and has its one effect; and what the payment events do to the legs.
-/

set_option Elab.async false

namespace Sys2Proof.Machine

/-! ### Leg requests -/

/-- LEG_START is refused, or every test of R42 passed. -/
theorem takeLegStart_taken (x t c : Nat) (s : State) :
    (takeLegStart x t c s).1 = s ∨ ∃ set choice share i,
      seatSet? x = some set ∧ x ≠ 0 ∧ tariffChoice? t = some choice ∧ calibrated s = true ∧ shiftOpen s = true
        ∧ freeSlot s = some i ∧ seatTaken set s = false ∧ namesUndefined s choice = false
        ∧ shareConflict share (s.fare.tariff (startingTariff s choice)) s = false
        ∧ activeLegs s + 1 ≤ s.journal.room
        ∧ (takeLegStart x t c s).1
          = startsLeg i (startedLeg (s.fare.tariff (startingTariff s choice)) (startingTariff s choice) choice set share
              s.clock.count) s := by
  simp only [takeLegStart]
  repeat' split
  any_goals exact .inl rfl
  next set choice share hset hchoice _ hx hcal hshift _ i hfree htaken hnames hconflict hroom =>
    refine .inr ⟨set, choice, share, i, hset, hx, hchoice, ?_, ?_, hfree, ?_, ?_, ?_, by omega, rfl⟩
    · simpa using hcal
    · simpa using hshift
    · simpa using htaken
    · simpa using hnames
    · simpa using hconflict

/-- LEG_STOP is refused, or a HIRED leg becomes STOPPING. -/
theorem takeLegStop_taken (n : Nat) (s : State) :
    (takeLegStop n s).1 = s ∨ ∃ i, slot? n = some i ∧ (s.leg i).state = .hired
      ∧ (takeLegStop n s).1 = raiseLegState i (s.setLeg i { s.leg i with state := .stopping }) := by
  simp only [takeLegStop]
  repeat' split
  any_goals exact .inl rfl
  next i hi _ hstate => exact .inr ⟨i, hi, hstate, rfl⟩

/-- LEG_RESUME is refused, or a STOPPING or STOPPED leg is HIRED. -/
theorem takeLegResume_taken (n : Nat) (s : State) :
    (takeLegResume n s).1 = s
      ∨ (∃ i, slot? n = some i ∧ (s.leg i).state = .stopping
        ∧ (takeLegResume n s).1 = raiseLegState i (s.setLeg i { s.leg i with state := .hired }))
      ∨ ∃ i, slot? n = some i ∧ (s.leg i).state = .stopped
        ∧ (takeLegResume n s).1
          = catchUp i (raiseLegState i (s.setLeg i { s.leg i with state := .hired, stopTime := none })) := by
  simp only [takeLegResume, resumed]
  repeat' split
  any_goals exact .inl rfl
  · next i hi _ hstate => exact .inr (.inl ⟨i, hi, hstate, rfl⟩)
  · next i hi _ hstate => exact .inr (.inr ⟨i, hi, hstate, rfl⟩)

/-- LEG_VOID is refused, or an unused HIRED or STOPPED leg is voided. -/
theorem takeLegVoid_taken (n : Nat) (s : State) :
    (takeLegVoid n s).1 = s ∨ ∃ i, slot? n = some i ∧ ((s.leg i).state = .hired ∨ (s.leg i).state = .stopped)
      ∧ (s.leg i).voidable = true ∧ (takeLegVoid n s).1 = voidsLeg i s := by
  simp only [takeLegVoid]
  repeat' split
  any_goals exact .inl rfl
  · next i hi _ hstate hvoid => exact .inr ⟨i, hi, .inl hstate, hvoid, rfl⟩
  · next i hi _ hstate hvoid => exact .inr ⟨i, hi, .inr hstate, hvoid, rfl⟩

/-- LEG_TARIFF is refused, or a HIRED leg is FIXED on a tariff that it may run on. -/
theorem takeLegTariff_taken (n t : Nat) (s : State) :
    (takeLegTariff n t s).1 = s ∨ ∃ i k, slot? n = some i ∧ tariffIndex? t = some k ∧ (s.leg i).state = .hired
      ∧ (takeLegTariff n t s).1 = fixesTariff i t s := by
  simp only [takeLegTariff]
  repeat' split
  any_goals exact .inl rfl
  next i k hi hk _ hstate _ _ => exact .inr ⟨i, k, hi, hk, hstate, rfl⟩

/-- An item is added to an active leg whose list and total have room for it, or nothing is. -/
theorem addExtra_taken (i : Slot) (k : ExtraKind) (kind amount : Nat) (s : State) :
    (addExtra i k kind amount s).1 = s ∨ ∃ asked, askedAmount? k amount = some asked
      ∧ (s.leg i).listFull kind k.limit = false ∧ (s.leg i).extrasTotal < extrasCeiling
      ∧ (addExtra i k kind amount s).1 = raiseFareStep (s.setLeg i
          ((s.leg i).addExtra kind (min asked (extrasCeiling - (s.leg i).extrasTotal)))) := by
  simp only [addExtra]
  repeat' split
  any_goals exact .inl rfl
  next asked hasked hfull htotal => exact .inr ⟨asked, hasked, by simpa using hfull, by omega, rfl⟩

theorem takeLegExtraAdd_taken (n k a : Nat) (s : State) :
    (takeLegExtraAdd n k a s).1 = s ∨ ∃ i asked kind, slot? n = some i ∧ (s.leg i).state ≠ .free
      ∧ (s.leg i).state ≠ .paying ∧ (s.leg i).listFull k (ExtraKind.limit kind) = false ∧ (s.leg i).extrasTotal < extrasCeiling
      ∧ (takeLegExtraAdd n k a s).1 = raiseFareStep (s.setLeg i
          ((s.leg i).addExtra k (min asked (extrasCeiling - (s.leg i).extrasTotal)))) := by
  unfold takeLegExtraAdd
  split
  · next i kind hi _ =>
    have htaken := addExtra_taken i s.fare.kinds[kind] k a s
    split
    · exact .inl rfl
    · exact .inl rfl
    all_goals
      next hstate =>
        refine htaken.imp id (fun ⟨asked, _, hfull, htotal, h⟩ => ⟨i, asked, _, hi, ?_, ?_, hfull, htotal, h⟩)
        all_goals simp [hstate]
  · exact .inl rfl

/-- The last item is taken from a leg, or there is none. -/
theorem removeExtra_taken (i : Slot) (s : State) :
    (removeExtra i s).1 = s ∨ ∃ e, (s.leg i).extras.getLast? = some e
      ∧ (removeExtra i s).1 = raiseFareStep (s.setLeg i ((s.leg i).dropExtra e)) := by
  simp only [removeExtra]
  split
  · exact .inl rfl
  · next e he => exact .inr ⟨e, he, rfl⟩

/-- LEG_EXTRA_REMOVE is refused, or takes the last item from an active leg. -/
theorem takeLegExtraRemove_taken (n : Nat) (s : State) :
    (takeLegExtraRemove n s).1 = s ∨ ∃ i e, slot? n = some i ∧ (s.leg i).state ≠ .free
      ∧ (s.leg i).state ≠ .paying ∧ (s.leg i).extras.getLast? = some e
      ∧ (takeLegExtraRemove n s).1 = raiseFareStep (s.setLeg i ((s.leg i).dropExtra e)) := by
  unfold takeLegExtraRemove
  split
  · exact .inl rfl
  · next i hi =>
    have htaken := removeExtra_taken i s
    split
    · exact .inl rfl
    · exact .inl rfl
    all_goals
      next hstate => exact htaken.imp id (fun ⟨e, he, h⟩ => ⟨i, e, hi, by simp [hstate], by simp [hstate], he, h⟩)

/-! ### Payment requests -/

/-- What a PAY_BEGIN that passes its tests has found (R63). -/
theorem beginRefusal_none {slots : List Slot} {x : Tender} {s : State} (h : beginRefusal slots x s = none) :
    shiftOpen s = true ∧ s.odo.motion ≠ .moving ∧ (∀ i ∈ slots, (s.leg i).state = .stopped)
      ∧ s.settle.session.state.isOpen = false ∧ (x = .card → cardRefusal slots s = none) := by
  unfold beginRefusal at h
  cases x <;>
  · repeat' split at h
    any_goals contradiction
    next hshift hmoving _ hstopped hsession _ _ =>
      exact ⟨by simpa using hshift, hmoving, by simpa using hstopped, by simpa using hsession, by simp [h]⟩

theorem takePayBegin_taken (l t o : Nat) (s : State) :
    (takePayBegin l t o s).1 = s ∨ ∃ slots tender offer, slotSet? l = some slots ∧ l ≠ 0
      ∧ beginRefusal slots tender s = none ∧ (takePayBegin l t o s).1 = (beginsBy slots offer s tender).1 := by
  simp only [takePayBegin]
  repeat' split
  any_goals exact .inl rfl
  next slots tender offer hslots _ _ hl _ hnone => exact .inr ⟨slots, tender, offer, hslots, hl, hnone, rfl⟩

/-- PAY_TIP is refused, or in TIP_WAIT sets a tip and enters AUTHORISING. -/
theorem takePayTip_taken (x v : Nat) (s : State) :
    (takePayTip x v s).1 = s ∨ s.settle.session.state = .tipWait
      ∧ ∃ tip ceiled limited, (takePayTip x v s).1
        = enterAuthorising (setSession (fun q => q.withTip tip ceiled limited) s) := by
  simp only [takePayTip]
  repeat' split
  any_goals exact .inl rfl
  next hstate _ _ _ => exact .inr ⟨hstate, _, _, _, rfl⟩

/-- PAY_AUTHORISE is refused, or in RETRY_WAIT enters AUTHORISING with the next attempt. -/
theorem takePayAuthorise_taken (s : State) :
    (takePayAuthorise s).1 = s ∨ s.settle.session.state = .retryWait
      ∧ (takePayAuthorise s).1 = enterAuthorising
        (setSession (fun p => { p with attempt := some (s.settle.session.attempt.getD 0 + 1) }) s) := by
  simp only [takePayAuthorise]
  repeat' split
  any_goals exact .inl rfl
  next hstate _ _ => exact .inr ⟨hstate, rfl⟩

/-- PAY_CASH is refused, or in RETRY_WAIT settles in cash. -/
theorem takePayCash_taken (s : State) :
    (takePayCash s).1 = s ∨ s.settle.session.state = .retryWait ∧ (takePayCash s).1 = settlesByCash s := by
  simp only [takePayCash]
  split
  · next hstate => exact .inr ⟨hstate, rfl⟩
  · exact .inl rfl

/-- PAY_CANCEL is refused, closes a waiting session, or aborts an AUTHORISING one (Table 4-6). -/
theorem takePayCancel_taken (s : State) :
    (takePayCancel s).1 = s
      ∨ (s.settle.session.state = .tipWait ∨ s.settle.session.state = .retryWait)
        ∧ (takePayCancel s).1 = closeUnpaid .cancelled .host s
      ∨ ∃ r, s.settle.session.state = .authorising ∧ s.settle.session.outstanding = some r
        ∧ (takePayCancel s).1 = enterAborting .cancel r s := by
  simp only [takePayCancel]
  repeat' split
  any_goals exact .inl rfl
  · next hstate => exact .inr (.inl ⟨.inl hstate, rfl⟩)
  · next hstate => exact .inr (.inl ⟨.inr hstate, rfl⟩)
  · next hstate _ r hr => exact .inr (.inr ⟨r, hstate, hr, rfl⟩)

/-! ### Shift requests -/

theorem takeShiftOpen_taken (d : Text) (s : State) :
    (takeShiftOpen d s).1 = s ∨ shiftOpen s = false ∧ calibrated s = true ∧ (takeShiftOpen d s).1 = opensShift d s := by
  simp only [takeShiftOpen]
  repeat' split
  any_goals exact .inl rfl
  all_goals
    next _ hshift hcal _ => exact .inr ⟨by simpa using hshift, by simpa using hcal, rfl⟩

theorem takeShiftClose_taken (s : State) :
    (takeShiftClose s).1 = s ∨ shiftOpen s = true ∧ allFree s = true ∧ s.settle.session.state.isOpen = false
      ∧ (takeShiftClose s).1 = closesShift s := by
  simp only [takeShiftClose]
  repeat' split
  any_goals exact .inl rfl
  next hshift hfree hsession _ =>
    exact .inr ⟨by simpa using hshift, by simpa using hfree, by simpa using hsession, rfl⟩

/-- FACTORY_CLEAR is refused, or takes effect inside calibration open. -/
theorem takeFactoryClear_taken (s : State) :
    (takeFactoryClear s).1 = s ∨ calibrationOpen s = true ∧ (takeFactoryClear s).1 = factoryClears s := by
  unfold takeFactoryClear
  split
  · exact .inl rfl
  · next hopen => exact .inr ⟨by simpa using hopen, rfl⟩

/-- TARIFF_WRITE is refused, or stores a record inside calibration open. -/
theorem takeTariffWrite_taken (n : Nat) (f : TariffFields) (s : State) :
    (takeTariffWrite n f s).1 = s ∨ ∃ i t, tariffIndex? n = some i ∧ writtenTariff? f = some t
      ∧ calibrationOpen s = true
      ∧ (takeTariffWrite n f s).1 = resign (countCalibration (storeTariff i t s)) := by
  unfold takeTariffWrite
  split
  · exact .inl rfl
  · next hopen =>
    split
    · next i t hi ht => exact .inr ⟨i, t, hi, ht, by simpa using hopen, rfl⟩
    · exact .inl rfl

/-! ### The legs at an interval close, a change of tariff and a payment event -/

/-- A change of tariff of one leg, where it is not barred (R26 to R28). -/
def FareEngine.changeTariff (e : FareEngine) (i : Slot) (n : Nat) : FareEngine :=
  let l := e.legs.get i
  if changeBarred l (e.tariff n) n then e
  else { e with legs := e.legs.set (l.changeTariff (e.tariff l.tariff) (e.tariff n) n) i }

@[simp] theorem changeTariff_fare (i : Slot) (n : Nat) (s : State) :
    (changeTariff i n s).fare = s.fare.changeTariff i n := by
  unfold changeTariff FareEngine.changeTariff State.leg
  dsimp only
  split
  · rfl
  · simp [State.setLeg]

/-- The legs after an interval close (R23 to R25, R45). -/
def FareEngine.close (e : FareEngine) (m count : Nat) : FareEngine :=
  { e.accrueAll m with legs := (e.accrueAll m).legs.map (Leg.halt count) }

@[simp] theorem closeFares_fare (m : Nat) (s : State) : (closeFares m s).fare = s.fare.close m s.clock.count := by
  have hcap (before : FareEngine) (i : Slot) (t : State) : (raiseCap before i t).fare = t.fare :=
    (raiseCap_acts before i t).same .fare
  have hstep (c : Bool) (t : State) : (if c then raiseFareStep t else t).fare = t.fare := by
    cases c <;> simp
  simp [closeFares, FareEngine.close, hcap, hstep]

@[simp] theorem takeInterval_rest (c : Nat) (s : State) :
    (takeInterval c s).fare = s.fare ∧ (takeInterval c s).shifts = s.shifts ∧ (takeInterval c s).clock = s.clock := by
  simp [takeInterval]

@[simp] theorem closeOdometry_rest (m : Nat) (hired : Bool) (s : State) :
    (closeOdometry m hired s).fare = s.fare ∧ (closeOdometry m hired s).shifts = s.shifts
      ∧ (closeOdometry m hired s).clock = s.clock := by
  simp [closeOdometry]

@[simp] theorem closeInterval_fare (s : State) :
    (closeInterval s).fare = s.fare.close (clampMetres (closingCount s)) s.clock.count := by
  simp [closeInterval]

/-- The metres of the interval that a tick closes. -/
def tickMetres (s : State) : Nat := clampMetres (closingCount { s with odo := s.odo.measureTick })

theorem ticks_fare (s : State) :
    (ticks s).fare = if s.power = .running then s.fare.close (tickMetres s) (nextCount s.clock.count) else s.fare := by
  unfold ticks whileRunning
  dsimp only
  split
  · next hp =>
    rw [if_pos hp, tickReachesOdometry, closeInterval_fare]
    rfl
  · next hp => rw [if_neg hp]

/-- The legs after a payment event: as they were, unlocked or released. -/
def FareEngine.paidOut (e : FareEngine) (p : Nat) (e' : FareEngine) : Prop :=
  e' = e ∨ e' = e.unlock p ∨ e' = e.release p

theorem endsUnapproved_paidOut (reason : DeclineReason) (s : State) :
    s.fare.paidOut s.settle.session.paymentId (endsUnapproved reason s).fare := by
  rw [endsUnapproved_fare]
  split
  · exact .inl rfl
  · exact .inr (.inl rfl)

theorem abortEnds_paidOut (reason : DeclineReason) (s : State) :
    s.fare.paidOut s.settle.session.paymentId (abortEnds reason s).fare := by
  unfold abortEnds
  split
  · exact .inr (.inl (by simp))
  · exact endsUnapproved_paidOut reason s

@[simp] theorem makeReversal_fare (places : Nat) (r : Ref) (n : Nat) (s : State) :
    (makeReversal places r n s).fare = s.fare := (makeReversal_acts places r n s).same .fare

@[simp] theorem makeReversal_session (places : Nat) (r : Ref) (n : Nat) (s : State) :
    (makeReversal places r n s).settle.session = s.settle.session := by
  rw [makeReversal_settle]
  split <;> rfl

theorem approves_paidOut (r : Ref) (n : Nat) (a : Text) (s : State) :
    s.fare.paidOut s.settle.session.paymentId (approves r n a s).fare := by
  unfold approves takesApproval
  repeat' split
  · exact .inr (.inr (by simp [settlesByCard, removeStale]))
  · have h := abortEnds_paidOut .amountMismatch (makeReversal 4 r n (removeStale r s))
    simpa [removeStale] using h
  · exact .inl ((takesLateApproval_acts r n s).same .fare)

theorem declines_paidOut (r : Ref) (n : Nat) (s : State) :
    s.fare.paidOut s.settle.session.paymentId (declines r n s).fare := by
  unfold declines
  dsimp only
  repeat' split
  · exact abortEnds_paidOut _ (removeStale r s)
  · exact endsUnapproved_paidOut _ (removeStale r s)
  · exact .inl rfl

theorem confirmsAbort_paidOut (r : Ref) (s : State) :
    s.fare.paidOut s.settle.session.paymentId (confirmsAbort r s).fare := by
  unfold confirmsAbort
  repeat' split
  · exact abortEnds_paidOut _ (removeStale r s)
  · exact .inl rfl
  · exact .inl rfl

theorem abortExpires_paidOut (s : State) :
    s.fare.paidOut s.settle.session.paymentId (abortExpires s).fare := by
  unfold abortExpires
  split
  · exact abortEnds_paidOut _ (enterStale _ s)
  · exact .inl rfl

theorem retryIdleExpires_paidOut (s : State) :
    s.fare.paidOut s.settle.session.paymentId (retryIdleExpires s).fare := by
  unfold retryIdleExpires
  split
  · exact .inr (.inl (by simp))
  · exact .inl rfl

theorem takePayCash_paidOut (s : State) :
    s.fare.paidOut s.settle.session.paymentId (takePayCash s).1.fare := by
  rcases takePayCash_taken s with h | ⟨_, h⟩
  · exact .inl (by rw [h])
  · exact .inr (.inr (by rw [h]; simp [settlesByCash]))

theorem takePayCancel_paidOut (s : State) :
    s.fare.paidOut s.settle.session.paymentId (takePayCancel s).1.fare := by
  rcases takePayCancel_taken s with h | ⟨_, h⟩ | ⟨r, _, _, h⟩
  · exact .inl (by rw [h])
  · exact .inr (.inl (by rw [h]; simp))
  · exact .inl (by rw [h]; exact (enterAborting_acts _ _ s).same .fare)

/-- The legs of a PAY_BEGIN: locked, and in cash released at once. -/
theorem beginsBy_fare (slots : List Slot) (offer : Bool) (s : State) (t : Tender) :
    (beginsBy slots offer s t).1.fare
      = match t with
        | .card => s.fare.lock s.settle.nextId slots
        | .cash => (s.fare.lock s.settle.nextId slots).release s.settle.nextId := by
  cases t with
  | card =>
    simp only [beginsBy, beginsCard]
    split
    · rw [(enterTipWait_acts _).same .fare]
      simp
    · rw [(enterAuthorising_acts _).same .fare]
      simp
  | cash => simp [beginsBy, beginsCash, settlesByCash, begunSession]

end Sys2Proof.Machine
end

