-- ==== Sys2Proof/Proofs/Seats.lean ====
section
/-!
PROOF. Legs, seats and share consent stay in agreement (R38, R39, R41): what the operations of the fare engine must
keep of a condition on legs and seat map, that every step then keeps it, and that both conditions of O8 are such.
-/

set_option Elab.async false

namespace Sys2Proof.Machine

/-! ### The conditions, at the fare engine -/

/-- R38, R39 at the fare engine. -/
def FareEngine.seatsAgree (e : FareEngine) : Prop :=
  (∀ i, (e.legs.get i).state = .free → e.legs.get i = Leg.blank)
    ∧ (∀ i, (e.legs.get i).state ≠ .free → (e.legs.get i).seats ≠ SeatSet.empty)
    ∧ ∀ x i, e.seatMap.get x = some i ↔ (e.legs.get i).seats.get x = true

/-- R41 at the fare engine. -/
def FareEngine.consentAgrees (e : FareEngine) : Prop :=
  ∀ i j, i ≠ j → (e.legs.get i).state ≠ .free → (e.legs.get j).state ≠ .free → (e.legs.get i).share = true

theorem seatsKept_iff (s : State) : seatsKept s ↔ s.fare.seatsAgree := Iff.rfl

theorem sharingKept_iff (s : State) : sharingKept s ↔ s.fare.consentAgrees := Iff.rfl

/-- A change of a leg that leaves whether it is FREE, its seats and its share consent, and nothing of a FREE one. -/
def Leg.likeChange (l l' : Leg) : Prop :=
  l'.seats = l.seats ∧ l'.share = l.share ∧ (l'.state = .free ↔ l.state = .free) ∧ (l.state = .free → l' = l)

/-- Where a leg may start: its slot is FREE, its seats are some that none holds, and its consent is no conflict. -/
structure FareEngine.mayStart (e : FareEngine) (i : Slot) (l : Leg) : Prop where
  slotFree : (e.legs.get i).state = .free
  active : l.state ≠ .free
  someSeat : l.seats ≠ SeatSet.empty
  unheld : ∀ x, l.seats.get x = true → e.seatMap.get x = none
  consent : ∀ j, (e.legs.get j).state ≠ .free → l.share = true ∧ (e.legs.get j).share = true

/-- The legs after one starts (R43). -/
def FareEngine.start (e : FareEngine) (i : Slot) (l : Leg) : FareEngine :=
  { e with legs := e.legs.set l i, seatMap := enterSeats l.seats i e.seatMap }

/-- What every operation of the fare engine but the start of a leg keeps of a condition on legs and seat map. -/
structure keptByChange (Q : FareEngine → Prop) : Prop where
  tables : ∀ e e' : FareEngine, e'.legs = e.legs → e'.seatMap = e.seatMap → Q e → Q e'
  like : ∀ (e : FareEngine) (legs : PerSlot Leg), (∀ i, (e.legs.get i).likeChange (legs.get i)) → Q e →
    Q { e with legs := legs }
  freed : ∀ (e : FareEngine) (i : Slot), Q e → Q (e.freeLeg i)
  cleared : Q FareEngine.cleared

/-- What every operation of the fare engine keeps. -/
structure keptByLegs (Q : FareEngine → Prop) : Prop extends keptByChange Q where
  started : ∀ (e : FareEngine) (i : Slot) (l : Leg), e.mayStart i l → Q e → Q (e.start i l)

/-! ### The operations -/

theorem Leg.likeChange_refl (l : Leg) : l.likeChange l := ⟨rfl, rfl, Iff.rfl, fun _ => rfl⟩

/-- An active leg that stays active with its seats and consent. -/
theorem Leg.likeChange_active {l l' : Leg} (h : l.state ≠ .free) (h' : l'.state ≠ .free) (hseats : l'.seats = l.seats)
    (hshare : l'.share = l.share) : l.likeChange l' :=
  ⟨hseats, hshare, iff_of_false h' h, fun hfree => absurd hfree h⟩

theorem Leg.likeChange_accrue {l : Leg} (h : l.runs = true) (t : Tariff) (m : Nat) : l.likeChange (l.accrue t m) := by
  have hactive : l.state ≠ .free := by
    intro hfree
    simp [Leg.runs, hfree] at h
  exact likeChange_active hactive hactive rfl rfl

theorem Leg.likeChange_halt (l : Leg) (count : Nat) : l.likeChange (l.halt count) := by
  unfold Leg.halt
  split
  · next h => exact likeChange_active (by simp [h]) (by simp) rfl rfl
  · exact likeChange_refl l

theorem Leg.likeChange_unlock (l : Leg) (p : Nat) : l.likeChange (l.unlock p) := by
  unfold Leg.unlock
  split
  · next h =>
    simp only [Leg.paysUnder, Bool.and_eq_true, beq_iff_eq] at h
    exact likeChange_active (by simp [h.1]) (by simp) rfl rfl
  · exact likeChange_refl l

theorem Leg.likeChange_restored (l : Leg) (count : Nat) : l.likeChange (l.restored count) := by
  unfold Leg.restored
  split
  · next h =>
    have hactive : l.state ≠ .free := by
      intro hfree
      simp [Leg.runs, hfree] at h
    exact likeChange_active hactive (by simp) rfl rfl
  · exact likeChange_refl l

section
variable {Q : FareEngine → Prop}

/-- One leg changes like this. -/
theorem keptByChange.set (h : keptByChange Q) {e : FareEngine} {i : Slot} {l : Leg} (hl : (e.legs.get i).likeChange l)
    (hQ : Q e) : Q { e with legs := e.legs.set l i } := by
  refine h.like e _ (fun j => ?_) hQ
  by_cases hj : j = i
  · subst hj
    simpa using hl
  · rw [PerSlot.get_set_other _ _ hj]
    exact Leg.likeChange_refl _

theorem keptByChange.map (h : keptByChange Q) {e : FareEngine} {g : Leg → Leg} (hg : ∀ l : Leg, l.likeChange (g l)) (hQ : Q e) :
    Q { e with legs := e.legs.map g } :=
  h.like e _ (fun i => by simpa using hg _) hQ

theorem keptByChange.close (h : keptByChange Q) {e : FareEngine} (m count : Nat) (hQ : Q e) : Q (e.close m count) := by
  refine h.map (e := e.accrueAll m) (fun l => Leg.likeChange_halt l count) (h.map (fun l => ?_) hQ)
  unfold FareEngine.accrueLeg
  split
  · next hr => exact Leg.likeChange_accrue hr _ _
  · exact Leg.likeChange_refl l

theorem keptByChange.changeTariff (h : keptByChange Q) {e : FareEngine} {i : Slot} (hi : (e.legs.get i).state ≠ .free)
    (n : Nat) (hQ : Q e) : Q (e.changeTariff i n) := by
  unfold FareEngine.changeTariff
  dsimp only
  split
  · exact hQ
  · exact h.set (Leg.likeChange_active (l' := (e.legs.get i).changeTariff _ _ _) hi hi rfl rfl) hQ

theorem keptByChange.lock (h : keptByChange Q) (p : Nat) (slots : List Slot) {e : FareEngine}
    (hslots : ∀ i ∈ slots, (e.legs.get i).state ≠ .free) (hQ : Q e) : Q (e.lock p slots) := by
  induction slots generalizing e with
  | nil => exact hQ
  | cons i is ih =>
    have hi : (e.legs.get i).state ≠ .free := hslots i (by simp)
    refine ih (e := { e with legs := _ }) (fun j hj => ?_)
      (h.set (l := { e.legs.get i with state := .paying, paymentId := some p })
        (Leg.likeChange_active hi (by simp) rfl rfl) hQ)
    by_cases hji : j = i
    · subst hji
      simp
    · simp only [PerSlot.get_set_other _ _ hji]
      exact hslots j (by simp [hj])

theorem keptByChange.release (h : keptByChange Q) (p : Nat) {e : FareEngine} (hQ : Q e) : Q (e.release p) := by
  unfold FareEngine.release
  exact List.foldlRecOn (motive := Q) _ _ hQ (fun u hu i _ => h.freed u i hu)

theorem keptByChange.paidOut (h : keptByChange Q) {e e' : FareEngine} {p : Nat} (hp : e.paidOut p e') (hQ : Q e) : Q e' := by
  rcases hp with rfl | rfl | rfl
  · exact hQ
  · exact h.map (fun l => Leg.likeChange_unlock l p) hQ
  · exact h.release p hQ

/-! ### Rules, events and steps -/

theorem shareConflict_none {share : Bool} {t : Tariff} {s : State} (h : shareConflict share t s = false) (j : Slot)
    (hj : (s.fare.legs.get j).state ≠ .free) : share = true ∧ (s.fare.legs.get j).share = true := by
  have hmem : s.fare.legs.get j ∈ s.fare.legs.toList := by cases j <;> simp [PerSlot.get, PerSlot.toList]
  unfold shareConflict at h
  cases share with
  | false =>
    simp [allFree] at h
    exact absurd (by simpa [Leg.active] using h _ hmem) hj
  | true =>
    simp at h
    exact ⟨rfl, h.1.2 _ hmem (by simpa [Leg.active] using hj)⟩

theorem bit_of_lt_16 {n : Nat} (hn : n < 16) (h0 : n ≠ 0) :
    (⟨bit n 0, bit n 1, bit n 2, bit n 3⟩ : SeatSet) ≠ SeatSet.empty := by
  interval_cases n <;> first | exact absurd rfl h0 | decide

/-- A leg that LEG_START starts may start. -/
theorem mayStart_of_taken {x : Nat} {set : SeatSet} {share : Bool} {i : Slot} {s : State} {l : Leg} {t : Tariff}
    (hset : seatSet? x = some set) (hx : x ≠ 0) (hfree : freeSlot s = some i) (htaken : seatTaken set s = false)
    (hconflict : shareConflict share t s = false) (hl : l.state ≠ .free) (hseats : l.seats = set)
    (hshare : l.share = share) : s.fare.mayStart i l where
  slotFree := by simpa [State.leg] using List.find?_some hfree
  active := hl
  someSeat := by
    unfold seatSet? at hset
    split at hset
    · next hn =>
      rw [hseats]
      cases hset
      exact bit_of_lt_16 hn hx
    · cases hset
  unheld := by
    intro y hy
    have hmem : y ∈ allSeats := by cases y <;> simp [allSeats]
    rw [hseats] at hy
    simpa [hy] using (List.any_eq_false.mp htaken) y hmem
  consent := by
    rw [hshare]
    exact shareConflict_none hconflict

/-- The condition on the legs, of a state. -/
def onLegs (Q : FareEngine → Prop) (s : State) : Prop := Q s.fare

theorem onLegs_readsOnly : readsOnly [.fare] (onLegs Q) := by
  intro s t hsame hs
  have h : t.fare = s.fare := hsame .fare (by simp)
  simpa [onLegs, h] using hs

@[simp] theorem startsLeg_fare (i : Slot) (l : Leg) (s : State) : (startsLeg i l s).fare = s.fare.start i l := by
  simp [startsLeg, FareEngine.start]

@[simp] theorem voidsLeg_fare (i : Slot) (s : State) : (voidsLeg i s).fare = s.fare.freeLeg i := by
  simp [voidsLeg]

theorem keptByChange.catchUp (h : keptByChange Q) {i : Slot} {s : State} (hi : (s.fare.legs.get i).state ≠ .free)
    (hQ : Q s.fare) : Q (catchUp i s).fare := by
  unfold Machine.catchUp
  repeat' split
  any_goals exact hQ
  rw [changeTariff_fare]
  exact h.changeTariff hi _ hQ

theorem keptByChange.boundaryAt (h : keptByChange Q) (count : Nat) {s : State} (hQ : Q s.fare) :
    Q (boundaryAt count s).fare := by
  unfold Machine.boundaryAt
  split
  · refine List.foldlRecOn (motive := fun t : State => Q t.fare) _ _ hQ (fun t ht i _ => ?_)
    unfold changeIfFollows
    split
    · next hf =>
      rw [changeTariff_fare]
      refine h.changeTariff (fun hfree => ?_) _ ht
      simp [Leg.follows, Leg.runs, State.leg, hfree] at hf
    · exact ht
  · exact hQ

theorem keptByChange.rule (h : keptByChange Q) : ∀ (c : Instr) (r : State → Taken), ruleOf c = some r →
    touches [.fare] c = true → (∀ x t y, c ≠ .legStart x t y) → ∀ s, onLegs Q s → onLegs Q (r s).1
  | .tariffWrite n f, _, rfl, _ => by
    intro _ s hQ
    rcases takeTariffWrite_taken n f s with ht | ⟨i, t, _, _, _, ht⟩
    · rwa [ht]
    · rw [ht, onLegs, (resign_acts _).same .fare]
      exact h.tables s.fare _ rfl rfl hQ
  | .scheduleWrite e d m t, _, rfl, _ => by
    intro _ s hQ
    simp only [takeScheduleWrite]
    repeat' split
    any_goals exact hQ
    all_goals exact h.tables s.fare _ rfl rfl hQ
  | .extraKindWrite n d x a l, _, rfl, _ => by
    intro _ s hQ
    simp only [takeExtraKindWrite]
    repeat' split
    any_goals exact hQ
    all_goals exact h.tables s.fare _ rfl rfl hQ
  | .legStart x t y, _, _, _ => fun hne => absurd rfl (hne x t y)
  | .legStop n, _, rfl, _ => by
    intro _ s hQ
    rcases takeLegStop_taken n s with ht | ⟨i, _, hi, ht⟩
    · rwa [ht]
    · rw [ht]
      exact h.set (l := { s.leg i with state := .stopping })
        (Leg.likeChange_active (l := s.leg i) (by simp [hi]) (by simp) rfl rfl) hQ
  | .legResume n, _, rfl, _ => by
    intro _ s hQ
    rcases takeLegResume_taken n s with ht | ⟨i, _, hi, ht⟩ | ⟨i, _, hi, ht⟩
    · rwa [ht]
    · rw [ht]
      exact h.set (l := { s.leg i with state := .hired })
        (Leg.likeChange_active (l := s.leg i) (by simp [hi]) (by simp) rfl rfl) hQ
    · rw [ht]
      refine h.catchUp (by simp [State.setLeg]) ?_
      exact h.set (l := { s.leg i with state := .hired, stopTime := none })
        (Leg.likeChange_active (l := s.leg i) (by simp [hi]) (by simp) rfl rfl) hQ
  | .legVoid n, _, rfl, _ => by
    intro _ s hQ
    rcases takeLegVoid_taken n s with ht | ⟨i, _, _, _, ht⟩
    · rwa [ht]
    · rw [ht, onLegs, voidsLeg_fare]
      exact h.freed _ _ hQ
  | .legTariff n t, _, rfl, _ => by
    intro _ s hQ
    rcases takeLegTariff_taken n t s with ht | ⟨i, k, _, _, hi, ht⟩
    · rwa [ht]
    · rw [ht, onLegs, fixesTariff, changeTariff_fare]
      refine h.changeTariff (by simp [State.setLeg, hi]) _ ?_
      exact h.set (l := { s.leg i with selection := .fixed })
        (Leg.likeChange_active (l := s.leg i) (by simp [hi]) (by simp [hi]) rfl rfl) hQ
  | .legExtraAdd n k a, _, rfl, _ => by
    intro _ s hQ
    rcases takeLegExtraAdd_taken n k a s with ht | ⟨i, asked, kind, _, hi, _, _, _, ht⟩
    · rwa [ht]
    · rw [ht]
      exact h.set (Leg.likeChange_active (l := s.leg i) (l' := (s.leg i).addExtra _ _) hi hi rfl rfl) hQ
  | .legExtraRemove n, _, rfl, _ => by
    intro _ s hQ
    rcases takeLegExtraRemove_taken n s with ht | ⟨i, e, _, hi, _, _, ht⟩
    · rwa [ht]
    · rw [ht]
      exact h.set (Leg.likeChange_active (l := s.leg i) (l' := (s.leg i).dropExtra _) hi hi rfl rfl) hQ
  | .payBegin l t o, _, rfl, _ => by
    intro _ s hQ
    rcases takePayBegin_taken l t o s with ht | ⟨slots, tender, offer, _, _, hnone, ht⟩
    · rwa [ht]
    · obtain ⟨_, _, hstopped, _, _⟩ := beginRefusal_none hnone
      have hlocked : Q (s.fare.lock s.settle.nextId slots) :=
        h.lock _ _ (fun i hi => by have := hstopped i hi; simp [State.leg] at this; simp [this]) hQ
      rw [ht, onLegs, beginsBy_fare]
      cases tender with
      | card => exact hlocked
      | cash => exact h.release _ hlocked
  | .payCash, _, rfl, _ => fun _ s hQ => h.paidOut (takePayCash_paidOut s) hQ
  | .payCancel, _, rfl, _ => fun _ s hQ => h.paidOut (takePayCancel_paidOut s) hQ
  | .factoryClear, _, rfl, _ => by
    intro _ s hQ
    rcases takeFactoryClear_taken s with ht | ⟨_, ht⟩
    · rwa [ht]
    · rw [ht]
      have hfare : (factoryClears s).fare = FareEngine.cleared := by simp [factoryClears, clearRetained]
      simpa [onLegs, hfare] using h.cleared

theorem keptByLegs.rule (h : keptByLegs Q) (c : Instr) (r : State → Taken) (hr : ruleOf c = some r)
    (ht : touches [.fare] c = true) (s : State) (_ : s.power = .running) (hQ : onLegs Q s) : onLegs Q (r s).1 := by
  by_cases hstart : ∃ x t y, c = .legStart x t y
  · obtain ⟨x, t, c, rfl⟩ := hstart
    cases hr
    rcases takeLegStart_taken x t c s with ht | ⟨set, choice, share, i, hset, hx, _, _, _, hfree, htaken, _, hconflict,
      _, ht⟩
    · rwa [ht]
    · rw [ht, onLegs, startsLeg_fare]
      exact h.started _ _ _ (mayStart_of_taken hset hx hfree htaken hconflict (by simp [startedLeg]) rfl rfl) hQ
  · exact h.tokeptByChange.rule c r hr ht (fun x t y e => hstart ⟨x, t, y, e⟩) s hQ

theorem restoreSession_fare (s : State) :
    (restoreSession s).fare = s.fare ∨ (restoreSession s).fare = s.fare.unlock s.settle.session.paymentId := by
  simp only [restoreSession]
  split
  · exact .inr rfl
  all_goals exact .inl (by simp)

@[simp] theorem resendAll_fare (s : State) : (resendAll s).fare = s.fare := (resendAll_acts s).same .fare

/-- The legs after a restart's blocks have started: restored, and unlocked where a TIP_WAIT session closes. -/
theorem restartBlocks_fare (s : State) :
    (restartBlocks s).fare = s.fare.restored (restoreTime s.retained s.clock.count)
      ∨ (restartBlocks s).fare
        = (s.fare.restored (restoreTime s.retained s.clock.count)).unlock s.settle.session.paymentId := by
  have hsame : (restartBlocks s).fare = (restoreMoney (restartVolatile s)).fare :=
    ((restartSign_acts _).seq (restartIntercom_acts _)).same .fare
  rw [hsame]
  simp only [restoreMoney, sendFrame_rest, resendAll_fare]
  exact restoreSession_fare { restartVolatile s with fare := s.fare.restored (restoreTime s.retained s.clock.count) }

theorem keptByChange.restarts (h : keptByChange Q) {s : State} (hQ : Q s.fare) : Q (restarts s).fare := by
  have hmemory : Q (restartMemory s).fare := by
    unfold restartMemory
    dsimp only
    split
    · exact hQ
    · exact h.cleared
  have hrestored (count : Nat) : Q ((restartMemory s).fare.restored count) :=
    h.map (fun l => Leg.likeChange_restored l _) hmemory
  rw [(restarts_rest s).2.2.1]
  rcases restartBlocks_fare (restartMemory s) with hb | hb
  · rw [hb]
    exact hrestored _
  · rw [hb]
    exact h.map (fun l => Leg.likeChange_unlock l _) (hrestored _)

theorem keptByChange.ticks (h : keptByChange Q) {s : State} (hQ : onLegs Q s) : onLegs Q (ticks s) := by
  rw [onLegs, ticks_fare]
  split
  · exact h.close _ _ hQ
  · exact hQ

theorem keptByChange.event (h : keptByChange Q) : ∀ c : Instr, ruleOf c = none → takesFrames c = false →
    touches [.fare] c = true → ∀ s t, exec c s = .next t → onLegs Q s → onLegs Q t
  | .secondTick, _, _, _ => by
    rintro s t ⟨⟩ hQ
    exact h.ticks hQ
  | .clockWrap, _, _, _ => by
    rintro s t ⟨⟩ hQ
    split
    · exact hQ
    · exact h.ticks hQ
  | .minuteBoundary, _, _, _ => by
    rintro s t ⟨⟩ hQ
    refine whileRunning_keep hQ (fun _ hQ => ?_)
    unfold minuteBoundary
    repeat' split
    any_goals exact hQ
    · exact h.boundaryAt _ hQ
    · exact h.boundaryAt _ hQ
  | .abortTimerExpiry, _, _, _ => by
    rintro s t ⟨⟩ hQ
    exact whileRunning_keep hQ (fun _ hQ => h.paidOut (abortExpires_paidOut s) hQ)
  | .retryIdleTimerExpiry, _, _, _ => by
    rintro s t ⟨⟩ hQ
    exact whileRunning_keep hQ (fun _ hQ => h.paidOut (retryIdleExpires_paidOut s) hQ)
  | .tApproved r n a, _, _, _ => by
    rintro s t ⟨⟩ hQ
    exact whileRunning_keep hQ (fun _ hQ => h.paidOut (approves_paidOut r n a { s with tender := _ }) hQ)
  | .tDeclined r n, _, _, _ => by
    rintro s t ⟨⟩ hQ
    exact whileRunning_keep hQ (fun _ hQ => h.paidOut (declines_paidOut r n { s with tender := _ }) hQ)
  | .tAborted r, _, _, _ => by
    rintro s t ⟨⟩ hQ
    exact whileRunning_keep hQ (fun _ hQ => h.paidOut (confirmsAbort_paidOut r { s with tender := _ }) hQ)
  | .restart, _, _, _ => by
    rintro s t ⟨⟩ hQ
    split
    · exact h.restarts hQ
    · exact h.restarts hQ
    · exact hQ

theorem keptByLegs.step (h : keptByLegs Q) (s t : State) (hQ : Q s.fare) (ht : Machine.step s = .next t) : Q t.fare :=
  step_keeps (P := onLegs Q) onLegs_readsOnly (by decide) h.rule h.tokeptByChange.event
    (fun s => onLegs_readsOnly.keeps (baseStep_acts s) (by decide)) s t hQ ht

end

/-! ### The two conditions of O8 -/

theorem freeSeats_get (i : Slot) (m : PerSeat (Option Slot)) (x : Seat) :
    (freeSeats i m).get x = if m.get x = some i then none else m.get x := by
  cases x <;> rfl

theorem enterSeats_get (seats : SeatSet) (i : Slot) (m : PerSeat (Option Slot)) (x : Seat) :
    (enterSeats seats i m).get x = if seats.get x = true then some i else m.get x := by
  cases x <;> rfl

theorem freeLeg_get (e : FareEngine) (i j : Slot) :
    (e.freeLeg i).legs.get j = if j = i then Leg.blank else e.legs.get j := by
  split
  · next h => simp [FareEngine.freeLeg, h]
  · next h => simp [FareEngine.freeLeg, PerSlot.get_set_other _ _ h]

theorem start_get (e : FareEngine) (i j : Slot) (l : Leg) :
    (e.start i l).legs.get j = if j = i then l else e.legs.get j := by
  split
  · next h => simp [FareEngine.start, h]
  · next h => simp [FareEngine.start, PerSlot.get_set_other _ _ h]

theorem seatsAgree_kept : keptByLegs FareEngine.seatsAgree where
  tables e e' hl hm h := by
    unfold FareEngine.seatsAgree
    rwa [hl, hm]
  like e legs hlike h := by
    obtain ⟨hblank, hseat, hmap⟩ := h
    refine ⟨fun i hi => ?_, fun i hi => ?_, fun x i => ?_⟩
    · obtain ⟨_, _, hfree, hsame⟩ := hlike i
      rw [hsame (hfree.mp hi)]
      exact hblank i (hfree.mp hi)
    · obtain ⟨hseats, _, hfree, _⟩ := hlike i
      rw [hseats]
      exact hseat i (fun hf => hi (hfree.mpr hf))
    · rw [(hlike i).1]
      exact hmap x i
  freed e i h := by
    obtain ⟨hblank, hseat, hmap⟩ := h
    have hno (x : Seat) : Leg.blank.seats.get x = false := by cases x <;> rfl
    refine ⟨fun j hj => ?_, fun j hj => ?_, fun x j => ?_⟩
    · rw [freeLeg_get] at hj ⊢
      split
      · rfl
      · next hji => exact hblank j (by simpa [hji] using hj)
    · rw [freeLeg_get] at hj ⊢
      split
      · next hji => simp [hji, Leg.blank] at hj
      · next hji => exact hseat j (by simpa [hji] using hj)
    · have hmap' : (e.freeLeg i).seatMap.get x = if e.seatMap.get x = some i then none else e.seatMap.get x :=
        freeSeats_get i e.seatMap x
      rw [hmap', freeLeg_get]
      by_cases hji : j = i
      · subst hji
        simp only [if_true, hno]
        split
        · simp
        · next hx => simp [hx]
      · rw [if_neg hji, ← hmap]
        split
        · next hx => simp [hx, Ne.symm hji]
        · rfl
  started e i l hmay h := by
    obtain ⟨hblank, hseat, hmap⟩ := h
    have hno (x : Seat) : Leg.blank.seats.get x = false := by cases x <;> rfl
    refine ⟨fun j hj => ?_, fun j hj => ?_, fun x j => ?_⟩
    · rw [start_get] at hj ⊢
      split
      · next hji => exact absurd (by simpa [hji] using hj) hmay.active
      · next hji => exact hblank j (by simpa [hji] using hj)
    · rw [start_get] at hj ⊢
      split
      · exact hmay.someSeat
      · next hji => exact hseat j (by simpa [hji] using hj)
    · have hmap' : (e.start i l).seatMap.get x = if l.seats.get x = true then some i else e.seatMap.get x :=
        enterSeats_get l.seats i e.seatMap x
      rw [hmap', start_get]
      by_cases hji : j = i
      · subst hji
        have hold := hmap x j
        rw [hblank j hmay.slotFree, hno] at hold
        simp only [if_true]
        split
        · next hx => simp [hx]
        · next hx => simpa [hx] using hold
      · rw [if_neg hji, ← hmap]
        split
        · next hx => simp [hmay.unheld x hx, Ne.symm hji]
        · rfl
  cleared := by
    refine ⟨fun i _ => ?_, fun i hi => ?_, fun x i => ?_⟩
    · cases i <;> rfl
    · cases i <;> exact absurd rfl hi
    · cases x <;> cases i <;> decide

theorem consentAgrees_kept : keptByLegs FareEngine.consentAgrees where
  tables e e' hl _ h := by
    unfold FareEngine.consentAgrees
    rwa [hl]
  like e legs hlike h i j hij hi hj := by
    rw [(hlike i).2.1]
    exact h i j hij (fun hf => hi ((hlike i).2.2.1.mpr hf)) (fun hf => hj ((hlike j).2.2.1.mpr hf))
  freed e k h i j hij hi hj := by
    rw [freeLeg_get] at hi hj ⊢
    split at hi
    · exact absurd rfl hi
    · next hik =>
      split at hj
      · exact absurd rfl hj
      · rw [if_neg hik]
        exact h i j hij hi hj
  started e k l hmay h i j hij hi hj := by
    rw [start_get] at hi hj ⊢
    by_cases hik : i = k
    · have hjk : j ≠ k := fun e => hij (hik.trans e.symm)
      rw [if_neg hjk] at hj
      rw [if_pos hik]
      exact (hmay.consent j hj).1
    · rw [if_neg hik] at hi ⊢
      exact (hmay.consent i hi).2
  cleared i _ _ hi := by cases i <;> exact absurd rfl hi

/-- Settles O8. -/
theorem legsSeatsAndConsentStayInAgreement : Obligations.LegsSeatsAndConsentStayInAgreement :=
  fun s t ht => ⟨fun h => seatsAgree_kept.step s t h ht, fun h => consentAgrees_kept.step s t h ht⟩

end Sys2Proof.Machine
end

