-- ==== Sys2Proof/Proofs/SignTables.lean ====
section
/-!
PROOF. The sign follows its tables (R127, R128): what the derivation looks at, that deriving anew or setting the demands
again gives what the tables say, that every operation either does so or leaves what the derivation looks at, and from
these O15.
-/

set_option Elab.async false

namespace Sys2Proof.Machine

/-! ### What the derivation looks at -/

/-- Of the legs the derivation looks at which are active, their share consent and the seats held. -/
def FareEngine.looksLike (e e' : FareEngine) : Prop :=
  e'.seatMap = e.seatMap
    ∧ ∀ i, (e'.legs.get i).active = (e.legs.get i).active ∧ (e'.legs.get i).share = (e.legs.get i).share

/-- The derivation finds the same in two states, beside the sign itself. -/
structure sameInputs (s t : State) : Prop where
  power : t.power = s.power
  shift : shiftOpen t = shiftOpen s
  calibration : calibrated t = calibrated s
  sharing : t.settle.sharing = s.settle.sharing
  legs : s.fare.looksLike t.fare

theorem looksLike_refl (e : FareEngine) : e.looksLike e := ⟨rfl, fun _ => ⟨rfl, rfl⟩⟩

theorem looksLike_trans {e e' e'' : FareEngine} (h : e.looksLike e') (h' : e'.looksLike e'') : e.looksLike e'' :=
  ⟨h'.1.trans h.1, fun i => ⟨(h'.2 i).1.trans (h.2 i).1, (h'.2 i).2.trans (h.2 i).2⟩⟩

theorem looksLike_map {e : FareEngine} {g : Leg → Leg} (hg : ∀ l : Leg, l.likeChange (g l)) :
    e.looksLike { e with legs := e.legs.map g } := by
  refine ⟨rfl, fun i => ?_⟩
  obtain ⟨_, hshare, hfree, _⟩ := hg (e.legs.get i)
  simp only [PerSlot.get_map]
  exact ⟨by simp only [Leg.active, bne]; rw [Bool.eq_iff_iff]; simpa using not_congr hfree, hshare⟩

theorem looksLike_set {e : FareEngine} {i : Slot} {l : Leg} (hactive : l.active = (e.legs.get i).active)
    (hshare : l.share = (e.legs.get i).share) : e.looksLike { e with legs := e.legs.set l i } := by
  refine ⟨rfl, fun j => ?_⟩
  by_cases hj : j = i
  · subst hj
    simp [hactive, hshare]
  · simp [PerSlot.get_set_other _ _ hj]

theorem looksLike_changeTariff (e : FareEngine) (i : Slot) (n : Nat) : e.looksLike (e.changeTariff i n) := by
  unfold FareEngine.changeTariff
  dsimp only
  split
  · exact looksLike_refl e
  · exact looksLike_set rfl rfl

theorem looksLike_close (e : FareEngine) (m count : Nat) : e.looksLike (e.close m count) := by
  refine looksLike_trans (e' := e.accrueAll m) (looksLike_map (fun l => ?_))
    (looksLike_map (fun l => Leg.likeChange_halt l count))
  unfold FareEngine.accrueLeg
  split
  · next hr => exact Leg.likeChange_accrue hr _ _
  · exact Leg.likeChange_refl l

theorem looksLike_unlock (e : FareEngine) (p : Nat) : e.looksLike (e.unlock p) :=
  looksLike_map (fun l => Leg.likeChange_unlock l p)

theorem looksLike_lock (p : Nat) (slots : List Slot) {e : FareEngine}
    (hslots : ∀ i ∈ slots, (e.legs.get i).state ≠ .free) : e.looksLike (e.lock p slots) := by
  induction slots generalizing e with
  | nil => exact looksLike_refl e
  | cons i is ih =>
    have hi : (e.legs.get i).active = true := by simpa [Leg.active] using hslots i (by simp)
    refine looksLike_trans (e' := { e with legs := e.legs.set { e.legs.get i with state := .paying, paymentId := some p } i })
      (looksLike_set (by rw [hi]; rfl) rfl) (ih (fun j hj => ?_))
    by_cases hji : j = i
    · subst hji
      simp
    · simp only [PerSlot.get_set_other _ _ hji]
      exact hslots j (by simp [hj])

theorem sameInputs_refl (s : State) : sameInputs s s := ⟨rfl, rfl, rfl, rfl, looksLike_refl _⟩

theorem sameInputs.trans {s t u : State} (h : sameInputs s t) (h' : sameInputs t u) : sameInputs s u :=
  ⟨h'.power.trans h.power, h'.shift.trans h.shift, h'.calibration.trans h.calibration, h'.sharing.trans h.sharing,
    looksLike_trans h.legs h'.legs⟩

/-- An event that leaves the parts the derivation looks at. -/
theorem sameInputs_of_acts {parts : List Block} {s t : State} (h : acts parts s t)
    (hD : ∀ b ∈ [Block.power, .odo, .fare, .settle, .shifts], b ∉ parts := by decide) : sameInputs s t := by
  have hp : t.power = s.power := h.same .power (hD _ (by simp))
  have ho : t.odo = s.odo := h.same .odo (hD _ (by simp))
  have hf : t.fare = s.fare := h.same .fare (hD _ (by simp))
  have hu : t.settle = s.settle := h.same .settle (hD _ (by simp))
  have ha : t.shifts = s.shifts := h.same .shifts (hD _ (by simp))
  refine ⟨hp, by simp [shiftOpen, ha], by simp [calibrated, ho, hf], by rw [hu], ?_⟩
  rw [hf]
  exact looksLike_refl _

theorem allFree_eq (s : State) : allFree s = Slot.all.all (fun i => !(s.fare.legs.get i).active) := rfl

theorem derivedState_congr {s t : State} (h : sameInputs s t) (hm : t.sign.mode = s.sign.mode) :
    derivedState t = derivedState s := by
  have hseats : unheldSeats t = unheldSeats s := by simp [unheldSeats, h.legs.1]
  have hfree : allFree t = allFree s := by simp [allFree_eq, (h.legs.2 _).1]
  have hshare : t.fare.legs.toList.all (fun l => !l.active || l.share)
      = s.fare.legs.toList.all (fun l => !l.active || l.share) := by
    have heq (u : State) : u.fare.legs.toList.all (fun l => !l.active || l.share)
      = Slot.all.all (fun i => !(u.fare.legs.get i).active || (u.fare.legs.get i).share) := rfl
    simp [heq, (h.legs.2 _).1, (h.legs.2 _).2]
  simp only [derivedState, h.shift, h.calibration, h.sharing, hm, hseats, hfree, hshare]

theorem derivedDigit_congr {s t : State} (h : sameInputs s t) (x : SignState) :
    derivedDigit t x = derivedDigit s x := by
  have hseats : unheldSeats t = unheldSeats s := by simp [unheldSeats, h.legs.1]
  cases x <;> simp [derivedDigit, hseats]

/-! ### What the sign shows -/

/-- The fields of the sign that R127 and R128 speak of, but for the demands. -/
def Sign.asBefore (g g' : Sign) : Prop :=
  g'.mode = g.mode ∧ g'.choice = g.choice ∧ g'.derived = g.derived ∧ g'.digit = g.digit ∧ g'.fault = g.fault
    ∧ g'.testRunning = g.testRunning ∧ g'.active = g.active

theorem Sign.demands_congr {g g' : Sign} (h : g.asBefore g') : g'.demands = g.demands := by
  obtain ⟨_, hc, hd, _, hf, ht, ha⟩ := h
  simp only [Sign.demands, hc, hd, hf, ht, ha]

theorem Sign.setDemand_asBefore (g : Sign) (x : Lamp) (d : Demand) : g.asBefore (g.setDemand x d) := by
  unfold Sign.setDemand
  split <;> exact ⟨rfl, rfl, rfl, rfl, rfl, rfl, rfl⟩

theorem Sign.asBefore_trans {a b c : Sign} (h : a.asBefore b) (h' : b.asBefore c) : a.asBefore c := by
  obtain ⟨h1, h2, h3, h4, h5, h6, h7⟩ := h
  obtain ⟨k1, k2, k3, k4, k5, k6, k7⟩ := h'
  exact ⟨k1.trans h1, k2.trans h2, k3.trans h3, k4.trans h4, k5.trans h5, k6.trans h6, k7.trans h7⟩

theorem Sign.setDemand_demand (g : Sign) (x : Lamp) (d : Demand) : (g.setDemand x d).demand = g.demand.set d x := by
  unfold Sign.setDemand
  split
  · next h =>
    subst h
    cases x <;> rfl
  · rfl

/-- Setting the demands changes the demands, generators and dark timers alone. -/
theorem Sign.refresh_asBefore (g : Sign) (sense : LampSet) : g.asBefore (g.refresh sense) :=
  asBefore_trans (setDemand_asBefore g .free _) (asBefore_trans (setDemand_asBefore _ .panel _)
    (asBefore_trans (setDemand_asBefore _ .share _) ⟨rfl, rfl, rfl, rfl, rfl, rfl, rfl⟩))

/-- The demands are set to those of the tables and overlays (R128). -/
theorem Sign.refresh_demand (g : Sign) (sense : LampSet) : (g.refresh sense).demand = g.demands := by
  have hset : (g.refresh sense).demand
      = (((g.setDemand .free g.demands.free).setDemand .panel g.demands.panel).setDemand .share g.demands.share).demand :=
    rfl
  rw [hset, setDemand_demand, setDemand_demand, setDemand_demand]
  rfl

theorem signKept_readsOnly : readsOnly [.power, .odo, .fare, .settle, .shifts, .sign] signKept := by
  intro s t hsame hs
  have hp : t.power = s.power := hsame .power (by simp)
  have ho : t.odo = s.odo := hsame .odo (by simp)
  have hf : t.fare = s.fare := hsame .fare (by simp)
  have hu : t.settle = s.settle := hsame .settle (by simp)
  have ha : t.shifts = s.shifts := hsame .shifts (by simp)
  have hg : t.sign = s.sign := hsame .sign (by simp)
  have hin : sameInputs s t :=
    ⟨hp, by simp [shiftOpen, ha], by simp [calibrated, ho, hf], by rw [hu], by rw [hf]; exact looksLike_refl _⟩
  unfold signKept at *
  rw [hp, hg, derivedState_congr hin (by rw [hg]), derivedDigit_congr hin]
  exact hs

/-- Where neither what the derivation looks at nor what the sign shows changes. -/
theorem signKept_congr {s t : State} (h : signKept s) (hin : sameInputs s t) (hg : s.sign.asBefore t.sign)
    (hd : t.sign.demand = s.sign.demand) : signKept t := by
  unfold signKept at *
  rw [hin.power, derivedState_congr hin hg.1, derivedDigit_congr hin, Sign.demands_congr hg, hg.2.2.1, hg.2.2.2.1, hd]
  exact h

theorem signKept_of_inputs {s t : State} (h : signKept s) (hin : sameInputs s t) (hg : t.sign = s.sign) : signKept t :=
  signKept_congr h hin (by rw [hg]; exact ⟨rfl, rfl, rfl, rfl, rfl, rfl, rfl⟩) (by rw [hg])

/-- The demands are set again after a change of faults, test or emergency. -/
theorem signKept_refreshLamps {s t : State} (h : signKept s) (hin : sameInputs s t) (hm : t.sign.mode = s.sign.mode)
    (hd : t.sign.derived = s.sign.derived) (hdigit : t.sign.digit = s.sign.digit) : signKept (refreshLamps t) := by
  have hg : t.sign.asBefore (refreshLamps t).sign := Sign.refresh_asBefore _ _
  have hin' : sameInputs s (refreshLamps t) := hin.trans (sameInputs_of_acts (refreshLamps_acts t))
  intro hp
  obtain ⟨hstate, hdig, _⟩ := h (by rw [← hin'.power]; exact hp)
  rw [derivedState_congr hin' (hg.1.trans hm), derivedDigit_congr hin', Sign.demands_congr hg]
  exact ⟨(hg.2.2.1.trans hd).trans hstate, (hg.2.2.2.1.trans hdigit).trans hdig, Sign.refresh_demand _ _⟩

/-- Deriving anew gives what the tables say (R127, R128). -/
theorem signKept_derive (s : State) : signKept (derive s) := by
  have hin : sameInputs s (derive s) := sameInputs_of_acts (derive_acts s)
  have hg := Sign.refresh_asBefore { s.sign with
    derived := derivedState s
    digit := derivedDigit s (derivedState s)
    testRunning := s.sign.testRunning && derivedState s == .offDuty } s.pins.sense
  intro _
  rw [derivedState_congr hin hg.1, derivedDigit_congr hin]
  exact ⟨hg.2.2.1, hg.2.2.2.1, (Sign.refresh_demand _ _).trans (Sign.demands_congr hg).symm⟩

/-- An operation that does not touch what the sign follows. -/
theorem signKept_after {parts : List Block} {s t : State} (ha : acts parts s t) (h : signKept s)
    (hD : ∀ b ∈ [Block.power, .odo, .fare, .settle, .shifts, .sign], b ∉ parts := by decide) : signKept t :=
  signKept_readsOnly.keeps ha hD h

theorem signKept_resign (s : State) : signKept (resign s) := signKept_after (reportSign_acts _ _) (signKept_derive s)

theorem signKept_resignToAuto (s : State) : signKept (resignToAuto s) :=
  signKept_after (reportSign_acts _ _) (signKept_derive { s with sign := _ })

/-! ### Operations that leave what the derivation looks at -/

/-- A change of the fare engine that keeps its looks and whether tariff 1 is defined. -/
theorem sameInputs_of_fare {parts : List Block} {s t : State} (h : acts parts s t) (hl : s.fare.looksLike t.fare)
    (ht : t.fare.tariffs = s.fare.tariffs)
    (hD : ∀ b ∈ [Block.power, .odo, .settle, .shifts], b ∉ parts := by decide) : sameInputs s t := by
  have hp : t.power = s.power := h.same .power (hD _ (by simp))
  have ho : t.odo = s.odo := h.same .odo (hD _ (by simp))
  have hu : t.settle = s.settle := h.same .settle (hD _ (by simp))
  have ha : t.shifts = s.shifts := h.same .shifts (hD _ (by simp))
  exact ⟨hp, by simp [shiftOpen, ha], by simp [calibrated, ho, FareEngine.tariff, ht], by rw [hu], hl⟩

/-- What a payment event leaves for the derivation, where it does not release legs. -/
theorem sameInputs_of_payment {parts : List Block} {s t : State} (h : acts parts s t)
    (hl : t.fare = s.fare ∨ ∃ p, t.fare = s.fare.unlock p) (hsharing : t.settle.sharing = s.settle.sharing)
    (hshift : t.shifts.record.isOpen = s.shifts.record.isOpen)
    (hD : ∀ b ∈ [Block.power, .odo], b ∉ parts := by decide) : sameInputs s t := by
  have hp : t.power = s.power := h.same .power (hD _ (by simp))
  have ho : t.odo = s.odo := h.same .odo (hD _ (by simp))
  have htariffs : t.fare.tariffs = s.fare.tariffs := by
    rcases hl with hl | ⟨p, hl⟩ <;> rw [hl]
    rfl
  refine ⟨hp, hshift, by simp [calibrated, ho, FareEngine.tariff, htariffs], hsharing, ?_⟩
  rcases hl with hl | ⟨p, hl⟩ <;> rw [hl]
  · exact looksLike_refl _
  · exact looksLike_unlock _ p

theorem sameInputs_of_odo {parts : List Block} {s t : State} (h : acts parts s t) (hk : t.odo.k = s.odo.k)
    (hD : ∀ b ∈ [Block.power, .fare, .settle, .shifts], b ∉ parts := by decide) : sameInputs s t := by
  have hp : t.power = s.power := h.same .power (hD _ (by simp))
  have hf : t.fare = s.fare := h.same .fare (hD _ (by simp))
  have hu : t.settle = s.settle := h.same .settle (hD _ (by simp))
  have ha : t.shifts = s.shifts := h.same .shifts (hD _ (by simp))
  refine ⟨hp, by simp [shiftOpen, ha], by simp [calibrated, hk, hf], by rw [hu], ?_⟩
  rw [hf]
  exact looksLike_refl _

theorem Odometry.countPulse_k (o : Odometry) (c : Bool) : (o.countPulse c).k = o.k := by
  have hmetres : (o.pulseToMetres c).k = o.k := by
    unfold pulseToMetres
    split <;> rfl
  unfold countPulse pulseToMeasurement
  split <;> exact hmetres

theorem Odometry.accept_k (o : Odometry) (level c : Bool) : (o.accept level c).k = o.k := by
  unfold accept
  dsimp only
  split
  · exact countPulse_k _ c
  · rfl

theorem Odometry.inputChanges_k (o : Odometry) (level c : Bool) : (o.inputChanges level c).k = o.k := by
  unfold inputChanges
  repeat' split
  · rfl
  · exact accept_k _ _ _
  · rfl

theorem Odometry.calibrationEnds_k (o : Odometry) : o.calibrationEnds.k = o.k := by
  unfold calibrationEnds
  split <;> rfl

/-! ### Payment events -/

theorem abortEnds_fare_or (reason : DeclineReason) (s : State) :
    (abortEnds reason s).fare = s.fare ∨ ∃ p, (abortEnds reason s).fare = s.fare.unlock p := by
  unfold abortEnds
  split
  · exact .inr ⟨_, closeUnpaid_fare _ _ s⟩
  · rw [endsUnapproved_fare]
    split
    · exact .inl rfl
    · exact .inr ⟨_, rfl⟩

theorem endsUnapproved_isOpen (reason : DeclineReason) (s : State) :
    (endsUnapproved reason s).shifts.record.isOpen = s.shifts.record.isOpen := by
  unfold endsUnapproved
  dsimp only
  split <;> simp [enterRetryWait]

theorem abortEnds_isOpen (reason : DeclineReason) (s : State) :
    (abortEnds reason s).shifts.record.isOpen = s.shifts.record.isOpen := by
  unfold abortEnds
  split
  · simp
  · exact endsUnapproved_isOpen reason s

theorem signKept_closeUnpaid {s : State} (h : signKept s) (x : SessionState) (c : CloseCause) :
    signKept (closeUnpaid x c s) :=
  signKept_of_inputs h (sameInputs_of_payment (closeUnpaid_acts x c s) (.inr ⟨_, closeUnpaid_fare x c s⟩) (by simp) (by simp))
    ((closeUnpaid_acts x c s).same .sign)

theorem signKept_endsUnapproved {s : State} (h : signKept s) (reason : DeclineReason) :
    signKept (endsUnapproved reason s) := by
  refine signKept_of_inputs h (sameInputs_of_payment (endsUnapproved_acts reason s) ?_ (by simp)
    (endsUnapproved_isOpen reason s)) ((endsUnapproved_acts reason s).same .sign)
  rw [endsUnapproved_fare]
  split
  · exact .inl rfl
  · exact .inr ⟨_, rfl⟩

theorem signKept_abortEnds {s : State} (h : signKept s) (reason : DeclineReason) : signKept (abortEnds reason s) := by
  unfold abortEnds
  split
  · exact signKept_closeUnpaid h _ _
  · exact signKept_endsUnapproved h _

/-- A change of the settlement unit that leaves the sharing setting. -/
theorem signKept_withSettle {s : State} (h : signKept s) {u : Settlement} (hu : u.sharing = s.settle.sharing) :
    signKept { s with settle := u } :=
  signKept_of_inputs h ⟨rfl, rfl, rfl, hu, looksLike_refl _⟩ rfl

theorem signKept_makeReversal {s : State} (h : signKept s) (places : Nat) (r : Ref) (n : Nat) :
    signKept (makeReversal places r n s) := by
  refine signKept_of_inputs h (sameInputs_of_payment (makeReversal_acts places r n s) (.inl (by simp)) ?_
    (by simp [makeReversal])) ((makeReversal_acts places r n s).same .sign)
  rw [makeReversal_settle]
  split <;> rfl

/-- A settlement releases its legs, which derives the sign anew (R55). -/
theorem signKept_settles (close : Session → Session) (paid : List LegPaid) (s : State) :
    signKept (settles close paid s) :=
  signKept_after ((askTone_acts .approved _).seq (raisePayment_acts _)) (signKept_resign _)

theorem signKept_enterAuthorising {s : State} (h : signKept s) : signKept (enterAuthorising s) :=
  signKept_of_inputs h (sameInputs_of_payment (enterAuthorising_acts s)
    (.inl ((enterAuthorising_acts s).same .fare)) (by simp)
    (by rw [show (enterAuthorising s).shifts = s.shifts from (enterAuthorising_acts s).same .shifts]))
    ((enterAuthorising_acts s).same .sign)

theorem signKept_enterAborting {s : State} (h : signKept s) (c : AbortCause) (r : Ref) :
    signKept (enterAborting c r s) :=
  signKept_of_inputs h (sameInputs_of_payment (enterAborting_acts c r s)
    (.inl ((enterAborting_acts c r s).same .fare)) (by simp)
    (by rw [show (enterAborting c r s).shifts = s.shifts from (enterAborting_acts c r s).same .shifts]))
    ((enterAborting_acts c r s).same .sign)

theorem signKept_beginsBy {s : State} (h : signKept s) {slots : List Slot}
    (hslots : ∀ i ∈ slots, (s.leg i).state ≠ .free) (offer : Bool) (t : Tender) :
    signKept (beginsBy slots offer s t).1 := by
  have hbegun : signKept (beginsPayment slots t offer s) := by
    have hacts := beginsPayment_acts slots t offer s
    refine signKept_of_inputs h ⟨hacts.same .power, ?_, ?_, by simp, ?_⟩ (hacts.same .sign)
    · rw [shiftOpen, show (beginsPayment slots t offer s).shifts = s.shifts from hacts.same .shifts]
      rfl
    · have htariffs : (s.fare.lock s.settle.nextId slots).tariffs = s.fare.tariffs := by
        unfold FareEngine.lock
        exact List.foldlRecOn (motive := fun e : FareEngine => e.tariffs = s.fare.tariffs) _ _ rfl (fun _ he _ _ => he)
      simp [calibrated, show (beginsPayment slots t offer s).odo = s.odo from hacts.same .odo, FareEngine.tariff,
        htariffs]
    · rw [beginsPayment_fare]
      exact looksLike_lock _ _ hslots
  cases t with
  | cash => exact signKept_settles _ _ _
  | card =>
    simp only [beginsBy, beginsCard]
    split
    · refine signKept_of_inputs hbegun (sameInputs_of_payment (enterTipWait_acts _)
        (.inl ((enterTipWait_acts _).same .fare)) (by simp) ?_) ((enterTipWait_acts _).same .sign)
      rw [show (enterTipWait (beginsPayment slots .card offer s)).shifts = (beginsPayment slots .card offer s).shifts
        from (enterTipWait_acts _).same .shifts]
    · exact signKept_enterAuthorising hbegun

/-! ### Rules and events -/

/-- The sign with its demands set again after a change beside mode, derived state and digit. -/
theorem signKept_refreshed {s : State} (h : signKept s) {g : Sign} (hm : g.mode = s.sign.mode)
    (hd : g.derived = s.sign.derived) (hdigit : g.digit = s.sign.digit) : signKept (refreshLamps { s with sign := g }) :=
  signKept_refreshLamps h ⟨rfl, rfl, rfl, rfl, looksLike_refl _⟩ hm hd hdigit

theorem signKept_emergencyRises {s : State} (h : signKept s) (c : EmergencyCause) : signKept (emergencyRises c s) :=
  signKept_after ((raise_acts _ _ _).seq (reportSign_acts _ _)) (signKept_refreshed h rfl rfl rfl)

theorem signKept_emergencyClears {s : State} (h : signKept s) : signKept (emergencyClears s) :=
  signKept_after (raise_acts _ _ _) (signKept_refreshed h rfl rfl rfl)

/-- A change of generators, dark timers, hold or clear window. -/
theorem signKept_withSign {s : State} (h : signKept s) {g : Sign} (hg : s.sign.asBefore g)
    (hd : g.demand = s.sign.demand) : signKept { s with sign := g } :=
  signKept_congr h ⟨rfl, rfl, rfl, rfl, looksLike_refl _⟩ hg hd

theorem Sign.restartUser_asBefore (g : Sign) (x : Lamp) :
    g.asBefore (g.restartUser x) ∧ (g.restartUser x).demand = g.demand := by
  unfold Sign.restartUser
  split <;> exact ⟨⟨rfl, rfl, rfl, rfl, rfl, rfl, rfl⟩, rfl⟩

/-- A change of one leg that stays active or FREE with its consent. -/
theorem signKept_setLeg {s : State} (h : signKept s) {i : Slot} {l : Leg} (hactive : l.active = (s.leg i).active)
    (hshare : l.share = (s.leg i).share) : signKept (s.setLeg i l) :=
  signKept_of_inputs h (sameInputs_of_fare (setLeg_acts s i l) (looksLike_set hactive hshare) rfl) rfl

theorem Leg.active_congr {l l' : Leg} (h : l.state ≠ .free) (h' : l'.state ≠ .free) : l'.active = l.active := by
  simp [Leg.active, bne, h, h']

theorem changeTariff_tariffs (e : FareEngine) (i : Slot) (n : Nat) : (e.changeTariff i n).tariffs = e.tariffs := by
  unfold FareEngine.changeTariff
  dsimp only
  split <;> rfl

theorem signKept_changeTariff {s : State} (h : signKept s) (i : Slot) (n : Nat) : signKept (changeTariff i n s) :=
  signKept_of_inputs h (sameInputs_of_fare (changeTariff_acts i n s) (by simpa using looksLike_changeTariff _ i n)
    (by simp [changeTariff_tariffs])) ((changeTariff_acts i n s).same .sign)

theorem signKept_catchUp {s : State} (h : signKept s) (i : Slot) : signKept (catchUp i s) := by
  unfold catchUp
  repeat' split
  any_goals exact h
  exact signKept_changeTariff h _ _

theorem signKept_boundaryAt {s : State} (h : signKept s) (count : Nat) : signKept (boundaryAt count s) := by
  unfold boundaryAt
  split
  · refine List.foldlRecOn (motive := signKept) _ _ h (fun t ht i _ => ?_)
    unfold changeIfFollows
    split
    · exact signKept_changeTariff ht _ _
    · exact ht
  · exact h

theorem signKept_takePatternWrite {s : State} (h : signKept s) (n a b c g m : Nat) :
    signKept (takePatternWrite n a b c g m s).1 := by
  simp only [takePatternWrite]
  have huser (p : Pattern) :
      let u := ((({ s.sign with pUser := p } : Sign).restartUser .free).restartUser .panel).restartUser .share
      s.sign.asBefore u ∧ u.demand = s.sign.demand := by
    obtain ⟨hf, hfd⟩ := ({ s.sign with pUser := p } : Sign).restartUser_asBefore .free
    obtain ⟨hp, hpd⟩ := (({ s.sign with pUser := p } : Sign).restartUser .free).restartUser_asBefore .panel
    obtain ⟨hs, hsd⟩ :=
      ((({ s.sign with pUser := p } : Sign).restartUser .free).restartUser .panel).restartUser_asBefore .share
    exact ⟨Sign.asBefore_trans (a := { s.sign with pUser := p }) hf (Sign.asBefore_trans hp hs),
      hsd.trans (hpd.trans hfd)⟩
  repeat' split
  · exact h
  · exact h
  · exact h
  · exact signKept_withSign h (huser _).1 (huser _).2

theorem signKept_takeLegResume {s : State} (h : signKept s) (n : Nat) : signKept (takeLegResume n s).1 := by
  rcases takeLegResume_taken n s with ht | ⟨i, _, hi, ht⟩ | ⟨i, _, hi, ht⟩
  · rwa [ht]
  · rw [ht]
    exact signKept_after (raiseLegState_acts _ _) (signKept_setLeg h (Leg.active_congr (by simp [hi]) (by simp)) rfl)
  · have hset : signKept (s.setLeg i { s.leg i with state := .hired, stopTime := none }) :=
      signKept_setLeg h (Leg.active_congr (by simp [hi]) (by simp)) rfl
    rw [ht]
    exact signKept_catchUp (signKept_after (raiseLegState_acts _ _) hset) _

theorem signKept_rule : ∀ (c : Instr) (r : State → Taken), ruleOf c = some r →
    touches [.power, .odo, .fare, .settle, .shifts, .sign] c = true →
    ∀ s, s.power = .running → signKept s → signKept (r s).1
  | .dpulseConfig p w, _, rfl, _ => by
    intro s _ h
    simp only [takeDpulseConfig]
    repeat' split
    · exact h
    · exact signKept_of_inputs h ⟨rfl, rfl, rfl, rfl, looksLike_refl _⟩ rfl
    · exact h
  | .calSetK k, _, rfl, _ => by
    intro s _ h
    simp only [takeCalSetK]
    repeat' split
    any_goals exact h
    exact signKept_resign _
  | .calMeasureStart, _, rfl, _ => by
    intro s _ h
    simp only [takeCalMeasureStart]
    repeat' split
    all_goals exact h
  | .calMeasureStop, _, rfl, _ => by
    intro s _ h
    simp only [takeCalMeasureStop]
    repeat' split
    all_goals exact h
  | .tariffWrite n f, _, rfl, _ => by
    intro s _ h
    rcases takeTariffWrite_taken n f s with ht | ⟨i, t, _, _, _, ht⟩
    · rwa [ht]
    · rw [ht]
      exact signKept_resign _
  | .scheduleWrite e d m t, _, rfl, _ => by
    intro s _ h
    simp only [takeScheduleWrite]
    repeat' split
    all_goals exact h
  | .extraKindWrite n d x a l, _, rfl, _ => by
    intro s _ h
    simp only [takeExtraKindWrite]
    repeat' split
    all_goals exact h
  | .legStart x t c, _, rfl, _ => by
    intro s _ h
    rcases takeLegStart_taken x t c s with ht | ⟨_, _, _, _, _, _, _, _, _, _, _, _, _, _, ht⟩
    · rwa [ht]
    · rw [ht]
      exact signKept_resignToAuto _
  | .legStop n, _, rfl, _ => by
    intro s _ h
    rcases takeLegStop_taken n s with ht | ⟨i, _, hi, ht⟩
    · rwa [ht]
    · rw [ht]
      exact signKept_after (raiseLegState_acts _ _) (signKept_setLeg h (Leg.active_congr (by simp [hi]) (by simp)) rfl)
  | .legResume n, _, rfl, _ => fun _ _ h => signKept_takeLegResume h n
  | .legVoid n, _, rfl, _ => by
    intro s _ h
    rcases takeLegVoid_taken n s with ht | ⟨i, _, _, _, ht⟩
    · rwa [ht]
    · rw [ht]
      exact signKept_resign _
  | .legTariff n t, _, rfl, _ => by
    intro s _ h
    rcases takeLegTariff_taken n t s with ht | ⟨i, k, _, _, hi, ht⟩
    · rwa [ht]
    · rw [ht]
      exact signKept_changeTariff (signKept_setLeg h (l := { s.leg i with selection := .fixed }) rfl rfl) _ _
  | .legExtraAdd n k a, _, rfl, _ => by
    intro s _ h
    rcases takeLegExtraAdd_taken n k a s with ht | ⟨i, asked, kind, _, hi, _, _, _, ht⟩
    · rwa [ht]
    · rw [ht]
      exact signKept_after (raiseFareStep_acts _) (signKept_setLeg h (l := (s.leg i).addExtra _ _) rfl rfl)
  | .legExtraRemove n, _, rfl, _ => by
    intro s _ h
    rcases takeLegExtraRemove_taken n s with ht | ⟨i, e, _, hi, _, _, ht⟩
    · rwa [ht]
    · rw [ht]
      exact signKept_after (raiseFareStep_acts _) (signKept_setLeg h (l := (s.leg i).dropExtra _) rfl rfl)
  | .shareSet b, _, rfl, _ => by
    intro s _ h
    simp only [takeShareSet]
    split
    · exact signKept_resign _
    · exact h
  | .paySettingsWrite f, _, rfl, _ => by
    intro s _ h
    simp only [takePaySettingsWrite]
    repeat' split
    · exact h
    · exact h
    · exact signKept_withSettle h rfl
  | .payBegin l t o, _, rfl, _ => by
    intro s _ h
    rcases takePayBegin_taken l t o s with ht | ⟨slots, tender, offer, _, _, hnone, ht⟩
    · rwa [ht]
    · rw [ht]
      exact signKept_beginsBy h (fun i hi => by simp [(beginRefusal_none hnone).2.2.1 i hi]) _ _
  | .payTip x v, _, rfl, _ => by
    intro s _ h
    rcases takePayTip_taken x v s with ht | ⟨_, _, _, _, ht⟩
    · rwa [ht]
    · rw [ht]
      exact signKept_enterAuthorising (signKept_withSettle h rfl)
  | .payAuthorise, _, rfl, _ => by
    intro s _ h
    rcases takePayAuthorise_taken s with ht | ⟨_, ht⟩
    · rwa [ht]
    · rw [ht]
      exact signKept_enterAuthorising (signKept_withSettle h rfl)
  | .payCash, _, rfl, _ => by
    intro s _ h
    rcases takePayCash_taken s with ht | ⟨_, ht⟩
    · rwa [ht]
    · rw [ht]
      exact signKept_settles _ _ _
  | .payCancel, _, rfl, _ => by
    intro s _ h
    rcases takePayCancel_taken s with ht | ⟨_, ht⟩ | ⟨r, _, _, ht⟩
    · rwa [ht]
    · rw [ht]
      exact signKept_closeUnpaid h _ _
    · rw [ht]
      exact signKept_enterAborting h _ _
  | .shiftOpen d, _, rfl, _ => by
    intro s _ h
    rcases takeShiftOpen_taken d s with ht | ⟨_, _, ht⟩
    · rwa [ht]
    · rw [ht]
      exact signKept_after (raiseShiftState_acts _) (signKept_resign _)
  | .shiftClose, _, rfl, _ => by
    intro s _ h
    rcases takeShiftClose_taken s with ht | ⟨_, _, _, ht⟩
    · rwa [ht]
    · rw [ht]
      exact signKept_after (raiseShiftState_acts _) (signKept_resignToAuto _)
  | .reportRead n, _, rfl, _ => by
    intro s _ h
    simp only [takeReportRead]
    repeat' split
    · exact h
    · exact signKept_of_inputs h ⟨rfl, rfl, rfl, rfl, looksLike_refl _⟩ rfl
    · exact h
  | .signMode m c, _, rfl, _ => by
    intro s _ h
    simp only [takeSignMode]
    repeat' split
    any_goals exact h
    all_goals exact signKept_after (reportSign_acts _ _) (signKept_derive _)
  | .lampTest, _, rfl, _ => by
    intro s _ h
    simp only [takeLampTest]
    split
    · exact h
    · exact signKept_after (reportSign_acts _ _) (signKept_refreshed h rfl rfl rfl)
  | .lampFaultClear x, _, rfl, _ => by
    intro s _ h
    simp only [takeLampFaultClear]
    split
    · exact h
    · exact signKept_refreshed h rfl rfl rfl
  | .patternWrite n a b c g m, _, rfl, _ => fun _ _ h => signKept_takePatternWrite h n a b c g m
  | .emergencyRaise, _, rfl, _ => by
    intro s _ h
    simp only [takeEmergencyRaise]
    split
    · exact h
    · exact signKept_emergencyRises h _
  | .factoryClear, _, rfl, _ => by
    intro s _ h
    rcases takeFactoryClear_taken s with ht | ⟨_, ht⟩
    · rwa [ht]
    · rw [ht]
      exact signKept_after (((raiseShiftState_acts _).seq (raiseIf_acts _ _ _ _)).seq
        (reportPayment_acts _ _)) (signKept_resign _)

theorem signKept_approves {s : State} (h : signKept s) (r : Ref) (n : Nat) (a : Text) :
    signKept (approves r n a s) := by
  have hstale : signKept (removeStale r s) := signKept_withSettle h rfl
  unfold approves takesApproval
  repeat' split
  · exact signKept_settles _ _ _
  · exact signKept_abortEnds (signKept_makeReversal hstale _ _ _) _
  · have hlate : signKept (removeStale r (makeReversal 5 r n s)) :=
      signKept_withSettle (signKept_makeReversal h _ _ _) rfl
    refine signKept_after (raise_acts _ _ _) (signKept_of_inputs hlate ?_ ((addTotals_acts _ _).same .sign))
    exact sameInputs_of_payment (addTotals_acts _ _) (.inl (by simp)) (by simp) (by simp)

theorem signKept_declines {s : State} (h : signKept s) (r : Ref) (n : Nat) : signKept (declines r n s) := by
  have hstale : signKept (removeStale r s) := signKept_withSettle h rfl
  unfold declines
  dsimp only
  repeat' split
  · exact signKept_abortEnds hstale _
  · exact signKept_endsUnapproved hstale _
  · exact hstale

theorem signKept_confirmsAbort {s : State} (h : signKept s) (r : Ref) : signKept (confirmsAbort r s) := by
  have hstale : signKept (removeStale r s) := signKept_withSettle h rfl
  unfold confirmsAbort
  repeat' split
  · exact signKept_abortEnds hstale _
  · exact h
  · exact hstale

theorem signKept_holdReaches {s : State} (h : signKept s) : signKept (holdReaches s) := by
  have hmark {g : Sign} (hg : s.sign.asBefore g) (hd : g.demand = s.sign.demand) : signKept { s with sign := g } :=
    signKept_withSign h hg hd
  unfold holdReaches
  split
  · exact h
  · dsimp only
    repeat' split
    · exact h
    · exact hmark ⟨rfl, rfl, rfl, rfl, rfl, rfl, rfl⟩ rfl
    · refine signKept_emergencyRises ?_ _
      exact hmark ⟨rfl, rfl, rfl, rfl, rfl, rfl, rfl⟩ rfl
    · exact hmark ⟨rfl, rfl, rfl, rfl, rfl, rfl, rfl⟩ rfl
    · refine signKept_emergencyClears ?_
      exact hmark ⟨rfl, rfl, rfl, rfl, rfl, rfl, rfl⟩ rfl

theorem signKept_patternPhaseEnds {s : State} (h : signKept s) (x : Lamp) : signKept (patternPhaseEnds x s) := by
  unfold patternPhaseEnds finishTest
  dsimp only
  split
  · exact signKept_after (reportSign_acts _ _) (signKept_refreshed h rfl rfl rfl)
  · exact signKept_withSign h ⟨rfl, rfl, rfl, rfl, rfl, rfl, rfl⟩ rfl

theorem signKept_darkTimerExpires {s : State} (h : signKept s) (x : Lamp) : signKept (darkTimerExpires x s) := by
  unfold darkTimerExpires
  dsimp only
  split
  · exact signKept_refreshLamps (t := raise _ _ { s with sign := _ }) h ⟨rfl, rfl, rfl, rfl, looksLike_refl _⟩ rfl rfl
      rfl
  · exact h

theorem closeInterval_isOpen (s : State) :
    (closeInterval s).shifts.record.isOpen = s.shifts.record.isOpen := by
  have hfares (m : Nat) (t : State) : (closeFares m t).shifts = t.shifts := (closeFares_acts m t).same .shifts
  simp [closeInterval, hfares]

theorem signKept_closeInterval {s : State} (h : signKept s) : signKept (closeInterval s) := by
  have hacts := closeInterval_acts s
  have hk (o : Odometry) (m c : Nat) (b : Bool) : (((o.takeInterval c).addTotals m b).judgeMotion m).k = o.k := by
    unfold Odometry.judgeMotion
    split <;> rfl
  have htariffs (m count : Nat) : (s.fare.close m count).tariff 1 = s.fare.tariff 1 := rfl
  refine signKept_of_inputs h ⟨hacts.same .power, closeInterval_isOpen _, ?_, ?_, ?_⟩ (hacts.same .sign)
  · simp only [calibrated, closeInterval_odo, closeInterval_fare, hk, htariffs]
  · rw [show (closeInterval s).settle = s.settle from hacts.same .settle]
  · rw [closeInterval_fare]
    exact looksLike_close _ _ _

theorem Odometry.measureTick_k (o : Odometry) : o.measureTick.k = o.k := by
  unfold measureTick
  split <;> rfl

theorem signKept_ticks {s : State} (h : signKept s) : signKept (ticks s) := by
  unfold ticks
  refine whileRunning_keep (s := { s with clock := _ }) (signKept_after (withClock_acts s _) h) (fun _ h => ?_)
  exact signKept_closeInterval
    (signKept_of_inputs h (sameInputs_of_odo (withOdo_acts _ _) (Odometry.measureTick_k _)) rfl)

/-- A stopped part shows nothing. -/
theorem signKept_of_stopped {s : State} (h : s.power ≠ .running) : signKept s := fun hp => absurd hp h

theorem signKept_event : ∀ c : Instr, ruleOf c = none → takesFrames c = false →
    touches [.power, .odo, .fare, .settle, .shifts, .sign] c = true →
    ∀ s t, exec c s = .next t → signKept s → signKept t
  | .dpulseChange l, _, _, _ => by
    rintro s t ⟨⟩ h
    split
    · exact h
    · refine whileRunning_keep (s := { s with pins := _ }) (signKept_after (withPins_acts s _) h) (fun _ h => ?_)
      exact signKept_of_inputs h (sameInputs_of_odo (withOdo_acts _ _) (Odometry.inputChanges_k _ _ _)) rfl
  | .calenChange l, _, _, _ => by
    rintro s t ⟨⟩ h
    refine whileRunning_keep (s := { s with pins := _ }) (signKept_after (withPins_acts s _) h) (fun _ h => ?_)
    dsimp only
    split
    · exact signKept_of_inputs h (sameInputs_of_odo (withOdo_acts _ _) (Odometry.calibrationEnds_k _)) rfl
    · exact h
  | .filterWindowExpiry, _, _, _ => by
    rintro s t ⟨⟩ h
    refine whileRunning_keep h (fun _ h => ?_)
    unfold filterExpires
    split
    · exact signKept_of_inputs h (sameInputs_of_odo (withOdo_acts s _) (Odometry.accept_k _ _ _)) rfl
    · exact h
  | .secondTick, _, _, _ => by
    rintro s t ⟨⟩ h
    exact signKept_ticks h
  | .clockWrap, _, _, _ => by
    rintro s t ⟨⟩ h
    split
    · exact h
    · exact signKept_ticks h
  | .minuteBoundary, _, _, _ => by
    rintro s t ⟨⟩ h
    refine whileRunning_keep h (fun _ h => ?_)
    unfold minuteBoundary
    repeat' split
    any_goals exact h
    · exact signKept_boundaryAt (s := { s with clock := _ }) (signKept_after (withClock_acts s _) h) _
    · exact signKept_boundaryAt (s := { s with clock := _ }) (signKept_after (withClock_acts s _) h) _
  | .tipTimerExpiry, _, _, _ => by
    rintro s t ⟨⟩ h
    refine whileRunning_keep h (fun _ h => ?_)
    unfold tipExpires
    split
    · exact signKept_enterAuthorising (signKept_withSettle h rfl)
    · exact h
  | .responseTimerExpiry, _, _, _ => by
    rintro s t ⟨⟩ h
    refine whileRunning_keep h (fun _ h => ?_)
    unfold responseExpires
    split
    · exact signKept_enterAborting h _ _
    · exact h
  | .resendTimerExpiry e, _, _, _ => by
    rintro s t ⟨⟩ h
    refine whileRunning_keep h (fun _ h => ?_)
    have hacts := resendExpires_acts e s
    exact signKept_of_inputs h (sameInputs_of_payment hacts (.inl (hacts.same .fare)) (by simp)
      (by rw [show (resendExpires e s).shifts = s.shifts from hacts.same .shifts])) (hacts.same .sign)
  | .abortTimerExpiry, _, _, _ => by
    rintro s t ⟨⟩ h
    refine whileRunning_keep h (fun _ h => ?_)
    unfold abortExpires
    split
    · exact signKept_abortEnds (s := enterStale _ s) (signKept_withSettle h rfl) _
    · exact h
  | .retryIdleTimerExpiry, _, _, _ => by
    rintro s t ⟨⟩ h
    refine whileRunning_keep h (fun _ h => ?_)
    unfold retryIdleExpires
    split
    · exact signKept_closeUnpaid h _ _
    · exact h
  | .tProgress r x, _, _, _ => by
    rintro s t ⟨⟩ h
    refine whileRunning_keep h (fun _ h => ?_)
    unfold takesMessage takesProgress
    split
    · exact signKept_after (raisePayment_acts _) (signKept_withSettle (signKept_after (withTender_acts s _) h) rfl)
    · exact signKept_after (withTender_acts s _) h
  | .tApproved r n a, _, _, _ => by
    rintro s t ⟨⟩ h
    exact whileRunning_keep h (fun _ h => signKept_approves (signKept_after (withTender_acts s _) h) r n a)
  | .tDeclined r n, _, _, _ => by
    rintro s t ⟨⟩ h
    exact whileRunning_keep h (fun _ h => signKept_declines (signKept_after (withTender_acts s _) h) r n)
  | .tAborted r, _, _, _ => by
    rintro s t ⟨⟩ h
    exact whileRunning_keep h (fun _ h => signKept_confirmsAbort (signKept_after (withTender_acts s _) h) r)
  | .tReversed r, _, _, _ => by
    rintro s t ⟨⟩ h
    exact whileRunning_keep h (fun _ h => signKept_withSettle (signKept_after (withTender_acts s _) h) rfl)
  | .patternPhaseEnd x, _, _, _ => by
    rintro s t ⟨⟩ h
    exact whileRunning_keep h (fun _ h => signKept_patternPhaseEnds h x)
  | .darkTimerExpiry x, _, _, _ => by
    rintro s t ⟨⟩ h
    exact whileRunning_keep h (fun _ h => signKept_darkTimerExpires h x)
  | .lampSenseChange x l, _, _, _ => by
    rintro s t ⟨⟩ h
    refine whileRunning_keep (s := { s with pins := _ }) (signKept_after (withPins_acts s _) h) (fun _ h => ?_)
    exact signKept_withSign h ⟨rfl, rfl, rfl, rfl, rfl, rfl, rfl⟩ rfl
  | .emergChange l, _, _, _ => by
    rintro s t ⟨⟩ h
    split
    · exact h
    · refine whileRunning_keep (s := { s with pins := _ }) (signKept_after (withPins_acts s _) h) (fun _ h => ?_)
      exact signKept_withSign h ⟨rfl, rfl, rfl, rfl, rfl, rfl, rfl⟩ rfl
  | .emergHold1s, _, _, _ => by
    rintro s t ⟨⟩ h
    exact whileRunning_keep h (fun _ h => signKept_holdReaches h)
  | .clearWindowEnd, _, _, _ => by
    rintro s t ⟨⟩ h
    exact whileRunning_keep h (fun _ h => signKept_withSign h ⟨rfl, rfl, rfl, rfl, rfl, rfl, rfl⟩ rfl)
  | .supplyFail, _, _, _ => by
    rintro s t ⟨⟩ h
    split
    · exact signKept_of_stopped (by simp)
    · exact signKept_of_stopped (by simp)
    · exact h
  | .resetnAssert, _, _, _ => by
    rintro s t ⟨⟩ h
    split
    · exact signKept_of_stopped (by simp)
    · exact h
    · exact h
  | .restart, _, _, _ => by
    have hrestarts (s : State) : signKept (restarts s) := by
      have hblocks (t : State) : signKept (restartBlocks t) :=
        signKept_after (restartIntercom_acts _) (signKept_derive _)
      unfold restarts
      dsimp only
      refine signKept_after (restartNotices_acts _ _ _ _ _) ?_
      exact hblocks _
    rintro s t ⟨⟩ h
    split
    · exact hrestarts s
    · exact hrestarts s
    · exact h

theorem signKept_baseStep (s : State) (h : signKept s) : signKept (baseStep s) := by
  unfold baseStep
  refine whileRunning_keep (s := { s with clock := _ }) (signKept_after (withClock_acts s _) h) (fun _ h => ?_)
  exact signKept_congr h ⟨rfl, rfl, rfl, rfl, looksLike_refl _⟩ ⟨rfl, rfl, rfl, rfl, rfl, rfl, rfl⟩ rfl

/-- Settles O15. -/
theorem theSignAlwaysFollowsItsTables : Obligations.TheSignAlwaysFollowsItsTables := by
  intro s t hs ht
  exact step_keeps signKept_readsOnly (by decide) signKept_rule signKept_event signKept_baseStep s t hs ht

end Sys2Proof.Machine
end

