-- ==== Sys2Proof/Proofs/Channel.lean ====
section
/-!
PROOF. The channel of the intercom stays consistent with mode, window and timers (R143, R145, R146, R149): what each
operation of the controller keeps, and that every step does.
-/

set_option Elab.async false

namespace Sys2Proof.Machine

/-! ### The condition, at the controller -/

/-- R143, R145, R146, R149 at the controller. -/
def Intercom.fits (n : Intercom) : Prop :=
  (n.window.isSome = true → n.mode = .privateMode)
    ∧ (n.mode = .offMode → n.channel = .quiet)
    ∧ (n.mode = .privateMode → n.channel.side? = some .rear → n.window.isSome = true)
    ∧ (n.hangLeft.isSome = true ↔ (n.channel = .hangFront ∨ n.channel = .hangRear))
    ∧ (n.talk.isSome = true ↔ n.channel ≠ .quiet)

theorem channelKept_iff (s : State) : channelKept s ↔ s.intercom.fits := Iff.rfl

theorem channelKept_readsOnly : readsOnly [.intercom] channelKept := by
  intro s t hsame hs
  have h : t.intercom = s.intercom := hsame .intercom (by simp)
  rwa [channelKept_iff, h, ← channelKept_iff]

theorem channelKept_after {parts : List Block} {s t : State} (ha : acts parts s t) (h : channelKept s)
    (hD : ∀ b ∈ [Block.intercom], b ∉ parts := by decide) : channelKept t :=
  channelKept_readsOnly.keeps ha hD h

/-- A change beside mode, window, channel and timers. -/
theorem Intercom.fits_congr {n n' : Intercom} (h : n.fits) (hw : n'.window.isSome = n.window.isSome) (hm : n'.mode = n.mode)
    (hc : n'.channel = n.channel) (hh : n'.hangLeft.isSome = n.hangLeft.isSome)
    (ht : n'.talk.isSome = n.talk.isSome) : n'.fits := by
  unfold Intercom.fits at *
  rwa [hw, hm, hc, hh, ht]

/-- A side may hold the channel under a mode and window. -/
def Intercom.allows (n : Intercom) (x : Side) : Prop :=
  n.mode ≠ .offMode ∧ (x = .rear → n.mode = .privateMode → n.window.isSome = true)

theorem talkState_facts (x : Side) :
    (talkState x).side? = some x ∧ talkState x ≠ .quiet ∧ talkState x ≠ .hangFront ∧ talkState x ≠ .hangRear := by
  cases x <;> simp [talkState, Channel.side?]

theorem hangState_facts (x : Side) :
    (hangState x).side? = some x ∧ hangState x ≠ .quiet ∧ (hangState x = .hangFront ∨ hangState x = .hangRear) := by
  cases x <;> simp [hangState, Channel.side?]

/-- A side that may hold the channel talks. -/
theorem Intercom.fits_talk {n : Intercom} {x : Side} (hw : n.window.isSome = true → n.mode = .privateMode)
    (ha : n.allows x) {t : Option TalkTimer} (ht : t.isSome = true) :
    ({ n with channel := talkState x, hangLeft := none, talk := t } : Intercom).fits := by
  obtain ⟨hside, hquiet, hfront, hrear⟩ := talkState_facts x
  refine ⟨hw, fun hm => absurd hm ha.1, fun hm hs => ha.2 ?_ hm, ?_, ?_⟩
  · simpa [hside] using hs
  · simp [hfront, hrear]
  · simp [ht, hquiet]

theorem Intercom.fits_hang {n : Intercom} {x : Side} (hw : n.window.isSome = true → n.mode = .privateMode)
    (ha : n.allows x) (ht : n.talk.isSome = true) (left : Nat) :
    ({ n with channel := hangState x, hangLeft := some left } : Intercom).fits := by
  obtain ⟨hside, hquiet, hhang⟩ := hangState_facts x
  refine ⟨hw, fun hm => absurd hm ha.1, fun hm hs => ha.2 ?_ hm, ?_, ?_⟩
  · simpa [hside] using hs
  · simpa using hhang
  · simp [ht, hquiet]

theorem Intercom.fits_quiet {n : Intercom} (hw : n.window.isSome = true → n.mode = .privateMode) :
    ({ n with channel := .quiet, hangLeft := none, talk := none } : Intercom).fits := by
  refine ⟨hw, fun _ => rfl, fun _ hs => ?_, by simp, by simp⟩
  simp [Channel.side?] at hs

/-- The side that holds the channel of a consistent controller may hold it. -/
theorem Intercom.fits.allows {n : Intercom} (h : n.fits) {x : Side} (hx : n.channel.side? = some x) : n.allows x := by
  obtain ⟨_, hoff, hrear, _, _⟩ := h
  refine ⟨fun hm => ?_, fun hr hm => hrear hm (by rw [hx, hr])⟩
  rw [hoff hm] at hx
  cases hx

/-- A side whose voice is active may hold the channel (Table 9-2). -/
theorem voice_allows {s : State} {x : Side} (h : voice s x = true) : s.intercom.allows x := by
  unfold Intercom.allows
  cases x <;> cases hm : s.intercom.mode <;> simp [voice, frontVoice, rearVoice, hm] at h ⊢
  exact h.2

theorem Channel.side_of_hangs {c : Channel} {x : Side} (h : c.hangs x = true) : c.side? = some x := by
  cases x <;> cases c <;> simp [Channel.hangs, Channel.side?] at h ⊢

theorem Channel.side_of_talks {c : Channel} {x : Side} (h : c.talks x = true) : c.side? = some x := by
  cases x <;> cases c <;> simp [Channel.talks, Channel.side?] at h ⊢

theorem Channel.side_ne_quiet {c : Channel} {x : Side} (h : c.side? = some x) : c ≠ .quiet := by
  rintro rfl
  cases h

/-! ### What the operations write -/

@[simp] theorem setIntercom_intercom_eq (g : Intercom → Intercom) (s : State) :
    (setIntercom g s).intercom = g s.intercom := rfl

@[simp] theorem pathOpens_intercom (x : Speaker) (s : State) : (pathOpens x s).intercom = s.intercom :=
  (pathOpens_acts x s).same .intercom

@[simp] theorem pathCloses_intercom (x : Speaker) (s : State) : (pathCloses x s).intercom = s.intercom :=
  (pathCloses_acts x s).same .intercom

@[simp] theorem beginTurn_intercom (x : Side) (s : State) :
    (beginTurn x s).intercom
      = { s.intercom with channel := talkState x, hangLeft := none, talk := some s.intercom.freshTalk } := by
  simp [beginTurn]

@[simp] theorem enterTalk_intercom (x : Side) (s : State) : (enterTalk x s).intercom = (beginTurn x s).intercom := by
  simp [enterTalk]

@[simp] theorem goQuiet_intercom (s : State) :
    (goQuiet s).intercom = { s.intercom with channel := .quiet, hangLeft := none, talk := none } := by
  have hend : (endDemand s).intercom = s.intercom := by
    unfold endDemand
    split <;> simp
  simp [goQuiet, hend]

@[simp] theorem returnToTalk_intercom (x : Side) (s : State) :
    (returnToTalk x s).intercom = { s.intercom with channel := talkState x, hangLeft := none } := by
  simp [returnToTalk]

/-! ### What the operations keep -/

theorem channelKept_enterTalk {s : State} (h : channelKept s) {x : Side} (ha : s.intercom.allows x) :
    channelKept (enterTalk x s) := by
  rw [channelKept_iff, enterTalk_intercom, beginTurn_intercom]
  exact Intercom.fits_talk h.1 ha rfl

theorem channelKept_takeChannel {s : State} (h : channelKept s) : channelKept (takeChannel s) := by
  have htake {x : Side} (hx : mayTake s x = true) : channelKept (enterTalk x s) := by
    simp only [mayTake, Bool.and_eq_true] at hx
    exact channelKept_enterTalk h (voice_allows hx.1)
  unfold takeChannel
  repeat' split
  · next hx => exact htake hx
  · next hx => exact htake hx
  · exact h
  · exact h

theorem channelKept_goQuiet {s : State} (hw : s.intercom.window.isSome = true → s.intercom.mode = .privateMode) :
    channelKept (goQuiet s) := by
  rw [channelKept_iff, goQuiet_intercom]
  exact Intercom.fits_quiet hw

theorem channelKept_quietThenTake {s : State}
    (hw : s.intercom.window.isSome = true → s.intercom.mode = .privateMode) : channelKept (quietThenTake s) :=
  channelKept_takeChannel (channelKept_after (raiseIntercom_acts _) (channelKept_goQuiet hw))

theorem channelKept_setIntercom {s : State} (h : channelKept s) {g : Intercom → Intercom}
    (hg : (g s.intercom).window = s.intercom.window ∧ (g s.intercom).mode = s.intercom.mode
      ∧ (g s.intercom).channel = s.intercom.channel ∧ (g s.intercom).hangLeft = s.intercom.hangLeft
      ∧ (g s.intercom).talk = s.intercom.talk) : channelKept (setIntercom g s) := by
  obtain ⟨hw, hm, hc, hh, ht⟩ := hg
  exact Intercom.fits_congr h (by simp [hw]) hm hc (by simp [hh]) (by simp [ht])

theorem channelKept_hangIfSilent {s : State} (h : channelKept s) (x : Side) : channelKept (hangIfSilent x s) := by
  unfold hangIfSilent
  split
  · next ht =>
    simp only [Bool.and_eq_true] at ht
    have hside := Channel.side_of_talks ht.1
    refine channelKept_after (raiseIntercom_acts _) ?_
    exact Intercom.fits_hang h.1 (Intercom.fits.allows h hside) (h.2.2.2.2.mpr (Channel.side_ne_quiet hside)) _
  · exact h

/-- A turn that hangs goes on. -/
theorem channelKept_returnToTalk {s : State} (h : channelKept s) {x : Side} (hx : s.intercom.channel.side? = some x) :
    channelKept (returnToTalk x s) := by
  rw [channelKept_iff, returnToTalk_intercom]
  exact Intercom.fits_talk h.1 (Intercom.fits.allows h hx) (h.2.2.2.2.mpr (Channel.side_ne_quiet hx))

theorem channelKept_endHoldOff {s : State} (h : channelKept s) (x : Side) : channelKept (endHoldOff x s) := by
  unfold endHoldOff
  split
  · exact channelKept_takeChannel (channelKept_setIntercom h ⟨rfl, rfl, rfl, rfl, rfl⟩)
  · exact h

theorem channelKept_setQualifier {s : State} (h : channelKept s) (x : Side) (q : Qualifier) :
    channelKept (setQualifier x q s) := channelKept_setIntercom h ⟨rfl, rfl, rfl, rfl, rfl⟩

theorem channelKept_voxRises {s : State} (h : channelKept s) (x : Side) : channelKept (voxRises x s) := by
  unfold voxRises
  split
  · next hx =>
    simp only [Bool.and_eq_true] at hx
    exact channelKept_returnToTalk (channelKept_setQualifier h x _) (Channel.side_of_hangs hx.1)
  · exact channelKept_setQualifier h x _

theorem channelKept_voxFalls {s : State} (h : channelKept s) (x : Side) : channelKept (voxFalls x s) :=
  channelKept_endHoldOff (channelKept_hangIfSilent (channelKept_setQualifier h x _) x) x

theorem channelKept_attackExpires {s : State} (h : channelKept s) (x : Side) : channelKept (attackExpires x s) := by
  have hset := channelKept_setQualifier h x .qualified
  unfold attackExpires voiceRises
  repeat' split
  · next hx =>
    simp only [Bool.and_eq_true] at hx
    exact channelKept_returnToTalk hset (Channel.side_of_hangs hx.1)
  · exact channelKept_takeChannel hset
  · exact h
  · exact h

theorem channelKept_pttPresses {s : State} (h : channelKept s) : channelKept (pttPresses s) := by
  unfold pttPresses
  split
  · exact h
  · next hoff =>
    have hallows : s.intercom.allows .front := ⟨fun hm => hoff (.inl hm), fun hx => by cases hx⟩
    have hover : channelKept (overrideRear s) := by
      unfold overrideRear
      refine channelKept_after (raiseIntercom_acts _) ?_
      rw [channelKept_iff, beginTurn_intercom, pathCloses_intercom]
      exact Intercom.fits_talk h.1 hallows rfl
    split
    · exact channelKept_takeChannel h
    · exact h
    · next hc => exact channelKept_returnToTalk h (by simp [hc, Channel.side?])
    · exact hover
    · exact hover

theorem channelKept_hangExpires {s : State} (h : channelKept s) : channelKept (hangExpires s) := by
  unfold hangExpires
  split
  · exact channelKept_quietThenTake h.1
  · exact channelKept_quietThenTake h.1
  all_goals exact h

theorem channelKept_maxTalkExpires {s : State} (h : channelKept s) : channelKept (maxTalkExpires s) := by
  unfold maxTalkExpires
  split
  · refine channelKept_takeChannel (channelKept_after (((raiseIntercom_acts _).seq (raise_acts _ _ _)).seq
      (askTone_acts _ _)) ?_)
    exact channelKept_setIntercom (channelKept_goQuiet h.1) ⟨rfl, rfl, rfl, rfl, rfl⟩
  · exact h

/-- A change of mode closes the window, and leaves no turn that the mode bars (R141). -/
theorem channelKept_changeMode {s : State} (h : channelKept s) (m : IntercomMode) : channelKept (changeMode m s) := by
  have hmode : channelKept (if modeQuiets (setIntercom (fun n => { n with mode := m, window := none }) s) then
      goQuiet (setIntercom (fun n => { n with mode := m, window := none }) s)
      else setIntercom (fun n => { n with mode := m, window := none }) s) := by
    obtain ⟨_, _, _, hhang, htalk⟩ := h
    split
    · exact channelKept_goQuiet (by simp)
    · next hq =>
      rw [channelKept_iff]
      refine ⟨by simp, ?_, ?_, hhang, htalk⟩ <;>
        cases hc : s.intercom.channel <;> cases m <;>
        simp [modeQuiets, frontVoice, rearVoice, hc, Channel.side?] at hq ⊢
  exact channelKept_takeChannel (channelKept_after (raiseIntercom_acts _) hmode)

theorem channelKept_answersCall {s : State} (h : channelKept s) (x : Seat) : channelKept (answersCall x s) := by
  refine channelKept_takeChannel (channelKept_after (raiseIntercom_acts _) ?_)
  obtain ⟨hwindow, hoff, hrear, hhang, htalk⟩ := h
  rw [channelKept_iff]
  refine ⟨?_, hoff, fun hm _ => ?_, hhang, htalk⟩
  · simp only [setIntercom_intercom_eq]
    split
    · next hp => exact fun _ => hp
    · exact hwindow
  · have : s.intercom.mode = .privateMode := hm
    simp [this]

theorem channelKept_windowEnds {s : State} (h : channelKept s) : channelKept (windowEnds s) := by
  have ⟨_, hoff, _, hhang, htalk⟩ := h
  unfold windowEnds
  split
  · exact h
  · dsimp only
    split
    · exact channelKept_quietThenTake (by simp)
    · exact channelKept_quietThenTake (by simp)
    all_goals
      next hc =>
        refine channelKept_after (raiseIntercom_acts _) ?_
        rw [channelKept_iff]
        exact ⟨by simp, hoff, by simp [hc, Channel.side?], hhang, htalk⟩

theorem channelKept_pressTaken {s : State} (h : channelKept s) (x : Seat) : channelKept (pressTaken x s) := by
  have hset {g : Intercom → Intercom} (hg : (g s.intercom).window = s.intercom.window
      ∧ (g s.intercom).mode = s.intercom.mode ∧ (g s.intercom).channel = s.intercom.channel
      ∧ (g s.intercom).hangLeft = s.intercom.hangLeft ∧ (g s.intercom).talk = s.intercom.talk) :
      channelKept (setIntercom g s) := channelKept_setIntercom h hg
  unfold pressTaken raiseCall
  dsimp only
  repeat' split
  · exact hset ⟨rfl, rfl, rfl, rfl, rfl⟩
  · exact channelKept_after (raise_acts _ _ _)
      (channelKept_setIntercom (hset ⟨rfl, rfl, rfl, rfl, rfl⟩) ⟨rfl, rfl, rfl, rfl, rfl⟩)
  · exact channelKept_after ((raise_acts _ _ _).seq (askTone_acts _ _))
      (channelKept_setIntercom (hset ⟨rfl, rfl, rfl, rfl, rfl⟩) ⟨rfl, rfl, rfl, rfl, rfl⟩)
  · exact h
  · exact h

theorem channelKept_storeTimes {s : State} (h : channelKept s) (a b c : Nat) : channelKept (storeTimes a b c s) := by
  have hset : channelKept (setIntercom (fun n => { n with attack := a, hang := b, maxTalk := c }) s) :=
    channelKept_setIntercom h ⟨rfl, rfl, rfl, rfl, rfl⟩
  unfold storeTimes
  dsimp only
  split
  · exact hset
  · exact channelKept_after (raiseIntercom_acts _) hset

theorem Intercom.fits_restarted : Intercom.restarted.fits := by
  simp [Intercom.fits, Intercom.restarted, Channel.side?]

theorem channelKept_restartIntercom (s : State) : channelKept (restartIntercom s) := by
  have hfits : (Intercom.atRestart s.pins).fits := Intercom.fits_congr Intercom.fits_restarted rfl rfl rfl rfl rfl
  unfold restartIntercom
  dsimp only
  split
  · rw [channelKept_iff, beginTurn_intercom]
    exact Intercom.fits_talk hfits.1 ⟨by simp [Intercom.atRestart, Intercom.restarted], fun hx => by cases hx⟩ rfl
  · exact hfits

/-! ### Rules, events and steps -/

theorem channelKept_rule : ∀ (c : Instr) (r : State → Taken), ruleOf c = some r →
    touches [.intercom] c = true → ∀ s, s.power = .running → channelKept s → channelKept (r s).1
  | .intercomMode m, _, rfl, _ => by
    intro s _ h
    simp only [takeIntercomMode]
    repeat' split
    · exact h
    · exact h
    · exact channelKept_changeMode h _
  | .intercomSettings _ _ _, _, rfl, _ => fun _ _ h => channelKept_storeTimes h _ _ _
  | .intercomDefaults, _, rfl, _ => fun _ _ h => channelKept_storeTimes h _ _ _
  | .callAnswer, _, rfl, _ => by
    intro s _ h
    simp only [takeCallAnswer]
    split
    · exact channelKept_answersCall h _
    · exact h
  | .callClear, _, rfl, _ => fun _ _ h =>
    channelKept_after (raiseIntercom_acts _) (channelKept_setIntercom h ⟨rfl, rfl, rfl, rfl, rfl⟩)

theorem channelKept_event : ∀ c : Instr, ruleOf c = none → takesFrames c = false →
    touches [.intercom] c = true → ∀ s t, exec c s = .next t → channelKept s → channelKept t
  | .voxChange x l, _, _, _ => by
    rintro s t ⟨⟩ h
    split
    · exact h
    · refine whileRunning_keep (s := { s with pins := _ }) h (fun _ h => ?_)
      split
      · exact channelKept_voxRises h x
      · exact channelKept_voxFalls h x
  | .attackExpiry x, _, _, _ => by
    rintro s t ⟨⟩ h
    exact whileRunning_keep h (fun _ h => channelKept_attackExpires h x)
  | .pttPress, _, _, _ => by
    rintro s t ⟨⟩ h
    split
    · exact h
    · exact whileRunning_keep (s := { s with pins := _ }) h (fun _ h => channelKept_pttPresses h)
  | .pttRelease, _, _, _ => by
    rintro s t ⟨⟩ h
    split
    · exact whileRunning_keep (s := { s with pins := _ }) h
        (fun _ h => channelKept_endHoldOff (channelKept_hangIfSilent h _) _)
    · exact h
  | .hangTimerExpiry, _, _, _ => by
    rintro s t ⟨⟩ h
    exact whileRunning_keep h (fun _ h => channelKept_hangExpires h)
  | .maxTalkExpiry, _, _, _ => by
    rintro s t ⟨⟩ h
    exact whileRunning_keep h (fun _ h => channelKept_maxTalkExpires h)
  | .callButtonChange x l, _, _, _ => by
    rintro s t ⟨⟩ h
    split
    · exact h
    · exact whileRunning_keep (s := { s with pins := _ }) h
        (fun _ h => channelKept_setIntercom h ⟨rfl, rfl, rfl, rfl, rfl⟩)
  | .callPressTaken x, _, _, _ => by
    rintro s t ⟨⟩ h
    exact whileRunning_keep h (fun _ h => channelKept_pressTaken h x)
  | .callWindowEnd, _, _, _ => by
    rintro s t ⟨⟩ h
    exact whileRunning_keep h (fun _ h => channelKept_windowEnds h)
  | .supplyFail, _, _, _ => by
    rintro s t ⟨⟩ h
    split
    · exact Intercom.fits_restarted
    · exact Intercom.fits_restarted
    · exact h
  | .resetnAssert, _, _, _ => by
    rintro s t ⟨⟩ h
    split
    · exact Intercom.fits_restarted
    · exact h
    · exact h
  | .restart, _, _, _ => by
    have hrestarts (s : State) : channelKept (restarts s) := by
      rw [channelKept_iff, (restarts_rest s).2.2.2.2.2.2.2.2.1]
      exact channelKept_restartIntercom _
    rintro s t ⟨⟩ h
    split
    · exact hrestarts s
    · exact hrestarts s
    · exact h

theorem channelKept_step (s t : State) (h : channelKept s) (ht : step s = .next t) : channelKept t := by
  refine step_keeps channelKept_readsOnly (by decide) channelKept_rule channelKept_event (fun s h => ?_) s t h ht
  unfold baseStep
  refine whileRunning_keep (s := { s with clock := _ }) h (fun _ h => ?_)
  exact Intercom.fits_congr h (by simp [timersStep, Intercom.baseStep, countDown]) rfl rfl
    (by simp [timersStep, Intercom.baseStep, countDown]) (by simp [timersStep, Intercom.baseStep])

end Sys2Proof.Machine
end

