-- ==== Sys2Proof/Proofs/Speech.lean ====
section
/-!
PROOF. Speech and tones stay apart on a speaker (R154, R156, R157), and the two speech path switches with them (R146):
what each operation of the arbiter keeps, and from these and the channel's condition O14.
-/

set_option Elab.async false

namespace Sys2Proof.Machine

/-! ### One speaker -/

/-- R154, R156, R157 at a speaker toward which a speech path is demanded, or not. -/
def SpeakerState.fits (demanded : Bool) (p : SpeakerState) : Prop :=
  (p.speech ≠ .none ↔ demanded = true) ∧ p.slotsMatch ∧ p.speechFits

theorem SpeakerState.slotsMatch_set {p : SpeakerState} (h : p.slotsMatch) (t : Tone) :
    ({ p with hold := p.hold.set (some t) t.level } : SpeakerState).slotsMatch := by
  intro n u hu
  by_cases hn : n = t.level
  · subst hn
    simp at hu
    rw [← hu]
  · exact h n u (by simpa [PerLevel.get_set_other _ _ hn] using hu)

theorem SpeakerState.slotsMatch_clear {p : SpeakerState} (h : p.slotsMatch) (n : Level) :
    ({ p with hold := p.hold.set none n } : SpeakerState).slotsMatch := by
  intro m u hu
  by_cases hm : m = n
  · subst hm
    simp at hu
  · exact h m u (by simpa [PerLevel.get_set_other _ _ hm] using hu)

theorem SpeakerState.slotsMatch_congr {p q : SpeakerState} (h : p.slotsMatch) (hh : q.hold = p.hold) : q.slotsMatch := by
  unfold slotsMatch
  rwa [hh]

/-- Waiting in a slot touches neither speech nor service. -/
theorem SpeakerState.wait_rest (p : SpeakerState) (t : Tone) :
    (p.wait t).1.speech = p.speech ∧ (p.wait t).1.service = p.service := by
  unfold wait
  split
  · exact ⟨rfl, rfl⟩
  · split <;> exact ⟨rfl, rfl⟩

theorem SpeakerState.wait_slotsMatch {p : SpeakerState} (h : p.slotsMatch) (t : Tone) : (p.wait t).1.slotsMatch := by
  unfold wait
  split
  · exact slotsMatch_set h t
  · split
    · exact h
    · exact slotsMatch_set h t

theorem SpeakerState.fits_wait {d : Bool} {p : SpeakerState} (h : p.fits d) (t : Tone) : (p.wait t).1.fits d := by
  obtain ⟨hspeech, hslots, hfits⟩ := h
  obtain ⟨hs, hv⟩ := p.wait_rest t
  refine ⟨by rw [hs]; exact hspeech, wait_slotsMatch hslots t, ?_⟩
  unfold speechFits at *
  rwa [hs, hv]

theorem SpeakerState.putBack_slotsMatch {p : SpeakerState} (h : p.slotsMatch) (t : Tone) :
    (p.putBack t).1.slotsMatch := by
  unfold putBack
  split
  · exact slotsMatch_set h t
  · exact h

theorem SpeakerState.putBack_speech (p : SpeakerState) (t : Tone) : (p.putBack t).1.speech = p.speech := by
  unfold putBack
  split <;> rfl

/-- A tone that enters service over whatever is there. -/
theorem SpeakerState.preempt_facts {p : SpeakerState} (h : p.slotsMatch) (t : Tone) :
    (p.preempt t).1.slotsMatch ∧ (p.preempt t).1.speech = p.speech
      ∧ (p.preempt t).1.service = some (Playing.start t) := by
  unfold preempt
  split
  · exact ⟨h, rfl, rfl⟩
  · next old _ => exact ⟨putBack_slotsMatch h old.tone, p.putBack_speech old.tone, rfl⟩

theorem SpeakerState.fits_request {d : Bool} {p : SpeakerState} (h : p.fits d) (t : Tone) :
    (p.request t).1.fits d := by
  obtain ⟨hslots, hspeech, hservice⟩ := preempt_facts h.2.1 t
  unfold request
  split
  · next hnone =>
    split
    · exact fits_wait h t
    · refine ⟨by rw [hspeech]; exact h.1, hslots, ?_⟩
      unfold speechFits
      rw [hspeech, hnone]
      trivial
  · next hpath =>
    split
    · next hlevel =>
      refine ⟨?_, hslots, ?_⟩
      · have := h.1.mp hpath
        simp [this]
      · exact ⟨Playing.start t, hservice, by simp [Playing.start, hlevel.1, Level.number]⟩
    · exact fits_wait h t

/-- With no path demanded any service fits. -/
theorem SpeakerState.fits_quiet {p : SpeakerState} (h : p.slotsMatch) (hs : p.speech = .none) : p.fits false := by
  refine ⟨by simp [hs], h, ?_⟩
  unfold speechFits
  rw [hs]
  trivial

theorem SpeakerState.promote_slotsMatch {p : SpeakerState} (h : p.slotsMatch) (n : Level) :
    (p.promote n).slotsMatch := by
  unfold promote
  split
  · exact slotsMatch_clear h n
  · exact h

theorem SpeakerState.promote_speech (p : SpeakerState) (n : Level) : (p.promote n).speech = p.speech := by
  unfold promote
  split <;> rfl

theorem SpeakerState.promoteHighest_facts {p : SpeakerState} (h : p.slotsMatch) :
    p.promoteHighest.slotsMatch ∧ p.promoteHighest.speech = p.speech := by
  unfold promoteHighest
  split
  · exact ⟨promote_slotsMatch h _, p.promote_speech _⟩
  · exact ⟨h, rfl⟩

theorem SpeakerState.fits_handOn {d : Bool} {p : SpeakerState} (h : p.fits d) : p.handOn.fits d := by
  obtain ⟨hspeech, hslots, _⟩ := h
  unfold handOn
  split
  · next hnone =>
    obtain ⟨hs, hp⟩ := promoteHighest_facts hslots
    have hd : d = false := by simpa [hnone] using hspeech
    rw [hd]
    exact fits_quiet hs (hp.trans hnone)
  · next hmuted =>
    split
    · next hheld =>
      obtain ⟨t, ht⟩ := Option.isSome_iff_exists.mp hheld
      refine ⟨by rw [promote_speech]; exact hspeech, promote_slotsMatch hslots _, ?_⟩
      have hlevel := hslots .l3 t ht
      unfold speechFits promote
      simp only [ht, hmuted]
      exact ⟨_, rfl, by simp [Playing.start, hlevel, Level.number]⟩
    · refine ⟨?_, hslots, rfl⟩
      simpa [hmuted] using hspeech
  · next hspeaking => exact ⟨hspeech, hslots, by simp [speechFits, hspeaking]⟩

theorem SpeakerState.fits_openPath {p : SpeakerState} (h : p.slotsMatch) : p.openPath.1.fits true := by
  unfold openPath
  split
  · next hnone => exact ⟨by simp, h, by simpa [speechFits] using hnone⟩
  · next t ht =>
    split
    · next hlevel => exact ⟨by simp, h, ⟨t, ht, hlevel⟩⟩
    · exact ⟨by simp, h, rfl⟩

theorem SpeakerState.fits_closePath {p : SpeakerState} (h : p.slotsMatch) : p.closePath.fits false := by
  unfold closePath
  split
  · exact fits_quiet h rfl
  · obtain ⟨hs, hp⟩ := promoteHighest_facts (p := { p with speech := .none }) h
    exact fits_quiet hs hp

/-- A change of the tone in service that leaves the tone. -/
theorem SpeakerState.fits_service {d : Bool} {p : SpeakerState} (h : p.fits d) {t u : Playing}
    (ht : p.service = some t) (hu : u.tone = t.tone) : ({ p with service := some u } : SpeakerState).fits d := by
  obtain ⟨hspeech, hslots, hfits⟩ := h
  refine ⟨hspeech, hslots, ?_⟩
  unfold speechFits at *
  cases hs : p.speech with
  | none => trivial
  | speaking =>
    rw [hs, ht] at hfits
    cases hfits
  | muted =>
    rw [hs, ht] at hfits
    obtain ⟨v, hv, hlevel⟩ := hfits
    cases hv
    exact ⟨u, rfl, by rw [hu]; exact hlevel⟩

theorem SpeakerState.fits_endOff {d : Bool} {p : SpeakerState} (h : p.fits d) {t : Playing}
    (ht : p.service = some t) : (p.endOff t).fits d := by
  unfold endOff
  split
  · exact fits_service h ht rfl
  · exact fits_handOn h

theorem SpeakerState.fits_endPhase {d : Bool} {p : SpeakerState} (h : p.fits d) : p.endPhase.fits d := by
  unfold endPhase
  split
  · exact h
  · next t ht =>
    repeat' split
    · exact fits_endOff h ht
    · exact fits_service h ht rfl
    · exact fits_endOff h ht

theorem dropHostTones_get (h : PerLevel (Option Tone)) (n : Level) :
    (dropHostTones h).get n = (h.get n).filter (fun t => t.kind != .host) := by
  cases n <;> rfl

theorem SpeakerState.fits_stopHost {d : Bool} {p : SpeakerState} (h : p.fits d) : p.stopHost.1.fits d := by
  have hdrop : ({ p with hold := dropHostTones p.hold } : SpeakerState).fits d := by
    refine ⟨h.1, fun n t ht => ?_, h.2.2⟩
    rw [dropHostTones_get, Option.filter_eq_some_iff] at ht
    exact h.2.1 n t ht.1
  unfold stopHost
  dsimp only
  split
  · exact fits_handOn hdrop
  · exact hdrop

theorem SpeakerState.fits_baseStep {d : Bool} {p : SpeakerState} (h : p.fits d) : p.baseStep.fits d := by
  unfold baseStep
  cases hs : p.service with
  | none =>
    have hp : (⟨none, p.hold, p.speech⟩ : SpeakerState) = p := by cases p; simp_all
    simpa [hp] using h
  | some t => exact fits_service h hs rfl

theorem SpeakerState.fits_idle : SpeakerState.idle.fits false :=
  fits_quiet (fun n t ht => by cases n <;> cases ht) rfl

/-! ### Both speakers, and the channel -/

/-- Each side's speaker fits what the side demands. -/
def speakersFit (f : Side → Bool) (p : PerSpeaker SpeakerState) : Prop := ∀ x, (p.get (fedBy x)).fits (f x)

/-- The side that holds a channel demands its path, the other does not. -/
def Channel.demands (c : Channel) (x : Side) : Bool := c.side? == some x

theorem speechKept_iff (s : State) : speechKept s ↔ speakersFit s.intercom.channel.demands s.speakers := by
  unfold speechKept speakersFit SpeakerState.fits Channel.demands
  simp only [beq_iff_eq]
  constructor
  · rintro ⟨hspeech, hfits⟩ x
    exact ⟨hspeech x, hfits _⟩
  · intro h
    refine ⟨fun x => (h x).1, fun y => ?_⟩
    cases y
    · exact (h .rear).2
    · exact (h .front).2

theorem speakersFit_congr {f g : Side → Bool} {p : PerSpeaker SpeakerState} (h : speakersFit f p) (hfg : ∀ x, g x = f x) :
    speakersFit g p := fun x => by
  rw [hfg]
  exact h x

theorem fedBy_injective {x y : Side} (h : fedBy x = fedBy y) : x = y := by
  cases x <;> cases y <;> first | rfl | cases h

/-- One speaker changes, to fit a new demand. -/
theorem speakersFit_set {f : Side → Bool} {p : PerSpeaker SpeakerState} (h : speakersFit f p) {x : Side} {d : Bool}
    {q : SpeakerState} (hq : q.fits d) : speakersFit (fun y => if y = x then d else f y) (p.set q (fedBy x)) := by
  intro y
  by_cases hy : y = x
  · subst hy
    simpa using hq
  · have hne : fedBy y ≠ fedBy x := fun e => hy (fedBy_injective e)
    simpa [hy, PerSpeaker.get_set_other _ _ hne] using h y

/-- Every speaker is fed by a side. -/
theorem exists_fedBy (y : Speaker) : ∃ x, fedBy x = y := by
  cases y
  · exact ⟨.rear, rfl⟩
  · exact ⟨.front, rfl⟩

/-- One speaker changes under its demand. -/
theorem speakersFit_setSpeaker {f : Side → Bool} {s : State} (h : speakersFit f s.speakers) (y : Speaker)
    {q : SpeakerState} (hq : ∀ d, (s.speakers.get y).fits d → q.fits d) : speakersFit f (s.setSpeaker y q).speakers := by
  obtain ⟨x, rfl⟩ := exists_fedBy y
  refine speakersFit_congr (speakersFit_set h (x := x) (hq _ (h x))) (fun z => ?_)
  split
  · next e => rw [e]
  · rfl

theorem speakersFit_requestTone {f : Side → Bool} {s : State} (h : speakersFit f s.speakers) (y : Speaker) (t : Tone) :
    speakersFit f (requestTone y t s).1.speakers := by
  have hsame : (requestTone y t s).1.speakers = (s.setSpeaker y ((s.speakers.get y).request t).1).speakers :=
    (raiseDropped_acts _ _ _).same .speakers
  rw [hsame]
  exact speakersFit_setSpeaker h y (fun _ hp => SpeakerState.fits_request hp t)

/-- After a speech path has opened its side demands it. -/
theorem speakersFit_pathOpens {f : Side → Bool} {s : State} (h : speakersFit f s.speakers) (x : Side) :
    speakersFit (fun y => if y = x then true else f y) (pathOpens (fedBy x) s).speakers := by
  have hsame : (pathOpens (fedBy x) s).speakers
      = (s.setSpeaker (fedBy x) (s.speakers.get (fedBy x)).openPath.1).speakers := (raiseDropped_acts _ _ _).same .speakers
  rw [hsame]
  exact speakersFit_set h (SpeakerState.fits_openPath (h x).2.1)

theorem speakersFit_pathCloses {f : Side → Bool} {s : State} (h : speakersFit f s.speakers) (x : Side) :
    speakersFit (fun y => if y = x then false else f y) (pathCloses (fedBy x) s).speakers :=
  speakersFit_set h (SpeakerState.fits_closePath (h x).2.1)

/-! ### The intercom's operations -/

theorem speechKept_readsOnly : readsOnly [.speakers, .intercom] speechKept := by
  intro s t hsame hs
  have hp : t.speakers = s.speakers := hsame .speakers (by simp)
  have hn : t.intercom = s.intercom := hsame .intercom (by simp)
  rwa [speechKept_iff, hp, hn, ← speechKept_iff]

theorem speechKept_after {parts : List Block} {s t : State} (ha : acts parts s t) (h : speechKept s)
    (hD : ∀ b ∈ [Block.speakers, .intercom], b ∉ parts := by decide) : speechKept t :=
  speechKept_readsOnly.keeps ha hD h

/-- A change of the controller that leaves which side holds the channel. -/
theorem speechKept_setIntercom {s : State} (h : speechKept s) {g : Intercom → Intercom}
    (hg : (g s.intercom).channel.side? = s.intercom.channel.side?) : speechKept (setIntercom g s) := by
  rw [speechKept_iff] at *
  exact speakersFit_congr h (fun x => by simp [Channel.demands, hg])

theorem speechKept_askTone {s : State} (h : speechKept s) (k : ToneKind) : speechKept (askTone k s) := by
  rw [speechKept_iff] at *
  have hn : (askTone k s).intercom = s.intercom := (askTone_acts k s).same .intercom
  rw [hn]
  exact speakersFit_requestTone h _ _

/-- A turn begins while no other side's path is demanded. -/
theorem speechKept_beginTurn {s : State} {x : Side} (h : speakersFit (fun y => if y = x then s.intercom.channel.demands x else false) s.speakers) :
    speechKept (beginTurn x s) := by
  rw [speechKept_iff, beginTurn_intercom]
  refine speakersFit_congr (speakersFit_pathOpens (s := setIntercom _ s) h x) (fun y => ?_)
  simp only [Channel.demands, (talkState_facts x).1, beq_eq_decide]
  by_cases hy : y = x
  · simp [hy]
  · simp [hy, Ne.symm hy]

theorem speechKept_takeChannel {s : State} (h : speechKept s) : speechKept (takeChannel s) := by
  unfold takeChannel
  split
  · next hc =>
    have henter (x : Side) : speechKept (enterTalk x s) := by
      refine speechKept_after (raiseIntercom_acts _) (speechKept_beginTurn ?_)
      refine speakersFit_congr ((speechKept_iff s).mp h) (fun y => ?_)
      simp [hc, Channel.demands, Channel.side?]
    repeat' split
    · exact henter .front
    · exact henter .rear
    · exact h
  · exact h

theorem speechKept_goQuiet {s : State} (h : speechKept s) : speechKept (goQuiet s) := by
  rw [speechKept_iff] at *
  have hspeakers : (goQuiet s).speakers = (endDemand s).speakers := rfl
  rw [goQuiet_intercom, hspeakers]
  unfold endDemand
  split
  · next x hx =>
    refine speakersFit_congr (speakersFit_pathCloses h x) (fun y => ?_)
    have hquiet : Channel.quiet.side? = none := rfl
    simp only [Channel.demands, hx, hquiet, beq_eq_decide]
    by_cases hy : y = x
    · simp [hy]
    · simp [hy, Ne.symm hy]
  · next hx => exact speakersFit_congr h (fun y => by rw [Channel.demands, Channel.demands, hx]; rfl)

theorem speechKept_quietThenTake {s : State} (h : speechKept s) : speechKept (quietThenTake s) :=
  speechKept_takeChannel (speechKept_after (raiseIntercom_acts _) (speechKept_goQuiet h))

theorem speechKept_returnToTalk {s : State} (h : speechKept s) {x : Side} (hx : s.intercom.channel.side? = some x) :
    speechKept (returnToTalk x s) :=
  speechKept_after (raiseIntercom_acts _) (speechKept_setIntercom h (by simp [(talkState_facts x).1, hx]))

theorem speechKept_hangIfSilent {s : State} (h : speechKept s) (x : Side) : speechKept (hangIfSilent x s) := by
  unfold hangIfSilent
  split
  · next ht =>
    simp only [Bool.and_eq_true] at ht
    exact speechKept_after (raiseIntercom_acts _)
      (speechKept_setIntercom h (by simp [(hangState_facts x).1, Channel.side_of_talks ht.1]))
  · exact h

theorem speechKept_endHoldOff {s : State} (h : speechKept s) (x : Side) : speechKept (endHoldOff x s) := by
  unfold endHoldOff
  split
  · exact speechKept_takeChannel (speechKept_setIntercom h rfl)
  · exact h

theorem speechKept_voxRises {s : State} (h : speechKept s) (x : Side) : speechKept (voxRises x s) := by
  unfold voxRises
  split
  · next hx =>
    simp only [Bool.and_eq_true] at hx
    exact speechKept_returnToTalk (s := setQualifier x .qualified s) (speechKept_setIntercom h rfl)
      (Channel.side_of_hangs hx.1)
  · exact speechKept_setIntercom h rfl

theorem speechKept_attackExpires {s : State} (h : speechKept s) (x : Side) : speechKept (attackExpires x s) := by
  have hset : speechKept (setQualifier x .qualified s) := speechKept_setIntercom h rfl
  unfold attackExpires voiceRises
  repeat' split
  · next hx =>
    simp only [Bool.and_eq_true] at hx
    exact speechKept_returnToTalk hset (Channel.side_of_hangs hx.1)
  · exact speechKept_takeChannel hset
  · exact h
  · exact h

/-- The driver override closes the rear's path before it opens the front's (R144). -/
theorem speechKept_overrideRear {s : State} (h : speechKept s) (hc : s.intercom.channel.side? = some .rear) :
    speechKept (overrideRear s) := by
  refine speechKept_after (raiseIntercom_acts _) (speechKept_beginTurn ?_)
  refine speakersFit_congr (speakersFit_pathCloses ((speechKept_iff s).mp h) .rear) (fun y => ?_)
  cases y <;> simp [Channel.demands, hc]

theorem speechKept_pttPresses {s : State} (h : speechKept s) : speechKept (pttPresses s) := by
  unfold pttPresses
  split
  · exact h
  · split
    · exact speechKept_takeChannel h
    · exact h
    · next hc => exact speechKept_returnToTalk h (by simp [hc, Channel.side?])
    · next hc => exact speechKept_overrideRear h (by simp [hc, Channel.side?])
    · next hc => exact speechKept_overrideRear h (by simp [hc, Channel.side?])

theorem speechKept_hangExpires {s : State} (h : speechKept s) : speechKept (hangExpires s) := by
  unfold hangExpires
  split
  · exact speechKept_quietThenTake h
  · exact speechKept_quietThenTake h
  all_goals exact h

theorem speechKept_maxTalkExpires {s : State} (h : speechKept s) : speechKept (maxTalkExpires s) := by
  unfold maxTalkExpires
  split
  · refine speechKept_takeChannel (speechKept_askTone ?_ _)
    exact speechKept_after ((raiseIntercom_acts _).seq (raise_acts _ _ _))
      (speechKept_setIntercom (speechKept_goQuiet h) rfl)
  · exact h

theorem speechKept_changeMode {s : State} (h : speechKept s) (m : IntercomMode) : speechKept (changeMode m s) := by
  have hset : speechKept (setIntercom (fun n => { n with mode := m, window := none }) s) := speechKept_setIntercom h rfl
  unfold changeMode
  refine speechKept_takeChannel (speechKept_after (raiseIntercom_acts _) ?_)
  split
  · exact speechKept_goQuiet hset
  · exact hset

theorem speechKept_windowEnds {s : State} (h : speechKept s) : speechKept (windowEnds s) := by
  have hset : speechKept (setIntercom (fun n => { n with window := none }) s) := speechKept_setIntercom h rfl
  unfold windowEnds
  dsimp only
  repeat' split
  · exact h
  · exact speechKept_quietThenTake hset
  · exact speechKept_quietThenTake hset
  all_goals exact speechKept_after (raiseIntercom_acts _) hset

theorem speechKept_pressTaken {s : State} (h : speechKept s) (x : Seat) : speechKept (pressTaken x s) := by
  unfold pressTaken raiseCall
  dsimp only
  repeat' split
  · exact speechKept_setIntercom h rfl
  · exact speechKept_after (raise_acts _ _ _) (speechKept_setIntercom (speechKept_setIntercom h rfl) rfl)
  · refine speechKept_askTone ?_ _
    exact speechKept_after (raise_acts _ _ _) (speechKept_setIntercom (speechKept_setIntercom h rfl) rfl)
  · exact h
  · exact h

theorem speechKept_storeTimes {s : State} (h : speechKept s) (a b c : Nat) : speechKept (storeTimes a b c s) := by
  unfold storeTimes
  dsimp only
  split
  · exact speechKept_setIntercom h rfl
  · exact speechKept_after (raiseIntercom_acts _) (speechKept_setIntercom h rfl)

/-- With both speakers idle and the channel QUIET. -/
theorem speechKept_idle {s : State} (hp : s.speakers = speakersRestarted) (hc : s.intercom.channel = .quiet) :
    speechKept s := by
  rw [speechKept_iff, hp, hc]
  intro x
  cases x <;> exact SpeakerState.fits_idle

theorem speechKept_restartIntercom {s : State} (hp : s.speakers = speakersRestarted) : speechKept (restartIntercom s) := by
  have hset : speechKept { s with intercom := Intercom.atRestart s.pins } := speechKept_idle hp rfl
  unfold restartIntercom
  dsimp only
  split
  · refine speechKept_beginTurn (speakersFit_congr ((speechKept_iff _).mp hset) (fun y => ?_))
    cases y <;> rfl
  · exact hset

/-! ### Operations beside the intercom that ask for tones -/

theorem speechKept_changeTariff {s : State} (h : speechKept s) (i : Slot) (n : Nat) : speechKept (changeTariff i n s) := by
  unfold changeTariff
  dsimp only
  split
  · exact h
  · exact speechKept_askTone (speechKept_after ((setLeg_acts s _ _).seq (raise_acts _ _ _)) h) _

theorem speechKept_endsUnapproved {s : State} (h : speechKept s) (reason : DeclineReason) :
    speechKept (endsUnapproved reason s) := by
  have hdecline : speechKept (askTone .declined (addTotals Totals.addDecline
      (setSession (fun p => { p with declineReason := some reason, outstanding := none }) s))) :=
    speechKept_askTone (speechKept_after ((setSession_acts _ s).seq (addTotals_acts _ _)) h) _
  unfold endsUnapproved
  dsimp only
  split
  · exact speechKept_after (enterRetryWait_acts _) hdecline
  · exact speechKept_after (closeUnpaid_acts _ _ _) hdecline

theorem speechKept_abortEnds {s : State} (h : speechKept s) (reason : DeclineReason) :
    speechKept (abortEnds reason s) := by
  unfold abortEnds
  split
  · exact speechKept_after (closeUnpaid_acts _ _ _) h
  · exact speechKept_endsUnapproved h _

theorem speechKept_settles {s : State} (h : speechKept s) (close : Session → Session) (paid : List LegPaid) :
    speechKept (settles close paid s) :=
  speechKept_after (raisePayment_acts _) (speechKept_askTone (speechKept_after
    ((((setSession_acts close s).seq (setTimer_acts none _)).seq (recordsTrips_acts _ _)).seq (releaseLegs_acts _ _)) h) _)

theorem speechKept_enterAuthorising {s : State} (h : speechKept s) : speechKept (enterAuthorising s) := by
  unfold enterAuthorising
  exact speechKept_after (raisePayment_acts _) (speechKept_askTone (speechKept_after
    (((setSession_acts _ s).seq (sendFrame_acts _ _)).seq (withSettle_acts _ _)) h) _)

theorem speechKept_enterTipWait {s : State} (h : speechKept s) : speechKept (enterTipWait s) :=
  speechKept_after (raisePayment_acts _) (speechKept_askTone (speechKept_after
    ((setSession_acts _ s).seq (setTimer_acts _ _)) h) _)

/-! ### Rules, events and steps -/

theorem speechKept_stopHostOn {s : State} (h : speechKept s) (x : Speaker) : speechKept (stopHostOn x s).1 := by
  rw [speechKept_iff] at *
  exact speakersFit_setSpeaker h x (fun _ hp => SpeakerState.fits_stopHost hp)

theorem speechKept_catchUp {s : State} (h : speechKept s) (i : Slot) : speechKept (catchUp i s) := by
  unfold catchUp
  repeat' split
  · exact speechKept_changeTariff h _ _
  · exact h
  · exact h

theorem speechKept_boundaryAt {s : State} (h : speechKept s) (count : Nat) : speechKept (boundaryAt count s) := by
  unfold boundaryAt
  split
  · refine List.foldlRecOn (motive := speechKept) _ _ h (fun t ht i _ => ?_)
    unfold changeIfFollows
    split
    · exact speechKept_changeTariff ht _ _
    · exact ht
  · exact h

theorem speechKept_beginsBy {s : State} (h : speechKept s) (slots : List Slot) (offer : Bool) (t : Tender) :
    speechKept (beginsBy slots offer s t).1 := by
  have hbegun : speechKept (beginsPayment slots t offer s) := speechKept_after (beginsPayment_acts _ _ _ s) h
  cases t with
  | cash => exact speechKept_settles hbegun _ _
  | card =>
    simp only [beginsBy, beginsCard]
    split
    · exact speechKept_enterTipWait hbegun
    · exact speechKept_enterAuthorising hbegun

theorem speechKept_rule : ∀ (c : Instr) (r : State → Taken), ruleOf c = some r →
    touches [.speakers, .intercom] c = true → ∀ s, s.power = .running → speechKept s → speechKept (r s).1
  | .legStart x t c, _, rfl, _ => by
    intro s _ h
    rcases takeLegStart_taken x t c s with ht | ⟨_, _, _, _, _, _, _, _, _, _, _, _, _, _, ht⟩
    · rwa [ht]
    · rw [ht]
      exact speechKept_after (resignToAuto_acts _) (speechKept_askTone (speechKept_after
        ((withFare_acts s _).seq (raiseLegState_acts _ _)) h) _)
  | .legResume n, _, rfl, _ => by
    intro s _ h
    rcases takeLegResume_taken n s with ht | ⟨i, _, _, ht⟩ | ⟨i, _, _, ht⟩
    · rwa [ht]
    · rw [ht]
      exact speechKept_after ((setLeg_acts s _ _).seq (raiseLegState_acts _ _)) h
    · rw [ht]
      exact speechKept_catchUp (speechKept_after ((setLeg_acts s _ _).seq (raiseLegState_acts _ _)) h) _
  | .legTariff n t, _, rfl, _ => by
    intro s _ h
    rcases takeLegTariff_taken n t s with ht | ⟨i, k, _, _, _, ht⟩
    · rwa [ht]
    · rw [ht]
      exact speechKept_changeTariff (speechKept_after (setLeg_acts s _ _) h) _ _
  | .payBegin l t o, _, rfl, _ => by
    intro s _ h
    rcases takePayBegin_taken l t o s with ht | ⟨slots, tender, offer, _, _, _, ht⟩
    · rwa [ht]
    · rw [ht]
      exact speechKept_beginsBy h _ _ _
  | .payTip x v, _, rfl, _ => by
    intro s _ h
    rcases takePayTip_taken x v s with ht | ⟨_, _, _, _, ht⟩
    · rwa [ht]
    · rw [ht]
      exact speechKept_enterAuthorising (speechKept_after (setSession_acts _ s) h)
  | .payAuthorise, _, rfl, _ => by
    intro s _ h
    rcases takePayAuthorise_taken s with ht | ⟨_, ht⟩
    · rwa [ht]
    · rw [ht]
      exact speechKept_enterAuthorising (speechKept_after (setSession_acts _ s) h)
  | .payCash, _, rfl, _ => by
    intro s _ h
    rcases takePayCash_taken s with ht | ⟨_, ht⟩
    · rwa [ht]
    · rw [ht]
      exact speechKept_settles h _ _
  | .intercomMode m, _, rfl, _ => by
    intro s _ h
    simp only [takeIntercomMode]
    repeat' split
    · exact h
    · exact h
    · exact speechKept_changeMode h _
  | .intercomSettings _ _ _, _, rfl, _ => fun _ _ h => speechKept_storeTimes h _ _ _
  | .intercomDefaults, _, rfl, _ => fun _ _ h => speechKept_storeTimes h _ _ _
  | .callAnswer, _, rfl, _ => by
    intro s _ h
    simp only [takeCallAnswer]
    split
    · exact speechKept_takeChannel (speechKept_after (raiseIntercom_acts _) (speechKept_setIntercom h rfl))
    · exact h
  | .callClear, _, rfl, _ => fun _ _ h => speechKept_after (raiseIntercom_acts _) (speechKept_setIntercom h rfl)
  | .tonePlay x n p a b r, _, rfl, _ => by
    intro s _ h
    simp only [takeTonePlay]
    split
    · rw [speechKept_iff] at *
      rw [(requestTone_rest _ _ s).2.2.2.2.2.2.2.2.2.1]
      exact speakersFit_requestTone h _ _
    · exact h
  | .toneStop x, _, rfl, _ => by
    intro s _ h
    simp only [takeToneStop]
    split
    · exact List.foldlRecOn (motive := fun a : State × Nat => speechKept a.1) _ _ h
        (fun a ha x _ => speechKept_stopHostOn ha x)
    · exact h

theorem speechKept_approves {s : State} (h : speechKept s) (r : Ref) (n : Nat) (a : Text) :
    speechKept (approves r n a s) := by
  have hstale : speechKept (removeStale r s) := speechKept_after (removeStale_acts r s) h
  unfold approves takesApproval
  repeat' split
  · exact speechKept_settles hstale _ _
  · exact speechKept_abortEnds (speechKept_after (makeReversal_acts _ _ _ _) hstale) _
  · exact speechKept_after (takesLateApproval_acts _ _ s) h

theorem speechKept_declines {s : State} (h : speechKept s) (r : Ref) (n : Nat) : speechKept (declines r n s) := by
  have hstale : speechKept (removeStale r s) := speechKept_after (removeStale_acts r s) h
  unfold declines
  dsimp only
  repeat' split
  · exact speechKept_abortEnds hstale _
  · exact speechKept_endsUnapproved hstale _
  · exact hstale

theorem speechKept_confirmsAbort {s : State} (h : speechKept s) (r : Ref) : speechKept (confirmsAbort r s) := by
  have hstale : speechKept (removeStale r s) := speechKept_after (removeStale_acts r s) h
  unfold confirmsAbort
  repeat' split
  · exact speechKept_abortEnds hstale _
  · exact h
  · exact hstale

theorem speechKept_minuteBoundary {s : State} (h : speechKept s) : speechKept (minuteBoundary s) := by
  have hclock (x : Clock) : speechKept { s with clock := x } := speechKept_after (withClock_acts s x) h
  unfold minuteBoundary
  repeat' split
  · exact speechKept_boundaryAt (hclock _) _
  · exact h
  · exact speechKept_boundaryAt (hclock _) _

theorem speechKept_restarts (s : State) : speechKept (restarts s) := by
  have hspeakers : (restartSign (restoreMoney (restartVolatile (restartMemory s)))).speakers = speakersRestarted :=
    ((restoreMoney_acts (restartVolatile (restartMemory s))).seq (restartSign_acts _)).same .speakers
  have hblocks := (speechKept_iff _).mp (speechKept_restartIntercom hspeakers)
  rw [speechKept_iff, (restarts_rest s).2.2.2.2.2.2.2.2.1, (restarts_rest s).2.2.2.2.2.2.2.2.2.1]
  exact hblocks

theorem speechKept_event : ∀ c : Instr, ruleOf c = none → takesFrames c = false →
    touches [.speakers, .intercom] c = true → ∀ s t, exec c s = .next t → speechKept s → speechKept t
  | .minuteBoundary, _, _, _ => by
    rintro s t ⟨⟩ h
    exact whileRunning_keep h (fun _ h => speechKept_minuteBoundary h)
  | .tipTimerExpiry, _, _, _ => by
    rintro s t ⟨⟩ h
    refine whileRunning_keep h (fun _ h => ?_)
    unfold tipExpires
    split
    · exact speechKept_enterAuthorising (speechKept_after (setSession_acts _ s) h)
    · exact h
  | .abortTimerExpiry, _, _, _ => by
    rintro s t ⟨⟩ h
    refine whileRunning_keep h (fun _ h => ?_)
    unfold abortExpires
    split
    · exact speechKept_abortEnds (speechKept_after (enterStale_acts _ s) h) _
    · exact h
  | .tApproved r n a, _, _, _ => by
    rintro s t ⟨⟩ h
    exact whileRunning_keep h (fun _ h => speechKept_approves (speechKept_after (withTender_acts s _) h) r n a)
  | .tDeclined r n, _, _, _ => by
    rintro s t ⟨⟩ h
    exact whileRunning_keep h (fun _ h => speechKept_declines (speechKept_after (withTender_acts s _) h) r n)
  | .tAborted r, _, _, _ => by
    rintro s t ⟨⟩ h
    exact whileRunning_keep h (fun _ h => speechKept_confirmsAbort (speechKept_after (withTender_acts s _) h) r)
  | .voxChange x l, _, _, _ => by
    rintro s t ⟨⟩ h
    split
    · exact h
    · refine whileRunning_keep (s := { s with pins := _ }) (speechKept_after (withPins_acts s _) h) (fun _ h => ?_)
      split
      · exact speechKept_voxRises h x
      · exact speechKept_endHoldOff (speechKept_hangIfSilent (speechKept_setIntercom h rfl) x) x
  | .attackExpiry x, _, _, _ => by
    rintro s t ⟨⟩ h
    exact whileRunning_keep h (fun _ h => speechKept_attackExpires h x)
  | .pttPress, _, _, _ => by
    rintro s t ⟨⟩ h
    split
    · exact h
    · exact whileRunning_keep (s := { s with pins := _ }) (speechKept_after (withPins_acts s _) h)
        (fun _ h => speechKept_pttPresses h)
  | .pttRelease, _, _, _ => by
    rintro s t ⟨⟩ h
    split
    · exact whileRunning_keep (s := { s with pins := _ }) (speechKept_after (withPins_acts s _) h)
        (fun _ h => speechKept_endHoldOff (speechKept_hangIfSilent h _) _)
    · exact h
  | .hangTimerExpiry, _, _, _ => by
    rintro s t ⟨⟩ h
    exact whileRunning_keep h (fun _ h => speechKept_hangExpires h)
  | .maxTalkExpiry, _, _, _ => by
    rintro s t ⟨⟩ h
    exact whileRunning_keep h (fun _ h => speechKept_maxTalkExpires h)
  | .callButtonChange x l, _, _, _ => by
    rintro s t ⟨⟩ h
    split
    · exact h
    · exact whileRunning_keep (s := { s with pins := _ }) (speechKept_after (withPins_acts s _) h)
        (fun _ h => speechKept_setIntercom h rfl)
  | .callPressTaken x, _, _, _ => by
    rintro s t ⟨⟩ h
    exact whileRunning_keep h (fun _ h => speechKept_pressTaken h x)
  | .callWindowEnd, _, _, _ => by
    rintro s t ⟨⟩ h
    exact whileRunning_keep h (fun _ h => speechKept_windowEnds h)
  | .tonePhaseEnd x, _, _, _ => by
    rintro s t ⟨⟩ h
    refine whileRunning_keep h (fun _ h => ?_)
    rw [speechKept_iff] at *
    exact speakersFit_setSpeaker h x (fun _ hp => SpeakerState.fits_endPhase hp)
  | .supplyFail, _, _, _ => by
    rintro s t ⟨⟩ h
    split
    · exact speechKept_idle rfl rfl
    · exact speechKept_idle rfl rfl
    · exact h
  | .resetnAssert, _, _, _ => by
    rintro s t ⟨⟩ h
    split
    · exact speechKept_idle rfl rfl
    · exact h
    · exact h
  | .restart, _, _, _ => by
    rintro s t ⟨⟩ h
    split
    · exact speechKept_restarts s
    · exact speechKept_restarts s
    · exact h

theorem speechKept_baseStep (s : State) (h : speechKept s) : speechKept (baseStep s) := by
  unfold baseStep
  refine whileRunning_keep (s := { s with clock := _ }) (speechKept_after (withClock_acts s _) h) (fun _ h => ?_)
  rw [speechKept_iff] at *
  intro x
  have := SpeakerState.fits_baseStep (h x)
  cases x <;> exact this

/-- The two switches are demanded by one side at a time. -/
theorem switches_not_both (s : State) : ¬(switchClosed s .front = true ∧ switchClosed s .rear = true) := by
  rintro ⟨hf, hr⟩
  simp only [switchClosed, switchDemanded, Bool.and_eq_true, beq_iff_eq] at hf hr
  have := hf.1.symm.trans hr.1
  cases this

/-- Settles O14. -/
theorem speechSwitchesAndTonesStayApart : Obligations.SpeechSwitchesAndTonesStayApart := by
  intro s t ht
  refine ⟨fun h => ?_, fun h => ?_⟩
  · exact step_keeps speechKept_readsOnly (by decide) speechKept_rule speechKept_event speechKept_baseStep s t h ht
  · have hkept := channelKept_step s t h ht
    refine ⟨hkept, switches_not_both t, fun hclosed => ?_⟩
    simp only [switchClosed, switchDemanded, Bool.and_eq_true, beq_iff_eq] at hclosed
    obtain ⟨hoff, hwindow⟩ := Intercom.fits.allows hkept hclosed.1
    exact ⟨hoff, hwindow rfl⟩

end Sys2Proof.Machine
end

