-- ==== Sys2Proof/Proofs/Metering.lean ====
section
/-!
PROOF. The arithmetic of a leg (R23 to R26): the carry of Q between tariffs, what an interval close adds, and the
segment lists; and that each keeps the bounds of an active leg.
-/

set_option Elab.async false

namespace Sys2Proof.Machine

/-! ### The carry (R26) -/

theorem stepWorth_pos {t : Tariff} (h : t.inRange) : 0 < t.stepWorth := by
  obtain ⟨-, -, -, hd, -, ht, -⟩ := h
  exact Nat.mul_pos hd ht

/-- A negative Q carries the allowance left, in whole metres rounded up, clamped to the new included distance. -/
theorem carry_neg (old new : Tariff) {q : Int} (hq : q < 0) :
    carry old new q = -((min (ceilDiv (-q).toNat old.timeStep) new.includedDistance * new.timeStep : Nat) : Int) := by
  rw [carry, if_pos hq]

/-- Another Q is rescaled, rounded down. -/
theorem carry_nonneg (old new : Tariff) {q : Int} (hq : 0 ≤ q) :
    carry old new q = q * new.distanceStep * new.timeStep / (old.stepWorth : Int) := by
  rw [carry, if_neg (by omega)]
  obtain ⟨n, rfl⟩ := Int.eq_ofNat_of_zero_le hq
  simp

theorem carry_lower (old : Tariff) (new : Tariff) (q : Int) :
    -((new.includedDistance * new.timeStep : Nat) : Int) ≤ carry old new q := by
  rcases Int.lt_or_le q 0 with hq | hq
  · rw [carry_neg old new hq]
    have := Nat.mul_le_mul_right new.timeStep (Nat.min_le_right (ceilDiv (-q).toNat old.timeStep) new.includedDistance)
    omega
  · rw [carry, if_neg (by omega)]
    exact (Int.neg_nonpos_of_nonneg (Int.natCast_nonneg _)).trans (Int.natCast_nonneg _)

theorem carry_upper {old new : Tariff} (hold : old.inRange) (hnew : new.inRange) {q : Int} (hq : q < (old.stepWorth : Int)) :
    carry old new q < (new.stepWorth : Int) := by
  have hpos := stepWorth_pos hold
  have hnpos := stepWorth_pos hnew
  rcases Int.lt_or_le q 0 with hneg | hneg
  · rw [carry_neg old new hneg]
    omega
  · rw [carry_nonneg old new hneg]
    refine Int.ediv_lt_of_lt_mul (by omega) ?_
    have hrescaled : q * new.distanceStep * new.timeStep = q * (new.stepWorth : Int) := by
      rw [Tariff.stepWorth]
      push_cast
      ring
    rw [hrescaled, mul_comm]
    exact mul_lt_mul_of_pos_left hq (by omega)

/-- The metres of an allowance, rounded up, are the least that cover it. -/
theorem ceilDiv_covers {a b : Nat} (ha : 0 < a) (hb : 0 < b) : a ≤ ceilDiv a b * b ∧ (ceilDiv a b - 1) * b < a := by
  unfold ceilDiv
  have hmod := Nat.mod_lt (a + b - 1) hb
  have hsplit := Nat.div_add_mod (a + b - 1) b
  rw [mul_comm] at hsplit
  rw [Nat.sub_mul]
  omega

/-- Settles O26. -/
theorem theCarryKeepsAllowanceAndProgress : Obligations.TheCarryKeepsAllowanceAndProgress := by
  intro old new q hold hnew hlow hhigh
  refine ⟨fun hq => ⟨ceilDiv (-q).toNat old.timeStep, ?_, ?_, ?_⟩, fun hq => carry_nonneg old new hq,
    carry_lower old new q, carry_upper hold hnew hhigh⟩
  · have hcover := (ceilDiv_covers (a := (-q).toNat) (by omega) hold.2.2.2.2.2.1).1
    have : (((-q).toNat : Nat) : Int) ≤ ((ceilDiv (-q).toNat old.timeStep * old.timeStep : Nat) : Int) := by
      exact_mod_cast hcover
    push_cast at this
    omega
  · have hcover := ceilDiv_covers (a := (-q).toNat) (by omega) hold.2.2.2.2.2.1
    have hpos : 1 ≤ ceilDiv (-q).toNat old.timeStep := by
      rcases Nat.eq_zero_or_pos (ceilDiv (-q).toNat old.timeStep) with h0 | h0
      · rw [h0] at hcover
        omega
      · exact h0
    have : (((ceilDiv (-q).toNat old.timeStep - 1) * old.timeStep : Nat) : Int) < (((-q).toNat : Nat) : Int) := by
      exact_mod_cast hcover.2
    push_cast [Nat.cast_sub hpos] at this
    omega
  · rw [carry_neg old new hq]
    push_cast
    rfl

/-! ### Lists of segments -/

theorem onLast_length {α : Type} (g : α → α) (xs : List α) : (onLast g xs).length = xs.length := by
  induction xs using onLast.induct with
  | case1 => rfl
  | case2 => rfl
  | case3 x y ys ih => simpa [onLast] using ih

theorem onLast_append {α : Type} (g : α → α) (xs : List α) (x : α) : onLast g (xs ++ [x]) = xs ++ [g x] := by
  induction xs with
  | nil => rfl
  | cons y ys ih =>
    cases hys : ys ++ [x] with
    | nil => simp at hys
    | cons z zs => rw [List.cons_append, hys, onLast, ← hys, ih, List.cons_append]

/-- The last segment alone takes what is added. -/
theorem sum_onLast {xs : List Segment} (hne : xs ≠ []) {g : Segment → Segment} {r : Nat}
    (hg : ∀ x, (g x).fare = x.fare + r) :
    ((onLast g xs).map Segment.fare).sum = (xs.map Segment.fare).sum + r := by
  obtain ⟨ys, y, rfl⟩ := List.eq_nil_or_concat xs |>.resolve_left hne
  simp only [List.concat_eq_append, onLast_append, List.map_append, List.sum_append, List.map_cons, List.map_nil,
    List.sum_cons, List.sum_nil, hg]
  omega

theorem openSegment_length (n : Nat) {gs : List Segment} (h1 : 1 ≤ gs.length) (h4 : gs.length ≤ 4) :
    1 ≤ (openSegment n gs).length ∧ (openSegment n gs).length ≤ 4 := by
  unfold openSegment
  split
  · simp only [List.length_append, List.length_cons, List.length_nil]
    omega
  · rw [onLast_length]
    exact ⟨h1, h4⟩

theorem sum_openSegment (n : Nat) {gs : List Segment} (h1 : 1 ≤ gs.length) :
    ((openSegment n gs).map Segment.fare).sum = (gs.map Segment.fare).sum := by
  unfold openSegment
  split
  · simp
  · exact sum_onLast (r := 0) (List.length_pos_iff.mp h1) (fun _ => rfl)

/-! ### Accrual (R23 to R25) -/

/-- Whole steps leave Q below a step; where any is taken, Q is not negative. -/
theorem stepsDue_rest (q : Int) {worth : Nat} (hw : 0 < worth) :
    q - stepsDue q worth * worth < worth ∧ (stepsDue q worth ≠ 0 → 0 ≤ q - stepsDue q worth * worth) := by
  have hmod := Int.emod_lt_of_pos q (b := (worth : Int)) (by omega)
  have hnn := Int.emod_nonneg q (b := (worth : Int)) (by omega)
  have hsplit := Int.emod_add_mul_ediv q worth
  unfold stepsDue
  rcases Int.lt_or_le q 0 with hq | hq
  · have hneg : q / (worth : Int) < 0 := Int.ediv_neg_of_neg_of_pos hq (by omega)
    have hzero : (q / (worth : Int)).toNat = 0 := by omega
    simp only [hzero]
    omega
  · have hdiv : 0 ≤ q / (worth : Int) := Int.ediv_nonneg hq (by omega)
    rw [Int.toNat_of_nonneg hdiv, mul_comm]
    omega

/-- What steps raise a fare to, under the cap (R25). -/
theorem fare_add_rise {fare : Nat} (h : fare ≤ fareCap) (n amount : Nat) :
    fare + fareRise fare n amount = min fareCap (fare + n * amount) := by
  unfold fareRise
  omega

theorem Leg.inBounds_accrue {l : Leg} {t : Tariff} (ht : t.inRange) (h : l.inBounds t) (m : Nat) :
    (l.accrue t m).inBounds t := by
  obtain ⟨h1, h8, hlow, _, hcap, hsum, hseg1, hseg4, hextras⟩ := h
  have hrest := stepsDue_rest (l.q + progress t m) (stepWorth_pos ht)
  have hfare := fare_add_rise hcap (stepsDue (l.q + progress t m) t.stepWorth) t.stepAmount
  refine ⟨h1, h8, ?_, hrest.1, ?_, ?_, ?_, ?_, hextras⟩
  · show _ ≤ (l.q + (progress t m : Int)) - _
    rcases Nat.eq_zero_or_pos (stepsDue (l.q + progress t m) t.stepWorth) with hn | hn
    · simp only [hn]
      omega
    · have := hrest.2 (by omega)
      omega
  · exact hfare.trans_le (Nat.min_le_left _ _)
  · refine (sum_onLast (List.length_pos_iff.mp hseg1) (fun _ => rfl)).trans ?_
    rw [hsum]
    rfl
  · simpa [Leg.accrue, onLast_length] using hseg1
  · simpa [Leg.accrue, onLast_length] using hseg4

theorem Leg.inBounds_changeTariff {l : Leg} {old new : Tariff} (hold : old.inRange) (hnew : new.inRange)
    (h : l.inBounds old) {n : Nat} (hn : 1 ≤ n ∧ n ≤ 8) : (l.changeTariff old new n).inBounds new := by
  obtain ⟨_, _, _, hhigh, hcap, hsum, hseg1, hseg4, hextras⟩ := h
  have hlength := openSegment_length n hseg1 hseg4
  exact ⟨hn.1, hn.2, carry_lower _ _ _, carry_upper hold hnew hhigh, hcap, (sum_openSegment n hseg1).trans hsum,
    hlength.1, hlength.2, hextras⟩

theorem inBounds_startedLeg {t : Tariff} (ht : t.inRange) {n : Nat} (hn : 1 ≤ n ∧ n ≤ 8) (c : TariffChoice)
    (seats : SeatSet) (share : Bool) (count : Nat) : (startedLeg t n c seats share count).inBounds t := by
  have hpos := stepWorth_pos ht
  have hflag := ht.1
  unfold Tariff.stepWorth at hpos
  refine ⟨hn.1, hn.2, le_refl _, ?_, ?_, ?_, ?_, ?_, rfl, ?_, ?_⟩
  all_goals simp only [startedLeg, List.map_cons, List.map_nil, List.sum_cons, List.sum_nil, List.length_cons,
    List.length_nil]
  all_goals omega

theorem Leg.inBounds_addExtra {l : Leg} {t : Tariff} (h : l.inBounds t) {kind limit : Nat}
    (hfull : l.listFull kind limit = false) (htotal : l.extrasTotal < extrasCeiling) (asked : Nat) :
    (l.addExtra kind (min asked (extrasCeiling - l.extrasTotal))).inBounds t := by
  obtain ⟨h1, h8, hlow, hhigh, hcap, hsum, hseg1, hseg4, htot, _, _⟩ := h
  simp only [listFull, Bool.or_eq_false_iff, decide_eq_false_iff_not] at hfull
  refine ⟨h1, h8, hlow, hhigh, hcap, hsum, hseg1, hseg4, ?_, ?_, ?_⟩
  · simp [Leg.addExtra, htot]
  · simp only [Leg.addExtra, extrasCeiling] at htotal ⊢
    omega
  · simp only [Leg.addExtra, List.length_append, List.length_cons, List.length_nil]
    omega

/-- A list with a last element is its other elements and that one. -/
theorem eq_dropLast_append {α : Type} {xs : List α} {x : α} (h : xs.getLast? = some x) : xs = xs.dropLast ++ [x] := by
  obtain ⟨ys, rfl⟩ := List.getLast?_eq_some_iff.mp h
  simp

theorem Leg.inBounds_dropExtra {l : Leg} {t : Tariff} (h : l.inBounds t) {e : Extra}
    (he : l.extras.getLast? = some e) : (l.dropExtra e).inBounds t := by
  obtain ⟨h1, h8, hlow, hhigh, hcap, hsum, hseg1, hseg4, htot, hceil, hlen⟩ := h
  have hsplit := congrArg (fun xs => (xs.map Extra.amount).sum) (eq_dropLast_append he)
  simp only [List.map_append, List.sum_append, List.map_cons, List.map_nil, List.sum_cons, List.sum_nil] at hsplit
  refine ⟨h1, h8, hlow, hhigh, hcap, hsum, hseg1, hseg4, ?_, ?_, ?_⟩
  · simp only [dropExtra]
    omega
  · simp only [dropExtra]
    omega
  · simp only [dropExtra, List.length_dropLast]
    omega

end Sys2Proof.Machine
end

