-- ==== Sys2Proof/Proofs/ShiftLegs.lean ====
section
/-!
PROOF. Legs are active only in an open shift (R42, R107): which commands open or close a shift, that every other leaves
the shift as open as it was, and that no command but LEG_START makes a leg active.
-/

set_option Elab.async false

namespace Sys2Proof.Machine

/-! ### Which commands open or close a shift -/

/-- The commands that may open or close a shift. -/
def opensOrCloses : Instr → Bool
  | .shiftOpen _ | .shiftClose | .factoryClear | .restart => true
  | _ => false

/-- The shift is as open as it was. -/
abbrev sameShift (s t : State) : Prop := t.shifts.record.isOpen = s.shifts.record.isOpen

@[simp] theorem settles_isOpen (close : Session → Session) (paid : List LegPaid) (s : State) :
    (settles close paid s).shifts.record.isOpen = s.shifts.record.isOpen := by
  simp [settles, recordsTrips_shifts, setTimer, setSession]

@[simp] theorem makeReversal_isOpen (places : Nat) (r : Ref) (n : Nat) (s : State) :
    (makeReversal places r n s).shifts.record.isOpen = s.shifts.record.isOpen := by
  simp [makeReversal]

@[simp] theorem voidsLeg_isOpen (i : Slot) (s : State) :
    (voidsLeg i s).shifts.record.isOpen = s.shifts.record.isOpen := by
  simp [voidsLeg]

theorem approves_isOpen (r : Ref) (n : Nat) (a : Text) (s : State) : sameShift s (approves r n a s) := by
  unfold approves takesApproval sameShift
  repeat' split
  · simp [settlesByCard, removeStale]
  · rw [abortEnds_isOpen, makeReversal_isOpen]
    rfl
  · simp [takesLateApproval, removeStale]

theorem declines_isOpen (r : Ref) (n : Nat) (s : State) : sameShift s (declines r n s) := by
  unfold declines
  dsimp only
  repeat' split
  · exact abortEnds_isOpen _ (removeStale r s)
  · exact endsUnapproved_isOpen _ (removeStale r s)
  · rfl

theorem confirmsAbort_isOpen (r : Ref) (s : State) : sameShift s (confirmsAbort r s) := by
  unfold confirmsAbort
  repeat' split
  · exact abortEnds_isOpen _ (removeStale r s)
  · rfl
  · rfl

theorem abortExpires_isOpen (s : State) : sameShift s (abortExpires s) := by
  unfold abortExpires
  split
  · exact abortEnds_isOpen _ (enterStale _ s)
  · rfl

theorem beginsBy_isOpen (slots : List Slot) (offer : Bool) (s : State) (t : Tender) :
    sameShift s (beginsBy slots offer s t).1 := by
  cases t with
  | card =>
    simp only [beginsBy, beginsCard, sameShift]
    split
    · simp [enterTipWait, beginsPayment, setTimer, setSession]
    · simp [enterAuthorising, beginsPayment, setSession]
  | cash => simp [sameShift, beginsBy, beginsCash, settlesByCash, beginsPayment]

theorem ticks_isOpen (s : State) : sameShift s (ticks s) := by
  unfold ticks whileRunning
  dsimp only
  split
  · exact closeInterval_isOpen _
  · rfl

/-- A request that may write the shift record, but not open or close it. -/
theorem sameShift_of_shiftsRule : ∀ (c : Instr) (r : State → Taken), ruleOf c = some r →
    touches [.shifts] c = true → opensOrCloses c = false → ∀ s, sameShift s (r s).1
  | .legVoid n, _, rfl, _, _ => by
    intro s
    rcases takeLegVoid_taken n s with ht | ⟨i, _, _, _, ht⟩ <;> simp [ht, sameShift]
  | .payBegin l t o, _, rfl, _, _ => by
    intro s
    rcases takePayBegin_taken l t o s with ht | ⟨slots, tender, offer, _, _, _, ht⟩
    · simp [ht]
    · rw [ht]
      exact beginsBy_isOpen _ _ _ _
  | .payCash, _, rfl, _, _ => by
    intro s
    rcases takePayCash_taken s with ht | ⟨_, ht⟩ <;> simp [ht, sameShift, settlesByCash]
  | .reportRead n, _, rfl, _, _ => by
    intro s
    simp only [takeReportRead]
    repeat' split
    all_goals rfl

theorem sameShift_of_rule (c : Instr) (r : State → Taken) (hr : ruleOf c = some r) (hc : opensOrCloses c = false)
    (s : State) : sameShift s (r s).1 := by
  by_cases ht : touches [.shifts] c = true
  · exact sameShift_of_shiftsRule c r hr ht hc s
  · have hnot : Block.shifts ∉ blocksOf c := by simpa [touches] using ht
    have hsame : (r s).1.shifts = s.shifts := (rule_acts c r hr s).same .shifts (by simpa using hnot)
    rw [sameShift, hsame]

/-- What the settlement unit does with a message leaves the shift as open as it was. -/
theorem takesMessage_isOpen {g : State → State} (hg : ∀ u, sameShift u (g u)) (m : TermMsg) (s : State) :
    sameShift s (takesMessage m g s) :=
  hg { s with tender := s.tender.handedOver m }

/-- An event that may write the shift record, but not clear it. -/
theorem sameShift_of_shiftsEvent : ∀ c : Instr, ruleOf c = none → takesFrames c = false → touches [.shifts] c = true →
    opensOrCloses c = false → ∀ s t, exec c s = .next t → sameShift s t
  | .secondTick, _, _, _, _ => by
    rintro s t ⟨⟩
    exact ticks_isOpen s
  | .clockWrap, _, _, _, _ => by
    rintro s t ⟨⟩
    split
    · rfl
    · exact ticks_isOpen s
  | .abortTimerExpiry, _, _, _, _ => by
    rintro s t ⟨⟩
    exact whileRunning_keep (P := sameShift s) rfl (fun _ _ => abortExpires_isOpen s)
  | .tApproved r n a, _, _, _, _ => by
    rintro s t ⟨⟩
    exact whileRunning_keep (P := sameShift s) rfl (fun _ _ => takesMessage_isOpen (approves_isOpen r n a) _ s)
  | .tDeclined r n, _, _, _, _ => by
    rintro s t ⟨⟩
    exact whileRunning_keep (P := sameShift s) rfl (fun _ _ => takesMessage_isOpen (declines_isOpen r n) _ s)
  | .tAborted r, _, _, _, _ => by
    rintro s t ⟨⟩
    exact whileRunning_keep (P := sameShift s) rfl (fun _ _ => takesMessage_isOpen (confirmsAbort_isOpen r) _ s)

theorem sameShift_of_event (c : Instr) (hr : ruleOf c = none) (hf : takesFrames c = false)
    (hc : opensOrCloses c = false) (s t : State) (ht : exec c s = .next t) : sameShift s t := by
  by_cases hto : touches [.shifts] c = true
  · exact sameShift_of_shiftsEvent c hr hf hto hc s t ht
  · have hnot : Block.shifts ∉ blocksOf c := by simpa [touches] using hto
    obtain ⟨u, hu, hacts⟩ := event_acts c hr hf s
    have hsame : u.shifts = s.shifts := hacts.same .shifts (by simpa using hnot)
    rw [ht] at hu
    cases hu
    rw [sameShift, hsame]

/-! ### Active legs -/

/-- Every leg is FREE. -/
def FareEngine.vacant (e : FareEngine) : Prop := ∀ i, (e.legs.get i).state = .free

/-- R42, R107: legs are active only in an open shift. -/
def legsInShift (s : State) : Prop := ∀ i, (s.leg i).state ≠ .free → shiftOpen s = true

theorem legsInShift_iff (s : State) : legsInShift s ↔ shiftOpen s = true ∨ s.fare.vacant := by
  unfold legsInShift FareEngine.vacant State.leg
  constructor
  · intro h
    by_cases hopen : shiftOpen s = true
    · exact .inl hopen
    · exact .inr (fun i => not_not.mp (fun hi => hopen (h i hi)))
  · rintro (h | h) i hi
    · exact h
    · exact absurd (h i) hi

theorem vacant_of_closed {s : State} (h : legsInShift s) (hclosed : shiftOpen s = false) : s.fare.vacant :=
  ((legsInShift_iff s).mp h).resolve_left (by simp [hclosed])

theorem vacant_of_allFree {s : State} (h : allFree s = true) : s.fare.vacant := by
  intro i
  have hmem : s.fare.legs.get i ∈ s.fare.legs.toList := by cases i <;> simp [PerSlot.get, PerSlot.toList]
  simpa [Leg.active] using List.all_eq_true.mp h _ hmem

theorem vacant_cleared : FareEngine.cleared.vacant := fun i => by cases i <;> rfl

/-- While a flag does not allow it, every leg stays FREE. -/
theorem vacant_kept (allowed : Bool) : keptByChange (fun e => allowed = true ∨ e.vacant) where
  tables e e' hl _ := Or.imp id (fun h i => by rw [hl]; exact h i)
  like e legs hlike := Or.imp id (fun h i => ((hlike i).2.2.1).mpr (h i))
  freed e i := Or.imp id (fun h j => by
    rw [freeLeg_get]
    split
    · rfl
    · exact h j)
  cleared := .inr vacant_cleared

theorem legsInShift_readsOnly : readsOnly [.fare, .shifts] legsInShift := by
  intro s t hsame hs
  have hfare : t.fare = s.fare := hsame .fare (by simp)
  have hshifts : t.shifts = s.shifts := hsame .shifts (by simp)
  simpa [legsInShift, State.leg, shiftOpen, hfare, hshifts] using hs

theorem legsInShift_of_same {s t : State} (hshift : sameShift s t) (h : legsInShift s)
    (hfare : (shiftOpen s = true ∨ s.fare.vacant) → (shiftOpen s = true ∨ t.fare.vacant)) : legsInShift t := by
  rw [legsInShift_iff, shiftOpen, hshift]
  exact hfare ((legsInShift_iff s).mp h)

/-- Whether a leg is active is read of the legs alone. -/
theorem legsInShift_of_fare {s t : State} (hshift : sameShift s t) (hfare : t.fare = s.fare) (h : legsInShift s) :
    legsInShift t :=
  legsInShift_of_same hshift h (fun hv => hfare ▸ hv)

theorem legsInShift_rule (c : Instr) (r : State → Taken) (hr : ruleOf c = some r) (s : State) (h : legsInShift s) :
    legsInShift (r s).1 := by
  by_cases hchanges : opensOrCloses c = true
  · unfold opensOrCloses at hchanges
    split at hchanges
    · next d =>
      cases hr
      rcases takeShiftOpen_taken d s with ht | ⟨_, _, ht⟩
      · rwa [ht]
      · rw [ht, legsInShift_iff]
        exact .inl (by simp [opensShift, shiftOpen, openedRecord])
    · cases hr
      rcases takeShiftClose_taken s with ht | ⟨_, hfree, _, ht⟩
      · rwa [ht]
      · rw [ht, legsInShift_iff]
        exact .inr (by simpa [closesShift] using vacant_of_allFree hfree)
    · cases hr
      rcases takeFactoryClear_taken s with ht | ⟨_, ht⟩
      · rwa [ht]
      · rw [ht, legsInShift_iff]
        exact .inr (by simpa [factoryClears, clearRetained] using vacant_cleared)
    · cases hr
    · cases hchanges
  · have hshift := sameShift_of_rule c r hr (by simpa using hchanges) s
    by_cases htouches : touches [.fare] c = true
    · by_cases hstart : ∃ x t y, c = .legStart x t y
      · obtain ⟨x, t, y, rfl⟩ := hstart
        cases hr
        rcases takeLegStart_taken x t y s with ht | ⟨_, _, _, _, _, _, _, _, hopen, _, _, _, _, _, _⟩
        · rwa [ht]
        · exact legsInShift_of_same hshift h (fun _ => .inl hopen)
      · exact legsInShift_of_same hshift h
          ((vacant_kept (shiftOpen s)).rule c r hr htouches (fun x t y e => hstart ⟨x, t, y, e⟩) s)
    · have hnot : Block.fare ∉ blocksOf c := by simpa [touches] using htouches
      exact legsInShift_of_fare hshift ((rule_acts c r hr s).same .fare (by simpa using hnot)) h

theorem legsInShift_restarts {s : State} (h : legsInShift s) : legsInShift (restarts s) := by
  by_cases hvalid : s.retained.isValid = true
  · have hshift : sameShift s (restarts s) := by simp [sameShift, restartMemory, hvalid]
    exact legsInShift_of_same hshift h (vacant_kept (shiftOpen s)).restarts
  · have hclosed : shiftOpen (restarts s) = false := by
      simp [shiftOpen, restartMemory, hvalid, clearRetained, ShiftAccounts.cleared]
    rw [legsInShift_iff]
    have hempty : false = true ∨ (restartMemory s).fare.vacant :=
      .inr (by simpa [restartMemory, hvalid, clearRetained] using vacant_cleared)
    have hrestored := (vacant_kept false).map (fun l => Leg.likeChange_restored l
      (restoreTime (restartMemory s).retained (restartMemory s).clock.count)) hempty
    rw [(restarts_rest s).2.2.1]
    refine .inr (Or.resolve_left ?_ Bool.false_ne_true)
    rcases restartBlocks_fare (restartMemory s) with hb | hb
    · rw [hb]
      exact hrestored
    · rw [hb]
      exact (vacant_kept false).map (fun l => Leg.likeChange_unlock l _) hrestored

theorem legsInShift_event (c : Instr) (hr : ruleOf c = none) (hf : takesFrames c = false) (s t : State)
    (ht : exec c s = .next t) (h : legsInShift s) : legsInShift t := by
  by_cases hchanges : opensOrCloses c = true
  · unfold opensOrCloses at hchanges
    split at hchanges
    · cases hr
    · cases hr
    · cases hr
    · cases ht
      split
      · exact legsInShift_restarts h
      · exact legsInShift_restarts h
      · exact h
    · cases hchanges
  · have hshift := sameShift_of_event c hr hf (by simpa using hchanges) s t ht
    by_cases htouches : touches [.fare] c = true
    · exact legsInShift_of_same hshift h ((vacant_kept (shiftOpen s)).event c hr hf htouches s t ht)
    · have hnot : Block.fare ∉ blocksOf c := by simpa [touches] using htouches
      obtain ⟨u, hu, hacts⟩ := event_acts c hr hf s
      rw [ht] at hu
      cases hu
      exact legsInShift_of_fare hshift (hacts.same .fare (by simpa using hnot)) h

end Sys2Proof.Machine
end

