-- ==== Sys2Proof/Proofs/Meters.lean ====
section
/-!
PROOF. The figures of every active leg stay within their bounds (R24, R25, R38, R49, R50): each operation of the fare
engine keeps the tariff records in range and the active legs in bounds.
-/

set_option Elab.async false

namespace Sys2Proof.Machine

/-! ### The condition, at the fare engine -/

/-- Every tariff record is in range. -/
def FareEngine.tariffsFit (e : FareEngine) : Prop := ∀ k : Fin 8, (e.tariffs[k]).inRange

/-- Every active leg is in bounds under its tariff. -/
def FareEngine.legsFit (e : FareEngine) : Prop :=
  ∀ i, (e.legs.get i).state ≠ .free → (e.legs.get i).inBounds (e.tariff (e.legs.get i).tariff)

/-- Both. -/
def FareEngine.metersFit (e : FareEngine) : Prop := e.tariffsFit ∧ e.legsFit

theorem meterKept_iff (s : State) : meterKept s ↔ s.fare.metersFit ∧ legsInShift s :=
  ⟨fun ⟨htariffs, hshift, hlegs⟩ => ⟨⟨htariffs, hlegs⟩, hshift⟩,
   fun ⟨⟨htariffs, hlegs⟩, hshift⟩ => ⟨htariffs, hshift, hlegs⟩⟩

theorem inRange_blank : Tariff.blank.inRange := by simp [Tariff.inRange, Tariff.blank]

theorem FareEngine.tariff_inRange {e : FareEngine} (h : e.tariffsFit) (n : Nat) : (e.tariff n).inRange := by
  unfold FareEngine.tariff
  split
  · exact h _
  · exact inRange_blank

/-- A defined record has a number from 1 to 8. -/
theorem FareEngine.number_of_isDefined {e : FareEngine} {n : Nat} (h : (e.tariff n).isDefined = true) :
    1 ≤ n ∧ n ≤ 8 := by
  unfold FareEngine.tariff tariffIndex? at h
  split at h
  · next hi =>
    split at hi
    · assumption
    · cases hi
  · cases h

theorem writtenTariff_inRange {f : TariffFields} {t : Tariff} (h : writtenTariff? f = some t) : t.inRange := by
  unfold writtenTariff? definedTariff? at h
  repeat' split at h
  · next hfits =>
    cases h
    exact hfits.2
  · cases h
  · cases h
  · cases h
    exact inRange_blank
  · cases h

/-! ### The operations -/

namespace FareEngine

/-- One leg becomes another that is in bounds. -/
theorem metersFit_set {e : FareEngine} (h : e.metersFit) {i : Slot} {l : Leg}
    (hl : l.state ≠ .free → l.inBounds (e.tariff l.tariff)) : metersFit { e with legs := e.legs.set l i } := by
  refine ⟨h.1, fun j hj => ?_⟩
  by_cases hji : j = i
  · subst hji
    simp only [PerSlot.get_set_same] at hj ⊢
    exact hl hj
  · simp only [PerSlot.get_set_other _ _ hji] at hj ⊢
    exact h.2 j hj

/-- Each leg changes so that it stays in bounds. -/
theorem metersFit_map {e : FareEngine} (h : e.metersFit) {g : Leg → Leg}
    (hg : ∀ l : Leg, (l.state ≠ .free → l.inBounds (e.tariff l.tariff)) → (g l).state ≠ .free →
      (g l).inBounds (e.tariff (g l).tariff)) : metersFit { e with legs := e.legs.map g } := by
  refine ⟨h.1, fun i hi => ?_⟩
  simp only [PerSlot.get_map] at hi ⊢
  exact hg _ (h.2 i) hi

theorem metersFit_close {e : FareEngine} (h : e.metersFit) (m count : Nat) : (e.close m count).metersFit := by
  have haccrued : (e.accrueAll m).metersFit := by
    refine metersFit_map h (fun l hl hg => ?_)
    unfold accrueLeg at hg ⊢
    split at hg
    · rename_i hr
      rw [if_pos hr]
      exact Leg.inBounds_accrue (tariff_inRange h.1 _) (hl hg) m
    · rename_i hr
      rw [if_neg hr]
      exact hl hg
  refine metersFit_map haccrued (fun l hl hg => ?_)
  unfold Leg.halt at hg ⊢
  split at hg
  · next hs =>
    rw [if_pos hs]
    exact hl (by simp [hs])
  · next hs =>
    rw [if_neg hs]
    exact hl hg

theorem metersFit_changeTariff {e : FareEngine} (h : e.metersFit) {i : Slot} (hi : (e.legs.get i).state ≠ .free)
    (n : Nat) : (e.changeTariff i n).metersFit := by
  unfold FareEngine.changeTariff
  dsimp only
  split
  · exact h
  · next hbar =>
    simp only [changeBarred, Bool.or_eq_true, not_or, Bool.not_eq_true', Bool.not_eq_false] at hbar
    exact metersFit_set h (fun _ =>
      Leg.inBounds_changeTariff (tariff_inRange h.1 _) (tariff_inRange h.1 n) (h.2 i hi) (number_of_isDefined hbar.1.2))

theorem metersFit_freeLeg {e : FareEngine} (h : e.metersFit) (i : Slot) : (e.freeLeg i).metersFit :=
  metersFit_set (l := Leg.blank) h (fun hne => absurd rfl hne)

theorem metersFit_lock (p : Nat) (slots : List Slot) {e : FareEngine}
    (hslots : ∀ i ∈ slots, (e.legs.get i).state ≠ .free) (h : e.metersFit) : (e.lock p slots).metersFit := by
  induction slots generalizing e with
  | nil => exact h
  | cons i is ih =>
    have hi := hslots i (by simp)
    refine ih (e := { e with legs := e.legs.set { e.legs.get i with state := .paying, paymentId := some p } i })
      (fun j hj => ?_) (metersFit_set h (fun _ => h.2 i hi))
    by_cases hji : j = i
    · subst hji
      simp
    · simp only [PerSlot.get_set_other _ _ hji]
      exact hslots j (by simp [hj])

theorem metersFit_release {e : FareEngine} (h : e.metersFit) (p : Nat) : (e.release p).metersFit :=
  List.foldlRecOn (motive := metersFit) _ _ h (fun _ hu i _ => metersFit_freeLeg hu i)

theorem metersFit_unlock {e : FareEngine} (h : e.metersFit) (p : Nat) : (e.unlock p).metersFit := by
  refine metersFit_map h (fun l hl hg => ?_)
  unfold Leg.unlock at hg ⊢
  split at hg
  · next hp =>
    rw [if_pos hp]
    simp only [Leg.paysUnder, Bool.and_eq_true, beq_iff_eq] at hp
    exact hl (by simp [hp.1])
  · next hp =>
    rw [if_neg hp]
    exact hl hg

theorem metersFit_restored {e : FareEngine} (h : e.metersFit) (count : Nat) : (e.restored count).metersFit := by
  refine metersFit_map h (fun l hl hg => ?_)
  unfold Leg.restored at hg ⊢
  split at hg
  · next hr =>
    rw [if_pos hr]
    refine hl (fun hfree => ?_)
    simp [Leg.runs, hfree] at hr
  · next hr =>
    rw [if_neg hr]
    exact hl hg

theorem metersFit_paidOut {e e' : FareEngine} {p : Nat} (hp : e.paidOut p e') (h : e.metersFit) : e'.metersFit := by
  rcases hp with rfl | rfl | rfl
  · exact h
  · exact metersFit_unlock h p
  · exact metersFit_release h p

theorem metersFit_cleared : FareEngine.cleared.metersFit := by
  refine ⟨fun k => ?_, fun i hi => absurd (vacant_cleared i) hi⟩
  simp only [FareEngine.cleared, Fin.getElem_fin, Vector.getElem_replicate]
  exact inRange_blank

end FareEngine

/-! ### Rules and events -/

theorem startingTariff_number (s : State) (c : TariffChoice) : 1 ≤ startingTariff s c ∧ startingTariff s c ≤ 8 := by
  cases c with
  | scheduled =>
    simp only [startingTariff, scheduledTariff]
    repeat' split
    · next hdef => exact FareEngine.number_of_isDefined hdef
    · decide
    · decide
  | named i =>
    simp only [startingTariff]
    omega

theorem meterKept_readsOnly : readsOnly [.fare, .shifts] meterKept := by
  intro s t hsame h
  rw [meterKept_iff] at h ⊢
  refine ⟨?_, legsInShift_readsOnly s t hsame h.2⟩
  rw [show t.fare = s.fare from hsame .fare (by simp)]
  exact h.1

theorem metersFit_catchUp {i : Slot} {s : State} (hi : (s.fare.legs.get i).state ≠ .free) (h : s.fare.metersFit) :
    (catchUp i s).fare.metersFit := by
  unfold catchUp
  repeat' split
  any_goals exact h
  rw [changeTariff_fare]
  exact FareEngine.metersFit_changeTariff h hi _

theorem metersFit_boundaryAt (count : Nat) {s : State} (h : s.fare.metersFit) : (boundaryAt count s).fare.metersFit := by
  unfold boundaryAt
  split
  · refine List.foldlRecOn (motive := fun t : State => t.fare.metersFit) _ _ h (fun t ht i _ => ?_)
    unfold changeIfFollows
    split
    · next hf =>
      rw [changeTariff_fare]
      refine FareEngine.metersFit_changeTariff ht (fun hfree => ?_) _
      simp [Leg.follows, Leg.runs, State.leg, hfree] at hf
    · exact ht
  · exact h

/-- A tariff record may be written only while no leg is active. -/
theorem metersFit_storeTariff {s : State} (h : s.fare.metersFit) (hvacant : s.fare.vacant) (i : Fin 8) {t : Tariff}
    (ht : t.inRange) : (storeTariff i t s).fare.metersFit := by
  refine ⟨fun k => ?_, fun j hj => absurd (hvacant j) hj⟩
  simp only [storeTariff, Fin.getElem_fin, Vector.getElem_set]
  split
  · exact ht
  · exact h.1 k

theorem metersFit_rule : ∀ (c : Instr) (r : State → Taken), ruleOf c = some r → touches [.fare] c = true →
    ∀ s, meterKept s → (r s).1.fare.metersFit
  | .tariffWrite n f, _, rfl, _ => by
    intro s hkept
    have ⟨h, hshift⟩ := (meterKept_iff s).mp hkept
    rcases takeTariffWrite_taken n f s with ht | ⟨i, t, _, htariff, hopen, ht⟩
    · rwa [ht]
    · have hclosed : shiftOpen s = false := by
        simp only [calibrationOpen, Bool.and_eq_true, Bool.not_eq_true'] at hopen
        exact hopen.2
      rw [ht, (resign_acts _).same .fare]
      exact metersFit_storeTariff h (vacant_of_closed hshift hclosed) i (writtenTariff_inRange htariff)
  | .scheduleWrite e d m t, _, rfl, _ => by
    intro s hkept
    have h := ((meterKept_iff s).mp hkept).1
    simp only [takeScheduleWrite]
    repeat' split
    all_goals exact h
  | .extraKindWrite n d x a l, _, rfl, _ => by
    intro s hkept
    have h := ((meterKept_iff s).mp hkept).1
    simp only [takeExtraKindWrite]
    repeat' split
    all_goals exact h
  | .legStart x t c, _, rfl, _ => by
    intro s hkept
    have h := ((meterKept_iff s).mp hkept).1
    rcases takeLegStart_taken x t c s with ht | ⟨set, choice, share, i, _, _, _, _, _, _, _, _, _, _, ht⟩
    · rwa [ht]
    · rw [ht, startsLeg_fare]
      exact FareEngine.metersFit_set h (fun _ =>
        inBounds_startedLeg (FareEngine.tariff_inRange h.1 _) (startingTariff_number s choice) _ _ _ _)
  | .legStop n, _, rfl, _ => by
    intro s hkept
    have h := ((meterKept_iff s).mp hkept).1
    rcases takeLegStop_taken n s with ht | ⟨i, _, hi, ht⟩
    · rwa [ht]
    · rw [ht]
      exact FareEngine.metersFit_set h (fun _ => h.2 i (by simp [State.leg] at hi; simp [hi]))
  | .legResume n, _, rfl, _ => by
    intro s hkept
    have h := ((meterKept_iff s).mp hkept).1
    rcases takeLegResume_taken n s with ht | ⟨i, _, hi, ht⟩ | ⟨i, _, hi, ht⟩
    · rwa [ht]
    · rw [ht]
      exact FareEngine.metersFit_set h (fun _ => h.2 i (by simp [State.leg] at hi; simp [hi]))
    · rw [ht]
      refine metersFit_catchUp (by simp [State.setLeg]) ?_
      exact FareEngine.metersFit_set h (fun _ => h.2 i (by simp [State.leg] at hi; simp [hi]))
  | .legVoid n, _, rfl, _ => by
    intro s hkept
    have h := ((meterKept_iff s).mp hkept).1
    rcases takeLegVoid_taken n s with ht | ⟨i, _, _, _, ht⟩
    · rwa [ht]
    · rw [ht, voidsLeg_fare]
      exact FareEngine.metersFit_freeLeg h i
  | .legTariff n t, _, rfl, _ => by
    intro s hkept
    have h := ((meterKept_iff s).mp hkept).1
    rcases takeLegTariff_taken n t s with ht | ⟨i, k, _, _, hi, ht⟩
    · rwa [ht]
    · rw [ht, fixesTariff, changeTariff_fare]
      refine FareEngine.metersFit_changeTariff ?_ (by simp [State.setLeg, hi]) _
      exact FareEngine.metersFit_set h (fun _ => h.2 i (by simp [State.leg] at hi; simp [hi]))
  | .legExtraAdd n k a, _, rfl, _ => by
    intro s hkept
    have h := ((meterKept_iff s).mp hkept).1
    rcases takeLegExtraAdd_taken n k a s with ht | ⟨i, asked, kind, _, hi, _, hfull, htotal, ht⟩
    · rwa [ht]
    · rw [ht]
      exact FareEngine.metersFit_set h (fun _ => Leg.inBounds_addExtra (h.2 i hi) hfull htotal asked)
  | .legExtraRemove n, _, rfl, _ => by
    intro s hkept
    have h := ((meterKept_iff s).mp hkept).1
    rcases takeLegExtraRemove_taken n s with ht | ⟨i, e, _, hi, _, he, ht⟩
    · rwa [ht]
    · rw [ht]
      exact FareEngine.metersFit_set h (fun _ => Leg.inBounds_dropExtra (h.2 i hi) he)
  | .payBegin l t o, _, rfl, _ => by
    intro s hkept
    have h := ((meterKept_iff s).mp hkept).1
    rcases takePayBegin_taken l t o s with ht | ⟨slots, tender, offer, _, _, hnone, ht⟩
    · rwa [ht]
    · obtain ⟨_, _, hstopped, _, _⟩ := beginRefusal_none hnone
      have hlocked : (s.fare.lock s.settle.nextId slots).metersFit :=
        FareEngine.metersFit_lock _ _
          (fun i hi => by have := hstopped i hi; simp [State.leg] at this; simp [this]) h
      rw [ht, beginsBy_fare]
      cases tender with
      | card => exact hlocked
      | cash => exact FareEngine.metersFit_release hlocked _
  | .payCash, _, rfl, _ => fun s hkept =>
    FareEngine.metersFit_paidOut (takePayCash_paidOut s) ((meterKept_iff s).mp hkept).1
  | .payCancel, _, rfl, _ => fun s hkept =>
    FareEngine.metersFit_paidOut (takePayCancel_paidOut s) ((meterKept_iff s).mp hkept).1
  | .factoryClear, _, rfl, _ => by
    intro s hkept
    have h := ((meterKept_iff s).mp hkept).1
    rcases takeFactoryClear_taken s with ht | ⟨_, ht⟩
    · rwa [ht]
    · rw [ht]
      simpa [factoryClears, clearRetained] using FareEngine.metersFit_cleared

theorem metersFit_ticks {s : State} (h : s.fare.metersFit) : (ticks s).fare.metersFit := by
  rw [ticks_fare]
  split
  · exact FareEngine.metersFit_close h _ _
  · exact h

theorem metersFit_restarts {s : State} (h : s.fare.metersFit) : (restarts s).fare.metersFit := by
  have hmemory : (restartMemory s).fare.metersFit := by
    unfold restartMemory
    dsimp only
    split
    · exact h
    · exact FareEngine.metersFit_cleared
  rw [(restarts_rest s).2.2.1]
  rcases restartBlocks_fare (restartMemory s) with hb | hb
  · rw [hb]
    exact FareEngine.metersFit_restored hmemory _
  · rw [hb]
    exact FareEngine.metersFit_unlock (FareEngine.metersFit_restored hmemory _) _

theorem metersFit_event : ∀ c : Instr, ruleOf c = none → takesFrames c = false → touches [.fare] c = true →
    ∀ s t, exec c s = .next t → s.fare.metersFit → t.fare.metersFit
  | .secondTick, _, _, _ => by
    rintro s t ⟨⟩ h
    exact metersFit_ticks h
  | .clockWrap, _, _, _ => by
    rintro s t ⟨⟩ h
    split
    · exact h
    · exact metersFit_ticks h
  | .minuteBoundary, _, _, _ => by
    rintro s t ⟨⟩ h
    refine whileRunning_keep (P := fun u => u.fare.metersFit) h (fun _ h => ?_)
    unfold minuteBoundary
    repeat' split
    any_goals exact h
    · exact metersFit_boundaryAt _ h
    · exact metersFit_boundaryAt _ h
  | .abortTimerExpiry, _, _, _ => by
    rintro s t ⟨⟩ h
    exact whileRunning_keep (P := fun u => u.fare.metersFit) h
      (fun _ h => FareEngine.metersFit_paidOut (abortExpires_paidOut s) h)
  | .retryIdleTimerExpiry, _, _, _ => by
    rintro s t ⟨⟩ h
    exact whileRunning_keep (P := fun u => u.fare.metersFit) h
      (fun _ h => FareEngine.metersFit_paidOut (retryIdleExpires_paidOut s) h)
  | .tApproved r n a, _, _, _ => by
    rintro s t ⟨⟩ h
    exact whileRunning_keep (P := fun u => u.fare.metersFit) h
      (fun _ h => FareEngine.metersFit_paidOut (approves_paidOut r n a { s with tender := _ }) h)
  | .tDeclined r n, _, _, _ => by
    rintro s t ⟨⟩ h
    exact whileRunning_keep (P := fun u => u.fare.metersFit) h
      (fun _ h => FareEngine.metersFit_paidOut (declines_paidOut r n { s with tender := _ }) h)
  | .tAborted r, _, _, _ => by
    rintro s t ⟨⟩ h
    exact whileRunning_keep (P := fun u => u.fare.metersFit) h
      (fun _ h => FareEngine.metersFit_paidOut (confirmsAbort_paidOut r { s with tender := _ }) h)
  | .restart, _, _, _ => by
    rintro s t ⟨⟩ h
    split
    · exact metersFit_restarts h
    · exact metersFit_restarts h
    · exact h

theorem meterKept_rule (c : Instr) (r : State → Taken) (hr : ruleOf c = some r)
    (_ : touches [.fare, .shifts] c = true) (s : State) (_ : s.power = .running) (h : meterKept s) :
    meterKept (r s).1 := by
  rw [meterKept_iff]
  refine ⟨?_, legsInShift_rule c r hr s ((meterKept_iff s).mp h).2⟩
  by_cases ht : touches [.fare] c = true
  · exact metersFit_rule c r hr ht s h
  · have hnot : Block.fare ∉ blocksOf c := by simpa [touches] using ht
    rw [(rule_acts c r hr s).same .fare (by simpa using hnot)]
    exact ((meterKept_iff s).mp h).1

theorem meterKept_event (c : Instr) (hr : ruleOf c = none) (hf : takesFrames c = false)
    (_ : touches [.fare, .shifts] c = true) (s t : State) (ht : exec c s = .next t) (h : meterKept s) :
    meterKept t := by
  rw [meterKept_iff] at h ⊢
  refine ⟨?_, legsInShift_event c hr hf s t ht h.2⟩
  by_cases hto : touches [.fare] c = true
  · exact metersFit_event c hr hf hto s t ht h.1
  · have hnot : Block.fare ∉ blocksOf c := by simpa [touches] using hto
    obtain ⟨u, hu, hacts⟩ := event_acts c hr hf s
    rw [ht] at hu
    cases hu
    rw [hacts.same .fare (by simpa using hnot)]
    exact h.1

/-- Settles O9. -/
theorem meterFiguresStayInBounds : Obligations.MeterFiguresStayInBounds :=
  step_keeps meterKept_readsOnly (by decide) meterKept_rule meterKept_event
    (fun s => meterKept_readsOnly.keeps (baseStep_acts s) (by decide))

end Sys2Proof.Machine
end

