-- ==== Sys2Proof/Proofs/Sessions.lean ====
section
/-!
PROOF. The payment session stays consistent with its timer and its legs (R53, R54, R62): what each payment operation
makes of the session, and that every other operation leaves the PAYING legs as they were.
-/

set_option Elab.async false

namespace Sys2Proof.Machine

/-! ### The PAYING legs -/

/-- The PAYING legs are those of the open session, under its payment id. -/
def FareEngine.payingFor (e : FareEngine) (p : Session) : Prop :=
  (∀ i, (e.legs.get i).state = .paying ↔ (p.state.isOpen = true ∧ i ∈ p.slots))
    ∧ ∀ i, (e.legs.get i).state = .paying → (e.legs.get i).paymentId = some p.paymentId

/-- No leg is PAYING. -/
def FareEngine.nonePaying (e : FareEngine) : Prop := ∀ i, (e.legs.get i).state ≠ .paying

/-- A change of a leg that leaves whether it is PAYING, and all of a leg that is. -/
def Leg.samePaying (l l' : Leg) : Prop :=
  (l'.state = .paying ↔ l.state = .paying) ∧ (l'.state = .paying → l' = l)

/-- Every leg changes so. -/
def FareEngine.samePaying (e e' : FareEngine) : Prop := ∀ i, (e.legs.get i).samePaying (e'.legs.get i)

theorem Leg.samePaying_refl (l : Leg) : l.samePaying l := ⟨Iff.rfl, fun _ => rfl⟩

/-- Neither before nor after is the leg PAYING. -/
theorem Leg.samePaying_of_not {l l' : Leg} (h : l.state ≠ .paying) (h' : l'.state ≠ .paying) : l.samePaying l' :=
  ⟨iff_of_false h' h, fun hp => absurd hp h'⟩

theorem Leg.not_paying_of_runs {l : Leg} (h : l.runs = true) : l.state ≠ .paying := by
  intro hp
  simp [Leg.runs, hp] at h

namespace FareEngine

theorem samePaying_refl (e : FareEngine) : e.samePaying e := fun _ => Leg.samePaying_refl _

theorem samePaying_trans {a b c : FareEngine} (h : a.samePaying b) (h' : b.samePaying c) : a.samePaying c := fun i =>
  ⟨(h' i).1.trans (h i).1, fun hp => ((h' i).2 hp).trans ((h i).2 ((h' i).1.mp hp))⟩

theorem samePaying_set (e : FareEngine) {i : Slot} {l : Leg} (hl : (e.legs.get i).samePaying l) :
    e.samePaying { e with legs := e.legs.set l i } := by
  intro j
  by_cases hj : j = i
  · subst hj
    simpa using hl
  · simp only [PerSlot.get_set_other _ _ hj]
    exact Leg.samePaying_refl _

theorem samePaying_map (e : FareEngine) {g : Leg → Leg} (hg : ∀ l : Leg, l.samePaying (g l)) :
    e.samePaying { e with legs := e.legs.map g } := fun i => by simpa using hg _

theorem samePaying_close (e : FareEngine) (m count : Nat) : e.samePaying (e.close m count) := by
  refine samePaying_trans (samePaying_map e (g := e.accrueLeg m) (fun l => ?_))
    (samePaying_map (e.accrueAll m) (fun l => ?_))
  · unfold accrueLeg
    split
    · next hr => exact Leg.samePaying_of_not (Leg.not_paying_of_runs hr) (Leg.not_paying_of_runs hr)
    · exact Leg.samePaying_refl l
  · unfold Leg.halt
    split
    · next h => exact Leg.samePaying_of_not (by simp [h]) (by simp)
    · exact Leg.samePaying_refl l

theorem samePaying_changeTariff (e : FareEngine) {i : Slot} (hi : (e.legs.get i).state ≠ .paying) (n : Nat) :
    e.samePaying (e.changeTariff i n) := by
  unfold FareEngine.changeTariff
  dsimp only
  split
  · exact samePaying_refl e
  · exact samePaying_set e (Leg.samePaying_of_not hi hi)

theorem samePaying_restored (e : FareEngine) (count : Nat) : e.samePaying (e.restored count) := by
  refine samePaying_map e (fun l => ?_)
  unfold Leg.restored
  split
  · next h => exact Leg.samePaying_of_not (Leg.not_paying_of_runs h) (by simp)
  · exact Leg.samePaying_refl l

/-- A leg that is FREE or to be FREE is not PAYING. -/
theorem samePaying_freeLeg (e : FareEngine) {i : Slot} (hi : (e.legs.get i).state ≠ .paying) :
    e.samePaying (e.freeLeg i) := by
  intro j
  rw [freeLeg_get]
  split
  · next hj => exact Leg.samePaying_of_not (hj ▸ hi) (by simp [Leg.blank])
  · exact Leg.samePaying_refl _

theorem payingFor_of_same {e e' : FareEngine} {p : Session} (h : e.payingFor p) (hsame : e.samePaying e') :
    e'.payingFor p :=
  ⟨fun i => (hsame i).1.trans (h.1 i), fun i hi => by rw [(hsame i).2 hi]; exact h.2 i ((hsame i).1.mp hi)⟩

/-- The session changes, but not which legs it holds open under which id. -/
theorem payingFor_of_session {e : FareEngine} {p q : Session} (h : e.payingFor p)
    (hopen : q.state.isOpen = p.state.isOpen) (hlegs : q.legs = p.legs) (hid : q.paymentId = p.paymentId) :
    e.payingFor q := by
  have hslots : q.slots = p.slots := by rw [Session.slots, Session.slots, hlegs]
  exact ⟨fun i => by rw [hopen, hslots]; exact h.1 i, fun i hi => by rw [hid]; exact h.2 i hi⟩

theorem payingFor_of_none {e : FareEngine} {p : Session} (h : e.nonePaying) (hclosed : p.state.isOpen = false) :
    e.payingFor p :=
  ⟨fun i => iff_of_false (h i) (by simp [hclosed]), fun i hi => absurd hi (h i)⟩

theorem nonePaying_of_closed {e : FareEngine} {p : Session} (h : e.payingFor p) (hclosed : p.state.isOpen = false) :
    e.nonePaying := fun i hi => by simpa [hclosed] using (h.1 i).mp hi

theorem nonePaying_cleared : FareEngine.cleared.nonePaying := fun i => by simp [vacant_cleared i]

/-- Where every PAYING leg has the id, an unlock leaves none PAYING. -/
theorem nonePaying_unlock {e : FareEngine} {p : Session} (h : e.payingFor p) : (e.unlock p.paymentId).nonePaying := by
  intro i
  simp only [FareEngine.unlock, PerSlot.get_map, Leg.unlock]
  split
  · simp
  · next hpays =>
    intro hp
    exact hpays (by simp [Leg.paysUnder, hp, h.2 i hp])

theorem release_get (e : FareEngine) (p : Nat) (i : Slot) :
    (e.release p).legs.get i = if (e.legs.get i).paysUnder p then Leg.blank else e.legs.get i := by
  have hfold (slots : List Slot) (u : FareEngine) :
      (slots.foldl FareEngine.freeLeg u).legs.get i = if i ∈ slots then Leg.blank else u.legs.get i := by
    induction slots generalizing u with
    | nil => simp
    | cons j js ih =>
      rw [List.foldl_cons, ih, freeLeg_get]
      by_cases hi : i ∈ js
      · simp [hi]
      · by_cases hj : i = j <;> simp [hi, hj]
  have hmem : i ∈ Slot.all := by cases i <;> simp [Slot.all]
  rw [FareEngine.release, hfold]
  simp [FareEngine.slotsPaying, hmem]

/-- Where every PAYING leg has the id, a release leaves none PAYING. -/
theorem nonePaying_release {e : FareEngine} {p : Session} (h : e.payingFor p) : (e.release p.paymentId).nonePaying := by
  intro i
  rw [release_get]
  split
  · simp [Leg.blank]
  · next hpays =>
    intro hp
    exact hpays (by simp [Leg.paysUnder, hp, h.2 i hp])

theorem lock_get (e : FareEngine) (p : Nat) (slots : List Slot) (i : Slot) :
    (e.lock p slots).legs.get i
      = if i ∈ slots then { e.legs.get i with state := .paying, paymentId := some p } else e.legs.get i := by
  unfold FareEngine.lock
  induction slots generalizing e with
  | nil => simp
  | cons j js ih =>
    rw [List.foldl_cons, ih]
    by_cases hj : i = j
    · subst hj
      simp
    · simp [PerSlot.get_set_other _ _ hj, hj]

/-- Where none was PAYING, a lock makes the legs of an open session PAYING under its id. -/
theorem payingFor_lock {e : FareEngine} {p : Session} (h : e.nonePaying) (hopen : p.state.isOpen = true) :
    (e.lock p.paymentId p.slots).payingFor p := by
  refine ⟨fun i => ?_, fun i hi => ?_⟩
  · rw [lock_get]
    split
    · next hi => simp [hi, hopen]
    · next hi => exact iff_of_false (h i) (fun hp => hi hp.2)
  · rw [lock_get] at hi ⊢
    split at hi
    · next hmem => simp [hmem]
    · exact absurd hi (h i)

end FareEngine

/-! ### The session, its timer and its legs -/

/-- The timer is that of the session's state while the part runs, and none while it is stopped. -/
def timerFits (running : Prop) [Decidable running] (u : Settlement) : Prop :=
  u.timer.map SessionTimer.kind = if running then timerOf u.session.state else none

/-- No timer runs and the state starts none. -/
theorem timerFits_of_none {running : Prop} [Decidable running] {u : Settlement} (h : u.timer = none)
    (hs : timerOf u.session.state = none) : timerFits running u := by
  simp [timerFits, h, hs]

/-- An open session has legs, and none twice. -/
def Session.legsFit (p : Session) : Prop := (p.state.isOpen = true → p.legs ≠ []) ∧ p.slots.Nodup

theorem sessionKept_iff (s : State) :
    sessionKept s ↔ s.settle.session.consistent ∧ timerFits (s.power = .running) s.settle
      ∧ s.settle.session.legsFit ∧ s.fare.payingFor s.settle.session :=
  ⟨fun ⟨hc, ht, hl, hn, hp, hi⟩ => ⟨hc, ht, ⟨hl, hn⟩, hp, hi⟩, fun ⟨hc, ht, ⟨hl, hn⟩, hp, hi⟩ => ⟨hc, ht, hl, hn, hp, hi⟩⟩

theorem Session.legsFit_congr {p q : Session} (h : p.legsFit) (hlegs : q.legs = p.legs)
    (hopen : q.state.isOpen = true → p.state.isOpen = true) : q.legsFit := by
  unfold Session.legsFit Session.slots at *
  rw [hlegs]
  exact ⟨fun ho => h.1 (hopen ho), h.2⟩

theorem sessionKept_readsOnly : readsOnly [.settle, .fare, .power] sessionKept := by
  intro s t hsame h
  have hsettle : t.settle = s.settle := hsame .settle (by simp)
  have hfare : t.fare = s.fare := hsame .fare (by simp)
  have hpower : t.power = s.power := hsame .power (by simp)
  simpa [sessionKept, State.leg, hsettle, hfare, hpower] using h

/-- What has no effect on session, timer and PAYING legs keeps the condition. -/
theorem sessionKept_of_same {s t : State} (h : sessionKept s) (hpower : t.power = s.power)
    (hsession : t.settle.session = s.settle.session)
    (htimer : t.settle.timer.map SessionTimer.kind = s.settle.timer.map SessionTimer.kind)
    (hfare : s.fare.samePaying t.fare) : sessionKept t := by
  obtain ⟨hcons, ht, hlegs, hpaying⟩ := (sessionKept_iff s).mp h
  rw [sessionKept_iff, hsession]
  refine ⟨hcons, ?_, hlegs, FareEngine.payingFor_of_same hpaying hfare⟩
  unfold timerFits at ht ⊢
  simp only [htimer, ht, hsession, hpower]

/-- The session of a running part has closed, no timer runs and no leg is PAYING. -/
theorem sessionKept_of_closed {s t : State} (h : sessionKept s) (hlegs : t.settle.session.legs = s.settle.session.legs)
    (hstate : timerOf t.settle.session.state = none) (hout : t.settle.session.outstanding = none)
    (htimer : t.settle.timer = none) (hfare : t.fare.nonePaying) : sessionKept t := by
  obtain ⟨-, -, hfit, -⟩ := (sessionKept_iff s).mp h
  have hclosed : t.settle.session.state.isOpen = false := by
    revert hstate
    cases t.settle.session.state <;> simp [timerOf, SessionState.isOpen]
  rw [sessionKept_iff]
  refine ⟨?_, ?_, Session.legsFit_congr hfit hlegs (by simp [hclosed]), FareEngine.payingFor_of_none hfare hclosed⟩
  · unfold Session.consistent
    revert hstate
    cases t.settle.session.state <;> simp [timerOf, hout]
  · simp [timerFits, htimer, hstate]

/-- The open session of a running part moves on to another open state with its timer. -/
theorem sessionKept_of_open {s t : State} (h : sessionKept s) (hpower : t.power = .running)
    (hwas : s.settle.session.state.isOpen = true) (hopen : t.settle.session.state.isOpen = true)
    (hlegs : t.settle.session.legs = s.settle.session.legs) (hid : t.settle.session.paymentId = s.settle.session.paymentId)
    (hcons : t.settle.session.consistent)
    (htimer : t.settle.timer.map SessionTimer.kind = timerOf t.settle.session.state) (hfare : t.fare = s.fare) :
    sessionKept t := by
  obtain ⟨-, -, hfit, hpaying⟩ := (sessionKept_iff s).mp h
  rw [sessionKept_iff, hfare]
  refine ⟨hcons, ?_, Session.legsFit_congr hfit hlegs (fun _ => hwas),
    FareEngine.payingFor_of_session hpaying (hopen.trans hwas.symm) hlegs hid⟩
  rw [timerFits, if_pos hpower, htimer]

/-- Where a reference is outstanding the session is AUTHORISING or ABORTING, in one of three attempts. -/
theorem Session.consistent_outstanding {p : Session} (h : p.consistent) {r : Ref} (hr : p.outstanding = some r) :
    (p.state = .authorising ∨ p.state = .aborting)
      ∧ (p.attempt = some 1 ∨ p.attempt = some 2 ∨ p.attempt = some 3) := by
  unfold Session.consistent at h
  split at h <;> simp_all

theorem isOpen_of_outstanding {s : State} (h : sessionKept s) {r : Ref} (hr : s.settle.session.outstanding = some r) :
    s.settle.session.state.isOpen = true := by
  rcases (Session.consistent_outstanding h.1 hr).1 with hs | hs <;> simp [hs, SessionState.isOpen]

/-! ### The payment operations -/

theorem sessionKept_closeUnpaid {s : State} (h : sessionKept s) (x : SessionState) (hx : timerOf x = none)
    (c : CloseCause) : sessionKept (closeUnpaid x c s) := by
  have hpaying := ((sessionKept_iff s).mp h).2.2.2
  refine sessionKept_of_closed h ?_ ?_ ?_ ?_ ?_
  · simp [Session.close]
  · simpa [Session.close] using hx
  · simp [Session.close]
  · simp
  · rw [closeUnpaid_fare]
    exact FareEngine.nonePaying_unlock hpaying

theorem sessionKept_endsUnapproved {s : State} (h : sessionKept s) (hrun : s.power = .running) {r : Ref}
    (hr : s.settle.session.outstanding = some r) (reason : DeclineReason) : sessionKept (endsUnapproved reason s) := by
  have hpaying := ((sessionKept_iff s).mp h).2.2.2
  have hattempt := (Session.consistent_outstanding h.1 hr).2
  by_cases hlt : s.settle.session.attempt.getD 0 < 3
  · refine sessionKept_of_open h ?_ (isOpen_of_outstanding h hr) ?_ ?_ ?_ ?_ ?_ ?_
    · rw [(endsUnapproved_acts reason s).same .power, hrun]
    · simp [Session.unapproved, hlt, SessionState.isOpen]
    · simp [Session.unapproved, hlt]
    · simp [Session.unapproved, hlt]
    · rcases hattempt with ha | ha | ha <;> simp_all [Session.unapproved, Session.consistent]
    · simp [Session.unapproved, hlt, timerOf]
    · simp [hlt]
  · refine sessionKept_of_closed h ?_ ?_ ?_ ?_ ?_
    · simp [Session.unapproved, hlt, Session.close]
    · simp [Session.unapproved, hlt, Session.close, timerOf]
    · simp [Session.unapproved, hlt, Session.close]
    · simp [hlt]
    · rw [endsUnapproved_fare, if_neg hlt]
      exact FareEngine.nonePaying_unlock hpaying

theorem sessionKept_abortEnds {s : State} (h : sessionKept s) (hrun : s.power = .running) {r : Ref}
    (hr : s.settle.session.outstanding = some r) (reason : DeclineReason) : sessionKept (abortEnds reason s) := by
  unfold abortEnds
  split
  · exact sessionKept_closeUnpaid h _ rfl _
  · exact sessionKept_endsUnapproved h hrun hr reason

theorem sessionKept_enterAborting {s : State} (h : sessionKept s) (hrun : s.power = .running)
    (hstate : s.settle.session.state = .authorising) (c : AbortCause) (r : Ref) :
    sessionKept (enterAborting c r s) := by
  have hcons := h.1
  refine sessionKept_of_open h ?_ (by simp [hstate, SessionState.isOpen]) ?_ ?_ ?_ ?_ ?_ ?_
  · rw [(enterAborting_acts c r s).same .power, hrun]
  · simp [SessionState.isOpen]
  · simp
  · simp
  · simp only [Session.consistent, hstate] at hcons
    simp [Session.consistent, hcons.1, hcons.2.1]
  · simp [timerOf]
  · exact (enterAborting_acts c r s).same .fare

/-- Entry to AUTHORISING of a session `p` in one of three attempts. -/
theorem sessionKept_enterAuthorising {s : State} (h : sessionKept s) (hrun : s.power = .running)
    (hopen : s.settle.session.state.isOpen = true) {g : Session → Session}
    (hattempt : (g s.settle.session).attempt = some 1 ∨ (g s.settle.session).attempt = some 2
      ∨ (g s.settle.session).attempt = some 3)
    (hlegs : (g s.settle.session).legs = s.settle.session.legs)
    (hid : (g s.settle.session).paymentId = s.settle.session.paymentId) :
    sessionKept (enterAuthorising (setSession g s)) := by
  refine sessionKept_of_open h ?_ hopen ?_ ?_ ?_ ?_ ?_ ?_
  · rw [(enterAuthorising_acts (setSession g s)).same .power]
    exact hrun
  · simp [SessionState.isOpen]
  · simpa [setSession] using hlegs
  · simpa [setSession] using hid
  · simpa [Session.consistent, setSession] using hattempt
  · simp [timerOf]
  · exact (enterAuthorising_acts (setSession g s)).same .fare

theorem sessionKept_settles {s : State} (h : sessionKept s) {close : Session → Session} (paid : List LegPaid)
    (hlegs : (close s.settle.session).legs = s.settle.session.legs)
    (hstate : (close s.settle.session).state = .settled) (hout : (close s.settle.session).outstanding = none) :
    sessionKept (settles close paid s) := by
  have hpaying := ((sessionKept_iff s).mp h).2.2.2
  refine sessionKept_of_closed h ?_ ?_ ?_ ?_ ?_
  · simpa using hlegs
  · simp [hstate, timerOf]
  · simpa using hout
  · simp
  · rw [settles_fare]
    exact FareEngine.nonePaying_release hpaying

/-- Lists of the settlement unit, the next id and the settings have no part in the condition. -/
theorem sessionKept_withSettle {s : State} (h : sessionKept s) {u : Settlement} (hsession : u.session = s.settle.session)
    (htimer : u.timer.map SessionTimer.kind = s.settle.timer.map SessionTimer.kind) :
    sessionKept { s with settle := u } :=
  sessionKept_of_same h rfl hsession htimer (FareEngine.samePaying_refl _)

theorem sessionKept_removeStale {s : State} (h : sessionKept s) (r : Ref) : sessionKept (removeStale r s) :=
  sessionKept_withSettle h rfl rfl

theorem sessionKept_makeReversal {s : State} (h : sessionKept s) (places : Nat) (r : Ref) (n : Nat) :
    sessionKept (makeReversal places r n s) := by
  refine sessionKept_of_same h ((makeReversal_acts _ _ _ _).same .power) (by simp) ?_ ?_
  · rw [makeReversal_settle]
    split <;> rfl
  · rw [makeReversal_fare]
    exact FareEngine.samePaying_refl _

theorem sessionKept_withTender {s : State} (h : sessionKept s) (u : TenderLink) : sessionKept { s with tender := u } :=
  sessionKept_of_same h rfl rfl rfl (FareEngine.samePaying_refl _)

theorem sessionKept_approves {s : State} (h : sessionKept s) (hrun : s.power = .running) (r : Ref) (n : Nat) (a : Text) :
    sessionKept (approves r n a s) := by
  unfold approves takesApproval
  split
  · next hr =>
    dsimp only
    split
    · exact sessionKept_settles (sessionKept_removeStale h r) _ rfl rfl rfl
    · refine sessionKept_abortEnds (sessionKept_makeReversal (sessionKept_removeStale h r) _ _ _) ?_ (r := r) ?_ _
      · rw [(makeReversal_acts _ _ _ _).same .power]
        exact hrun
      · rw [makeReversal_session]
        exact hr
  · have hlate := sessionKept_removeStale (sessionKept_makeReversal h 5 r n) r
    have hacts := takesLateApproval_acts r n s
    refine sessionKept_of_same hlate ?_ ?_ ?_ ?_
    · rw [hacts.same .power]
      exact ((makeReversal_acts 5 r n s).same .power).symm
    · rw [takesLateApproval_settle]
    · rw [takesLateApproval_settle]
    · rw [hacts.same .fare]
      have : (removeStale r (makeReversal 5 r n s)).fare = s.fare := makeReversal_fare 5 r n s
      rw [this]
      exact FareEngine.samePaying_refl _

theorem sessionKept_declines {s : State} (h : sessionKept s) (hrun : s.power = .running) (r : Ref) (n : Nat) :
    sessionKept (declines r n s) := by
  have hstale := sessionKept_removeStale h r
  unfold declines
  dsimp only
  split
  · next hr =>
    split
    · exact sessionKept_abortEnds hstale hrun hr _
    · exact sessionKept_endsUnapproved hstale hrun hr _
  · exact hstale

theorem sessionKept_confirmsAbort {s : State} (h : sessionKept s) (hrun : s.power = .running) (r : Ref) :
    sessionKept (confirmsAbort r s) := by
  unfold confirmsAbort
  split
  · next hr =>
    split
    · exact sessionKept_abortEnds (sessionKept_removeStale h r) hrun hr _
    · exact h
  · exact sessionKept_removeStale h r

/-! ### PAY_BEGIN -/

theorem slotSet_nodup {n : Nat} {slots : List Slot} (h : slotSet? n = some slots) (hn : n ≠ 0) :
    slots.Nodup ∧ slots ≠ [] := by
  unfold slotSet? at h
  split at h
  · next hlt =>
    cases h
    interval_cases n
    all_goals first | exact absurd rfl hn | decide
  · cases h

@[simp] theorem begunSession_slots (slots : List Slot) (t : Tender) (offer : Bool) (s : State) :
    (begunSession slots t offer s).slots = slots := by
  simp [begunSession, Session.slots, legDues, Function.comp_def]

theorem sessionKept_beginsCard {s : State} (h : sessionKept s) (hrun : s.power = .running) {slots : List Slot}
    (hnodup : slots.Nodup) (hne : slots ≠ []) (hclosed : s.settle.session.state.isOpen = false) (offer : Bool) :
    sessionKept (beginsCard slots offer s).1 := by
  have hnone := FareEngine.nonePaying_of_closed ((sessionKept_iff s).mp h).2.2.2 hclosed
  have hpaying (p : Session) (hp : p.legs = (begunSession slots .card offer s).legs)
      (hid : p.paymentId = s.settle.nextId) (hopen : p.state.isOpen = true) :
      p.legsFit ∧ (s.fare.lock s.settle.nextId slots).payingFor p := by
    have hslots : p.slots = slots := by rw [Session.slots, hp]; exact begunSession_slots slots .card offer s
    refine ⟨⟨fun _ => ?_, hslots ▸ hnodup⟩, ?_⟩
    · rw [hp]
      simpa [begunSession, legDues] using hne
    · rw [← hid, ← hslots]
      exact FareEngine.payingFor_lock hnone hopen
  rw [sessionKept_iff]
  simp only [beginsCard]
  split
  · have hfare : (enterTipWait (beginsPayment slots .card offer s)).fare = s.fare.lock s.settle.nextId slots := by
      rw [(enterTipWait_acts _).same .fare, beginsPayment_fare]
    have hpower : (enterTipWait (beginsPayment slots .card offer s)).power = .running := by
      rw [(enterTipWait_acts _).same .power, (beginsPayment_acts _ _ _ _).same .power, hrun]
    rw [hfare]
    refine ⟨?_, ?_, hpaying _ ?_ ?_ ?_⟩
    · simp [Session.consistent, begunSession, Session.blank]
    · simp [timerFits, hpower, timerOf]
    · simp
    · simp [begunSession]
    · simp [SessionState.isOpen]
  · have hfare : (enterAuthorising (beginsPayment slots .card offer s)).fare = s.fare.lock s.settle.nextId slots := by
      rw [(enterAuthorising_acts _).same .fare, beginsPayment_fare]
    have hpower : (enterAuthorising (beginsPayment slots .card offer s)).power = .running := by
      rw [(enterAuthorising_acts _).same .power, (beginsPayment_acts _ _ _ _).same .power, hrun]
    rw [hfare]
    refine ⟨?_, ?_, hpaying _ ?_ ?_ ?_⟩
    · simp [Session.consistent, begunSession]
    · simp [timerFits, hpower, timerOf]
    · simp
    · simp [begunSession]
    · simp [SessionState.isOpen]

theorem sessionKept_beginsCash {s : State} (h : sessionKept s) {slots : List Slot}
    (hnodup : slots.Nodup) (hclosed : s.settle.session.state.isOpen = false) (offer : Bool) :
    sessionKept (beginsCash slots offer s).1 := by
  have hnone := FareEngine.nonePaying_of_closed ((sessionKept_iff s).mp h).2.2.2 hclosed
  rw [sessionKept_iff]
  simp only [beginsCash, settlesByCash, settles_settle, settles_fare, beginsPayment_settle, beginsPayment_fare]
  refine ⟨?_, timerFits_of_none rfl rfl, ⟨?_, ?_⟩, FareEngine.payingFor_of_none (fun i => ?_) ?_⟩
  · simp [Session.consistent, Session.paidCash, Session.close]
  · simp [Session.paidCash, Session.close, SessionState.isOpen]
  · have : (begunSession slots .cash offer s).slots.Nodup := by simpa using hnodup
    exact this
  · rw [FareEngine.release_get]
    split
    · simp [Leg.blank]
    · next hpays =>
      rw [FareEngine.lock_get] at hpays ⊢
      split
      · next hi => simp [hi, Leg.paysUnder, begunSession] at hpays
      · exact hnone i
  · simp [Session.paidCash, Session.close, SessionState.isOpen]

/-! ### Rules -/

theorem samePaying_catchUp {i : Slot} {s : State} (hi : (s.fare.legs.get i).state ≠ .paying) : s.fare.samePaying (catchUp i s).fare := by
  unfold catchUp
  repeat' split
  any_goals exact FareEngine.samePaying_refl _
  rw [changeTariff_fare]
  exact FareEngine.samePaying_changeTariff _ hi _

theorem samePaying_boundaryAt (count : Nat) (s : State) : s.fare.samePaying (boundaryAt count s).fare := by
  unfold boundaryAt
  split
  · refine List.foldlRecOn (motive := fun t : State => s.fare.samePaying t.fare) _ _ (FareEngine.samePaying_refl _)
      (fun t ht i _ => ?_)
    unfold changeIfFollows
    split
    · next hf =>
      simp only [Leg.follows, Bool.and_eq_true] at hf
      rw [changeTariff_fare]
      exact FareEngine.samePaying_trans ht
        (FareEngine.samePaying_changeTariff _ (Leg.not_paying_of_runs hf.2) _)
    · exact ht
  · exact FareEngine.samePaying_refl _

/-- A request that writes neither the session nor its legs' PAYING state. -/
theorem sessionKept_of_fare {s t : State} (h : sessionKept s) (hacts : acts [.fare, .journal, .shifts, .sign, .speakers,
    .retained, .link] s t) (hfare : s.fare.samePaying t.fare) : sessionKept t := by
  have hsettle : t.settle = s.settle := hacts.same .settle
  exact sessionKept_of_same h (hacts.same .power) (by rw [hsettle]) (by rw [hsettle]) hfare

/-- What the leg requests and table writes do to the PAYING legs. -/
theorem samePaying_legRule : ∀ (c : Instr) (r : State → Taken), ruleOf c = some r → touches [.fare] c = true →
    touches [.settle] c = false → ∀ s : State, s.fare.samePaying (r s).1.fare
  | .tariffWrite n f, _, rfl, _, _ => by
    intro s
    rcases takeTariffWrite_taken n f s with ht | ⟨i, t, _, _, _, ht⟩
    · rw [ht]
      exact FareEngine.samePaying_refl _
    · rw [ht, (resign_acts _).same .fare]
      exact FareEngine.samePaying_refl _
  | .scheduleWrite e d m t, _, rfl, _, _ => by
    intro s
    simp only [takeScheduleWrite]
    repeat' split
    all_goals exact FareEngine.samePaying_refl _
  | .extraKindWrite n d x a l, _, rfl, _, _ => by
    intro s
    simp only [takeExtraKindWrite]
    repeat' split
    all_goals exact FareEngine.samePaying_refl _
  | .legStart x t c, _, rfl, _, _ => by
    intro s
    rcases takeLegStart_taken x t c s with ht | ⟨set, choice, share, i, _, _, _, _, _, hfree, _, _, _, _, ht⟩
    · rw [ht]
      exact FareEngine.samePaying_refl _
    · have hi : (s.fare.legs.get i).state = .free := by simpa [State.leg] using List.find?_some hfree
      rw [ht, startsLeg_fare]
      exact FareEngine.samePaying_set s.fare (Leg.samePaying_of_not (by simp [hi]) (by simp [startedLeg]))
  | .legStop n, _, rfl, _, _ => by
    intro s
    rcases takeLegStop_taken n s with ht | ⟨i, _, hi, ht⟩
    · rw [ht]
      exact FareEngine.samePaying_refl _
    · rw [ht]
      exact FareEngine.samePaying_set s.fare (Leg.samePaying_of_not (l := s.leg i) (by simp [hi]) (by simp))
  | .legResume n, _, rfl, _, _ => by
    intro s
    rcases takeLegResume_taken n s with ht | ⟨i, _, hi, ht⟩ | ⟨i, _, hi, ht⟩
    · rw [ht]
      exact FareEngine.samePaying_refl _
    · rw [ht]
      exact FareEngine.samePaying_set s.fare (Leg.samePaying_of_not (l := s.leg i) (by simp [hi]) (by simp))
    · rw [ht]
      refine FareEngine.samePaying_trans ?_ (samePaying_catchUp (by simp [State.setLeg]))
      exact FareEngine.samePaying_set s.fare (Leg.samePaying_of_not (l := s.leg i) (by simp [hi]) (by simp))
  | .legVoid n, _, rfl, _, _ => by
    intro s
    rcases takeLegVoid_taken n s with ht | ⟨i, _, hi, _, ht⟩
    · rw [ht]
      exact FareEngine.samePaying_refl _
    · rw [ht, voidsLeg_fare]
      refine FareEngine.samePaying_freeLeg s.fare ?_
      rcases hi with hi | hi <;> · simp [State.leg] at hi; simp [hi]
  | .legTariff n t, _, rfl, _, _ => by
    intro s
    rcases takeLegTariff_taken n t s with ht | ⟨i, k, _, _, hi, ht⟩
    · rw [ht]
      exact FareEngine.samePaying_refl _
    · rw [ht, fixesTariff, changeTariff_fare]
      refine FareEngine.samePaying_trans ?_
        (FareEngine.samePaying_changeTariff _ (by simp [State.setLeg, hi]) _)
      exact FareEngine.samePaying_set s.fare (Leg.samePaying_of_not (l := s.leg i) (by simp [hi]) (by simp [hi]))
  | .legExtraAdd n k a, _, rfl, _, _ => by
    intro s
    rcases takeLegExtraAdd_taken n k a s with ht | ⟨i, asked, kind, _, _, hi, _, _, ht⟩
    · rw [ht]
      exact FareEngine.samePaying_refl _
    · rw [ht]
      exact FareEngine.samePaying_set s.fare (Leg.samePaying_of_not (l := s.leg i) hi hi)
  | .legExtraRemove n, _, rfl, _, _ => by
    intro s
    rcases takeLegExtraRemove_taken n s with ht | ⟨i, e, _, _, hi, _, ht⟩
    · rw [ht]
      exact FareEngine.samePaying_refl _
    · rw [ht]
      exact FareEngine.samePaying_set s.fare (Leg.samePaying_of_not (l := s.leg i) hi hi)

/-- What the requests of settlement, shift and factory clear do to the session. -/
theorem sessionKept_settleRule : ∀ (c : Instr) (r : State → Taken), ruleOf c = some r → touches [.settle] c = true →
    ∀ s, s.power = .running → sessionKept s → sessionKept (r s).1
  | .shareSet x, _, rfl, _ => by
    intro s _ h
    simp only [takeShareSet]
    split
    · exact sessionKept_readsOnly.keeps (resign_acts _) (by decide) (sessionKept_withSettle h rfl rfl)
    · exact h
  | .paySettingsWrite f, _, rfl, _ => by
    intro s _ h
    simp only [takePaySettingsWrite]
    repeat' split
    · exact h
    · exact h
    · exact sessionKept_withSettle h rfl rfl
  | .payBegin l t o, _, rfl, _ => by
    intro s hrun h
    rcases takePayBegin_taken l t o s with ht | ⟨slots, tender, offer, hslots, hne, hnone, ht⟩
    · rwa [ht]
    · obtain ⟨_, _, _, hclosed, _⟩ := beginRefusal_none hnone
      obtain ⟨hnodup, hsome⟩ := slotSet_nodup hslots hne
      rw [ht]
      cases tender with
      | card => exact sessionKept_beginsCard h hrun hnodup hsome hclosed offer
      | cash => exact sessionKept_beginsCash h hnodup hclosed offer
  | .payTip x v, _, rfl, _ => by
    intro s hrun h
    rcases takePayTip_taken x v s with ht | ⟨hstate, tip, ceiled, limited, ht⟩
    · rwa [ht]
    · have hcons := h.1
      simp only [Session.consistent, hstate] at hcons
      rw [ht]
      exact sessionKept_enterAuthorising h hrun (by simp [hstate, SessionState.isOpen]) (.inl hcons.1) rfl rfl
  | .payAuthorise, _, rfl, _ => by
    intro s hrun h
    rcases takePayAuthorise_taken s with ht | ⟨hstate, ht⟩
    · rwa [ht]
    · have hcons := h.1
      simp only [Session.consistent, hstate] at hcons
      rw [ht]
      refine sessionKept_enterAuthorising h hrun (by simp [hstate, SessionState.isOpen]) (.inr ?_) rfl rfl
      rcases hcons.1 with ha | ha <;> simp [ha]
  | .payCash, _, rfl, _ => by
    intro s _ h
    rcases takePayCash_taken s with ht | ⟨_, ht⟩
    · rwa [ht]
    · rw [ht]
      exact sessionKept_settles h _ rfl rfl rfl
  | .payCancel, _, rfl, _ => by
    intro s hrun h
    rcases takePayCancel_taken s with ht | ⟨_, ht⟩ | ⟨r, hstate, _, ht⟩
    · rwa [ht]
    · rw [ht]
      exact sessionKept_closeUnpaid h _ rfl _
    · rw [ht]
      exact sessionKept_enterAborting h hrun hstate _ r
  | .shiftOpen d, _, rfl, _ => by
    intro s _ h
    rcases takeShiftOpen_taken d s with ht | ⟨_, _, ht⟩
    · rwa [ht]
    · rw [ht]
      refine sessionKept_readsOnly.keeps ((resign_acts _).seq (raiseShiftState_acts _)) (by decide) ?_
      exact sessionKept_of_same h rfl rfl rfl (FareEngine.samePaying_refl _)
  | .factoryClear, _, rfl, _ => by
    intro s _ h
    rcases takeFactoryClear_taken s with ht | ⟨_, ht⟩
    · rwa [ht]
    · rw [ht, sessionKept_iff]
      simp only [factoryClears, clearRetained, reportPayment_rest, raiseIf_rest, raiseShiftState_rest, resign_rest]
      exact ⟨rfl, timerFits_of_none rfl rfl, ⟨fun ho => absurd ho (by decide), List.nodup_nil⟩,
        FareEngine.payingFor_of_none FareEngine.nonePaying_cleared rfl⟩

theorem rule_power (c : Instr) (r : State → Taken) (hr : ruleOf c = some r) (s : State) : (r s).1.power = s.power := by
  have hnot : Block.power ∉ blocksOf c := by cases c <;> cases hr <;> simp [blocksOf]
  exact (rule_acts c r hr s).same .power hnot

theorem sessionKept_rule (c : Instr) (r : State → Taken) (hr : ruleOf c = some r)
    (_ : touches [.settle, .fare, .power] c = true) (s : State) (hrun : s.power = .running) (h : sessionKept s) :
    sessionKept (r s).1 := by
  by_cases hsettle : touches [.settle] c = true
  · exact sessionKept_settleRule c r hr hsettle s hrun h
  · have hacts := rule_acts c r hr s
    have hnot : Block.settle ∉ blocksOf c := by simpa [touches] using hsettle
    have hsame : (r s).1.settle = s.settle := hacts.same .settle (by simpa using hnot)
    have hpower : (r s).1.power = s.power := rule_power c r hr s
    refine sessionKept_of_same h hpower (by rw [hsame]) (by rw [hsame]) ?_
    by_cases hfare : touches [.fare] c = true
    · exact samePaying_legRule c r hr hfare (by simpa using hsettle) s
    · have hnot : Block.fare ∉ blocksOf c := by simpa [touches] using hfare
      rw [hacts.same .fare (by simpa using hnot)]
      exact FareEngine.samePaying_refl _

/-! ### Events -/

/-- The settlement unit takes a message of a running part. -/
theorem sessionKept_takesMessage {s : State} (h : sessionKept s) (hrun : s.power = .running) (m : TermMsg)
    {g : State → State} (hg : ∀ u : State, sessionKept u → u.power = .running → sessionKept (g u)) :
    sessionKept (takesMessage m g s) :=
  hg { s with tender := s.tender.handedOver m } (sessionKept_withTender h _) hrun

theorem sessionKept_ticks {s : State} (h : sessionKept s) : sessionKept (ticks s) := by
  have hacts := ticks_acts s
  have hsettle : (ticks s).settle = s.settle := hacts.same .settle
  refine sessionKept_of_same h (hacts.same .power) (by rw [hsettle]) (by rw [hsettle]) ?_
  rw [ticks_fare]
  split
  · exact FareEngine.samePaying_close _ _ _
  · exact FareEngine.samePaying_refl _

/-- A part that stops keeps its session and stops the timer. -/
theorem sessionKept_stops {s t : State} (h : sessionKept s) (hpower : t.power ≠ .running)
    (hsession : t.settle.session = s.settle.session) (htimer : t.settle.timer = none) (hfare : t.fare = s.fare) :
    sessionKept t := by
  obtain ⟨hcons, _, hlegs, hpaying⟩ := (sessionKept_iff s).mp h
  rw [sessionKept_iff, hsession, hfare]
  exact ⟨hcons, by simp [timerFits, htimer, hpower], hlegs, hpaying⟩

/-- The settlement unit as a stopped part holds it, without timer. -/
def sessionHeld (s : State) : Prop :=
  s.settle.session.consistent ∧ s.settle.timer = none ∧ s.settle.session.legsFit
    ∧ s.fare.payingFor s.settle.session

theorem sessionHeld_of_stopped {s : State} (h : sessionKept s) (hpower : s.power ≠ .running) : sessionHeld s := by
  obtain ⟨hcons, htimer, hlegs, hpaying⟩ := (sessionKept_iff s).mp h
  exact ⟨hcons, by simpa [timerFits, hpower] using htimer, hlegs, hpaying⟩

/-- R84: the session of a part that starts again has its timer. -/
theorem sessionKept_restoreSession {s : State} (h : sessionHeld s) (hrun : s.power = .running) :
    sessionKept (restoreSession s) := by
  obtain ⟨hcons, htimer, hlegs, hpaying⟩ := h
  rw [sessionKept_iff]
  cases hstate : s.settle.session.state with
  | tipWait =>
    have hnone := FareEngine.nonePaying_unlock hpaying
    simp only [restoreSession, hstate, setSession, Session.close]
    refine ⟨?_, ?_, ?_, FareEngine.payingFor_of_none hnone rfl⟩
    · simp [Session.consistent]
    · exact timerFits_of_none htimer rfl
    · exact Session.legsFit_congr hlegs rfl (fun ho => by cases ho)
  | authorising =>
    simp only [Session.consistent, hstate] at hcons
    simp only [restoreSession, hstate, hcons.2.1, setSession, setTimer, sendFrame_rest]
    refine ⟨?_, ?_, ?_, ?_⟩
    · simpa [Session.consistent] using hcons.1
    · simp [timerFits, hrun, timerOf]
    · exact Session.legsFit_congr hlegs rfl (fun _ => by simp [hstate, SessionState.isOpen])
    · exact FareEngine.payingFor_of_session hpaying (by simp [hstate, SessionState.isOpen]) rfl rfl
  | aborting =>
    have hcons' := hcons
    simp only [Session.consistent, hstate] at hcons'
    simp only [restoreSession, hstate, hcons'.2.1, setTimer, sendFrame_rest]
    exact ⟨hcons, by simp [timerFits, hrun, hstate, timerOf], hlegs, hpaying⟩
  | retryWait =>
    simp only [restoreSession, hstate, setTimer]
    exact ⟨hcons, by simp [timerFits, hrun, hstate, timerOf], hlegs, hpaying⟩
  | none | settled | failed | cancelled =>
    simp only [restoreSession, hstate]
    exact ⟨hcons, timerFits_of_none htimer (by simp [hstate, timerOf]), hlegs, hpaying⟩

/-- The settlement unit after a restart's blocks: its session restored. -/
theorem restartBlocks_settle (s : State) :
    (restartBlocks s).settle = (resendAll (restoreSession
      { restartVolatile s with fare := s.fare.restored (restoreTime s.retained s.clock.count) })).settle := by
  have hsame : (restartBlocks s).settle = (restoreMoney (restartVolatile s)).settle :=
    ((restartSign_acts _).seq (restartIntercom_acts _)).same .settle
  rw [hsame]
  simp only [restoreMoney, sendFrame_rest]
  rfl

theorem restartBlocks_fare_eq (s : State) :
    (restartBlocks s).fare = (restoreSession
      { restartVolatile s with fare := s.fare.restored (restoreTime s.retained s.clock.count) }).fare := by
  have hsame : (restartBlocks s).fare = (restoreMoney (restartVolatile s)).fare :=
    ((restartSign_acts _).seq (restartIntercom_acts _)).same .fare
  rw [hsame]
  simp only [restoreMoney, sendFrame_rest, resendAll_fare]
  rfl

theorem sessionKept_restarts {s : State} (h : sessionKept s) (hpower : s.power ≠ .running) :
    sessionKept (restarts s) := by
  obtain ⟨hcons, htimer, hlegs, hpaying⟩ := sessionHeld_of_stopped h hpower
  have hmemory : sessionHeld (restartMemory s) ∧ (restartMemory s).power = .running := by
    unfold restartMemory
    dsimp only
    split
    · exact ⟨⟨hcons, htimer, hlegs, hpaying⟩, rfl⟩
    · exact ⟨⟨rfl, rfl, ⟨fun ho => absurd (show false = true from ho) (by decide), List.nodup_nil⟩,
        FareEngine.payingFor_of_none FareEngine.nonePaying_cleared rfl⟩, rfl⟩
  generalize hm : restartMemory s = m at hmemory
  obtain ⟨⟨hcons, htimer, hlegs, hpaying⟩, hrun⟩ := hmemory
  have hrestored := sessionKept_restoreSession
    (s := { restartVolatile m with fare := m.fare.restored (restoreTime m.retained m.clock.count) })
    ⟨hcons, htimer, hlegs, FareEngine.payingFor_of_same hpaying (FareEngine.samePaying_restored _ _)⟩ hrun
  obtain ⟨hpow, _, hfare, hsettle, _⟩ := restarts_rest s
  rw [hm] at hpow hfare hsettle
  rw [restartBlocks_fare_eq] at hfare
  rw [restartBlocks_settle, resendAll_settle] at hsettle
  refine sessionKept_of_same hrestored ?_ (by rw [hsettle]) (by rw [hsettle]) ?_
  · rw [hpow, (restartBlocks_rest m).1]
    have hsame := (restoreSession_acts
      { restartVolatile m with fare := m.fare.restored (restoreTime m.retained m.clock.count) }).same .power
    exact hsame.symm
  · rw [hfare]
    exact FareEngine.samePaying_refl _

theorem sessionKept_minuteBoundary {s : State} (h : sessionKept s) : sessionKept (minuteBoundary s) := by
  have hacts := minuteBoundary_acts s
  have hsettle : (minuteBoundary s).settle = s.settle := hacts.same .settle
  have hboundary (count : Nat) (c : Clock) : s.fare.samePaying (boundaryAt count { s with clock := c }).fare :=
    samePaying_boundaryAt count { s with clock := c }
  refine sessionKept_of_same h (hacts.same .power) (by rw [hsettle]) (by rw [hsettle]) ?_
  unfold minuteBoundary
  repeat' split
  · exact hboundary _ _
  · exact FareEngine.samePaying_refl _
  · exact hboundary _ _

theorem sessionKept_event : ∀ c : Instr, ruleOf c = none → takesFrames c = false →
    touches [.settle, .fare, .power] c = true → ∀ s t, exec c s = .next t → sessionKept s → sessionKept t
  | .secondTick, _, _, _ => by
    rintro s t ⟨⟩ h
    exact sessionKept_ticks h
  | .clockWrap, _, _, _ => by
    rintro s t ⟨⟩ h
    split
    · exact sessionKept_of_same h rfl rfl rfl (FareEngine.samePaying_refl _)
    · exact sessionKept_ticks h
  | .minuteBoundary, _, _, _ => by
    rintro s t ⟨⟩ h
    exact whileRunning_keep h (fun _ h => sessionKept_minuteBoundary h)
  | .tipTimerExpiry, _, _, _ => by
    rintro s t ⟨⟩ h
    refine whileRunning_keep h (fun hrun h => ?_)
    unfold tipExpires
    split
    · next hstate =>
      have hcons := h.1
      simp only [Session.consistent, hstate] at hcons
      exact sessionKept_enterAuthorising h hrun (by simp [hstate, SessionState.isOpen]) (.inl hcons.1) rfl rfl
    · exact h
  | .responseTimerExpiry, _, _, _ => by
    rintro s t ⟨⟩ h
    refine whileRunning_keep h (fun hrun h => ?_)
    unfold responseExpires
    split
    · next hstate _ => exact sessionKept_enterAborting h hrun hstate _ _
    · exact h
  | .resendTimerExpiry e, _, _, _ => by
    rintro s t ⟨⟩ h
    refine whileRunning_keep h (fun _ h => ?_)
    have hacts := resendExpires_acts e s
    refine sessionKept_of_same h (hacts.same .power) (by simp) (by simp) ?_
    rw [hacts.same .fare]
    exact FareEngine.samePaying_refl _
  | .abortTimerExpiry, _, _, _ => by
    rintro s t ⟨⟩ h
    refine whileRunning_keep h (fun hrun h => ?_)
    unfold abortExpires
    split
    · next r _ hr =>
      exact sessionKept_abortEnds (s := enterStale r s) (sessionKept_withSettle h rfl rfl) hrun hr _
    · exact h
  | .retryIdleTimerExpiry, _, _, _ => by
    rintro s t ⟨⟩ h
    refine whileRunning_keep h (fun _ h => ?_)
    unfold retryIdleExpires
    split
    · exact sessionKept_closeUnpaid h _ rfl _
    · exact h
  | .tProgress r x, _, _, _ => by
    rintro s t ⟨⟩ h
    refine whileRunning_keep h (fun hrun h => sessionKept_takesMessage h hrun _ (fun u h hrun => ?_))
    unfold takesProgress
    split
    · next hp =>
      refine sessionKept_readsOnly.keeps (raisePayment_acts _) (by decide) ?_
      refine sessionKept_of_open h hrun (by simp [hp.1, SessionState.isOpen]) ?_ rfl rfl ?_ ?_ rfl
      · simp [setTimer, setSession, hp.1, SessionState.isOpen]
      · exact h.1
      · simp [setTimer, setSession, hp.1, timerOf]
    · exact h
  | .tApproved r n a, _, _, _ => by
    rintro s t ⟨⟩ h
    exact whileRunning_keep h
      (fun hrun h => sessionKept_takesMessage h hrun _ (fun u h hrun => sessionKept_approves h hrun r n a))
  | .tDeclined r n, _, _, _ => by
    rintro s t ⟨⟩ h
    exact whileRunning_keep h
      (fun hrun h => sessionKept_takesMessage h hrun _ (fun u h hrun => sessionKept_declines h hrun r n))
  | .tAborted r, _, _, _ => by
    rintro s t ⟨⟩ h
    exact whileRunning_keep h
      (fun hrun h => sessionKept_takesMessage h hrun _ (fun u h hrun => sessionKept_confirmsAbort h hrun r))
  | .tReversed r, _, _, _ => by
    rintro s t ⟨⟩ h
    exact whileRunning_keep h
      (fun hrun h => sessionKept_takesMessage h hrun _ (fun u h _ => sessionKept_withSettle h rfl rfl))
  | .supplyFail, _, _, _ => by
    rintro s t ⟨⟩ h
    split
    · exact sessionKept_stops h (by simp) rfl rfl rfl
    · exact sessionKept_stops h (by simp) rfl rfl rfl
    · exact h
  | .resetnAssert, _, _, _ => by
    rintro s t ⟨⟩ h
    split
    · exact sessionKept_stops h (by simp) rfl rfl rfl
    · exact h
    · exact h
  | .restart, _, _, _ => by
    rintro s t ⟨⟩ h
    split
    · next hp => exact sessionKept_restarts h (by simp [hp])
    · next hp => exact sessionKept_restarts h (by simp [hp])
    · exact h

theorem sessionKept_baseStep (s : State) (h : sessionKept s) : sessionKept (baseStep s) := by
  unfold baseStep
  refine whileRunning_keep (s := { s with clock := _ })
    (sessionKept_of_same h rfl rfl rfl (FareEngine.samePaying_refl _)) (fun _ h => ?_)
  refine sessionKept_of_same h rfl rfl ?_ (FareEngine.samePaying_refl _)
  simp [timersStep, Settlement.baseStep, Function.comp_def]

/-- Settles O10. -/
theorem theSessionStaysConsistent : Obligations.TheSessionStaysConsistent :=
  step_keeps sessionKept_readsOnly (by decide) sessionKept_rule sessionKept_event sessionKept_baseStep

end Sys2Proof.Machine
end

