-- ==== Sys2Proof/Proofs/Rooms.lean ====
section
/-!
PROOF. The journal keeps room for every active leg (R119): placing a record takes one place of the room, and what
places records frees as many legs.
-/

set_option Elab.async false

namespace Sys2Proof.Machine

/-! ### Conditions that every command keeps -/

/-- Every command and every base step keeps a condition. -/
structure keptByCommands (P : State → Prop) : Prop where
  rule : ∀ (c : Instr) (r : State → Taken), ruleOf c = some r → ∀ s, s.power = .running → P s → P (r s).1
  event : ∀ c : Instr, ruleOf c = none → takesFrames c = false → ∀ s t, exec c s = .next t → P s → P t
  base : ∀ s, P s → P (baseStep s)

/-- Commands that touch nothing of what a condition reads keep it. -/
theorem keptByCommands.of_touching {D : List Block} {P : State → Prop} (reads : readsOnly D P)
    (rule : ∀ (c : Instr) (r : State → Taken), ruleOf c = some r → touches D c = true →
      ∀ s, s.power = .running → P s → P (r s).1)
    (event : ∀ c : Instr, ruleOf c = none → takesFrames c = false → touches D c = true →
      ∀ s t, exec c s = .next t → P s → P t)
    (base : ∀ s, P s → P (baseStep s)) : keptByCommands P where
  rule c r hr s hrun h := by
    by_cases ht : touches D c = true
    · exact rule c r hr ht s hrun h
    · have hnone : ∀ b ∈ D, b ∉ blocksOf c := by simpa [touches] using ht
      exact reads.keeps (rule_acts c r hr s) (by simpa using hnone) h
  event c hr hf s t hst h := by
    by_cases ht : touches D c = true
    · exact event c hr hf ht s t hst h
    · have hnone : ∀ b ∈ D, b ∉ blocksOf c := by simpa [touches] using ht
      obtain ⟨u, hu, hacts⟩ := event_acts c hr hf s
      rw [hst] at hu
      cases hu
      exact reads.keeps hacts (by simpa using hnone) h
  base := base

theorem keptByCommands.and {P Q : State → Prop} (hP : keptByCommands P) (hQ : keptByCommands Q) :
    keptByCommands (fun s => P s ∧ Q s) where
  rule c r hr s hrun h := ⟨hP.rule c r hr s hrun h.1, hQ.rule c r hr s hrun h.2⟩
  event c hr hf s t hst h := ⟨hP.event c hr hf s t hst h.1, hQ.event c hr hf s t hst h.2⟩
  base s h := ⟨hP.base s h.1, hQ.base s h.2⟩

/-- A condition may rest on one that every command keeps. -/
theorem keptByCommands.given {P Q : State → Prop} (hP : keptByCommands P)
    (rule : ∀ (c : Instr) (r : State → Taken), ruleOf c = some r → ∀ s, s.power = .running → P s → Q s → Q (r s).1)
    (event : ∀ c : Instr, ruleOf c = none → takesFrames c = false → ∀ s t, exec c s = .next t → P s → Q s → Q t)
    (base : ∀ s, P s → Q s → Q (baseStep s)) : keptByCommands (fun s => P s ∧ Q s) where
  rule c r hr s hrun h := ⟨hP.rule c r hr s hrun h.1, rule c r hr s hrun h.1 h.2⟩
  event c hr hf s t hst h := ⟨hP.event c hr hf s t hst h.1, event c hr hf s t hst h.1 h.2⟩
  base s h := ⟨hP.base s h.1, base s h.1 h.2⟩

theorem keptByCommands.step {D : List Block} {P : State → Prop} (h : keptByCommands P) (reads : readsOnly D P)
    (hD : Block.link ∉ D ∧ Block.pending ∉ D ∧ Block.freeCount ∉ D) (s t : State) (hs : P s)
    (ht : Machine.step s = .next t) : P t :=
  step_keeps reads hD (fun c r hr _ => h.rule c r hr) (fun c hr hf _ => h.event c hr hf) h.base s t hs ht

theorem readsOnly.mono {D E : List Block} {P : State → Prop} (h : readsOnly D P) (hsub : ∀ b ∈ D, b ∈ E) :
    readsOnly E P := fun s t hsame => h s t (fun b hb => hsame b (hsub b hb))

theorem readsOnly.and {D : List Block} {P Q : State → Prop} (hP : readsOnly D P) (hQ : readsOnly D Q) :
    readsOnly D (fun s => P s ∧ Q s) := fun s t hsame h => ⟨hP s t hsame h.1, hQ s t hsame h.2⟩

/-! ### Room (R118, R119) -/

theorem run_append (p : TripRecord → Bool) (xs : List TripRecord) {x : TripRecord} (hx : p x = false) :
    ((xs ++ [x]).takeWhile p).length = (xs.takeWhile p).length := by
  induction xs with
  | nil => simp [hx]
  | cons y ys ih =>
    rw [List.cons_append, List.takeWhile_cons, List.takeWhile_cons]
    split
    · simpa using ih
    · rfl

/-- With room, a full ring has an overwritable record at its oldest end. -/
theorem Journal.oldest_of_room {j : Journal} (hfull : 128 ≤ j.ring.length) (hroom : 1 ≤ j.room) :
    ∃ r rs, j.ring = r :: rs ∧ r.overwritable = true := by
  cases hring : j.ring with
  | nil => simp [hring] at hfull
  | cons r rs =>
    refine ⟨r, rs, rfl, ?_⟩
    by_contra hover
    have hrun : j.run = 0 := by simp [Journal.run, hring, hover]
    simp only [Journal.room, hrun] at hroom
    omega

/-- A record takes at most one place of the room. -/
theorem Journal.room_place {j : Journal} (hlen : j.ring.length ≤ 128) (hroom : 1 ≤ j.room) (p : Trip) :
    j.room ≤ (j.place p).room + 1 ∧ (j.place p).ring.length ≤ 128 := by
  have hnew : TripRecord.overwritable ⟨j.next, p, false, false⟩ = false := rfl
  by_cases hfull : 128 ≤ j.ring.length
  · obtain ⟨r, rs, hring, hover⟩ := oldest_of_room hfull hroom
    have hrun : j.run = (j.place p).run + 1 := by
      simp only [Journal.run, Journal.place, hfull, if_true]
      rw [hring, List.drop_one, List.tail_cons, run_append _ _ hnew, List.takeWhile_cons, if_pos hover]
      rfl
    have hplaced : (j.place p).ring.length = j.ring.length := by
      simp only [Journal.place, hfull, if_true, List.length_append, List.length_drop, List.length_cons,
        List.length_nil]
      omega
    have hnext : (j.place p).next = j.next + 1 := rfl
    simp only [Journal.room, hplaced, hrun, hnext] at hroom ⊢
    omega
  · have hrun : (j.place p).run = j.run := by
      simp only [Journal.run, Journal.place, hfull, if_false]
      exact run_append _ _ hnew
    have hplaced : (j.place p).ring.length = j.ring.length + 1 := by
      simp only [Journal.place, hfull, if_false, List.length_append, List.length_cons, List.length_nil]
    have hnext : (j.place p).next = j.next + 1 := rfl
    simp only [Journal.room, hplaced, hrun, hnext] at hroom ⊢
    omega

theorem Journal.room_foldl_place (ps : List Trip) {j : Journal} (hlen : j.ring.length ≤ 128)
    (hroom : ps.length ≤ j.room) :
    j.room ≤ (ps.foldl Journal.place j).room + ps.length ∧ (ps.foldl Journal.place j).ring.length ≤ 128 := by
  induction ps generalizing j with
  | nil => exact ⟨Nat.le_refl _, hlen⟩
  | cons p ps ih =>
    simp only [List.length_cons] at hroom ⊢
    obtain ⟨hplace, hlen'⟩ := room_place hlen (by omega) p
    obtain ⟨hfold, hlen''⟩ := ih hlen' (by omega)
    rw [List.foldl_cons]
    exact ⟨by omega, hlen''⟩

theorem length_takeWhile_map_le {g : TripRecord → TripRecord} (hg : ∀ r : TripRecord, r.overwritable = true →
    (g r).overwritable = true) (rs : List TripRecord) :
    (rs.takeWhile TripRecord.overwritable).length ≤ ((rs.map g).takeWhile TripRecord.overwritable).length := by
  induction rs with
  | nil => exact Nat.le_refl _
  | cons r rs ih =>
    rw [List.map_cons, List.takeWhile_cons, List.takeWhile_cons]
    by_cases hr : r.overwritable = true
    · simpa [hr, hg r hr] using ih
    · simp [hr]

/-- Marks that are set take no room. -/
theorem Journal.room_le_map (j : Journal) {g : TripRecord → TripRecord} (hg : ∀ r : TripRecord, r.overwritable = true →
    (g r).overwritable = true) : j.room ≤ Journal.room { j with ring := j.ring.map g } := by
  have := length_takeWhile_map_le hg j.ring
  simp only [Journal.room, Journal.run, List.length_map]
  omega

theorem Journal.room_le_markClosed (j : Journal) : j.room ≤ j.markClosed.room :=
  j.room_le_map (fun r hr => by simp_all [TripRecord.overwritable])

theorem Journal.room_le_setRead (j : Journal) (n : Nat) : j.room ≤ (j.setRead n).room :=
  j.room_le_map (fun r hr => by split <;> simp_all [TripRecord.overwritable])

/-! ### Counting active legs -/

/-- The number of active legs of the fare engine. -/
def FareEngine.activeCount (e : FareEngine) : Nat := (e.legs.toList.filter Leg.active).length

theorem activeLegs_eq (s : State) : activeLegs s = s.fare.activeCount := rfl

/-- Slot by slot. -/
theorem FareEngine.activeCount_eq (e : FareEngine) :
    e.activeCount = e.legs.s1.active.toNat + e.legs.s2.active.toNat + e.legs.s3.active.toNat
      + e.legs.s4.active.toNat := by
  have hone (b : Bool) : (if b = true then 1 else 0) = b.toNat := by cases b <;> rfl
  rw [FareEngine.activeCount, ← List.countP_eq_length_filter]
  simp only [PerSlot.toList, List.countP_cons, List.countP_nil, hone]
  omega

theorem Leg.active_of_free_iff {l l' : Leg} (h : l'.state = .free ↔ l.state = .free) : l'.active = l.active := by
  rw [Bool.eq_iff_iff]
  simp only [Leg.active, bne_iff_ne]
  exact not_congr h

theorem FareEngine.activeCount_congr {e e' : FareEngine} (h : ∀ i, (e'.legs.get i).active = (e.legs.get i).active) :
    e'.activeCount = e.activeCount := by
  have h1 := h .s1
  have h2 := h .s2
  have h3 := h .s3
  have h4 := h .s4
  simp only [PerSlot.get] at h1 h2 h3 h4
  rw [activeCount_eq, activeCount_eq, h1, h2, h3, h4]

/-- One leg replaced. -/
theorem FareEngine.activeCount_set (e : FareEngine) (i : Slot) (l : Leg) (m : PerSeat (Option Slot)) :
    FareEngine.activeCount { e with legs := e.legs.set l i, seatMap := m } + (e.legs.get i).active.toNat
      = e.activeCount + l.active.toNat := by
  rw [activeCount_eq, activeCount_eq]
  cases i <;> simp only [PerSlot.set, PerSlot.get] <;> omega

theorem FareEngine.activeCount_freeLeg (e : FareEngine) (i : Slot) :
    (e.freeLeg i).activeCount + (e.legs.get i).active.toNat = e.activeCount :=
  (e.activeCount_set i Leg.blank _).trans (by simp [Leg.active, Leg.blank])

theorem FareEngine.activeCount_start (e : FareEngine) (i : Slot) (l : Leg) :
    (e.start i l).activeCount ≤ e.activeCount + 1 := by
  have := e.activeCount_set i l (enterSeats l.seats i e.seatMap)
  have hone : l.active.toNat ≤ 1 := Bool.toNat_le _
  unfold FareEngine.start
  omega

theorem vacant_activeCount {e : FareEngine} (h : e.vacant) : e.activeCount = 0 := by
  have h1 := h .s1
  have h2 := h .s2
  have h3 := h .s3
  have h4 := h .s4
  simp only [PerSlot.get] at h1 h2 h3 h4
  simp [FareEngine.activeCount_eq, Leg.active, h1, h2, h3, h4]

/-- Every operation but the start of a leg leaves at most as many active legs. -/
theorem activeCount_kept (n : Nat) : keptByChange (fun e => e.activeCount ≤ n) where
  tables e e' hl _ h := by rwa [show e'.activeCount = e.activeCount by rw [FareEngine.activeCount, hl]; rfl]
  like e legs hlike h := by
    have hcount : FareEngine.activeCount { e with legs := legs } = e.activeCount :=
      FareEngine.activeCount_congr (fun i => Leg.active_of_free_iff (hlike i).2.2.1)
    rwa [hcount]
  freed e i h := by
    have := e.activeCount_freeLeg i
    omega
  cleared := by
    rw [vacant_activeCount vacant_cleared]
    exact Nat.zero_le n

/-- Freeing slots that are active, none twice, frees as many legs. -/
theorem FareEngine.activeCount_foldl_freeLeg (slots : List Slot) (hnodup : slots.Nodup) {e : FareEngine}
    (hactive : ∀ i ∈ slots, (e.legs.get i).active = true) :
    (slots.foldl FareEngine.freeLeg e).activeCount + slots.length = e.activeCount := by
  induction slots generalizing e with
  | nil => rfl
  | cons i is ih =>
    obtain ⟨hi, hrest⟩ := List.nodup_cons.mp hnodup
    have hfreed := e.activeCount_freeLeg i
    rw [hactive i (by simp)] at hfreed
    have := ih hrest (e := e.freeLeg i) (fun j hj => by
      rw [freeLeg_get, if_neg (fun hji : j = i => hi (hji ▸ hj))]
      exact hactive j (by simp [hj]))
    simp only [Bool.toNat_true] at hfreed
    rw [List.foldl_cons, List.length_cons]
    omega

/-- The slots of an open session are the PAYING ones under its id. -/
theorem FareEngine.slotsPaying_perm {e : FareEngine} {p : Session} (h : e.payingFor p) (hopen : p.state.isOpen = true)
    (hnodup : p.slots.Nodup) : (e.slotsPaying p.paymentId).Perm p.slots := by
  have hall : Slot.all.Nodup := by decide
  rw [FareEngine.slotsPaying, List.perm_ext_iff_of_nodup (hall.filter _) hnodup]
  intro i
  have hmem : i ∈ Slot.all := by cases i <;> simp [Slot.all]
  simp only [List.mem_filter, hmem, true_and, Leg.paysUnder, Bool.and_eq_true, beq_iff_eq]
  constructor
  · rintro ⟨hp, _⟩
    exact ((h.1 i).mp hp).2
  · intro hi
    have hp := (h.1 i).mpr ⟨hopen, hi⟩
    exact ⟨hp, h.2 i hp⟩

/-- The release of an open session's legs frees one leg for each of its slots. -/
theorem FareEngine.activeCount_release {e : FareEngine} {p : Session} (h : e.payingFor p)
    (hopen : p.state.isOpen = true) (hnodup : p.slots.Nodup) :
    (e.release p.paymentId).activeCount + p.slots.length = e.activeCount := by
  have hall : Slot.all.Nodup := by decide
  rw [← (slotsPaying_perm h hopen hnodup).length_eq]
  refine activeCount_foldl_freeLeg _ (hall.filter _) (fun i hi => ?_)
  simp only [List.mem_filter, Leg.paysUnder, Bool.and_eq_true, beq_iff_eq] at hi
  simp [Leg.active, hi.2.1]

end Sys2Proof.Machine
end

