-- ==== Sys2Proof/Proofs/JournalRoom.lean ====
section
/-!
PROOF. Every command keeps the room of the journal at the number of active legs or above (R119).
-/

set_option Elab.async false

namespace Sys2Proof.Machine

/-! ### The conditions that the room rests on -/

/-- The conditions on meters, session and journal together. -/
def ledgerBase (s : State) : Prop := (meterKept s ∧ sessionKept s) ∧ journalKept s

theorem ledgerBase_kept : keptByCommands ledgerBase :=
  ((keptByCommands.of_touching meterKept_readsOnly meterKept_rule meterKept_event
      (fun s => meterKept_readsOnly.keeps (baseStep_acts s) (by decide))).and
    (keptByCommands.of_touching sessionKept_readsOnly sessionKept_rule sessionKept_event sessionKept_baseStep)).and
    (keptByCommands.of_touching journalKept_readsOnly journalKept_rule journalKept_event
      (fun s => journalKept_readsOnly.keeps (baseStep_acts s) (by decide)))

/-- What a session's legs, a journal and the room are read of. -/
abbrev ledgerBlocks : List Block := [.settle, .fare, .power, .shifts, .journal]

theorem ledgerBase_readsOnly : readsOnly ledgerBlocks ledgerBase :=
  ((meterKept_readsOnly.mono (by decide)).and (sessionKept_readsOnly.mono (by decide))).and
    (journalKept_readsOnly.mono (by decide))

theorem roomKept_readsOnly : readsOnly [.fare, .journal] roomKept := by
  intro s t hsame h
  have hfare : t.fare = s.fare := hsame .fare (by simp)
  have hjournal : t.journal = s.journal := hsame .journal (by simp)
  simpa [roomKept, activeLegs, hfare, hjournal] using h

/-! ### What places records -/

/-- A session's records are at most as many as its legs. -/
theorem cardShares_length_le (p : Session) (a : Text) : (cardShares p a).length ≤ p.slots.length := by
  simp only [cardShares, List.length_map, List.length_zip]
  omega

theorem cashShares_length_le (p : Session) (x : Int) : (cashShares p x).length ≤ p.slots.length := by
  simp only [cashShares, List.length_map, List.length_zip]
  omega

/-- A settlement places at most one record for each leg that it frees. -/
theorem roomKept_settles {s : State} (hring : s.journal.ring.length ≤ 128) (hroom : roomKept s) {p : Session}
    (hpaying : s.fare.payingFor p) (hopen : p.state.isOpen = true) (hnodup : p.slots.Nodup)
    (hid : p.paymentId = s.settle.session.paymentId) {close : Session → Session} {paid : List LegPaid}
    (hlen : paid.length ≤ p.slots.length) : roomKept (settles close paid s) := by
  have hfreed := FareEngine.activeCount_release hpaying hopen hnodup
  rw [roomKept, activeLegs_eq] at hroom ⊢
  have hplaced := Journal.room_foldl_place (paid.map (fun x => settledTrip x s)) hring
    (by rw [List.length_map]; omega)
  rw [List.length_map] at hplaced
  rw [settles_fare, settles_journal, ← hid]
  omega

/-- A session as it is while open: which of the open states it is in has no part in which legs it holds. -/
def Session.asOpen (p : Session) : Session := { p with state := .tipWait }

@[simp] theorem Session.asOpen_slots (p : Session) : p.asOpen.slots = p.slots := rfl

/-- The legs of a PAY_BEGIN, locked: PAYING for the session that they open. -/
theorem payingFor_begun {s : State} (h : s.fare.nonePaying) (slots : List Slot) (t : Tender) (offer : Bool) :
    (s.fare.lock s.settle.nextId slots).payingFor (begunSession slots t offer s).asOpen := by
  have h := FareEngine.payingFor_lock (p := (begunSession slots t offer s).asOpen) h rfl
  rwa [Session.asOpen_slots, begunSession_slots] at h

/-- A leg that is not FREE is locked. -/
theorem activeCount_lock_le (p : Nat) {slots : List Slot} {e : FareEngine}
    (hslots : ∀ i ∈ slots, (e.legs.get i).state = .stopped) : (e.lock p slots).activeCount ≤ e.activeCount :=
  (activeCount_kept e.activeCount).lock p slots (fun i hi => by simp [hslots i hi]) (Nat.le_refl _)

theorem roomKept_beginsCash {s : State} (hbase : ledgerBase s) (hroom : roomKept s) {slots : List Slot}
    (hnodup : slots.Nodup) (hstopped : ∀ i ∈ slots, (s.leg i).state = .stopped)
    (hclosed : s.settle.session.state.isOpen = false) (offer : Bool) : roomKept (beginsCash slots offer s).1 := by
  have hnone := FareEngine.nonePaying_of_closed ((sessionKept_iff s).mp hbase.1.2).2.2.2 hclosed
  have hslots := begunSession_slots slots .cash offer s
  have hjournal : (beginsPayment slots .cash offer s).journal = s.journal := (beginsPayment_acts _ _ _ _).same .journal
  have hlocked : roomKept (beginsPayment slots .cash offer s) := by
    rw [roomKept, activeLegs_eq, beginsPayment_fare, hjournal]
    exact (activeCount_lock_le _ hstopped).trans hroom
  simp only [beginsCash, settlesByCash]
  refine roomKept_settles (p := (begunSession slots .cash offer s).asOpen) ?_ hlocked ?_ rfl ?_ ?_ ?_
  · rw [hjournal]
    exact hbase.2.1
  · rw [beginsPayment_fare]
    exact payingFor_begun hnone slots .cash offer
  · rw [Session.asOpen_slots, hslots]
    exact hnodup
  · rw [beginsPayment_settle]
    rfl
  · refine (cashShares_length_le _ _).trans (Nat.le_of_eq ?_)
    rw [beginsPayment_settle]
    rfl

/-- A settlement of the open session. -/
theorem roomKept_settles_open {s : State} (hbase : ledgerBase s) (hroom : roomKept s)
    (hopen : s.settle.session.state.isOpen = true) {close : Session → Session} {paid : List LegPaid}
    (hlen : paid.length ≤ s.settle.session.slots.length) : roomKept (settles close paid s) := by
  obtain ⟨_, _, ⟨_, hnodup⟩, hpaying⟩ := (sessionKept_iff s).mp hbase.1.2
  exact roomKept_settles hbase.2.1 hroom hpaying hopen hnodup rfl hlen

theorem roomKept_voidsLeg {s : State} (hring : s.journal.ring.length ≤ 128) (hroom : roomKept s) {i : Slot}
    (hi : (s.leg i).state ≠ .free) : roomKept (voidsLeg i s) := by
  have hfreed := s.fare.activeCount_freeLeg i
  have hactive : (s.fare.legs.get i).active = true := by simpa [Leg.active, State.leg] using hi
  rw [hactive, Bool.toNat_true] at hfreed
  rw [roomKept, activeLegs_eq] at hroom ⊢
  have hplaced := Journal.room_place hring (by omega) (voidTrip i s)
  rw [voidsLeg_fare, voidsLeg_journal]
  omega

/-! ### Rules and events -/

/-- What leaves the journal its room, and makes no leg active. -/
theorem roomKept_of_le {s t : State} (h : roomKept s) (hroom : s.journal.room ≤ t.journal.room)
    (hfare : s.fare.activeCount ≤ s.fare.activeCount → t.fare.activeCount ≤ s.fare.activeCount) : roomKept t := by
  rw [roomKept, activeLegs_eq] at *
  exact (hfare (Nat.le_refl _)).trans (h.trans hroom)

theorem roomKept_cleared {s : State} (h : s.fare = FareEngine.cleared) : roomKept s := by
  rw [roomKept, activeLegs_eq, h, vacant_activeCount vacant_cleared]
  exact Nat.zero_le _

theorem isOpen_of_retryWait {s : State} (h : s.settle.session.state = .retryWait) :
    s.settle.session.state.isOpen = true := by
  simp [h, SessionState.isOpen]

/-- The requests that write the journal. -/
theorem roomKept_journalRule : ∀ (c : Instr) (r : State → Taken), ruleOf c = some r → touches [.journal] c = true →
    ∀ s, ledgerBase s → roomKept s → roomKept (r s).1
  | .legVoid n, _, rfl, _ => by
    intro s hbase h
    rcases takeLegVoid_taken n s with ht | ⟨i, _, hi, _, ht⟩
    · rwa [ht]
    · rw [ht]
      exact roomKept_voidsLeg hbase.2.1 h (by rcases hi with hi | hi <;> simp [hi])
  | .payBegin l t o, _, rfl, _ => by
    intro s hbase h
    rcases takePayBegin_taken l t o s with ht | ⟨slots, tender, offer, hslots, hne, hnone, ht⟩
    · rwa [ht]
    · obtain ⟨_, _, hstopped, hclosed, _⟩ := beginRefusal_none hnone
      obtain ⟨hnodup, _⟩ := slotSet_nodup hslots hne
      rw [ht]
      cases tender with
      | cash => exact roomKept_beginsCash hbase h hnodup hstopped hclosed offer
      | card =>
        have hjournal : (beginsBy slots offer s .card).1.journal = s.journal := by
          simp only [beginsBy, beginsCard]
          split
          · exact (((beginsPayment_acts _ _ _ _).seq (enterTipWait_acts _))).same .journal
          · exact (((beginsPayment_acts _ _ _ _).seq (enterAuthorising_acts _))).same .journal
        refine roomKept_of_le h (by rw [hjournal]) (fun _ => ?_)
        rw [beginsBy_fare]
        exact activeCount_lock_le _ hstopped
  | .payCash, _, rfl, _ => by
    intro s hbase h
    rcases takePayCash_taken s with ht | ⟨hstate, ht⟩
    · rwa [ht]
    · rw [ht]
      exact roomKept_settles_open hbase h (isOpen_of_retryWait hstate) (cashShares_length_le _ _)
  | .shiftClose, _, rfl, _ => by
    intro s _ h
    rcases takeShiftClose_taken s with ht | ⟨_, _, _, ht⟩
    · rwa [ht]
    · rw [ht]
      exact roomKept_of_le h (by simpa [closesShift] using s.journal.room_le_markClosed) (by simp [closesShift])
  | .tripRead n, _, rfl, _ => by
    intro s _ h
    simp only [takeTripRead]
    repeat' split
    · exact h
    · exact roomKept_of_le (t := { s with journal := _ }) h (s.journal.room_le_setRead _) id
    · exact h
  | .tripNextUnread, _, rfl, _ => by
    intro s _ h
    simp only [takeTripNextUnread]
    split
    · exact roomKept_of_le (t := { s with journal := _ }) h (s.journal.room_le_setRead _) id
    · exact h
  | .factoryClear, _, rfl, _ => by
    intro s _ h
    rcases takeFactoryClear_taken s with ht | ⟨_, ht⟩
    · rwa [ht]
    · rw [ht]
      exact roomKept_cleared (by simp [factoryClears, clearRetained])

theorem startsLeg_journal (i : Slot) (l : Leg) (s : State) : (startsLeg i l s).journal = s.journal :=
  (startsLeg_acts i l s).same .journal

theorem roomKept_rule (c : Instr) (r : State → Taken) (hr : ruleOf c = some r) (s : State) (hbase : ledgerBase s)
    (h : roomKept s) : roomKept (r s).1 := by
  by_cases hstart : ∃ x t y, c = .legStart x t y
  · obtain ⟨x, t, y, rfl⟩ := hstart
    cases hr
    rcases takeLegStart_taken x t y s with ht | ⟨_, _, _, i, _, _, _, _, _, _, _, _, _, hroom, ht⟩
    · rwa [ht]
    · rw [ht, roomKept, startsLeg_journal, activeLegs_eq, startsLeg_fare]
      exact (FareEngine.activeCount_start _ _ _).trans hroom
  · by_cases hjournal : touches [.journal] c = true
    · exact roomKept_journalRule c r hr hjournal s hbase h
    · have hnot : Block.journal ∉ blocksOf c := by simpa [touches] using hjournal
      have hsame : (r s).1.journal = s.journal := (rule_acts c r hr s).same .journal (by simpa using hnot)
      by_cases hfare : touches [.fare] c = true
      · exact roomKept_of_le h (by rw [hsame])
          ((activeCount_kept _).rule c r hr hfare (fun x t y e => hstart ⟨x, t, y, e⟩) s)
      · have hnot : Block.fare ∉ blocksOf c := by simpa [touches] using hfare
        have hfare' : (r s).1.fare = s.fare := (rule_acts c r hr s).same .fare (by simpa using hnot)
        exact roomKept_of_le h (by rw [hsame]) (by rw [hfare']; exact id)

theorem makeReversal_journal (places : Nat) (r : Ref) (n : Nat) (s : State) :
    (makeReversal places r n s).journal = s.journal := (makeReversal_acts places r n s).same .journal

theorem roomKept_approves {s : State} (hbase : ledgerBase s) (h : roomKept s) (r : Ref) (n : Nat) (a : Text) :
    roomKept (approves r n a s) := by
  by_cases hsettles : s.settle.session.outstanding = some r ∧ n = s.settle.session.total
  · obtain ⟨hr, hn⟩ := hsettles
    rw [approves, if_pos hr, takesApproval, if_pos hn]
    exact roomKept_settles_open (s := removeStale r s)
      ⟨⟨hbase.1.1, sessionKept_removeStale hbase.1.2 r⟩, hbase.2⟩ h (isOpen_of_outstanding hbase.1.2 hr) (cardShares_length_le _ _)
  · have hjournal : (approves r n a s).journal = s.journal := by
      unfold approves takesApproval
      split
      · next hr =>
        dsimp only
        rw [if_neg (fun hn => hsettles ⟨hr, hn⟩)]
        exact ((abortEnds_acts _ _).same .journal).trans (makeReversal_journal _ _ _ _)
      · exact (takesLateApproval_acts _ _ _).same .journal
    refine roomKept_of_le h (by rw [hjournal]) (fun hle => ?_)
    exact (activeCount_kept s.fare.activeCount).paidOut (approves_paidOut r n a s) hle

theorem roomKept_restarts {s : State} (h : roomKept s) : roomKept (restarts s) := by
  by_cases hvalid : s.retained.isValid = true
  · refine roomKept_of_le h ?_ (fun hle => (activeCount_kept s.fare.activeCount).restarts hle)
    simp [restartMemory, hvalid]
  · rw [roomKept, activeLegs_eq]
    have hcleared : (restartMemory s).fare.activeCount ≤ 0 := by
      simp [restartMemory, hvalid, clearRetained, vacant_activeCount vacant_cleared]
    have hrestored := (activeCount_kept 0).map (fun l => Leg.likeChange_restored l
      (restoreTime (restartMemory s).retained (restartMemory s).clock.count)) hcleared
    rw [(restarts_rest s).2.2.1]
    refine Nat.le_trans ?_ (Nat.zero_le _)
    rcases restartBlocks_fare (restartMemory s) with hb | hb
    · rw [hb]
      exact hrestored
    · rw [hb]
      exact (activeCount_kept 0).map (fun l => Leg.likeChange_unlock l _) hrestored

/-- The events that write the journal. -/
theorem roomKept_journalEvent : ∀ c : Instr, ruleOf c = none → takesFrames c = false → touches [.journal] c = true →
    ∀ s t, exec c s = .next t → ledgerBase s → roomKept s → roomKept t
  | .tApproved r n a, _, _, _ => by
    rintro s t ⟨⟩ hbase h
    refine whileRunning_keep h (fun _ h => ?_)
    exact roomKept_approves (s := { s with tender := s.tender.handedOver (.approved r n a) })
      ⟨⟨hbase.1.1, sessionKept_withTender hbase.1.2 _⟩, hbase.2⟩ h r n a
  | .restart, _, _, _ => by
    rintro s t ⟨⟩ _ h
    split
    · exact roomKept_restarts h
    · exact roomKept_restarts h
    · exact h

theorem roomKept_event (c : Instr) (hr : ruleOf c = none) (hf : takesFrames c = false) (s t : State)
    (ht : exec c s = .next t) (hbase : ledgerBase s) (h : roomKept s) : roomKept t := by
  by_cases hjournal : touches [.journal] c = true
  · exact roomKept_journalEvent c hr hf hjournal s t ht hbase h
  · obtain ⟨u, hu, hacts⟩ := event_acts c hr hf s
    rw [ht] at hu
    cases hu
    have hnot : Block.journal ∉ blocksOf c := by simpa [touches] using hjournal
    have hsame : t.journal = s.journal := hacts.same .journal (by simpa using hnot)
    refine roomKept_of_le h (by rw [hsame]) ?_
    by_cases hfare : touches [.fare] c = true
    · exact (activeCount_kept s.fare.activeCount).event c hr hf hfare s t ht
    · have hnot : Block.fare ∉ blocksOf c := by simpa [touches] using hfare
      rw [hacts.same .fare (by simpa using hnot)]
      exact id

/-- The base conditions and the room of the journal. -/
theorem roomKept_kept : keptByCommands (fun s => ledgerBase s ∧ roomKept s) :=
  ledgerBase_kept.given (fun c r hr s _ => roomKept_rule c r hr s) (fun c hr hf s t ht => roomKept_event c hr hf s t ht)
    (fun s _ => roomKept_readsOnly.keeps (baseStep_acts s) (by decide))

end Sys2Proof.Machine
end

