-- ==== Sys2Proof/Proofs/ShiftTotals.lean ====
section
/-!
PROOF. The shift totals after a settlement's records (R104, R106): each figure is the figure before and the sum over the
records, held at its limit.
-/

set_option Elab.async false

namespace Sys2Proof.Machine

/-! ### Saturating sums -/

theorem addU32_eq (a b : Nat) : addU32 a b = totalOf a b := rfl

theorem totalOf_le (a b : Nat) : totalOf a b ≤ 4294967295 := Nat.min_le_left _ _

theorem totalOf_zero {a : Nat} (h : a ≤ 4294967295) : totalOf a 0 = a := by
  unfold totalOf
  omega

theorem totalOf_assoc (a b c : Nat) : totalOf (totalOf a b) c = totalOf a (b + c) := by
  unfold totalOf
  omega

/-- A figure of an accumulator that grows by a saturating sum at each item. -/
theorem foldl_totalOf {α β : Type} {R : β → Prop} {f : β → α → β} {g : β → Nat} {w : α → Nat}
    (hstep : ∀ t x, R t → R (f t x) ∧ g (f t x) = totalOf (g t) (w x)) (hle : ∀ t, R t → g t ≤ 4294967295)
    (xs : List α) {t : β} (ht : R t) : g (xs.foldl f t) = totalOf (g t) (xs.map w).sum := by
  induction xs generalizing t with
  | nil => exact (totalOf_zero (hle t ht)).symm
  | cons x xs ih =>
    obtain ⟨hR, hg⟩ := hstep t x ht
    rw [List.foldl_cons, ih hR, hg, totalOf_assoc, List.map_cons, List.sum_cons]

/-- The sum of a figure of one record's segments on a tariff. -/
theorem segmentSum_eq (b : Nat) (g : Segment → Nat) (ps : List Trip) :
    segmentSum b g ps = (ps.map (fun p => ((p.segments.filter (fun x => x.tariff = b)).map g).sum)).sum := rfl

/-! ### Buckets -/

/-- Every bucket is within its 32 bits. -/
def bucketsFit (bs : Vector Bucket 9) : Prop :=
  ∀ b : Fin 9, bs[b].metres ≤ 4294967295 ∧ bs[b].seconds ≤ 4294967295 ∧ bs[b].fare ≤ 4294967295

theorem addToBucket_get (bs : Vector Bucket 9) (g : Segment) (n : Fin 9) :
    (addToBucket bs g)[n] = if g.tariff = n.val then bs[n].add g else bs[n] := by
  unfold addToBucket
  split
  · next h =>
    simp only [Fin.getElem_fin, Vector.getElem_set]
    split
    · next hn => simp [hn]
    · rfl
  · next h => rw [if_neg (by omega)]

theorem bucketsFit_add {bs : Vector Bucket 9} (h : bucketsFit bs) (g : Segment) : bucketsFit (addToBucket bs g) := by
  intro b
  rw [addToBucket_get]
  split
  · exact ⟨totalOf_le _ _, totalOf_le _ _, totalOf_le _ _⟩
  · exact h b

/-- The figures of a segment on a tariff, none of one on another. -/
theorem sum_filter_cons (n : Nat) (w : Segment → Nat) (g : Segment) :
    (([g].filter (fun x => x.tariff = n)).map w).sum = if g.tariff = n then w g else 0 := by
  by_cases h : g.tariff = n <;> simp [h]

/-- What the segments of one record add to a bucket. -/
theorem foldl_addToBucket {w : Segment → Nat} {v : Bucket → Nat} (hadd : ∀ b g, v (Bucket.add b g) = totalOf (v b) (w g))
    (n : Fin 9) (hle : ∀ bs, bucketsFit bs → v bs[n] ≤ 4294967295) (gs : List Segment) {bs : Vector Bucket 9}
    (h : bucketsFit bs) :
    v (gs.foldl addToBucket bs)[n] = totalOf (v bs[n]) ((gs.filter (fun x => x.tariff = n.val)).map w).sum := by
  induction gs generalizing bs with
  | nil => exact (totalOf_zero (hle bs h)).symm
  | cons g gs ih =>
    rw [List.foldl_cons, ih (bucketsFit_add h g), addToBucket_get, List.filter_cons]
    by_cases hg : g.tariff = n.val
    · simp [hg, hadd, totalOf_assoc]
    · simp [hg]

theorem bucketsFit_foldl (gs : List Segment) {bs : Vector Bucket 9} (h : bucketsFit bs) :
    bucketsFit (gs.foldl addToBucket bs) :=
  List.foldlRecOn (motive := bucketsFit) _ _ h (fun _ hu g _ => bucketsFit_add hu g)

/-! ### One record -/

theorem addI32_range (a b : Int) : -2147483648 ≤ addI32 a b ∧ addI32 a b ≤ 2147483647 := by
  unfold addI32
  omega

theorem Totals.inRange_addTrip {t : Totals} (h : t.inRange) (p : Trip) : (t.addTrip p).inRange := by
  obtain ⟨htrips, hfare, hextras, hfee, htips, hcard, hcash, hlow, hhigh, hbuckets⟩ := h
  have hb : bucketsFit (p.segments.foldl addToBucket t.buckets) := bucketsFit_foldl _ hbuckets
  have hround (a : Int) := addI32_range t.cashRounding a
  unfold Totals.addTrip Totals.addMoney
  cases p.tender with
  | card =>
    exact ⟨totalOf_le _ _, totalOf_le _ _, totalOf_le _ _, totalOf_le _ _, totalOf_le _ _, totalOf_le _ _, hcash,
      hlow, hhigh, hb⟩
  | cash a =>
    exact ⟨totalOf_le _ _, totalOf_le _ _, totalOf_le _ _, hfee, htips, hcard, hcash, (hround a).1, (hround a).2, hb⟩
  | void => exact ⟨totalOf_le _ _, totalOf_le _ _, totalOf_le _ _, hfee, htips, hcard, hcash, hlow, hhigh, hb⟩

/-- Card fee, tips and card taken grow by the record's shares, which are 0 but for a CARD record. -/
theorem Totals.addTrip_money {t : Totals} (h : t.inRange) (p : Trip) :
    (t.addTrip p).cardFee = totalOf t.cardFee p.tender.fee ∧ (t.addTrip p).tips = totalOf t.tips p.tender.tip
      ∧ (t.addTrip p).cardTaken = totalOf t.cardTaken p.cardTaken := by
  obtain ⟨-, -, -, hfee, htips, hcard, -⟩ := h
  cases htender : p.tender <;>
    simp [Totals.addTrip, Totals.addMoney, Trip.cardTaken, htender, TripTender.fee, TripTender.tip, addU32_eq,
      totalOf_zero hfee, totalOf_zero htips, totalOf_zero hcard]

theorem Totals.addTrip_rounding {t : Totals} (h : t.inRange) (p : Trip) :
    (t.addTrip p).cashRounding = addI32 t.cashRounding p.tender.adjustment := by
  obtain ⟨-, -, -, -, -, -, -, hlow, hhigh, -⟩ := h
  have hzero : addI32 t.cashRounding 0 = t.cashRounding := by
    unfold addI32
    omega
  cases htender : p.tender <;>
    simp [Totals.addTrip, Totals.addMoney, htender, TripTender.adjustment, hzero]

/-! ### All records of a settlement -/

/-- The adjustments of records are all of one sign. -/
def oneSign (ps : List Trip) : Prop :=
  (∀ p ∈ ps, 0 ≤ p.tender.adjustment) ∨ ∀ p ∈ ps, p.tender.adjustment ≤ 0

theorem sum_nonpos {xs : List Int} (h : ∀ x ∈ xs, x ≤ 0) : xs.sum ≤ 0 := by
  induction xs with
  | nil => exact Int.le_refl 0
  | cons x xs ih =>
    have hx := h x (by simp)
    have hxs := ih (fun y hy => h y (by simp [hy]))
    rw [List.sum_cons]
    omega

/-- Adjustments of one sign add up without a stop on the way. -/
theorem rounding_foldl_addTrip {ps : List Trip} (hsign : oneSign ps) {t : Totals} (h : t.inRange)
    (hlow : -2147483648 ≤ t.cashRounding + (ps.map (fun p => p.tender.adjustment)).sum)
    (hhigh : t.cashRounding + (ps.map (fun p => p.tender.adjustment)).sum ≤ 2147483647) :
    (ps.foldl (fun a p => a.addTrip p) t).cashRounding
      = t.cashRounding + (ps.map (fun p => p.tender.adjustment)).sum := by
  induction ps generalizing t with
  | nil => simp
  | cons p ps ih =>
    have hrange := h.2.2.2.2.2.2.2
    have hsign' : oneSign ps := hsign.imp (fun hs q hq => hs q (by simp [hq])) (fun hs q hq => hs q (by simp [hq]))
    simp only [List.map_cons, List.sum_cons] at hlow hhigh ⊢
    have hstep : (t.addTrip p).cashRounding = t.cashRounding + p.tender.adjustment := by
      rw [Totals.addTrip_rounding h]
      have hbetween : -2147483648 ≤ t.cashRounding + p.tender.adjustment
          ∧ t.cashRounding + p.tender.adjustment ≤ 2147483647 := by
        rcases hsign with hs | hs
        · have hp := hs p (by simp)
          have hrest : 0 ≤ (ps.map (fun p => p.tender.adjustment)).sum :=
            List.sum_nonneg (by simpa using fun q hq => hs q (by simp [hq]))
          omega
        · have hp := hs p (by simp)
          have hrest : (ps.map (fun p => p.tender.adjustment)).sum ≤ 0 :=
            sum_nonpos (by simpa using fun q hq => hs q (by simp [hq]))
          omega
      unfold addI32
      omega
    rw [List.foldl_cons, ih hsign' (Totals.inRange_addTrip h p) (by rw [hstep]; omega) (by rw [hstep]; omega), hstep]
    omega

/-- The figures that no record adds to. -/
theorem addTrips_frame (ps : List Trip) (t : Totals) :
    (t.addTrips ps).tripsVoided = t.tripsVoided ∧ (t.addTrips ps).cardDeclines = t.cardDeclines
      ∧ (t.addTrips ps).lateApprovals = t.lateApprovals ∧ (t.addTrips ps).reversalsRequested = t.reversalsRequested
      ∧ (t.addTrips ps).hiredMetres = t.hiredMetres ∧ (t.addTrips ps).totalMetres = t.totalMetres
      ∧ (t.addTrips ps).hiredSeconds = t.hiredSeconds := by
  unfold Totals.addTrips
  refine List.foldlRecOn (motive := fun a : Totals => a.tripsVoided = t.tripsVoided ∧ a.cardDeclines = t.cardDeclines
    ∧ a.lateApprovals = t.lateApprovals ∧ a.reversalsRequested = t.reversalsRequested
    ∧ a.hiredMetres = t.hiredMetres ∧ a.totalMetres = t.totalMetres ∧ a.hiredSeconds = t.hiredSeconds) ps _
    ⟨rfl, rfl, rfl, rfl, rfl, rfl, rfl⟩ (fun a ha p _ => ?_)
  unfold Totals.addTrip Totals.addMoney
  cases p.tender <;> exact ha

/-- R104, R106: what the records of a settlement add to the totals. -/
theorem totalsAdded_addTrips {ps : List Trip} (hsign : oneSign ps) {t : Totals} (h : t.inRange) :
    totalsAdded ps t (t.addTrips ps) := by
  have hin (a : Totals) (p : Trip) (ha : a.inRange) := Totals.inRange_addTrip ha p
  have figure {g : Totals → Nat} {w : Trip → Nat} (hstep : ∀ a p, a.inRange → g (a.addTrip p) = totalOf (g a) (w p))
      (hle : ∀ a, a.inRange → g a ≤ 4294967295) :
      g (ps.foldl (fun a p => a.addTrip p) t) = totalOf (g t) (ps.map w).sum :=
    foldl_totalOf (R := Totals.inRange) (fun a p ha => ⟨hin a p ha, hstep a p ha⟩) hle ps h
  have bucket (n : Fin 9) {v : Bucket → Nat} {w : Segment → Nat}
      (hadd : ∀ b g, v (Bucket.add b g) = totalOf (v b) (w g))
      (hle : ∀ bs, bucketsFit bs → v bs[n] ≤ 4294967295) :
      v (ps.foldl (fun a p => a.addTrip p) t).buckets[n] = totalOf (v t.buckets[n]) (segmentSum n w ps) := by
    refine figure (g := fun a => v a.buckets[n])
      (w := fun p => ((p.segments.filter (fun x => x.tariff = n.val)).map w).sum) (fun a p ha => ?_)
      (fun a ha => hle _ ha.2.2.2.2.2.2.2.2.2)
    exact foldl_addToBucket hadd n hle p.segments ha.2.2.2.2.2.2.2.2.2
  have hcount := figure (g := Totals.tripsSettled) (w := fun _ => 1) (fun _ _ _ => rfl) (fun _ ha => ha.1)
  have hone : (ps.map (fun _ => 1)).sum = ps.length := by simp
  refine ⟨hcount.trans (by rw [hone]), ?_, ?_, ?_, ?_, ?_, rfl, rounding_foldl_addTrip hsign h, fun n => ⟨?_, ?_, ?_⟩,
    addTrips_frame ps t⟩
  · exact figure (g := Totals.fare) (fun _ _ _ => rfl) (fun _ ha => ha.2.1)
  · exact figure (g := Totals.extras) (fun _ _ _ => rfl) (fun _ ha => ha.2.2.1)
  · exact figure (g := Totals.cardFee) (fun _ p ha => (Totals.addTrip_money ha p).1) (fun _ ha => ha.2.2.2.1)
  · exact figure (g := Totals.tips) (fun _ p ha => (Totals.addTrip_money ha p).2.1) (fun _ ha => ha.2.2.2.2.1)
  · exact figure (g := Totals.cardTaken) (fun _ p ha => (Totals.addTrip_money ha p).2.2) (fun _ ha => ha.2.2.2.2.2.1)
  · exact bucket n (v := Bucket.metres) (fun _ _ => rfl) (fun _ hb => (hb n).1)
  · exact bucket n (v := Bucket.seconds) (fun _ _ => rfl) (fun _ hb => (hb n).2.1)
  · exact bucket n (v := Bucket.fare) (fun _ _ => rfl) (fun _ hb => (hb n).2.2)

end Sys2Proof.Machine
end

