-- ==== Sys2Proof/Proofs/ShiftSums.lean ====
section
/-!
PROOF. The open shift's totals are the sums over the journal's records of the shift (R104, R106, R117): what placing,
marking, opening and closing make of totals and records together, and that the money balances.
-/

set_option Elab.async false

namespace Sys2Proof.Machine

/-! ### The records of the open shift -/

/-- The record contents of the open shift in a journal, void ones left out or alone. -/
def Journal.trips (isVoid : Bool) (j : Journal) : List Trip :=
  ((j.ring.filter (fun r => !r.closed)).map TripRecord.trip).filter (fun p => decide (p.tender = .void) == isVoid)

theorem shiftTrips_eq (isVoid : Bool) (s : State) : shiftTrips isVoid s = s.journal.trips isVoid := rfl

theorem Journal.trips_length_le (isVoid : Bool) (j : Journal) : (j.trips isVoid).length ≤ j.ring.length := by
  unfold Journal.trips
  refine (List.length_filter_le _ _).trans ?_
  rw [List.length_map]
  exact List.length_filter_le _ _

/-- A record placed comes after those of the shift: one that leaves is not of it. -/
theorem Journal.trips_place {j : Journal} (hroom : 1 ≤ j.room) (isVoid : Bool) (p : Trip) :
    (j.place p).trips isVoid
      = j.trips isVoid ++ [p].filter (fun q => decide (q.tender = .void) == isVoid) := by
  have hkept : ((if 128 ≤ j.ring.length then j.ring.drop 1 else j.ring).filter (fun r => !r.closed))
      = j.ring.filter (fun r => !r.closed) := by
    split
    · next hfull =>
      obtain ⟨r, rs, hring, hover⟩ := Journal.oldest_of_room hfull hroom
      simp only [TripRecord.overwritable, Bool.and_eq_true] at hover
      simp [hring, hover.1]
    · rfl
  unfold Journal.trips Journal.place
  dsimp only
  rw [List.filter_append, hkept, List.map_append, List.filter_append]
  rfl

theorem Journal.trips_foldl_place (ps : List Trip) {j : Journal} (hlen : j.ring.length ≤ 128)
    (hroom : ps.length ≤ j.room) (isVoid : Bool) :
    (ps.foldl Journal.place j).trips isVoid
      = j.trips isVoid ++ ps.filter (fun q => decide (q.tender = .void) == isVoid) := by
  induction ps generalizing j with
  | nil => simp
  | cons p ps ih =>
    simp only [List.length_cons] at hroom
    obtain ⟨hplace, hlen'⟩ := Journal.room_place hlen (by omega) p
    rw [List.foldl_cons, ih hlen' (by omega), Journal.trips_place (by omega), List.append_assoc, ← List.filter_append,
      List.singleton_append]

/-- What marks do not change. -/
theorem Journal.trips_setRead (j : Journal) (n : Nat) (isVoid : Bool) : (j.setRead n).trips isVoid = j.trips isVoid := by
  have hring : ((j.setRead n).ring.filter (fun r => !r.closed)).map TripRecord.trip
      = (j.ring.filter (fun r => !r.closed)).map TripRecord.trip := by
    unfold Journal.setRead
    induction j.ring with
    | nil => rfl
    | cons r rs ih =>
      simp only [List.map_cons, List.filter_cons] at ih ⊢
      by_cases hseq : r.seq = n <;> by_cases hclosed : r.closed <;> simp_all
  unfold Journal.trips
  rw [hring]

theorem Journal.trips_of_closed {j : Journal} (h : ∀ r ∈ j.ring, r.closed = true) (isVoid : Bool) :
    j.trips isVoid = [] := by
  have hnone : j.ring.filter (fun r => !r.closed) = [] := by
    rw [List.filter_eq_nil_iff]
    intro r hr
    simp [h r hr]
  simp [Journal.trips, hnone]

/-! ### Totals and records -/

/-- R106: the totals are the sums over settled records, and count voided ones. -/
def Totals.sumsOf (a : Totals) (ps : List Trip) (voided : Nat) : Prop :=
  a.tripsSettled = ps.length ∧ a.tripsVoided = voided
    ∧ a.fare = totalOf 0 (ps.map Trip.fare).sum
    ∧ a.extras = totalOf 0 (ps.map Trip.extrasTotal).sum
    ∧ a.cardFee = totalOf 0 (ps.map (fun p => p.tender.fee)).sum
    ∧ a.tips = totalOf 0 (ps.map (fun p => p.tender.tip)).sum
    ∧ a.cardTaken = totalOf 0 (ps.map Trip.cardTaken).sum
    ∧ 0 ≤ (ps.map Trip.cashTaken).sum
    ∧ a.cashTaken = totalOf 0 (ps.map Trip.cashTaken).sum.toNat
    ∧ a.cashRounding = (ps.map (fun p => p.tender.adjustment)).sum
    ∧ ∀ n : Fin 9, a.buckets[n].metres = totalOf 0 (segmentSum n Segment.metres ps)
      ∧ a.buckets[n].seconds = totalOf 0 (segmentSum n Segment.seconds ps)
      ∧ a.buckets[n].fare = totalOf 0 (segmentSum n Segment.fare ps)

/-- Adjustments of at most 50 add up to at most 50 a record. -/
theorem sum_adjustments {ps : List Trip} (h : ∀ p ∈ ps, p.tender.adjustment.natAbs ≤ 50) :
    (ps.map (fun p : Trip => p.tender.adjustment)).sum.natAbs ≤ 50 * ps.length := by
  induction ps with
  | nil => exact Nat.le_refl 0
  | cons p ps ih =>
    have hp := h p (by simp)
    have hps := ih (fun q hq => h q (by simp [hq]))
    rw [List.map_cons, List.sum_cons, List.length_cons]
    omega

theorem Totals.inRange_of_sums {a : Totals} {ps : List Trip} {v : Nat} (h : a.sumsOf ps v) (hlen : ps.length ≤ 128)
    (hadj : ∀ p ∈ ps, p.tender.adjustment.natAbs ≤ 50) : a.inRange := by
  obtain ⟨htrips, _, hfare, hextras, hfee, htips, hcard, _, hcash, hround, hbuckets⟩ := h
  have hsum := sum_adjustments hadj
  refine ⟨by omega, hfare ▸ totalOf_le _ _, hextras ▸ totalOf_le _ _, hfee ▸ totalOf_le _ _, htips ▸ totalOf_le _ _,
    hcard ▸ totalOf_le _ _, hcash ▸ totalOf_le _ _, by omega, by omega, fun n => ?_⟩
  obtain ⟨hm, hs, hf⟩ := hbuckets n
  exact ⟨hm ▸ totalOf_le _ _, hs ▸ totalOf_le _ _, hf ▸ totalOf_le _ _⟩

/-- A sum held at its limit, and more. -/
theorem totalOf_sum_append {α : Type} {a b : Nat} {ps qs : List α} {w : α → Nat} (ha : a = totalOf 0 (qs.map w).sum)
    (hb : b = totalOf a (ps.map w).sum) : b = totalOf 0 ((qs ++ ps).map w).sum := by
  rw [hb, ha, totalOf_assoc, List.map_append, List.sum_append]

/-- The records of a settlement are added to totals and records alike. -/
theorem Totals.sumsOf_addTrips {a : Totals} {qs ps : List Trip} {v : Nat} (h : a.sumsOf qs v)
    (hlen : (qs ++ ps).length ≤ 128) (hadj : ∀ p ∈ qs ++ ps, p.tender.adjustment.natAbs ≤ 50) (hsign : oneSign ps)
    (hcash : 0 ≤ (ps.map Trip.cashTaken).sum) : (a.addTrips ps).sumsOf (qs ++ ps) v := by
  have hrange := inRange_of_sums h (by rw [List.length_append] at hlen; omega) (fun p hp => hadj p (by simp [hp]))
  obtain ⟨htrips, hvoid, hfare, hextras, hfee, htips, hcard, hnonneg, hcashTaken, hround, hbuckets⟩ := h
  obtain ⟨atrips, afare, aextras, afee, atips, acard, acash, around, abuckets, avoid, _⟩ :=
    totalsAdded_addTrips hsign hrange
  have hsum := sum_adjustments hadj
  rw [List.map_append, List.sum_append, ← hround] at hsum
  refine ⟨?_, avoid.trans hvoid, totalOf_sum_append hfare afare, totalOf_sum_append hextras aextras,
    totalOf_sum_append hfee afee, totalOf_sum_append htips atips, totalOf_sum_append hcard acard, ?_, ?_, ?_,
    fun n => ?_⟩
  · rw [atrips, htrips, List.length_append]
    rw [List.length_append] at hlen
    unfold totalOf
    omega
  · rw [List.map_append, List.sum_append]
    omega
  · rw [acash, hcashTaken, totalOf_assoc, List.map_append, List.sum_append, Int.toNat_add hnonneg hcash]
  · rw [around (by omega) (by omega), hround, List.map_append, List.sum_append]
  · obtain ⟨hm, hs, hf⟩ := hbuckets n
    obtain ⟨am, as, af⟩ := abuckets n
    exact ⟨totalOf_sum_append hm am, totalOf_sum_append hs as, totalOf_sum_append hf af⟩

theorem Totals.sumsOf_zero : Totals.zero.sumsOf [] 0 := by
  refine ⟨rfl, rfl, rfl, rfl, rfl, rfl, rfl, Int.le_refl 0, rfl, rfl, fun n => ?_⟩
  simp [Totals.zero, segmentSum, totalOf]

/-- A voided trip is counted alone. -/
theorem Totals.sumsOf_addVoid {a : Totals} {ps : List Trip} {v : Nat} (h : a.sumsOf ps v) (hv : v + 1 ≤ 128) :
    a.addVoid.sumsOf ps (v + 1) := by
  obtain ⟨htrips, hvoid, hrest⟩ := h
  refine ⟨htrips, ?_, hrest⟩
  simp only [Totals.addVoid, addU32_eq, totalOf, hvoid]
  omega

/-- Card and cash taken of a settled record are its fare, extras, shares and adjustment. -/
theorem taken_of_settled {p : Trip} (h : p.tender ≠ .void) :
    (p.cardTaken : Int) + p.cashTaken
      = p.fare + p.extrasTotal + p.tender.fee + p.tender.tip + p.tender.adjustment := by
  unfold Trip.cardTaken Trip.cashTaken
  cases ht : p.tender with
  | void => exact absurd ht h
  | card id fee tip auth => simp [TripTender.fee, TripTender.tip, TripTender.adjustment]
  | cash a => simp [TripTender.fee, TripTender.tip, TripTender.adjustment]

theorem sums_balance {ps : List Trip} (h : ∀ p ∈ ps, p.tender ≠ .void) :
    (((ps.map Trip.cardTaken).sum : Nat) : Int) + (ps.map Trip.cashTaken).sum
      = (ps.map Trip.fare).sum + (ps.map Trip.extrasTotal).sum + ((ps.map (fun p => p.tender.fee)).sum : Nat)
        + ((ps.map (fun p => p.tender.tip)).sum : Nat) + (ps.map (fun p => p.tender.adjustment)).sum := by
  induction ps with
  | nil => rfl
  | cons p ps ih =>
    have hp := taken_of_settled (h p (by simp))
    have hps := ih (fun q hq => h q (by simp [hq]))
    simp only [List.map_cons, List.sum_cons]
    push_cast at hps ⊢
    omega

/-- R104: totals below their limits balance. -/
theorem Totals.balance_of_sums {a : Totals} {ps : List Trip} {v : Nat} (h : a.sumsOf ps v)
    (hps : ∀ p ∈ ps, p.tender ≠ .void) (hcard : a.cardTaken < 4294967295) (hcash : a.cashTaken < 4294967295)
    (hfare : a.fare < 4294967295) (hextras : a.extras < 4294967295) (hfee : a.cardFee < 4294967295)
    (htips : a.tips < 4294967295) :
    ((a.cardTaken + a.cashTaken : Nat) : Int) = (a.fare + a.extras + a.cardFee + a.tips : Nat) + a.cashRounding := by
  obtain ⟨_, _, sfare, sextras, sfee, stips, scard, snonneg, scash, sround, _⟩ := h
  have hbalance := sums_balance hps
  have hexact {x n : Nat} (hx : x = totalOf 0 n) (hlt : x < 4294967295) : x = n := by
    unfold totalOf at hx
    omega
  rw [hexact sfare hfare, hexact sextras hextras, hexact sfee hfee, hexact stips htips, hexact scard hcard,
    hexact scash hcash, sround]
  push_cast at hbalance ⊢
  omega

/-! ### The shift record and the journal -/

/-- While no shift is open every record is closed; the totals of an open one are the sums over its records; and no
record has an adjustment above 50 (R106, R117). -/
def booksFit (r : ShiftRecord) (j : Journal) : Prop :=
  (r.isOpen = false → ∀ x ∈ j.ring, x.closed = true)
    ∧ (r.isOpen = true → r.totals.sumsOf (j.trips false) (j.trips true).length)
    ∧ ∀ x ∈ j.ring, x.trip.tender.adjustment.natAbs ≤ 50

/-- A totals figure outside the sums has no part. -/
theorem booksFit_totals {r r' : ShiftRecord} {j : Journal} (h : booksFit r j) (hopen : r'.isOpen = r.isOpen)
    (hsums : ∀ ps v, r.totals.sumsOf ps v → r'.totals.sumsOf ps v) : booksFit r' j := by
  obtain ⟨hclosed, htotals, hadj⟩ := h
  refine ⟨fun ho => hclosed (hopen ▸ ho), fun ho => hsums _ _ (htotals (hopen ▸ ho)), hadj⟩

theorem trips_adjustment {r : ShiftRecord} {j : Journal} (h : booksFit r j) (isVoid : Bool) :
    ∀ p ∈ j.trips isVoid, p.tender.adjustment.natAbs ≤ 50 := by
  intro p hp
  simp only [Journal.trips, List.mem_filter, List.mem_map] at hp
  obtain ⟨⟨x, ⟨hx, _⟩, rfl⟩, _⟩ := hp
  exact h.2.2 x hx

/-- The records that a settlement may bring. -/
structure settledRecords (ps : List Trip) : Prop where
  settled : ∀ p ∈ ps, p.tender ≠ .void
  adjusted : ∀ p ∈ ps, p.tender.adjustment.natAbs ≤ 50
  sign : oneSign ps
  cash : 0 ≤ (ps.map Trip.cashTaken).sum

/-- The records in the ring after a place are the new one and old ones. -/
theorem mem_place {j : Journal} {p : Trip} {x : TripRecord} (h : x ∈ (j.place p).ring) :
    x ∈ j.ring ∨ x.trip = p := by
  unfold Journal.place at h
  simp only [List.mem_append, List.mem_singleton] at h
  rcases h with h | rfl
  · split at h
    · exact .inl (List.mem_of_mem_drop h)
    · exact .inl h
  · exact .inr rfl

theorem mem_foldl_place {ps : List Trip} {j : Journal} {x : TripRecord} (h : x ∈ (ps.foldl Journal.place j).ring) :
    x ∈ j.ring ∨ x.trip ∈ ps := by
  induction ps generalizing j with
  | nil => exact .inl h
  | cons p ps ih =>
    rcases ih h with h | h
    · exact (mem_place h).imp id (fun he => by simp [he])
    · exact .inr (by simp [h])

/-- A settlement in an open shift. -/
theorem booksFit_settled {r : ShiftRecord} {j : Journal} (h : booksFit r j) (hopen : r.isOpen = true)
    (hlen : j.ring.length ≤ 128) {ps : List Trip} (hroom : ps.length ≤ j.room) (hps : settledRecords ps) :
    booksFit { r with totals := r.totals.addTrips ps } (ps.foldl Journal.place j) := by
  have hsettled : ps.filter (fun q => decide (q.tender = .void) == false) = ps := by
    rw [List.filter_eq_self]
    intro p hp
    simp [hps.settled p hp]
  have hvoid : ps.filter (fun q => decide (q.tender = .void) == true) = [] := by
    rw [List.filter_eq_nil_iff]
    intro p hp
    simp [hps.settled p hp]
  have htrips := Journal.trips_foldl_place ps hlen hroom false
  have hvoids := Journal.trips_foldl_place ps hlen hroom true
  rw [hsettled] at htrips
  rw [hvoid, List.append_nil] at hvoids
  have hring := (Journal.room_foldl_place ps hlen hroom).2
  have hadj : ∀ x ∈ (ps.foldl Journal.place j).ring, x.trip.tender.adjustment.natAbs ≤ 50 := by
    intro x hx
    rcases mem_foldl_place hx with hx | hx
    · exact h.2.2 x hx
    · exact hps.adjusted _ hx
  refine ⟨fun ho => absurd (hopen.symm.trans ho) (by decide), fun _ => ?_, hadj⟩
  rw [htrips, hvoids]
  have hlength := (Journal.trips_length_le false (ps.foldl Journal.place j)).trans hring
  rw [htrips] at hlength
  refine Totals.sumsOf_addTrips (h.2.1 hopen) hlength (fun p hp => ?_) hps.sign hps.cash
  rcases List.mem_append.mp hp with hp | hp
  · exact trips_adjustment h false p hp
  · exact hps.adjusted p hp

/-- A void in an open shift. -/
theorem booksFit_voided {r : ShiftRecord} {j : Journal} (h : booksFit r j) (hopen : r.isOpen = true)
    (hlen : j.ring.length ≤ 128) (hroom : 1 ≤ j.room) {p : Trip} (hp : p.tender = .void) :
    booksFit { r with totals := r.totals.addVoid } (j.place p) := by
  have htrips := Journal.trips_place hroom false p
  have hvoids := Journal.trips_place hroom true p
  simp only [List.filter_cons, List.filter_nil, hp] at htrips hvoids
  have hring := (Journal.room_place hlen hroom p).2
  refine ⟨fun ho => absurd (hopen.symm.trans ho) (by decide), fun _ => ?_, fun x hx => ?_⟩
  · have hlength := (Journal.trips_length_le true (j.place p)).trans hring
    rw [hvoids] at hlength
    rw [htrips, hvoids]
    have := Totals.sumsOf_addVoid (h.2.1 hopen) (by simpa using hlength)
    simpa using this
  · rcases mem_place hx with hx | hx
    · exact h.2.2 x hx
    · simp [hx, hp, TripTender.adjustment]

/-- A shift closes with its records marked. -/
theorem booksFit_closed {r r' : ShiftRecord} {j : Journal} (h : booksFit r j) (hclosed : r'.isOpen = false) :
    booksFit r' j.markClosed := by
  refine ⟨fun _ x hx => ?_, fun ho => absurd (hclosed.symm.trans ho) (by decide), fun x hx => ?_⟩
  all_goals
    simp only [Journal.markClosed, List.mem_map] at hx
    obtain ⟨y, hy, rfl⟩ := hx
  · rfl
  · exact h.2.2 y hy

/-- A shift opens, with all records closed. -/
theorem booksFit_opened {r r' : ShiftRecord} {j : Journal} (h : booksFit r j) (hclosed : r.isOpen = false)
    (hopen : r'.isOpen = true) (htotals : r'.totals = Totals.zero) : booksFit r' j := by
  refine ⟨fun ho => absurd (hopen.symm.trans ho) (by decide), fun _ => ?_, h.2.2⟩
  rw [htotals, Journal.trips_of_closed (h.1 hclosed), Journal.trips_of_closed (h.1 hclosed)]
  exact Totals.sumsOf_zero

/-- A record is marked read. -/
theorem booksFit_read {r : ShiftRecord} {j : Journal} (h : booksFit r j) (n : Nat) : booksFit r (j.setRead n) := by
  have hmem {x : TripRecord} (hx : x ∈ (j.setRead n).ring) :
      ∃ y ∈ j.ring, x.closed = y.closed ∧ x.trip = y.trip := by
    simp only [Journal.setRead, List.mem_map] at hx
    obtain ⟨y, hy, rfl⟩ := hx
    refine ⟨y, hy, ?_⟩
    split <;> exact ⟨rfl, rfl⟩
  refine ⟨fun ho x hx => ?_, fun ho => ?_, fun x hx => ?_⟩
  · obtain ⟨y, hy, hc, _⟩ := hmem hx
    rw [hc]
    exact h.1 ho y hy
  · rw [Journal.trips_setRead, Journal.trips_setRead]
    exact h.2.1 ho
  · obtain ⟨y, hy, _, ht⟩ := hmem hx
    rw [ht]
    exact h.2.2 y hy

theorem booksFit_cleared : booksFit ShiftAccounts.cleared.record Journal.cleared :=
  ⟨fun _ x hx => absurd hx List.not_mem_nil, fun ho => absurd (show false = true from ho) (by decide),
    fun x hx => absurd hx List.not_mem_nil⟩

/-- An open shift's totals, below their limits, balance. -/
theorem booksFit_balances {s : State} (h : booksFit s.shifts.record s.journal) : moneyBalances s := by
  intro hopen hcard hcash hfare hextras hfee htips
  refine Totals.balance_of_sums (h.2.1 hopen) (fun p hp => ?_) hcard hcash hfare hextras hfee htips
  simp only [Journal.trips, List.mem_filter] at hp
  simpa using hp.2

end Sys2Proof.Machine
end

