-- ==== Sys2Proof/Proofs/Accounts.lean ====
section
/-!
PROOF. The shift totals stay the sums over the journal's records (R104, R106), from a state with the conditions on meters,
session, journal and room.
-/

set_option Elab.async false

namespace Sys2Proof.Machine

/-! ### The parts of the condition -/

/-- R65: an open session's dues are those of its legs. -/
def FareEngine.duesFit (e : FareEngine) (p : Session) : Prop :=
  p.state.isOpen = true →
    p.due = p.dues.sum ∧ ∀ x ∈ p.legs, x.due = (e.legs.get x.slot).fare + (e.legs.get x.slot).extrasTotal

/-- The cash rounding unit is 1 to 100. -/
def unitFits (u : Settlement) : Prop := 1 ≤ u.settings.cashUnit ∧ u.settings.cashUnit ≤ 100

/-- The records and totals of a state. -/
abbrev books (s : State) : Prop := booksFit s.shifts.record s.journal

theorem accountsKept_iff (s : State) :
    accountsKept s ↔ books s ∧ unitFits s.settle ∧ s.fare.duesFit s.settle.session :=
  ⟨fun ⟨hc, ho, ha, h1, h100, hd⟩ => ⟨⟨hc, ho, ha⟩, ⟨h1, h100⟩, hd⟩,
   fun ⟨⟨hc, ho, ha⟩, ⟨h1, h100⟩, hd⟩ => ⟨hc, ho, ha, h1, h100, hd⟩⟩

theorem accountsKept_readsOnly : readsOnly ledgerBlocks accountsKept := by
  intro s t hsame h
  have hfare : t.fare = s.fare := hsame .fare (by simp)
  have hsettle : t.settle = s.settle := hsame .settle (by simp)
  have hshifts : t.shifts = s.shifts := hsame .shifts (by simp)
  have hjournal : t.journal = s.journal := hsame .journal (by simp)
  rw [accountsKept_iff] at *
  rwa [books, hfare, hsettle, hshifts, hjournal]

/-! ### Dues and unit -/

/-- PAYING legs stay as they were, and with them the dues of the session. -/
theorem FareEngine.duesFit_of_same {e e' : FareEngine} {p : Session} (hpaying : e.payingFor p) (h : e.duesFit p)
    (hsame : e.samePaying e') : e'.duesFit p := by
  intro hopen
  obtain ⟨hdue, hlegs⟩ := h hopen
  refine ⟨hdue, fun x hx => ?_⟩
  have hp : (e.legs.get x.slot).state = .paying :=
    (hpaying.1 x.slot).mpr ⟨hopen, List.mem_map_of_mem hx⟩
  rw [(hsame x.slot).2 ((hsame x.slot).1.mpr hp)]
  exact hlegs x hx

/-- The settings stay, and an open session was open before with the same legs and due. -/
def sessionGoesOn (s t : State) : Prop :=
  t.settle.settings = s.settle.settings ∧ (t.settle.session.state.isOpen = true →
    s.settle.session.state.isOpen = true ∧ t.settle.session.legs = s.settle.session.legs
      ∧ t.settle.session.due = s.settle.session.due ∧ t.fare = s.fare)

theorem sessionGoesOn_of_closed {s t : State} (hsettings : t.settle.settings = s.settle.settings)
    (h : t.settle.session.state.isOpen = false) : sessionGoesOn s t :=
  ⟨hsettings, fun ho => absurd (h.symm.trans ho) (by decide)⟩

theorem sessionGoesOn_of_same {s t : State} (hsettings : t.settle.settings = s.settle.settings)
    (hsession : t.settle.session = s.settle.session) (hfare : t.fare = s.fare) : sessionGoesOn s t :=
  ⟨hsettings, fun ho => ⟨hsession ▸ ho, by rw [hsession], by rw [hsession], hfare⟩⟩

theorem sessionGoesOn.trans {s t u : State} (h : sessionGoesOn s t) (h' : sessionGoesOn t u) : sessionGoesOn s u := by
  refine ⟨h'.1.trans h.1, fun ho => ?_⟩
  obtain ⟨ht, hlegs', hdue', hfare'⟩ := h'.2 ho
  obtain ⟨hs, hlegs, hdue, hfare⟩ := h.2 ht
  exact ⟨hs, hlegs'.trans hlegs, hdue'.trans hdue, hfare'.trans hfare⟩

theorem sessionGoesOn.dues {s t : State} (h : sessionGoesOn s t) (hu : unitFits s.settle)
    (hd : s.fare.duesFit s.settle.session) : unitFits t.settle ∧ t.fare.duesFit t.settle.session := by
  refine ⟨by rwa [unitFits, h.1], fun ho => ?_⟩
  obtain ⟨hs, hlegs, hdue, hfare⟩ := h.2 ho
  rw [hdue, Session.dues, hlegs, hfare]
  exact hd hs

theorem isOpen_of_timerOf {x : SessionState} (h : timerOf x = none) : x.isOpen = false := by
  revert h
  cases x <;> simp [timerOf, SessionState.isOpen]

theorem goesOn_closeUnpaid (x : SessionState) (hx : timerOf x = none) (c : CloseCause) (s : State) :
    sessionGoesOn s (closeUnpaid x c s) :=
  sessionGoesOn_of_closed (by simp) (by simpa [Session.close] using isOpen_of_timerOf hx)

theorem goesOn_endsUnapproved (reason : DeclineReason) {s : State} (hopen : s.settle.session.state.isOpen = true) :
    sessionGoesOn s (endsUnapproved reason s) := by
  by_cases hlt : s.settle.session.attempt.getD 0 < 3
  · exact ⟨by simp, fun _ => ⟨hopen, by simp [Session.unapproved, hlt], by simp [Session.unapproved, hlt], by simp [hlt]⟩⟩
  · exact sessionGoesOn_of_closed (by simp)
      (by simp [Session.unapproved, hlt, Session.close, SessionState.isOpen])

theorem goesOn_abortEnds (reason : DeclineReason) {s : State} (hopen : s.settle.session.state.isOpen = true) :
    sessionGoesOn s (abortEnds reason s) := by
  unfold abortEnds
  split
  · exact goesOn_closeUnpaid _ rfl _ s
  · exact goesOn_endsUnapproved reason hopen

theorem goesOn_enterAborting (c : AbortCause) (r : Ref) {s : State} (hopen : s.settle.session.state.isOpen = true) :
    sessionGoesOn s (enterAborting c r s) :=
  ⟨by simp, fun _ => ⟨hopen, by simp, by simp, (enterAborting_acts c r s).same .fare⟩⟩

theorem goesOn_enterAuthorising {g : Session → Session} {s : State} (hopen : s.settle.session.state.isOpen = true)
    (hlegs : (g s.settle.session).legs = s.settle.session.legs)
    (hdue : (g s.settle.session).due = s.settle.session.due) :
    sessionGoesOn s (enterAuthorising (setSession g s)) := by
  refine ⟨by simp [setSession], fun _ => ⟨hopen, ?_, ?_, (enterAuthorising_acts (setSession g s)).same .fare⟩⟩
  · simpa [setSession] using hlegs
  · simpa [setSession] using hdue

theorem goesOn_settles {close : Session → Session} (paid : List LegPaid) {s : State}
    (hstate : (close s.settle.session).state = .settled) : sessionGoesOn s (settles close paid s) :=
  sessionGoesOn_of_closed (by simp) (by simp [hstate, SessionState.isOpen])

theorem goesOn_removeStale (r : Ref) (s : State) : sessionGoesOn s (removeStale r s) :=
  sessionGoesOn_of_same rfl rfl rfl

theorem makeReversal_settings (places : Nat) (r : Ref) (n : Nat) (s : State) :
    (makeReversal places r n s).settle.settings = s.settle.settings := by
  rw [makeReversal_settle]
  split <;> rfl

theorem goesOn_makeReversal (places : Nat) (r : Ref) (n : Nat) (s : State) :
    sessionGoesOn s (makeReversal places r n s) :=
  sessionGoesOn_of_same (makeReversal_settings _ _ _ _) (makeReversal_session _ _ _ _) (makeReversal_fare _ _ _ _)

theorem goesOn_approves {s : State} (h : sessionKept s) (r : Ref) (n : Nat) (a : Text) :
    sessionGoesOn s (approves r n a s) := by
  unfold approves takesApproval
  split
  · next hr =>
    have hopen := isOpen_of_outstanding h hr
    dsimp only
    split
    · exact (goesOn_removeStale r s).trans (goesOn_settles _ rfl)
    · refine ((goesOn_removeStale r s).trans (goesOn_makeReversal 4 r n _)).trans (goesOn_abortEnds _ ?_)
      rw [makeReversal_session]
      exact hopen
  · refine sessionGoesOn_of_same ?_ ?_ ((takesLateApproval_acts r n s).same .fare)
    · rw [takesLateApproval_settle]
      exact makeReversal_settings 5 r n s
    · rw [takesLateApproval_settle]
      exact makeReversal_session 5 r n s

theorem goesOn_declines {s : State} (h : sessionKept s) (r : Ref) (n : Nat) : sessionGoesOn s (declines r n s) := by
  unfold declines
  dsimp only
  split
  · next hr =>
    have hopen := isOpen_of_outstanding h hr
    split
    · exact (goesOn_removeStale r s).trans (goesOn_abortEnds _ hopen)
    · exact (goesOn_removeStale r s).trans (goesOn_endsUnapproved _ hopen)
  · exact goesOn_removeStale r s

theorem goesOn_confirmsAbort {s : State} (h : sessionKept s) (r : Ref) : sessionGoesOn s (confirmsAbort r s) := by
  unfold confirmsAbort
  split
  · next hr =>
    split
    · exact (goesOn_removeStale r s).trans (goesOn_abortEnds _ (isOpen_of_outstanding h hr))
    · exact sessionGoesOn_of_same rfl rfl rfl
  · exact goesOn_removeStale r s

/-! ### The records of a settlement -/

theorem natAbs_le_of_mem_apportionSigned {z x : Int} {due : Nat} {dues : List Nat} (hdue : due = dues.sum)
    (h : x ∈ apportionSigned z due dues) : x.natAbs ≤ z.natAbs ∧ (0 ≤ z → 0 ≤ x) ∧ (z < 0 → x ≤ 0) := by
  cases dues with
  | nil => simp [apportionSigned, apportion, addToFirst] at h
  | cons d ds =>
    have hsum := sum_apportion z.natAbs hdue
    rcases Int.lt_or_le z 0 with hz | hz
    · rw [apportionSigned_neg hz, sharesAsInts_eq, List.map_map] at h
      obtain ⟨n, hn, rfl⟩ := List.mem_map.mp h
      have hle := List.le_sum_of_mem hn
      simp only [Function.comp_apply]
      omega
    · rw [apportionSigned_nonneg hz, sharesAsInts_eq, List.map_map] at h
      obtain ⟨n, hn, rfl⟩ := List.mem_map.mp h
      have hle := List.le_sum_of_mem hn
      simp only [Function.comp_apply]
      omega

theorem settledRecords_card (p : Session) (a : Text) (s : State) :
    settledRecords ((cardShares p a).map (fun x => settledTrip x s)) := by
  have htender : ∀ q ∈ (cardShares p a).map (fun x => settledTrip x s), ∃ f t, q.tender = .card p.paymentId f t a := by
    intro q hq
    simp only [cardShares, List.map_map, List.mem_map] at hq
    obtain ⟨x, _, rfl⟩ := hq
    exact ⟨_, _, rfl⟩
  have hzero : ∀ q ∈ (cardShares p a).map (fun x => settledTrip x s), q.tender.adjustment = 0 ∧ q.cashTaken = 0 := by
    intro q hq
    obtain ⟨f, t, ht⟩ := htender q hq
    simp [Trip.cashTaken, ht, TripTender.adjustment]
  refine ⟨fun q hq => ?_, fun q hq => ?_, .inl (fun q hq => ?_), List.sum_nonneg (fun x hx => ?_)⟩
  · obtain ⟨f, t, ht⟩ := htender q hq
    simp [ht]
  · simp [(hzero q hq).1]
  · rw [(hzero q hq).1]
  · obtain ⟨q, hq, rfl⟩ := List.mem_map.mp hx
    rw [(hzero q hq).2]

/-- The dues of the legs and the shares of an adjustment, added up over the records. -/
theorem sum_cashTaken {p : Session} {z : Int} {s : State} (hdue : p.due = p.dues.sum)
    (hlegs : ∀ x ∈ p.legs, x.due = (s.leg x.slot).fare + (s.leg x.slot).extrasTotal) :
    (((cashShares p z).map (fun x => settledTrip x s)).map Trip.cashTaken).sum
      = if p.legs = [] then 0 else (p.due : Int) + z := by
  have hlen : p.slots.length = (apportionSigned z p.due p.dues).length := by
    rw [length_apportionSigned, Session.slots, Session.dues, List.length_map, List.length_map]
  have hmap : ((cashShares p z).map (fun x => settledTrip x s)).map Trip.cashTaken
      = (p.slots.zip (apportionSigned z p.due p.dues)).map
        (fun e => (((s.leg e.1).fare + (s.leg e.1).extrasTotal : Nat) : Int) + e.2) := by
    simp only [cashShares, List.map_map]
    rfl
  have hdues : p.slots.map (fun i => (((s.leg i).fare + (s.leg i).extrasTotal : Nat) : Int))
      = p.dues.map (fun n : Nat => (n : Int)) := by
    rw [Session.slots, Session.dues, List.map_map, List.map_map]
    exact List.map_congr_left (fun x hx => by simp [hlegs x hx])
  rw [hmap, sum_map_zip_add (fun i => (((s.leg i).fare + (s.leg i).extrasTotal : Nat) : Int)) (fun n => n) hlen, hdues,
    List.map_id', ← Nat.cast_list_sum, ← hdue]
  cases hl : p.legs with
  | nil =>
    have hd : p.dues = [] := by rw [Session.dues, hl]; rfl
    rw [hd, List.sum_nil] at hdue
    simp [hd, hdue, apportionSigned, apportion, addToFirst]
  | cons x xs =>
    have hd : p.dues = x.due :: xs.map LegDue.due := by rw [Session.dues, hl]; rfl
    rw [hd, sum_apportionSigned z (by rw [← hd]; exact hdue)]
    simp

theorem settledRecords_cash {p : Session} {u : Nat} {s : State} (hunit : 1 ≤ u ∧ u ≤ 100) (hdue : p.due = p.dues.sum)
    (hlegs : ∀ x ∈ p.legs, x.due = (s.leg x.slot).fare + (s.leg x.slot).extrasTotal) :
    settledRecords ((cashShares p (cashDifference u p.due)).map (fun x => settledTrip x s)) := by
  have hbounds := cashDifference_bounds (u := u) (by omega) p.due
  have hshare : ∀ q ∈ (cashShares p (cashDifference u p.due)).map (fun x => settledTrip x s),
      ∃ y ∈ apportionSigned (cashDifference u p.due) p.due p.dues, q.tender = .cash y := by
    intro q hq
    simp only [cashShares, List.map_map, List.mem_map] at hq
    obtain ⟨x, hx, rfl⟩ := hq
    exact ⟨x.2, (List.of_mem_zip hx).2, rfl⟩
  refine ⟨fun q hq => ?_, fun q hq => ?_, ?_, ?_⟩
  · obtain ⟨y, _, ht⟩ := hshare q hq
    simp [ht]
  · obtain ⟨y, hy, ht⟩ := hshare q hq
    have := (natAbs_le_of_mem_apportionSigned hdue hy).1
    simp only [ht, TripTender.adjustment]
    omega
  · rcases Int.lt_or_le (cashDifference u p.due) 0 with hz | hz
    · refine .inr (fun q hq => ?_)
      obtain ⟨y, hy, ht⟩ := hshare q hq
      simpa [ht, TripTender.adjustment] using (natAbs_le_of_mem_apportionSigned hdue hy).2.2 hz
    · refine .inl (fun q hq => ?_)
      obtain ⟨y, hy, ht⟩ := hshare q hq
      simpa [ht, TripTender.adjustment] using (natAbs_le_of_mem_apportionSigned hdue hy).2.1 hz
  · rw [sum_cashTaken hdue hlegs]
    split
    · exact Int.le_refl 0
    · unfold cashDifference
      omega

/-! ### Books after each operation -/

theorem addTotals_shifts_congr {s t : State} (h : t.shifts = s.shifts) (g : Totals → Totals) :
    (addTotals g t).shifts = (addTotals g s).shifts := by
  rw [addTotals_shifts, addTotals_shifts, shiftOpen, shiftOpen, h]

theorem settles_shifts (close : Session → Session) (paid : List LegPaid) (s : State) :
    (settles close paid s).shifts = (addTotals (Totals.addTrips (paid.map (fun x => settledTrip x s))) s).shifts := by
  simp only [settles, raisePayment_rest, askTone_rest, releaseLegs_rest, recordsTrips_shifts]
  exact addTotals_shifts_congr (by rfl) _

theorem books_settles {s : State} (h : books s) (hring : s.journal.ring.length ≤ 128) (hopen : shiftOpen s = true)
    {close : Session → Session} {paid : List LegPaid} (hroom : paid.length ≤ s.journal.room)
    (hps : settledRecords (paid.map (fun x => settledTrip x s))) : books (settles close paid s) := by
  have hbooks := booksFit_settled h hopen hring (by simpa using hroom) hps
  rw [books, settles_journal, settles_shifts, addTotals_shifts, if_pos hopen]
  exact hbooks

/-- The journal is as it was, and the totals are still sums. -/
def sumsGoOn (s t : State) : Prop :=
  t.journal = s.journal ∧ t.shifts.record.isOpen = s.shifts.record.isOpen
    ∧ ∀ ps v, s.shifts.record.totals.sumsOf ps v → t.shifts.record.totals.sumsOf ps v

theorem sumsGoOn_of_same {s t : State} (hj : t.journal = s.journal) (hs : t.shifts.record = s.shifts.record) :
    sumsGoOn s t := ⟨hj, by rw [hs], fun _ _ h => by rwa [hs]⟩

theorem sumsGoOn.trans {s t u : State} (h : sumsGoOn s t) (h' : sumsGoOn t u) : sumsGoOn s u :=
  ⟨h'.1.trans h.1, h'.2.1.trans h.2.1, fun ps v hs => h'.2.2 ps v (h.2.2 ps v hs)⟩

theorem sumsGoOn.books {s t : State} (h : sumsGoOn s t) (hb : books s) : books t := by
  rw [Machine.books, h.1]
  exact booksFit_totals hb h.2.1 h.2.2

/-- An addition to a figure outside the sums. -/
theorem sumsGoOn_addTotals {s t : State} {g : Totals → Totals} (hg : ∀ a ps v, Totals.sumsOf a ps v → (g a).sumsOf ps v)
    (hj : t.journal = s.journal) (hs : t.shifts = (addTotals g s).shifts) : sumsGoOn s t := by
  refine ⟨hj, by rw [hs, addTotals_isOpen], fun ps v h => ?_⟩
  rw [hs, addTotals_shifts]
  split
  · exact hg _ _ _ h
  · exact h

theorem sumsGoOn_endsUnapproved (reason : DeclineReason) (s : State) : sumsGoOn s (endsUnapproved reason s) := by
  refine sumsGoOn_addTotals (g := Totals.addDecline) (fun _ _ _ h => h) ((endsUnapproved_acts reason s).same .journal) ?_
  unfold endsUnapproved
  dsimp only
  split
  · rw [(enterRetryWait_acts _).same .shifts, (askTone_acts _ _).same .shifts]
    exact addTotals_shifts_congr (by rfl) _
  · rw [(closeUnpaid_acts _ _ _).same .shifts, (askTone_acts _ _).same .shifts]
    exact addTotals_shifts_congr (by rfl) _

theorem sumsGoOn_closeUnpaid (x : SessionState) (c : CloseCause) (s : State) : sumsGoOn s (closeUnpaid x c s) := by
  have hshifts : (closeUnpaid x c s).shifts = s.shifts := (closeUnpaid_acts x c s).same .shifts
  exact sumsGoOn_of_same ((closeUnpaid_acts x c s).same .journal) (by rw [hshifts])

theorem sumsGoOn_abortEnds (reason : DeclineReason) (s : State) : sumsGoOn s (abortEnds reason s) := by
  unfold abortEnds
  split
  · exact sumsGoOn_closeUnpaid _ _ s
  · exact sumsGoOn_endsUnapproved reason s

theorem sumsGoOn_makeReversal (places : Nat) (r : Ref) (n : Nat) (s : State) :
    sumsGoOn s (makeReversal places r n s) := by
  refine sumsGoOn_addTotals (g := Totals.addReversal) (fun _ _ _ h => h) (makeReversal_journal _ _ _ _) ?_
  exact addTotals_shifts_congr (by simp) _

theorem sumsGoOn_takesLateApproval (r : Ref) (n : Nat) (s : State) : sumsGoOn s (takesLateApproval r n s) := by
  refine (sumsGoOn_makeReversal 5 r n s).trans (sumsGoOn_addTotals (g := Totals.addLate) (fun _ _ _ h => h) ?_ ?_)
  · rw [(takesLateApproval_acts r n s).same .journal, makeReversal_journal]
  · rw [takesLateApproval, (raise_acts _ _ _).same .shifts]
    exact addTotals_shifts_congr (by rfl) _

theorem sumsGoOn_declines (r : Ref) (n : Nat) (s : State) : sumsGoOn s (declines r n s) := by
  unfold declines
  dsimp only
  repeat' split
  · exact sumsGoOn_abortEnds _ (removeStale r s)
  · exact sumsGoOn_endsUnapproved _ (removeStale r s)
  · exact sumsGoOn_of_same rfl rfl

theorem sumsGoOn_confirmsAbort (r : Ref) (s : State) : sumsGoOn s (confirmsAbort r s) := by
  unfold confirmsAbort
  repeat' split
  · exact sumsGoOn_abortEnds _ (removeStale r s)
  · exact sumsGoOn_of_same rfl rfl
  · exact sumsGoOn_of_same rfl rfl

theorem sumsGoOn_abortExpires (s : State) : sumsGoOn s (abortExpires s) := by
  unfold abortExpires
  split
  · exact sumsGoOn_abortEnds _ (enterStale _ s)
  · exact sumsGoOn_of_same rfl rfl

theorem closeInterval_shifts (s : State) :
    (closeInterval s).shifts
      = (addTotals (Totals.addInterval (clampMetres (closingCount s)) (anyRuns s)) s).shifts := by
  have hfares (m : Nat) (t : State) : (closeFares m t).shifts = t.shifts := (closeFares_acts m t).same .shifts
  simp only [closeInterval, closeOdometry_rest]
  exact addTotals_shifts_congr (by simp [hfares]) _

theorem sumsGoOn_closeInterval (s : State) : sumsGoOn s (closeInterval s) :=
  sumsGoOn_addTotals (g := Totals.addInterval _ _) (fun _ _ _ h => h) ((closeInterval_acts s).same .journal)
    (closeInterval_shifts s)

theorem sumsGoOn_ticks (s : State) : sumsGoOn s (ticks s) := by
  unfold ticks
  refine whileRunning_keep (P := sumsGoOn s) (sumsGoOn_of_same rfl rfl) (fun _ h => ?_)
  exact h.trans (sumsGoOn_closeInterval { s with clock := _, odo := _ })

theorem sumsGoOn_approves_unsettled {s : State} (r : Ref) (n : Nat) (a : Text)
    (h : ¬(s.settle.session.outstanding = some r ∧ n = s.settle.session.total)) : sumsGoOn s (approves r n a s) := by
  unfold approves takesApproval
  split
  · next hr =>
    dsimp only
    rw [if_neg (fun hn => h ⟨hr, hn⟩)]
    exact (sumsGoOn_makeReversal 4 r n (removeStale r s)).trans (sumsGoOn_abortEnds _ _)
  · exact sumsGoOn_takesLateApproval r n s

/-! ### Rules -/

/-- A session that is open has a leg, so a shift is open. -/
theorem shiftOpen_of_isOpen {s : State} (hbase : ledgerBase s) (hopen : s.settle.session.state.isOpen = true) :
    shiftOpen s = true := by
  obtain ⟨_, _, ⟨hlegs, _⟩, hpaying⟩ := (sessionKept_iff s).mp hbase.1.2
  obtain ⟨x, xs, hx⟩ := List.exists_cons_of_ne_nil (hlegs hopen)
  have hp := (hpaying.1 x.slot).mpr ⟨hopen, by simp [Session.slots, hx]⟩
  exact hbase.1.1.2.1 x.slot (by simp [State.leg, hp])

/-- There is room for the records of an open session. -/
theorem room_of_isOpen {s : State} (hbase : ledgerBase s) (hroom : roomKept s)
    (hopen : s.settle.session.state.isOpen = true) : s.settle.session.slots.length ≤ s.journal.room := by
  obtain ⟨_, _, ⟨_, hnodup⟩, hpaying⟩ := (sessionKept_iff s).mp hbase.1.2
  have hfreed := FareEngine.activeCount_release hpaying hopen hnodup
  rw [roomKept, activeLegs_eq] at hroom
  omega

theorem books_settlesByCash {s : State} (hbase : ledgerBase s) (hroom : roomKept s) (h : accountsKept s)
    (hopen : s.settle.session.state.isOpen = true) : books (settlesByCash s) := by
  obtain ⟨hbooks, hunit, hdues⟩ := (accountsKept_iff s).mp h
  obtain ⟨hdue, hlegs⟩ := hdues hopen
  refine books_settles hbooks hbase.2.1 (shiftOpen_of_isOpen hbase hopen)
    ((cashShares_length_le _ _).trans (room_of_isOpen hbase hroom hopen)) (settledRecords_cash hunit hdue hlegs)

theorem books_settlesByCard {s : State} (hbase : ledgerBase s) (hroom : roomKept s) (h : books s)
    (hopen : s.settle.session.state.isOpen = true) (a : Text) : books (settlesByCard a s) :=
  books_settles h hbase.2.1 (shiftOpen_of_isOpen hbase hopen)
    ((cardShares_length_le _ _).trans (room_of_isOpen hbase hroom hopen)) (settledRecords_card _ _ _)

theorem books_beginsCash {s : State} (hbase : ledgerBase s) (hroom : roomKept s) (h : accountsKept s)
    {slots : List Slot} (hnodup : slots.Nodup) (hopen : shiftOpen s = true)
    (hstopped : ∀ i ∈ slots, (s.leg i).state = .stopped) (hclosed : s.settle.session.state.isOpen = false)
    (offer : Bool) : books (beginsCash slots offer s).1 := by
  obtain ⟨hbooks, hunit, _⟩ := (accountsKept_iff s).mp h
  have hnone := FareEngine.nonePaying_of_closed ((sessionKept_iff s).mp hbase.1.2).2.2.2 hclosed
  have hacts := beginsPayment_acts slots .cash offer s
  have hjournal : (beginsPayment slots .cash offer s).journal = s.journal := hacts.same .journal
  have hshifts : (beginsPayment slots .cash offer s).shifts = s.shifts := hacts.same .shifts
  have hfreed := FareEngine.activeCount_release (payingFor_begun hnone slots .cash offer) rfl
    (by rwa [Session.asOpen_slots, begunSession_slots])
  rw [Session.asOpen_slots, begunSession_slots] at hfreed
  have hlock := activeCount_lock_le s.settle.nextId hstopped
  rw [roomKept, activeLegs_eq] at hroom
  simp only [beginsCash, settlesByCash]
  refine books_settles ?_ ?_ ?_ ?_ ?_
  · rwa [books, hjournal, hshifts]
  · rw [hjournal]
    exact hbase.2.1
  · rw [shiftOpen, hshifts]
    exact hopen
  · refine (cashShares_length_le _ _).trans ?_
    rw [beginsPayment_settle, begunSession_slots, hjournal]
    omega
  · rw [beginsPayment_settle]
    refine settledRecords_cash hunit rfl (fun x hx => ?_)
    obtain ⟨i, hi, rfl⟩ := List.mem_map.mp hx
    have hleg : (beginsPayment slots .cash offer s).leg i
        = { s.leg i with state := .paying, paymentId := some s.settle.nextId } := by
      rw [State.leg, beginsPayment_fare, FareEngine.lock_get, if_pos hi]
      rfl
    rw [hleg]
    rfl

theorem books_voidsLeg {s : State} (hbase : ledgerBase s) (hroom : roomKept s) (h : books s) {i : Slot}
    (hi : (s.leg i).state ≠ .free) : books (voidsLeg i s) := by
  have hopen := hbase.1.1.2.1 i hi
  have hfreed := s.fare.activeCount_freeLeg i
  have hactive : (s.fare.legs.get i).active = true := by simpa [Leg.active, State.leg] using hi
  rw [hactive, Bool.toNat_true] at hfreed
  rw [roomKept, activeLegs_eq] at hroom
  have hbooks := booksFit_voided h hopen hbase.2.1 (by omega) (p := voidTrip i s) rfl
  have hshifts : (voidsLeg i s).shifts = (addTotals Totals.addVoid s).shifts := by
    simp only [voidsLeg, resign_rest, raiseLegState_rest]
    exact addTotals_shifts_congr (by simp) _
  rw [books, voidsLeg_journal, hshifts, addTotals_shifts, if_pos hopen]
  exact hbooks

/-- The requests that write totals or records. -/
theorem books_rule : ∀ (c : Instr) (r : State → Taken), ruleOf c = some r → touches [.shifts, .journal] c = true →
    ∀ s, ledgerBase s → roomKept s → accountsKept s → books (r s).1
  | .legVoid n, _, rfl, _ => by
    intro s hbase hroom h
    have hbooks := ((accountsKept_iff s).mp h).1
    rcases takeLegVoid_taken n s with ht | ⟨i, _, hi, _, ht⟩
    · rwa [ht]
    · rw [ht]
      exact books_voidsLeg hbase hroom hbooks (by rcases hi with hi | hi <;> simp [hi])
  | .payBegin l t o, _, rfl, _ => by
    intro s hbase hroom h
    have hbooks := ((accountsKept_iff s).mp h).1
    rcases takePayBegin_taken l t o s with ht | ⟨slots, tender, offer, hslots, hne, hnone, ht⟩
    · rwa [ht]
    · obtain ⟨hopen, _, hstopped, hclosed, _⟩ := beginRefusal_none hnone
      obtain ⟨hnodup, _⟩ := slotSet_nodup hslots hne
      rw [ht]
      cases tender with
      | cash => exact books_beginsCash hbase hroom h hnodup hopen hstopped hclosed offer
      | card =>
        simp only [beginsBy, beginsCard]
        split
        · have hacts := (beginsPayment_acts slots .card offer s).seq (enterTipWait_acts _)
          rwa [books, hacts.same .journal, hacts.same .shifts]
        · have hacts := (beginsPayment_acts slots .card offer s).seq (enterAuthorising_acts _)
          rwa [books, hacts.same .journal, hacts.same .shifts]
  | .payCash, _, rfl, _ => by
    intro s hbase hroom h
    rcases takePayCash_taken s with ht | ⟨hstate, ht⟩
    · rw [ht]
      exact ((accountsKept_iff s).mp h).1
    · rw [ht]
      exact books_settlesByCash hbase hroom h (isOpen_of_retryWait hstate)
  | .shiftOpen d, _, rfl, _ => by
    intro s _ _ h
    have hbooks := ((accountsKept_iff s).mp h).1
    rcases takeShiftOpen_taken d s with ht | ⟨hclosed, _, ht⟩
    · rwa [ht]
    · rw [ht, books]
      simp only [opensShift, raiseShiftState_rest, resign_rest]
      exact booksFit_opened hbooks hclosed rfl rfl
  | .shiftClose, _, rfl, _ => by
    intro s _ _ h
    have hbooks := ((accountsKept_iff s).mp h).1
    rcases takeShiftClose_taken s with ht | ⟨_, _, _, ht⟩
    · rwa [ht]
    · rw [ht, books]
      simp only [closesShift, raiseShiftState_rest, resignToAuto_rest]
      exact booksFit_closed hbooks rfl
  | .reportRead n, _, rfl, _ => by
    intro s _ _ h
    have hbooks := ((accountsKept_iff s).mp h).1
    simp only [takeReportRead]
    repeat' split
    all_goals exact hbooks
  | .tripRead n, _, rfl, _ => by
    intro s _ _ h
    have hbooks := ((accountsKept_iff s).mp h).1
    simp only [takeTripRead]
    repeat' split
    · exact hbooks
    · exact booksFit_read hbooks _
    · exact hbooks
  | .tripNextUnread, _, rfl, _ => by
    intro s _ _ h
    have hbooks := ((accountsKept_iff s).mp h).1
    simp only [takeTripNextUnread]
    split
    · exact booksFit_read hbooks _
    · exact hbooks
  | .factoryClear, _, rfl, _ => by
    intro s _ _ h
    rcases takeFactoryClear_taken s with ht | ⟨_, ht⟩
    · rw [ht]
      exact ((accountsKept_iff s).mp h).1
    · rw [ht, books]
      simp only [factoryClears, clearRetained, reportPayment_rest, raiseIf_rest, raiseShiftState_rest, resign_rest]
      exact booksFit_cleared

/-- Unit and dues, of a state. -/
def duesKept (s : State) : Prop := unitFits s.settle ∧ s.fare.duesFit s.settle.session

theorem sessionGoesOn.kept {s t : State} (h : sessionGoesOn s t) (hd : duesKept s) : duesKept t := h.dues hd.1 hd.2

theorem duesKept_beginsCard {s : State} (h : duesKept s) (slots : List Slot) (offer : Bool) :
    duesKept (beginsCard slots offer s).1 := by
  have hlocked (p : Session) (hp : p.legs = (begunSession slots .card offer s).legs)
      (hdue : p.due = (begunSession slots .card offer s).due) : (s.fare.lock s.settle.nextId slots).duesFit p := by
    intro _
    rw [Session.dues, hp, hdue]
    refine ⟨rfl, fun x hx => ?_⟩
    obtain ⟨i, hi, rfl⟩ := List.mem_map.mp hx
    rw [FareEngine.lock_get, if_pos hi]
    rfl
  simp only [beginsCard]
  split
  · have hfare : (enterTipWait (beginsPayment slots .card offer s)).fare = s.fare.lock s.settle.nextId slots := by
      rw [(enterTipWait_acts _).same .fare, beginsPayment_fare]
    rw [duesKept, hfare, enterTipWait_settle, beginsPayment_settle]
    exact ⟨h.1, hlocked _ rfl rfl⟩
  · have hfare : (enterAuthorising (beginsPayment slots .card offer s)).fare = s.fare.lock s.settle.nextId slots := by
      rw [(enterAuthorising_acts _).same .fare, beginsPayment_fare]
    rw [duesKept, hfare, enterAuthorising_settle, beginsPayment_settle]
    exact ⟨h.1, hlocked _ rfl rfl⟩

theorem unitFits_of_allowed {n : Nat} (h : cashUnitAllowed n = true) : 1 ≤ n ∧ n ≤ 100 := by
  simp only [cashUnitAllowed, List.contains_eq_mem, List.mem_cons, List.not_mem_nil, or_false,
    decide_eq_true_eq] at h
  omega

/-- The requests of settlement, shift and factory clear. -/
theorem duesKept_settleRule : ∀ (c : Instr) (r : State → Taken), ruleOf c = some r → touches [.settle] c = true →
    ∀ s, sessionKept s → duesKept s → duesKept (r s).1
  | .shareSet x, _, rfl, _ => by
    intro s _ h
    simp only [takeShareSet]
    split
    · refine sessionGoesOn.kept (s := s) (sessionGoesOn_of_same ?_ ?_ ?_) h <;> simp
    · exact h
  | .paySettingsWrite f, _, rfl, _ => by
    intro s _ h
    simp only [takePaySettingsWrite]
    repeat' split
    · exact h
    · exact h
    · next _ hfits =>
      simp only [Bool.or_eq_true, Bool.not_eq_true', not_or, Bool.not_eq_false] at hfits
      exact ⟨unitFits_of_allowed hfits.2, h.2⟩
  | .payBegin l t o, _, rfl, _ => by
    intro s _ h
    rcases takePayBegin_taken l t o s with ht | ⟨slots, tender, offer, _, _, _, ht⟩
    · rwa [ht]
    · rw [ht]
      cases tender with
      | card => exact duesKept_beginsCard h slots offer
      | cash =>
        refine sessionGoesOn.kept (s := s) (sessionGoesOn_of_closed ?_ ?_) h
        · simp [beginsBy, beginsCash, settlesByCash]
        · simp [beginsBy, beginsCash, settlesByCash, Session.paidCash, Session.close, SessionState.isOpen]
  | .payTip x v, _, rfl, _ => by
    intro s _ h
    rcases takePayTip_taken x v s with ht | ⟨hstate, tip, ceiled, limited, ht⟩
    · rwa [ht]
    · rw [ht]
      exact (goesOn_enterAuthorising (by simp [hstate, SessionState.isOpen]) rfl rfl).kept h
  | .payAuthorise, _, rfl, _ => by
    intro s _ h
    rcases takePayAuthorise_taken s with ht | ⟨hstate, ht⟩
    · rwa [ht]
    · rw [ht]
      exact (goesOn_enterAuthorising (isOpen_of_retryWait hstate) rfl rfl).kept h
  | .payCash, _, rfl, _ => by
    intro s _ h
    rcases takePayCash_taken s with ht | ⟨_, ht⟩
    · rwa [ht]
    · rw [ht]
      exact (goesOn_settles _ rfl).kept h
  | .payCancel, _, rfl, _ => by
    intro s _ h
    rcases takePayCancel_taken s with ht | ⟨_, ht⟩ | ⟨r, hstate, _, ht⟩
    · rwa [ht]
    · rw [ht]
      exact (goesOn_closeUnpaid _ rfl _ s).kept h
    · rw [ht]
      exact (goesOn_enterAborting _ r (by simp [hstate, SessionState.isOpen])).kept h
  | .shiftOpen d, _, rfl, _ => by
    intro s _ h
    rcases takeShiftOpen_taken d s with ht | ⟨_, _, ht⟩
    · rwa [ht]
    · rw [ht]
      refine sessionGoesOn.kept (s := s) (sessionGoesOn_of_same ?_ ?_ ?_) h <;> simp [opensShift]
  | .factoryClear, _, rfl, _ => by
    intro s _ h
    rcases takeFactoryClear_taken s with ht | ⟨_, ht⟩
    · rwa [ht]
    · rw [ht, duesKept]
      simp only [factoryClears, clearRetained, reportPayment_rest, raiseIf_rest, raiseShiftState_rest, resign_rest]
      exact ⟨⟨by decide, by decide⟩, fun ho => absurd (show false = true from ho) (by decide)⟩

theorem accountsKept_rule (c : Instr) (r : State → Taken) (hr : ruleOf c = some r) (s : State)
    (hkept : ledgerBase s ∧ roomKept s) (h : accountsKept s) : accountsKept (r s).1 := by
  obtain ⟨hbase, hroom⟩ := hkept
  have hacts := rule_acts c r hr s
  have hparts := (accountsKept_iff s).mp h
  have hbooks : books (r s).1 := by
    by_cases ht : touches [.shifts, .journal] c = true
    · exact books_rule c r hr ht s hbase hroom h
    · have hnot : Block.shifts ∉ blocksOf c ∧ Block.journal ∉ blocksOf c := by simpa [touches] using ht
      rw [books, hacts.same .shifts (by simpa using hnot.1), hacts.same .journal (by simpa using hnot.2)]
      exact hparts.1
  have hdues : duesKept (r s).1 := by
    by_cases hsettle : touches [.settle] c = true
    · exact duesKept_settleRule c r hr hsettle s hbase.1.2 hparts.2
    · have hnot : Block.settle ∉ blocksOf c := by simpa [touches] using hsettle
      rw [duesKept, hacts.same .settle (by simpa using hnot)]
      refine ⟨hparts.2.1, ?_⟩
      by_cases hfare : touches [.fare] c = true
      · exact FareEngine.duesFit_of_same ((sessionKept_iff s).mp hbase.1.2).2.2.2 hparts.2.2
          (samePaying_legRule c r hr hfare (by simpa using hsettle) s)
      · have hnot : Block.fare ∉ blocksOf c := by simpa [touches] using hfare
        rw [hacts.same .fare (by simpa using hnot)]
        exact hparts.2.2
  exact (accountsKept_iff _).mpr ⟨hbooks, hdues⟩

end Sys2Proof.Machine
end

