-- ==== Sys2Proof/Proofs/Balances.lean ====
section
/-!
PROOF. The events keep the shift totals at the sums over the journal's records, and with them every step keeps room and
accounts (R104, R106, R119); and the state after reset meets every condition (log 1).
-/

set_option Elab.async false

namespace Sys2Proof.Machine

/-! ### Events -/

theorem books_approves {s : State} (hbase : ledgerBase s) (hroom : roomKept s) (h : books s) (r : Ref) (n : Nat)
    (a : Text) : books (approves r n a s) := by
  by_cases hsettles : s.settle.session.outstanding = some r ∧ n = s.settle.session.total
  · obtain ⟨hr, hn⟩ := hsettles
    rw [approves, if_pos hr, takesApproval, if_pos hn]
    exact books_settlesByCard (s := removeStale r s) ⟨⟨hbase.1.1, sessionKept_removeStale hbase.1.2 r⟩, hbase.2⟩ hroom h
      (isOpen_of_outstanding hbase.1.2 hr) a
  · exact (sumsGoOn_approves_unsettled r n a hsettles).books h

theorem books_restarts {s : State} (h : books s) : books (restarts s) := by
  have hmemory : books (restartMemory s) := by
    unfold restartMemory
    dsimp only
    split
    · exact h
    · exact booksFit_cleared
  rw [books, (restarts_rest s).2.2.2.2.2.1, (restarts_rest s).2.2.2.2.2.2.1]
  simpa using hmemory

/-- The settlement unit takes a message. -/
theorem books_takesMessage {s : State} {g : State → State} (hg : ∀ u, sumsGoOn u (g u)) (m : TermMsg) (h : books s) :
    books (takesMessage m g s) :=
  (hg { s with tender := s.tender.handedOver m }).books h

/-- The events that write totals or records. -/
theorem books_event : ∀ c : Instr, ruleOf c = none → takesFrames c = false → touches [.shifts, .journal] c = true →
    ∀ s t, exec c s = .next t → ledgerBase s → roomKept s → books s → books t
  | .secondTick, _, _, _ => by
    rintro s t ⟨⟩ _ _ h
    exact (sumsGoOn_ticks s).books h
  | .clockWrap, _, _, _ => by
    rintro s t ⟨⟩ _ _ h
    split
    · exact h
    · exact (sumsGoOn_ticks s).books h
  | .abortTimerExpiry, _, _, _ => by
    rintro s t ⟨⟩ _ _ h
    exact whileRunning_keep (P := books) h (fun _ h => (sumsGoOn_abortExpires s).books h)
  | .tApproved r n a, _, _, _ => by
    rintro s t ⟨⟩ hbase hroom h
    refine whileRunning_keep (P := books) h (fun _ h => ?_)
    exact books_approves (s := { s with tender := s.tender.handedOver (.approved r n a) })
      ⟨⟨hbase.1.1, sessionKept_withTender hbase.1.2 _⟩, hbase.2⟩ hroom h r n a
  | .tDeclined r n, _, _, _ => by
    rintro s t ⟨⟩ _ _ h
    exact whileRunning_keep (P := books) h (fun _ h => books_takesMessage (sumsGoOn_declines r n) _ h)
  | .tAborted r, _, _, _ => by
    rintro s t ⟨⟩ _ _ h
    exact whileRunning_keep (P := books) h (fun _ h => books_takesMessage (sumsGoOn_confirmsAbort r) _ h)
  | .restart, _, _, _ => by
    rintro s t ⟨⟩ _ _ h
    split
    · exact books_restarts h
    · exact books_restarts h
    · exact h

/-- PAYING legs stay as they were. -/
theorem duesKept_of_fare {s t : State} (h : duesKept s) (hpaying : s.fare.payingFor s.settle.session)
    (hsettle : t.settle = s.settle) (hfare : s.fare.samePaying t.fare) : duesKept t := by
  rw [duesKept, hsettle]
  exact ⟨h.1, FareEngine.duesFit_of_same hpaying h.2 hfare⟩

theorem duesKept_takesMessage {s : State} {g : State → State} (hg : ∀ u, sessionKept u → sessionGoesOn u (g u))
    (m : TermMsg) (hs : sessionKept s) (h : duesKept s) : duesKept (takesMessage m g s) :=
  (hg { s with tender := s.tender.handedOver m } (sessionKept_withTender hs _)).kept h

theorem goesOn_restoreSession (s : State) : sessionGoesOn s (restoreSession s) := by
  simp only [restoreSession]
  split
  · exact sessionGoesOn_of_closed rfl rfl
  · next hstate _ =>
    refine ⟨by simp [setTimer, setSession], fun _ => ⟨by simp [hstate, SessionState.isOpen], ?_, ?_, ?_⟩⟩ <;>
      simp [setTimer, setSession]
  · refine sessionGoesOn_of_same ?_ ?_ ?_ <;> simp [setTimer]
  · exact sessionGoesOn_of_same rfl rfl rfl
  · exact sessionGoesOn_of_same rfl rfl rfl

theorem unitFits_cleared : unitFits Settlement.cleared := ⟨by decide, by decide⟩

theorem duesKept_restarts {s : State} (hs : sessionKept s) (h : duesKept s) : duesKept (restarts s) := by
  have hmemory : duesKept (restartMemory s) ∧ (restartMemory s).fare.payingFor (restartMemory s).settle.session := by
    unfold restartMemory
    dsimp only
    split
    · exact ⟨h, ((sessionKept_iff s).mp hs).2.2.2⟩
    · exact ⟨⟨unitFits_cleared, fun ho => absurd (show false = true from ho) (by decide)⟩,
        FareEngine.payingFor_of_none FareEngine.nonePaying_cleared rfl⟩
  obtain ⟨hdues, hpaying⟩ := hmemory
  have hrestored (count : Nat) :
      duesKept { restartVolatile (restartMemory s) with fare := (restartMemory s).fare.restored count } :=
    duesKept_of_fare hdues hpaying rfl (FareEngine.samePaying_restored _ count)
  obtain ⟨_, _, hfare, hsettle, _⟩ := restarts_rest s
  rw [restartBlocks_fare_eq] at hfare
  rw [restartBlocks_settle, resendAll_settle] at hsettle
  rw [duesKept, hfare, hsettle]
  exact (goesOn_restoreSession _).kept (hrestored _)

theorem goesOn_ticks (s : State) : (ticks s).settle = s.settle ∧ s.fare.samePaying (ticks s).fare := by
  refine ⟨(ticks_acts s).same .settle, ?_⟩
  rw [ticks_fare]
  split
  · exact FareEngine.samePaying_close _ _ _
  · exact FareEngine.samePaying_refl _

theorem samePaying_minuteBoundary (s : State) : s.fare.samePaying (minuteBoundary s).fare := by
  have hboundary (count : Nat) (c : Clock) : s.fare.samePaying (boundaryAt count { s with clock := c }).fare :=
    samePaying_boundaryAt count { s with clock := c }
  unfold minuteBoundary
  repeat' split
  · exact hboundary _ _
  · exact FareEngine.samePaying_refl _
  · exact hboundary _ _

/-- The events that write the settlement unit or the legs. -/
theorem duesKept_event : ∀ c : Instr, ruleOf c = none → takesFrames c = false → touches [.settle, .fare] c = true →
    ∀ s t, exec c s = .next t → sessionKept s → duesKept s → duesKept t
  | .secondTick, _, _, _ => by
    rintro s t ⟨⟩ hs h
    exact duesKept_of_fare h ((sessionKept_iff s).mp hs).2.2.2 (goesOn_ticks s).1 (goesOn_ticks s).2
  | .clockWrap, _, _, _ => by
    rintro s t ⟨⟩ hs h
    split
    · exact h
    · exact duesKept_of_fare h ((sessionKept_iff s).mp hs).2.2.2 (goesOn_ticks s).1 (goesOn_ticks s).2
  | .minuteBoundary, _, _, _ => by
    rintro s t ⟨⟩ hs h
    refine whileRunning_keep (P := duesKept) h (fun _ h => ?_)
    exact duesKept_of_fare h ((sessionKept_iff s).mp hs).2.2.2 ((minuteBoundary_acts s).same .settle)
      (samePaying_minuteBoundary s)
  | .tipTimerExpiry, _, _, _ => by
    rintro s t ⟨⟩ _ h
    refine whileRunning_keep (P := duesKept) h (fun _ h => ?_)
    unfold tipExpires
    split
    · next hstate => exact (goesOn_enterAuthorising (by simp [hstate, SessionState.isOpen]) rfl rfl).kept h
    · exact h
  | .responseTimerExpiry, _, _, _ => by
    rintro s t ⟨⟩ _ h
    refine whileRunning_keep (P := duesKept) h (fun _ h => ?_)
    unfold responseExpires
    split
    · next hstate _ => exact (goesOn_enterAborting _ _ (by simp [hstate, SessionState.isOpen])).kept h
    · exact h
  | .resendTimerExpiry e, _, _, _ => by
    rintro s t ⟨⟩ _ h
    refine whileRunning_keep (P := duesKept) h (fun _ h => ?_)
    exact (sessionGoesOn_of_same (by simp) (by simp) ((resendExpires_acts e s).same .fare)).kept h
  | .abortTimerExpiry, _, _, _ => by
    rintro s t ⟨⟩ _ h
    refine whileRunning_keep (P := duesKept) h (fun _ h => ?_)
    unfold abortExpires
    split
    · next r hstate _ =>
      exact (goesOn_abortEnds _ (s := enterStale r s) (show s.settle.session.state.isOpen = true by
        simp [hstate, SessionState.isOpen])).kept h
    · exact h
  | .retryIdleTimerExpiry, _, _, _ => by
    rintro s t ⟨⟩ _ h
    refine whileRunning_keep (P := duesKept) h (fun _ h => ?_)
    unfold retryIdleExpires
    split
    · exact (goesOn_closeUnpaid _ rfl _ s).kept h
    · exact h
  | .tProgress r x, _, _, _ => by
    rintro s t ⟨⟩ hs h
    refine whileRunning_keep (P := duesKept) h (fun _ h => duesKept_takesMessage (fun u _ => ?_) _ hs h)
    unfold takesProgress
    split
    · next hp =>
      refine ⟨by simp [setTimer, setSession], fun _ => ⟨by simp [hp.1, SessionState.isOpen], ?_, ?_, ?_⟩⟩ <;>
        simp [setTimer, setSession]
    · exact sessionGoesOn_of_same rfl rfl rfl
  | .tApproved r n a, _, _, _ => by
    rintro s t ⟨⟩ hs h
    exact whileRunning_keep (P := duesKept) h
      (fun _ h => duesKept_takesMessage (fun u hu => goesOn_approves hu r n a) _ hs h)
  | .tDeclined r n, _, _, _ => by
    rintro s t ⟨⟩ hs h
    exact whileRunning_keep (P := duesKept) h
      (fun _ h => duesKept_takesMessage (fun u hu => goesOn_declines hu r n) _ hs h)
  | .tAborted r, _, _, _ => by
    rintro s t ⟨⟩ hs h
    exact whileRunning_keep (P := duesKept) h
      (fun _ h => duesKept_takesMessage (fun u hu => goesOn_confirmsAbort hu r) _ hs h)
  | .tReversed r, _, _, _ => by
    rintro s t ⟨⟩ hs h
    exact whileRunning_keep (P := duesKept) h
      (fun _ h => duesKept_takesMessage (fun u _ => sessionGoesOn_of_same rfl rfl rfl) _ hs h)
  | .supplyFail, _, _, _ => by
    rintro s t ⟨⟩ _ h
    split
    · exact h
    · exact h
    · exact h
  | .resetnAssert, _, _, _ => by
    rintro s t ⟨⟩ _ h
    split
    · exact h
    · exact h
    · exact h
  | .restart, _, _, _ => by
    rintro s t ⟨⟩ hs h
    split
    · exact duesKept_restarts hs h
    · exact duesKept_restarts hs h
    · exact h

theorem accountsKept_event (c : Instr) (hr : ruleOf c = none) (hf : takesFrames c = false) (s t : State)
    (ht : exec c s = .next t) (hkept : ledgerBase s ∧ roomKept s) (h : accountsKept s) : accountsKept t := by
  obtain ⟨hbase, hroom⟩ := hkept
  obtain ⟨hbooks, hdues⟩ := (accountsKept_iff s).mp h
  obtain ⟨u, hu, hacts⟩ := event_acts c hr hf s
  have hut : u = t := by
    rw [ht] at hu
    cases hu
    rfl
  subst hut
  refine (accountsKept_iff u).mpr ⟨?_, ?_⟩
  · by_cases hto : touches [.shifts, .journal] c = true
    · exact books_event c hr hf hto s u ht hbase hroom hbooks
    · have hnot : Block.shifts ∉ blocksOf c ∧ Block.journal ∉ blocksOf c := by simpa [touches] using hto
      rw [books, hacts.same .shifts (by simpa using hnot.1), hacts.same .journal (by simpa using hnot.2)]
      exact hbooks
  · by_cases hto : touches [.settle, .fare] c = true
    · exact duesKept_event c hr hf hto s u ht hbase.1.2 hdues
    · have hnot : Block.settle ∉ blocksOf c ∧ Block.fare ∉ blocksOf c := by simpa [touches] using hto
      rw [hacts.same .settle (by simpa using hnot.1), hacts.same .fare (by simpa using hnot.2)]
      exact hdues

/-! ### Steps -/

theorem accountsKept_baseStep (s : State) (h : accountsKept s) : accountsKept (baseStep s) := by
  unfold baseStep
  exact whileRunning_keep (P := accountsKept) (s := { s with clock := _ }) h (fun _ h => h)

/-- The base conditions, room and accounts. -/
theorem accountsKept_kept : keptByCommands (fun s => (ledgerBase s ∧ roomKept s) ∧ accountsKept s) :=
  roomKept_kept.given (fun c r hr s _ => accountsKept_rule c r hr s)
    (fun c hr hf s t ht => accountsKept_event c hr hf s t ht) (fun s _ => accountsKept_baseStep s)

theorem ledgerBase_of_safe {s : State} (h : safe s) : ledgerBase s ∧ roomKept s := by
  obtain ⟨_, _, _, hmeter, hsession, hjournal, _, _, _, _, _, hroom⟩ := h
  exact ⟨⟨⟨hmeter, hsession⟩, hjournal⟩, hroom⟩

/-- Settles O12. -/
theorem theJournalKeepsRoomForEveryActiveLeg : Obligations.TheJournalKeepsRoomForEveryActiveLeg := by
  intro s t hs ht
  have hreads := ledgerBase_readsOnly.and (roomKept_readsOnly.mono (E := ledgerBlocks) (by decide))
  refine ⟨(roomKept_kept.step hreads (by decide) s t (ledgerBase_of_safe hs) ht).2, fun ha => ?_⟩
  have hkept := (accountsKept_kept.step (hreads.and accountsKept_readsOnly) (by decide) s t
    ⟨ledgerBase_of_safe hs, ha⟩ ht).2
  exact ⟨hkept, booksFit_balances ((accountsKept_iff t).mp hkept).1⟩

end Sys2Proof.Machine
end

