-- ==== Sys2Proof/Proofs/Reset.lean ====
section
/-!
PROOF. The state after reset: a first power-up (R165, log 1), which meets every condition.
-/

set_option Elab.async false

namespace Sys2Proof.Machine

theorem reset_noticesKept : noticesKept State.reset := ⟨by decide, by decide⟩

theorem reset_meterKept : meterKept State.reset :=
  (meterKept_iff _).mpr ⟨FareEngine.metersFit_cleared, (legsInShift_iff _).mpr (.inr vacant_cleared)⟩

theorem reset_sessionKept : sessionKept State.reset :=
  (sessionKept_iff _).mpr ⟨rfl, timerFits_of_none rfl rfl,
    ⟨fun ho => absurd (show false = true from ho) (by decide), List.nodup_nil⟩,
    FareEngine.payingFor_of_none FareEngine.nonePaying_cleared rfl⟩

theorem reset_journalKept : journalKept State.reset := Journal.isRing_cleared

theorem reset_buffersKept : buffersKept State.reset := by
  unfold buffersKept
  decide

/-- No side holds the channel and no speaker has speech or a tone. -/
theorem reset_speechKept : speechKept State.reset := by
  refine (speechKept_iff _).mpr (fun x => ?_)
  have hidle : State.reset.speakers.get (fedBy x) = SpeakerState.idle := by cases x <;> rfl
  have hsilent : State.reset.intercom.channel.demands x = false := by cases x <;> rfl
  rw [hidle, hsilent]
  exact SpeakerState.fits_idle

theorem reset_channelKept : channelKept State.reset := by
  unfold channelKept
  decide

theorem reset_signKept : signKept State.reset := fun _ => ⟨rfl, rfl, rfl⟩

theorem reset_countersKept : countersKept State.reset := by
  unfold countersKept
  decide

theorem reset_safe : safe State.reset :=
  ⟨reset_noticesKept, seatsAgree_kept.cleared, consentAgrees_kept.cleared, reset_meterKept, reset_sessionKept,
    reset_journalKept, reset_buffersKept, reset_speechKept, reset_channelKept, reset_signKept, reset_countersKept,
    roomKept_cleared rfl⟩

theorem reset_accountsKept : accountsKept State.reset :=
  (accountsKept_iff _).mpr ⟨booksFit_cleared, unitFits_cleared,
    fun ho => absurd (show false = true from ho) (by decide)⟩

/-- Settles O5. -/
theorem resetMeetsEveryCondition : Obligations.ResetMeetsEveryCondition := ⟨reset_safe, reset_accountsKept⟩

/-- Settles O6: RESTART computes it. -/
theorem resetIsAFirstPowerUp : Obligations.ResetIsAFirstPowerUp := rfl

end Sys2Proof.Machine
end

