-- ==== Sys2Proof/Proofs/Raises.lean ====
section
/-!
PROOF. Which notices an operation may raise (R172), what stays announced after it, and what a request at a ready part
leaves (R170, R171).
-/

set_option Elab.async false

namespace Sys2Proof.Machine

/-! ### A raise at the queue -/

theorem mem_putNotice_iff {n m : Notice} {q : List Notice} (h : m.kind ≠ n.kind) : m ∈ putNotice n q ↔ m ∈ q := by
  have hne : m ≠ n := fun e => h (by rw [e])
  induction q with
  | nil => simp [putNotice, hne]
  | cons a as ih =>
    unfold putNotice
    split
    · next ha =>
      have hma : m ≠ a := fun e => h (by rw [e, ha])
      simp [hne, hma]
    · simp [ih]

theorem mem_putNotice_self (n : Notice) (q : List Notice) : n ∈ putNotice n q := by
  induction q with
  | nil => simp [putNotice]
  | cons a as ih =>
    unfold putNotice
    split
    · simp
    · simp [ih]

/-! ### Which notices may be raised -/

/-- Of the notice queue only notices of these kinds may differ; the enabled kinds are as they were. -/
def raisesOnly (kinds : List NoticeKind) (s t : State) : Prop :=
  t.link.enabled = s.link.enabled ∧ ∀ n : Notice, n.kind ∉ kinds → (n ∈ t.link.queue ↔ n ∈ s.link.queue)

section
variable {kinds more : List NoticeKind} {s t u : State}

theorem raisesOnly_refl (kinds : List NoticeKind) (s : State) : raisesOnly kinds s s := ⟨rfl, fun _ _ => Iff.rfl⟩

theorem raisesOnly.trans (h : raisesOnly kinds s t) (h' : raisesOnly kinds t u) : raisesOnly kinds s u :=
  ⟨h'.1.trans h.1, fun n hn => (h'.2 n hn).trans (h.2 n hn)⟩

theorem raisesOnly.mono (h : raisesOnly kinds s t) (hsub : ∀ k ∈ kinds, k ∈ more) : raisesOnly more s t :=
  ⟨h.1, fun n hn => h.2 n (fun hk => hn (hsub _ hk))⟩

/-- One after another. -/
theorem raisesOnly.seq (h : raisesOnly kinds s t) (h' : raisesOnly more t u) : raisesOnly (kinds ++ more) s u :=
  (h.mono (fun _ hk => List.mem_append_left _ hk)).trans (h'.mono (fun _ hk => List.mem_append_right _ hk))

/-- An operation that leaves the link. -/
theorem raisesOnly_of_link (h : t.link = s.link) (kinds : List NoticeKind) : raisesOnly kinds s t := by
  unfold raisesOnly
  rw [h]
  exact ⟨rfl, fun _ _ => Iff.rfl⟩

theorem raisesOnly_of_acts {parts : List Block} (h : acts parts s t) (hlink : Block.link ∉ parts)
    (kinds : List NoticeKind) : raisesOnly kinds s t := raisesOnly_of_link (h.same .link hlink) kinds

theorem raisesOnly.ite {c : Prop} [Decidable c] {x y : State} (hx : c → raisesOnly kinds s x)
    (hy : ¬c → raisesOnly kinds s y) : raisesOnly kinds s (if c then x else y) := by
  split
  · exact hx ‹_›
  · exact hy ‹_›

theorem raise_raises (k : NoticeKind) (payload : List Field) (s : State) : raisesOnly [k] s (raise k payload s) := by
  refine ⟨by simp, fun n hn => ?_⟩
  simp only [raise_link, ControlLink.raise]
  split
  · exact mem_putNotice_iff (fun e => hn (by simp [e]))
  · exact Iff.rfl

theorem raiseIf_raises (c : Bool) (k : NoticeKind) (payload : List Field) (s : State) :
    raisesOnly [k] s (raiseIf c k payload s) :=
  .ite (fun _ => raise_raises k payload s) (fun _ => raisesOnly_refl _ s)

/-! ### Announced and unraised -/

theorem announced_raise (k : NoticeKind) (payload : List Field) (s : State) : announced k payload (raise k payload s) := by
  intro hk
  have hk' : s.link.isEnabled k = true := by simpa [ControlLink.isEnabled] using hk
  simp only [raise_link, ControlLink.raise, if_pos hk']
  exact mem_putNotice_self _ _

theorem announced_raiseIf {c : Bool} (hc : c = true) (k : NoticeKind) (payload : List Field) (s : State) :
    announced k payload (raiseIf c k payload s) := by
  subst hc
  exact announced_raise k payload s

/-- What is announced stays so through operations that do not raise its kind. -/
theorem announced.later {k : NoticeKind} {payload : List Field} (h : announced k payload t)
    (hr : raisesOnly kinds t u) (hk : k ∉ kinds) : announced k payload u := by
  intro hen
  refine (hr.2 ⟨k, payload⟩ hk).mpr (h ?_)
  simpa [ControlLink.isEnabled, hr.1] using hen

theorem raisesOnly.unraised {k : NoticeKind} (h : raisesOnly kinds s t) (hk : k ∉ kinds) : unraised k s t :=
  fun payload => (h.2 ⟨k, payload⟩ hk).mp

/-- A placed answer leaves the notice queue. -/
theorem answered_raises (k : ReqKind) (a : Answer) (s : State) : raisesOnly [] s (answered k a s) :=
  ⟨rfl, fun _ _ => Iff.rfl⟩

theorem announced.answered {k : NoticeKind} {payload : List Field} (h : announced k payload t) (r : ReqKind)
    (a : Answer) : announced k payload (Machine.answered r a t) := h

end

/-! ### The shared operations -/

theorem raiseLegStates_raises (changed : List Slot) (s : State) : raisesOnly [.legState] s (raiseLegStates changed s) := by
  cases changed with
  | nil => exact raisesOnly_refl _ s
  | cons i is => exact raise_raises _ _ s

theorem raiseDropped_raises (x : Speaker) (lost : Option Dropped) (s : State) :
    raisesOnly [.toneDropped] s (raiseDropped x lost s) := by
  cases lost with
  | none => exact raisesOnly_refl _ s
  | some d => exact raise_raises _ _ s

theorem requestTone_raises (x : Speaker) (t : Tone) (s : State) :
    raisesOnly [.toneDropped] s (requestTone x t s).1 :=
  (raisesOnly_of_link (t := s.setSpeaker x ((s.speakers.get x).request t).1) rfl _).trans (raiseDropped_raises x _ _)

theorem askTone_raises (k : ToneKind) (s : State) : raisesOnly [.toneDropped] s (askTone k s) :=
  requestTone_raises _ _ s

theorem pathOpens_raises (x : Speaker) (s : State) : raisesOnly [.toneDropped] s (pathOpens x s) :=
  (raisesOnly_of_link (t := s.setSpeaker x (s.speakers.get x).openPath.1) rfl _).trans (raiseDropped_raises x _ _)

theorem reportSign_raises (before : Sign) (s : State) : raisesOnly [.signState] s (reportSign before s) :=
  raiseIf_raises _ _ _ _

theorem resign_raises (s : State) : raisesOnly [.signState] s (resign s) :=
  (raisesOnly_of_link (t := derive s) rfl _).trans (reportSign_raises _ _)

theorem resignToAuto_raises (s : State) : raisesOnly [.signState] s (resignToAuto s) :=
  (raisesOnly_of_link (t := derive { s with sign := _ }) rfl _).trans (reportSign_raises _ _)

theorem setTender_raises (changed : Bool) (t : TenderLink) (s : State) :
    raisesOnly [.terminalLink] s (setTender changed t s) :=
  (raisesOnly_of_link (t := { s with tender := t }) rfl _).trans (raiseIf_raises _ _ _ _)

theorem sendFrame_raises (m : PartMsg) (s : State) : raisesOnly [.terminalLink] s (sendFrame m s) :=
  setTender_raises _ _ s

theorem placeRecord_raises (p : Trip) (s : State) : raisesOnly [.journalHigh] s (placeRecord p s) :=
  (raisesOnly_of_link (t := { s with journal := s.journal.place p }) rfl _).trans (raiseIf_raises _ _ _ _)

theorem addTotals_raises (g : Totals → Totals) (s : State) : raisesOnly [] s (addTotals g s) :=
  raisesOnly_of_link (addTotals_rest g s).2.2.2.2.2.2.2.2.2.2.2.2.1 _

theorem foldl_placeRecord_raises (ps : List Trip) (s : State) :
    raisesOnly [.journalHigh] s (ps.foldl (fun t p => placeRecord p t) s) :=
  List.foldlRecOn (motive := raisesOnly [.journalHigh] s) _ _ (raisesOnly_refl _ s)
    (fun t ht p _ => ht.trans (placeRecord_raises p t))

theorem recordsTrips_raises (ps : List Trip) (s : State) : raisesOnly [.journalHigh] s (recordsTrips ps s) :=
  (foldl_placeRecord_raises ps s).trans ((addTotals_raises _ _).mono (by simp))

theorem withFare_raises (s : State) (e : FareEngine) : raisesOnly [] s { s with fare := e } := raisesOnly_of_link rfl _

theorem lockLegs_raises (p : Nat) (slots : List Slot) (s : State) : raisesOnly [.legState] s (lockLegs p slots s) :=
  (withFare_raises s _).seq (raiseLegStates_raises _ _)

theorem unlockLegs_raises (p : Nat) (s : State) : raisesOnly [.legState] s (unlockLegs p s) :=
  (withFare_raises s _).seq (raiseLegStates_raises _ _)

theorem releaseLegs_raises (p : Nat) (s : State) : raisesOnly [.legState, .signState] s (releaseLegs p s) :=
  ((withFare_raises s _).seq (raiseLegStates_raises _ _)).seq (resign_raises _)

theorem setLeg_raises (i : Slot) (l : Leg) (s : State) : raisesOnly [] s (s.setLeg i l) :=
  raisesOnly_of_link (setLeg_link s i l) _

theorem changeTariff_raises (i : Slot) (n : Nat) (s : State) :
    raisesOnly [.tariffChanged, .toneDropped] s (changeTariff i n s) := by
  unfold changeTariff
  dsimp only
  split
  · exact raisesOnly_refl _ s
  · exact ((setLeg_raises _ _ _).seq (raise_raises _ _ _)).seq (askTone_raises _ _)

/-! ### What an answer leaves -/

@[simp] theorem answered_power (k : ReqKind) (a : Answer) (s : State) : (answered k a s).power = s.power := rfl
@[simp] theorem answered_pins (k : ReqKind) (a : Answer) (s : State) : (answered k a s).pins = s.pins := rfl
@[simp] theorem answered_odo (k : ReqKind) (a : Answer) (s : State) : (answered k a s).odo = s.odo := rfl
@[simp] theorem answered_fare (k : ReqKind) (a : Answer) (s : State) : (answered k a s).fare = s.fare := rfl
@[simp] theorem answered_settle (k : ReqKind) (a : Answer) (s : State) : (answered k a s).settle = s.settle := rfl
@[simp] theorem answered_tender (k : ReqKind) (a : Answer) (s : State) : (answered k a s).tender = s.tender := rfl
@[simp] theorem answered_shifts (k : ReqKind) (a : Answer) (s : State) : (answered k a s).shifts = s.shifts := rfl
@[simp] theorem answered_journal (k : ReqKind) (a : Answer) (s : State) : (answered k a s).journal = s.journal := rfl
@[simp] theorem answered_sign (k : ReqKind) (a : Answer) (s : State) : (answered k a s).sign = s.sign := rfl
@[simp] theorem answered_intercom (k : ReqKind) (a : Answer) (s : State) : (answered k a s).intercom = s.intercom := rfl
@[simp] theorem answered_speakers (k : ReqKind) (a : Answer) (s : State) : (answered k a s).speakers = s.speakers := rfl
@[simp] theorem answered_clock (k : ReqKind) (a : Answer) (s : State) : (answered k a s).clock = s.clock := rfl
@[simp] theorem answered_retained (k : ReqKind) (a : Answer) (s : State) : (answered k a s).retained = s.retained := rfl
@[simp] theorem answered_pending (k : ReqKind) (a : Answer) (s : State) : (answered k a s).pending = s.pending := rfl
@[simp] theorem answered_freeCount (k : ReqKind) (a : Answer) (s : State) : (answered k a s).freeCount = s.freeCount := rfl
@[simp] theorem answered_link (k : ReqKind) (a : Answer) (s : State) : (answered k a s).link = answering k a s.link := rfl
@[simp] theorem answered_leg (k : ReqKind) (a : Answer) (s : State) (i : Slot) : (answered k a s).leg i = s.leg i := rfl

@[simp] theorem otherLegsKept_answered (k : ReqKind) (a : Answer) (i : Slot) (s t : State) :
    otherLegsKept i s (answered k a t) ↔ otherLegsKept i s t := Iff.rfl

@[simp] theorem tablesKept_answered (k : ReqKind) (a : Answer) (s t : State) :
    tablesKept s (answered k a t) ↔ tablesKept s t := Iff.rfl

/-! ### A request at a ready part -/

/-- A request given to a ready part is answered as its rule says. -/
theorem exec_ready {c : Instr} {k : ReqKind} {rule : State → Taken} {s : State} (h : ready s)
    (hc : exec c s = .next (hostRequest k rule s)) : exec c s = .next (answered k (rule s).2 (rule s).1) := by
  rw [hc, hostRequest_ready h]

/-- The same, with what the rule makes of the state named. -/
theorem exec_taken {c : Instr} {k : ReqKind} {rule : State → Taken} {s t : State} {a : Answer} (h : ready s)
    (hc : exec c s = .next (hostRequest k rule s)) (hrule : rule s = (t, a)) : exec c s = .next (answered k a t) := by
  rw [exec_ready h hc, hrule]

theorem exec_refused {c : Instr} {k : ReqKind} {rule : State → Taken} {s : State} {code : ReplyCode} (h : ready s)
    (hc : exec c s = .next (hostRequest k rule s)) (hrule : rule s = refuse code s) :
    exec c s = .next (refusedWith k code s) := exec_taken h hc hrule

/-- A block of a running part acts. -/
theorem exec_running {c : Instr} {g : State → State} {s : State} (h : s.power = .running)
    (hc : exec c s = .next (whileRunning g s)) : exec c s = .next (g s) := by
  rw [hc, whileRunning_running h]

/-- The frame of an answered request. -/
theorem answered_changesOnly {parts : List Block} {s t : State} (h : changesOnly parts s t) (k : ReqKind) (a : Answer)
    (hlink : Block.link ∈ parts) : changesOnly parts s (answered k a t) :=
  changesOnly_trans h (changesOnly_mono (by simpa using hlink) (answered_frame k a t))

theorem acts.answered {parts : List Block} {s t : State} (h : acts parts s t) (k : ReqKind) (a : Answer)
    {more : List Block} (hsub : ∀ b ∈ parts, b ∈ more) (hlink : Block.link ∈ more) :
    changesOnly more s (Machine.answered k a t) :=
  answered_changesOnly (changesOnly_mono hsub h.frame) k a hlink

@[simp] theorem replyIs_answered (k : ReqKind) (a : Answer) (s : State) : replyIs k a (answered k a s) := rfl

end Sys2Proof.Machine
end

