-- ==== Sys2Proof/Proofs/Odometer.lean ====
section
/-!
PROOF. The odometry unit: metres of a counted pulse, the pulse filter, the measurement and the calibration
settings.
-/

set_option Elab.async false

namespace Sys2Proof.Machine

/-! ### A counted pulse (R3, R10) -/

theorem Measurement.counts_iff (m : Measurement) : m.counts = true ↔ m = .running ∨ m = .stopping := by
  cases m <;> simp [Measurement.counts]

/-- The measurement consumer leaves the metre accumulator. -/
theorem Odometry.pulseToMeasurement_metres (o : Odometry) :
    o.pulseToMeasurement.r = o.r ∧ o.pulseToMeasurement.intervalMetres = o.intervalMetres := by
  unfold Odometry.pulseToMeasurement
  split <;> exact ⟨rfl, rfl⟩

theorem Odometry.pulseToMeasurement_pulses (o : Odometry) :
    o.pulseToMeasurement.measurePulses
      = if o.measurement = .running ∨ o.measurement = .stopping then min 4294967295 (o.measurePulses + 1)
        else o.measurePulses := by
  unfold Odometry.pulseToMeasurement
  simp only [Measurement.counts_iff]
  split <;> rfl

/-- The metre consumer leaves the measurement. -/
theorem Odometry.pulseToMetres_measurement (o : Odometry) (b : Bool) :
    (o.pulseToMetres b).measurement = o.measurement ∧ (o.pulseToMetres b).measurePulses = o.measurePulses := by
  unfold Odometry.pulseToMetres
  split <;> exact ⟨rfl, rfl⟩

theorem Odometry.pulseToMetres_of_zero {o : Odometry} (h : o.k = 0) (b : Bool) : o.pulseToMetres b = o := if_pos h

theorem Odometry.pulseToMetres_of_set {o : Odometry} (h : o.k ≠ 0) :
    (o.pulseToMetres true).r = (o.r + 1000) % o.k
      ∧ (o.pulseToMetres true).intervalMetres = min 65535 (o.intervalMetres + (o.r + 1000) / o.k) := by
  unfold Odometry.pulseToMetres
  rw [if_neg h]
  exact ⟨rfl, rfl⟩

/-- A pulse yields at most two metres. -/
theorem pulseMetres_le {r k : Nat} (hk : 500 ≤ k) (hr : r < k) : (r + 1000) / k ≤ 2 :=
  Nat.le_of_lt_succ ((Nat.div_lt_iff_lt_mul (by omega)).mpr (by omega))

/-- Settles O17: the quotient and the remainder of R + 1000 by K. -/
theorem countedPulsesBecomeMetres : Obligations.CountedPulsesBecomeMetres := by
  intro o
  have ⟨hr, hm⟩ := (o.pulseToMetres true).pulseToMeasurement_metres
  have hp := (o.pulseToMetres true).pulseToMeasurement_pulses
  obtain ⟨hmeas, hpulses⟩ := o.pulseToMetres_measurement true
  rw [hmeas, hpulses] at hp
  refine ⟨fun hk h0 => ?_, fun hk => ?_, hp⟩
  · have hsame := Odometry.pulseToMetres_of_zero hk true
    exact ⟨hr.trans (by rw [hsame, h0]), hm.trans (by rw [hsame])⟩
  · obtain ⟨hr', hm'⟩ := Odometry.pulseToMetres_of_set hk
    refine ⟨(o.r + 1000) / o.k, ?_, ?_, hm.trans hm', fun h5 hlt => pulseMetres_le h5 hlt⟩
    · rw [Odometry.countPulse, hr, hr', Nat.mul_comm]
      exact Nat.mod_add_div _ _
    · rw [Odometry.countPulse, hr, hr']
      exact Nat.mod_lt _ (Nat.pos_of_ne_zero hk)

/-! ### The pulse filter (R1) -/

theorem Polarity.counts_eq (p : Polarity) (level : Bool) : p.counts level = pulseEdge p level := by
  cases p <;> rfl

theorem Odometry.accept_eq (o : Odometry) (level b : Bool) :
    o.accept level b
      = if pulseEdge o.polarity level = true then Odometry.countPulse { o with accepted := level, timing := none } b
        else { o with accepted := level, timing := none } := by
  unfold Odometry.accept
  simp only [Polarity.counts_eq]

theorem Odometry.inputChanges_eq (o : Odometry) (level b : Bool) :
    o.inputChanges level b
      = if level = o.accepted then { o with timing := none }
        else if o.window ≠ .off then { o with timing := some 0 }
        else o.accept level b := by
  unfold Odometry.inputChanges
  split
  · rfl
  · cases o.window <;> rfl

/-- A change of the input at a running part acts on the filter. -/
theorem exec_dpulseChange {level : Bool} {s : State} (h : s.power = .running) (hpin : s.pins.dpulse = !level) :
    exec (.dpulseChange level) s
      = .next { s with
          pins := { s.pins with dpulse := level }, odo := s.odo.inputChanges level (calibrated s) } := by
  have hne : s.pins.dpulse ≠ level := by rw [hpin]; cases level <;> decide
  rw [show exec (.dpulseChange level) s = execDpulseChange level s from rfl, execDpulseChange, if_neg hne, whileRunning_running (by exact h)]
  rfl

theorem exec_filterWindowExpiry {s : State} (h : s.power = .running) (ht : s.odo.timing.isSome = true) :
    exec .filterWindowExpiry s = .next { s with odo := s.odo.accept s.pins.dpulse (calibrated s) } := by
  obtain ⟨n, hn⟩ := Option.isSome_iff_exists.mp ht
  rw [exec_running h (g := filterExpires) rfl, filterExpires, hn]

/-- Settles O18. -/
theorem theFilterAcceptsAndCountsEdges : Obligations.TheFilterAcceptsAndCountsEdges := by
  intro level s hrun
  refine ⟨fun hpin => ?_, fun hpin ht => ?_⟩
  · rw [exec_dpulseChange hrun hpin, Odometry.inputChanges_eq, Odometry.accept_eq]
  · rw [exec_filterWindowExpiry hrun ht, Odometry.accept_eq, hpin]

/-! ### The calibration measurement (R8, R9, R10) -/

theorem calibrationOpen_iff (s : State) : calibrationOpen s = true ↔ s.pins.calen = true ∧ shiftOpen s = false := by
  simp [calibrationOpen]

theorem takeCalMeasureStart_open {s : State} (h : calibrationOpen s = true) :
    takeCalMeasureStart s
      = if s.odo.measurement = .idle ∨ s.odo.measurement = .stopped then
          ({ s with odo := { s.odo with measurement := .starting, measurePulses := 0, measureSeconds := 0 } },
            .ok [.u8 1])
        else refuse .wrongState s := by
  unfold takeCalMeasureStart
  simp only [h, Bool.not_true, Bool.false_eq_true, if_false]
  cases s.odo.measurement <;> rfl

theorem takeCalMeasureStop_open {s : State} (h : calibrationOpen s = true) :
    takeCalMeasureStop s
      = if s.odo.measurement = .running then
          ({ s with odo := { s.odo with measurement := .stopping } }, .ok [.u8 3])
        else refuse .wrongState s := by
  unfold takeCalMeasureStop
  simp only [h, Bool.not_true, Bool.false_eq_true, if_false]
  cases s.odo.measurement <;> rfl

theorem Odometry.calibrationEnds_starting {o : Odometry} (h : o.measurement = .starting) :
    o.calibrationEnds = { o with measurement := .idle, measurePulses := 0, measureSeconds := 0 } := by
  rw [Odometry.calibrationEnds, h]

theorem Odometry.calibrationEnds_running {o : Odometry} (h : o.measurement = .running) :
    o.calibrationEnds = { o with measurement := .stopping } := by
  rw [Odometry.calibrationEnds, h]

theorem Odometry.calibrationEnds_other {o : Odometry} (h : o.measurement ≠ .starting) (h' : o.measurement ≠ .running) :
    o.calibrationEnds = o := by
  unfold Odometry.calibrationEnds
  cases hm : o.measurement with
  | starting => exact absurd hm h
  | running => exact absurd hm h'
  | idle | stopping | stopped => rfl

theorem exec_calenChange {level : Bool} {s : State} (h : s.power = .running) :
    exec (.calenChange level) s
      = .next (if (calibrationOpen s && !level) = true then
          { s with pins := { s.pins with calen := level }, odo := s.odo.calibrationEnds }
        else { s with pins := { s.pins with calen := level } }) := by
  rw [show exec (.calenChange level) s = execCalenChange level s from rfl, execCalenChange]
  dsimp only
  rw [whileRunning_running (by exact h)]

/-- CALEN deasserted inside calibration open ends it. -/
theorem exec_calenChange_ends {s : State} (h : s.power = .running) (ho : calibrationOpen s = true) :
    exec (.calenChange false) s
      = .next { s with pins := { s.pins with calen := false }, odo := s.odo.calibrationEnds } := by
  rw [exec_calenChange h, if_pos (by simp [ho])]

/-- Settles O20. -/
theorem measurementsStartAndStop : Obligations.MeasurementsStartAndStop := by
  intro s hcal hshift
  have ho : calibrationOpen s = true := (calibrationOpen_iff s).mpr ⟨hcal, hshift⟩
  refine ⟨fun hready => ⟨?_, ?_⟩, fun hrun => ⟨?_, ?_⟩⟩
  · rw [exec_ready hready (k := .calMeasureStart) (rule := takeCalMeasureStart) rfl, takeCalMeasureStart_open ho]
    split <;> rfl
  · rw [exec_ready hready (k := .calMeasureStop) (rule := takeCalMeasureStop) rfl, takeCalMeasureStop_open ho]
    split <;> rfl
  · have hpins : { s.pins with calen := true } = s.pins := by rw [← hcal]
    rw [exec_calenChange (by exact hrun), if_neg (by simp)]
    simp [hpins]
  · refine ⟨_, exec_calenChange_ends hrun ho, ?_, rfl, Odometry.calibrationEnds_starting,
      Odometry.calibrationEnds_running, Odometry.calibrationEnds_other⟩
    simp [changesOnly]

/-! ### The calibration settings (R2, R4) -/

theorem polarity?_code {p : Nat} {q : Polarity} (h : polarity? p = some q) : q.ctorIdx = p := by
  match p with
  | 0 | 1 => cases h; rfl
  | n + 2 => cases h

theorem filterWindow?_code {w : Nat} {v : FilterWindow} (h : filterWindow? w = some v) : v.ctorIdx = w := by
  match w with
  | 0 | 1 | 2 | 3 | 4 => cases h; rfl
  | n + 5 => cases h

theorem polarity?_none {p : Nat} (h : 1 < p) : polarity? p = none := by
  match p with
  | n + 2 => rfl

theorem filterWindow?_none {w : Nat} (h : 4 < w) : filterWindow? w = none := by
  match w with
  | n + 5 => rfl

theorem takeDpulseConfig_stored {p w : Nat} {q : Polarity} {v : FilterWindow} {s : State}
    (ho : calibrationOpen s = true) (hp : polarity? p = some q) (hw : filterWindow? w = some v) :
    takeDpulseConfig p w s
      = (countCalibration { s with odo := { s.odo with
          polarity := q, window := v, accepted := s.pins.dpulse, timing := none } }, .ok [.u8 p, .u8 w]) := by
  unfold takeDpulseConfig
  rw [hp, hw, if_neg (by simp [ho])]
  simp only [polarity?_code hp, filterWindow?_code hw]

theorem takeDpulseConfig_refused {p w : Nat} {s : State} (ho : calibrationOpen s = true) (h : 1 < p ∨ 4 < w) :
    takeDpulseConfig p w s = refuse .badValue s := by
  unfold takeDpulseConfig
  rw [if_neg (by simp [ho])]
  rcases h with h | h
  · rw [polarity?_none h]
  · rw [filterWindow?_none h]
    cases polarity? p <;> rfl

/-- Settles O21. -/
theorem pulseSettingsAreStoredAndCounted : Obligations.PulseSettingsAreStoredAndCounted := by
  intro s hready ho
  refine ⟨fun p w q v hp hw => exec_taken hready rfl (takeDpulseConfig_stored ho hp hw),
    fun p w h => exec_refused hready rfl (takeDpulseConfig_refused ho h), fun k hlow hhigh => ?_, fun k h => ?_⟩
  · have hrule : takeCalSetK k s
        = (resign (countCalibration { s with odo := { s.odo with k := k, r := 0 } }), .ok [.u16 k]) := by
      unfold takeCalSetK
      rw [if_neg (by simp [ho]), if_neg (by simp; omega)]
    refine ⟨_, exec_taken hready rfl hrule, ?_, by simp [answered, countCalibration],
      by simp [answered, countCalibration, incU16, satAdd], rfl⟩
    exact (((withOdo_acts s _).seq (countCalibration_acts _)).seq (resign_acts _)).answered _ _ (by simp) (by simp)
  · refine exec_refused hready rfl ?_
    unfold takeCalSetK
    rw [if_neg (by simp [ho]), if_pos (by simp; omega)]

end Sys2Proof.Machine
end

