-- ==== Sys2Proof/Proofs/Ticks.lean ====
section
/-!
PROOF. A second tick: the interval close at the odometry unit and the shift, and the accrual of the legs, with the
notices of each.
-/

set_option Elab.async false

namespace Sys2Proof.Machine

/-! ### The interval close of a tick -/

/-- The state whose interval a tick closes: the clock and the measurement have taken it. -/
def atTick (s : State) : State := { s with clock := s.clock.tick true, odo := s.odo.measureTick }

theorem ticks_running {s : State} (h : s.power = .running) : ticks s = closeInterval (atTick s) := by
  have hr : running s = true := by simp [running, h]
  rw [ticks, hr, whileRunning_running (by exact h)]
  rfl

theorem exec_secondTick {s : State} (h : s.power = .running) :
    exec .secondTick s = .next (closeInterval (atTick s)) := by
  rw [← ticks_running h]
  rfl

theorem nextCount_below {n : Nat} (h : n < lastCount) : nextCount n = n + 1 := if_pos h

theorem Odometry.measureTick_eq (o : Odometry) :
    o.measureTick =
      { o with
        measurement :=
          if o.measurement = .starting then .running
          else if o.measurement = .stopping then .stopped
          else o.measurement
        measureSeconds :=
          if o.measurement = .running ∨ o.measurement = .stopping then min 4294967295 (o.measureSeconds + 1)
          else o.measureSeconds } := by
  obtain ⟨_, _, _, _, _, _, _, _, _, _, _, _, m, _, _⟩ := o
  cases m <;> rfl

theorem Odometry.judgeMotion_eq (o : Odometry) (m : Nat) :
    o.judgeMotion m =
      (let z := if m = 0 then min 3 (o.zeroCloses + 1) else 0
       { o with zeroCloses := z, motion := if m ≠ 0 then .moving else if z = 3 then .stationary else o.motion }) := by
  unfold Odometry.judgeMotion
  split
  · next h => simp [h, satAdd]
  · rfl

/-- The metres counted at a tick; the measurement has no part in them. -/
theorem closingCount_atTick (s : State) :
    closingCount (atTick s)
      = if s.odo.k ≠ 0 ∧ (s.fare.tariff 1).isDefined = true then s.odo.intervalMetres else 0 := by
  have hm := s.odo.measureTick_eq
  simp [closingCount, calibrated, atTick, hm]

theorem clampMetres_eq (c : Nat) : clampMetres c = min c 100 := Nat.min_comm 100 c

theorem calibrated_iff (s : State) : calibrated s = true ↔ s.odo.k ≠ 0 ∧ (s.fare.tariff 1).isDefined = true := by
  simp [calibrated]

theorem closeInterval_clock (s : State) : (closeInterval s).clock = s.clock := (closeInterval_acts s).same .clock

/-! ### Its notices -/

theorem takeInterval_raises (c : Nat) (s : State) : raisesOnly [.sensorImplausible] s (takeInterval c s) :=
  (raisesOnly_of_acts (withOdo_acts s (s.odo.takeInterval c)) (by simp) _).trans (raiseIf_raises _ _ _ _)

theorem closeOdometry_raises (m : Nat) (hired : Bool) (s : State) :
    raisesOnly [.motion] s (closeOdometry m hired s) :=
  (raisesOnly_of_acts (withOdo_acts s ((s.odo.addTotals m hired).judgeMotion m)) (by simp) _).trans
    (raiseIf_raises _ _ _ _)

theorem raiseCap_raises (before : FareEngine) (i : Slot) (s : State) : raisesOnly [.fareCap] s (raiseCap before i s) :=
  raiseIf_raises _ _ _ _

/-- The fare caps of a close, in slot order. -/
def raiseCaps (before : FareEngine) (s : State) : State :=
  raiseCap before .s4 (raiseCap before .s3 (raiseCap before .s2 (raiseCap before .s1 s)))

theorem raiseCaps_raises (before : FareEngine) (s : State) : raisesOnly [.fareCap] s (raiseCaps before s) :=
  (((raiseCap_raises before .s1 s).trans (raiseCap_raises before .s2 _)).trans
    (raiseCap_raises before .s3 _)).trans (raiseCap_raises before .s4 _)

theorem raiseCaps_acts (before : FareEngine) (s : State) : acts [.link] s (raiseCaps before s) :=
  ((((raiseCap_acts before .s1 s).seq (raiseCap_acts before .s2 _)).seq (raiseCap_acts before .s3 _)).seq
    (raiseCap_acts before .s4 _)).widen

@[simp] theorem raiseCaps_fare (before : FareEngine) (s : State) : (raiseCaps before s).fare = s.fare :=
  (raiseCaps_acts before s).same .fare

/-- FARE_STEP where a fare changed. -/
def raiseStep (before : FareEngine) (s : State) : State := if faresDiffer before s.fare then raiseFareStep s else s

theorem raiseStep_raises (before : FareEngine) (s : State) : raisesOnly [.fareStep] s (raiseStep before s) :=
  .ite (fun _ => raise_raises _ _ _) (fun _ => raisesOnly_refl _ _)

@[simp] theorem raiseStep_fare (before : FareEngine) (s : State) : (raiseStep before s).fare = s.fare := by
  unfold raiseStep
  split <;> simp [raiseFareStep]

/-- The STOPPING legs stop. -/
def haltAll (count : Nat) (s : State) : State :=
  { s with fare := { s.fare with legs := s.fare.legs.map (Leg.halt count) } }

theorem haltAll_raises (count : Nat) (s : State) : raisesOnly [] s (haltAll count s) := withFare_raises s _

/-- The fare engine's part of a close, stage by stage. -/
theorem closeFares_stages (m : Nat) (s : State) :
    closeFares m s
      = raiseLegStates (s.fare.slotsIn .stopping) (haltAll s.clock.count (raiseStep s.fare
          (raiseCaps s.fare { s with fare := s.fare.accrueAll m }))) := rfl

theorem closeFares_raises (m : Nat) (s : State) :
    raisesOnly [.fareCap, .fareStep, .legState] s (closeFares m s) := by
  rw [closeFares_stages]
  exact ((((withFare_raises s _).seq (raiseCaps_raises _ _)).seq (raiseStep_raises _ _)).seq
    (haltAll_raises _ _)).seq (raiseLegStates_raises _ _)

theorem closeInterval_raises (s : State) :
    raisesOnly [.sensorImplausible, .fareCap, .fareStep, .legState, .motion] s (closeInterval s) :=
  (((takeInterval_raises _ s).seq (closeFares_raises _ _)).seq (addTotals_raises _ _)).seq (closeOdometry_raises _ _ _)

/-- What follows the odometry unit's own notice of the close. -/
theorem closeInterval_raises_after (s : State) :
    raisesOnly [.fareCap, .fareStep, .legState, .motion] (takeInterval (closingCount s) s) (closeInterval s) :=
  ((closeFares_raises _ _).seq (addTotals_raises _ _)).seq (closeOdometry_raises _ _ _)

theorem raiseIf_false (k : NoticeKind) (payload : List Field) (s : State) : raiseIf false k payload s = s := rfl

theorem closeInterval_implausible {s : State} (h : 100 < closingCount s) :
    announced .sensorImplausible [.u16 (closingCount s)] (closeInterval s) :=
  (announced_raiseIf (by simp [h]) _ _ _).later (closeInterval_raises_after s) (by simp)

theorem closeInterval_plausible {s : State} (h : closingCount s ≤ 100) :
    unraised .sensorImplausible s (closeInterval s) := by
  have hquiet : raisesOnly [] s (takeInterval (closingCount s) s) := by
    rw [takeInterval, decide_eq_false (by omega), raiseIf_false]
    exact raisesOnly_of_acts (withOdo_acts s _) (by simp) _
  exact (hquiet.seq (closeInterval_raises_after s)).unraised (by simp)

/-- The state in which the odometry unit judges the motion of a close. -/
def beforeMotion (s : State) : State :=
  addTotals (Totals.addInterval (clampMetres (closingCount s)) (anyRuns s))
    (closeFares (clampMetres (closingCount s)) (takeInterval (closingCount s) s))

theorem closeInterval_motionLast (s : State) :
    closeInterval s = closeOdometry (clampMetres (closingCount s)) (anyRuns s) (beforeMotion s) := rfl

theorem beforeMotion_odo (s : State) : (beforeMotion s).odo = s.odo.takeInterval (closingCount s) := by
  rw [← takeInterval_odo]
  exact ((closeFares_acts _ _).seq (addTotals_acts _ _)).same .odo

theorem beforeMotion_raises (s : State) :
    raisesOnly [.sensorImplausible, .fareCap, .fareStep, .legState] s (beforeMotion s) :=
  ((takeInterval_raises _ s).seq (closeFares_raises _ _)).seq (addTotals_raises _ _)

theorem Motion.eq_moving_or (m : Motion) : m.ctorIdx = if m = .moving then 0 else 1 := by cases m <;> rfl

theorem closeInterval_motion {s : State} (h : (closeInterval s).odo.motion ≠ s.odo.motion) :
    announced .motion [.u8 (if (closeInterval s).odo.motion = .moving then 0 else 1)] (closeInterval s) := by
  rw [← Motion.eq_moving_or]
  rw [closeInterval_motionLast, closeOdometry_odo] at h ⊢
  refine announced_raiseIf ?_ _ _ _
  have hold : (beforeMotion s).odo.motion = s.odo.motion := by rw [beforeMotion_odo]; rfl
  simpa [bne_iff_ne, hold] using h

theorem closeInterval_motion_kept {s : State} (h : (closeInterval s).odo.motion = s.odo.motion) :
    unraised .motion s (closeInterval s) := by
  rw [closeInterval_motionLast, closeOdometry_odo] at h
  have hold : (beforeMotion s).odo.motion = s.odo.motion := by rw [beforeMotion_odo]; rfl
  have hquiet : raisesOnly [] (beforeMotion s) (closeInterval s) := by
    rw [closeInterval_motionLast, closeOdometry]
    rw [h, hold, bne_self_eq_false, raiseIf_false]
    exact raisesOnly_of_acts (withOdo_acts _ _) (by simp) _
  exact ((beforeMotion_raises s).seq hquiet).unraised (by simp)

/-! ### What a tick leaves at the clock, the odometry unit and the shift -/

theorem addTotals_open {s : State} (h : shiftOpen s = true) (g : Totals → Totals) :
    (addTotals g s).shifts
      = { s.shifts with record := { s.shifts.record with totals := g s.shifts.record.totals } } := by
  rw [addTotals, if_pos (show s.shifts.record.isOpen = true from h)]

theorem addTotals_closed {s : State} (h : shiftOpen s = false) (g : Totals → Totals) : addTotals g s = s := by
  rw [addTotals, if_neg (show ¬s.shifts.record.isOpen = true by simpa [shiftOpen] using h)]

theorem odo_after_tick (s : State) :
    (closeInterval (atTick s)).odo =
      (let c := if s.odo.k ≠ 0 ∧ (s.fare.tariff 1).isDefined = true then s.odo.intervalMetres else 0
       let m := min c 100
       let z := if m = 0 then min 3 (s.odo.zeroCloses + 1) else 0
       { s.odo with
          intervalMetres := 0
          lastMetres := m
          r := if 100 < c then 0 else s.odo.r
          totalDistance := min 4294967295 (s.odo.totalDistance + m)
          hiredDistance :=
            if anyRuns s = true then min 4294967295 (s.odo.hiredDistance + m) else s.odo.hiredDistance
          zeroCloses := z
          motion := if m ≠ 0 then .moving else if z = 3 then .stationary else s.odo.motion
          measurement :=
            if s.odo.measurement = .starting then .running
            else if s.odo.measurement = .stopping then .stopped
            else s.odo.measurement
          measureSeconds :=
            if s.odo.measurement = .running ∨ s.odo.measurement = .stopping then
              min 4294967295 (s.odo.measureSeconds + 1)
            else s.odo.measureSeconds }) := by
  rw [closeInterval_odo, Odometry.judgeMotion_eq, clampMetres_eq, closingCount_atTick]
  simp only [Odometry.addTotals, Odometry.takeInterval, atTick, Odometry.measureTick_eq, clampMetres_eq]
  rfl

/-- Settles O19. -/
theorem aSecondTickClosesTheInterval : Obligations.ASecondTickClosesTheInterval := by
  intro s hrun hlast
  refine ⟨_, exec_secondTick hrun, ?_, ?_, ?_, ?_⟩
  · rw [← ticks_running hrun]
    exact (ticks_acts s).frame
  · rw [closeInterval_clock]
    exact nextCount_below hlast
  · rw [closeInterval_clock]
    simp [atTick, Clock.tick, hlast]
  · have hc := closingCount_atTick s
    refine ⟨odo_after_tick s, fun h => ?_, fun h => ?_, fun h => ?_, fun h => ?_, fun h => ?_,
      fun h => ?_⟩
    · rw [closeInterval_shifts, addTotals_closed (by exact h)]
      rfl
    · rw [closeInterval_shifts, addTotals_open (by exact h), clampMetres_eq, hc]
      rfl
    · have := closeInterval_implausible (s := atTick s) (by rw [hc]; exact h)
      rwa [hc] at this
    · exact closeInterval_plausible (s := atTick s) (by rw [hc]; exact h)
    · exact closeInterval_motion (s := atTick s) (by rw [atTick, Odometry.measureTick_eq] at *; exact h)
    · exact closeInterval_motion_kept (s := atTick s) (by rw [atTick, Odometry.measureTick_eq] at *; exact h)

end Sys2Proof.Machine
end

