-- ==== Sys2Proof/Proofs/Accrual.lean ====
section
/-!
PROOF. The accrual of the legs at a second tick and its notices.
-/

set_option Elab.async false

namespace Sys2Proof.Machine

/-! ### The legs after a close -/

theorem Leg.halt_eq (l : Leg) (count : Nat) :
    l.halt count =
      { l with
        state := if l.state = .stopping then .stopped else l.state
        stopTime := if l.state = .stopping then some count else l.stopTime } := by
  unfold Leg.halt
  split <;> rfl

theorem accrueAll_get (e : FareEngine) (m : Nat) (i : Slot) :
    (e.accrueAll m).legs.get i = e.accrueLeg m (e.legs.get i) := by
  simp [FareEngine.accrueAll]

theorem close_get (e : FareEngine) (m count : Nat) (i : Slot) :
    (e.close m count).legs.get i = (e.accrueLeg m (e.legs.get i)).halt count := by
  simp [FareEngine.close, accrueAll_get]

theorem accrueLeg_state (e : FareEngine) (m : Nat) (l : Leg) :
    (e.accrueLeg m l).state = l.state ∧ (e.accrueLeg m l).extrasTotal = l.extrasTotal := by
  unfold FareEngine.accrueLeg
  split <;> exact ⟨rfl, rfl⟩

theorem leg_after_tick (s : State) (i : Slot) :
    (closeInterval (atTick s)).leg i
      = (s.fare.accrueLeg (clampMetres (closingCount (atTick s))) (s.leg i)).halt (nextCount s.clock.count) := by
  rw [State.leg, closeInterval_fare, close_get]
  rfl

theorem accrueLeg_of_runs (e : FareEngine) (m : Nat) {l : Leg} (h : l.state = .hired ∨ l.state = .stopping) :
    e.accrueLeg m l = l.accrue (e.tariff l.tariff) m := by
  refine if_pos ?_
  rcases h with h | h <;> simp [Leg.runs, h]

theorem accrueLeg_of_rests (e : FareEngine) (m : Nat) {l : Leg} (h : l.state ≠ .hired) (h' : l.state ≠ .stopping) :
    e.accrueLeg m l = l := by
  refine if_neg ?_
  unfold Leg.runs
  cases hl : l.state <;> simp_all

theorem progress_eq (t : Tariff) (m : Nat) :
    progress t m = if t.mode = .single then max (m * t.timeStep) t.distanceStep
      else m * t.timeStep + t.distanceStep := by
  unfold progress
  cases t.mode <;> rfl

/-! ### The notices of the fare engine's part -/

/-- A leg has reached the cap since. -/
def capsNewly (before e : FareEngine) (i : Slot) : Bool :=
  (e.legs.get i).capped && !(before.legs.get i).capped

theorem raiseCap_eq (before : FareEngine) (i : Slot) (s : State) :
    raiseCap before i s
      = raiseIf (capsNewly before s.fare i) .fareCap [.u8 i.number, .u32 (s.leg i).fare] s := rfl

@[simp] theorem raiseCap_fare (before : FareEngine) (i : Slot) (s : State) : (raiseCap before i s).fare = s.fare :=
  (raiseCap_acts before i s).same .fare

theorem raiseCap_idle {before : FareEngine} {i : Slot} {s : State} (h : capsNewly before s.fare i = false) :
    raiseCap before i s = s := by
  rw [raiseCap_eq, h, raiseIf_false]

theorem announced_raiseCap {before : FareEngine} {i : Slot} {s : State} (h : capsNewly before s.fare i = true) :
    announced .fareCap [.u8 i.number, .u32 (s.fare.legs.get i).fare] (raiseCap before i s) :=
  announced_raiseIf h _ _ _

/-- The highest slot that reached the cap stays announced. -/
theorem announced_raiseCaps {before : FareEngine} {s : State} {i : Slot} (h : capsNewly before s.fare i = true)
    (hlast : ∀ j : Slot, i.number < j.number → capsNewly before s.fare j = false) :
    announced .fareCap [.u8 i.number, .u32 (s.fare.legs.get i).fare] (raiseCaps before s) := by
  have hidle (j : Slot) (hj : i.number < j.number) (t : State) (ht : t.fare = s.fare) : raiseCap before j t = t :=
    raiseCap_idle (by rw [ht]; exact hlast j hj)
  have hraise (t : State) (ht : t.fare = s.fare) :
      announced .fareCap [.u8 i.number, .u32 (s.fare.legs.get i).fare] (raiseCap before i t) := by
    rw [← ht]
    exact announced_raiseCap (by rw [ht]; exact h)
  unfold raiseCaps
  cases i with
  | s1 =>
    rw [hidle .s2 (by decide) _ (by simp), hidle .s3 (by decide) _ (by simp), hidle .s4 (by decide) _ (by simp)]
    exact hraise _ rfl
  | s2 =>
    rw [hidle .s3 (by decide) _ (by simp), hidle .s4 (by decide) _ (by simp)]
    exact hraise _ (by simp)
  | s3 =>
    rw [hidle .s4 (by decide) _ (by simp)]
    exact hraise _ (by simp)
  | s4 => exact hraise _ (by simp)

theorem raiseCaps_idle {before : FareEngine} {s : State} (h : ∀ j, capsNewly before s.fare j = false) :
    raiseCaps before s = s := by
  simp only [raiseCaps, raiseCap_idle, h]

section
variable {m : Nat} {s : State}

/-- What follows the caps of a close. -/
theorem closeFares_raises_after (m : Nat) (s : State) :
    raisesOnly [.fareStep, .legState] (raiseCaps s.fare { s with fare := s.fare.accrueAll m }) (closeFares m s) := by
  rw [closeFares_stages]
  exact ((raiseStep_raises _ _).seq (haltAll_raises _ _)).seq (raiseLegStates_raises _ _)

theorem closeFares_cap {i : Slot} (h : capsNewly s.fare (s.fare.accrueAll m) i = true)
    (hlast : ∀ j : Slot, i.number < j.number → capsNewly s.fare (s.fare.accrueAll m) j = false) :
    announced .fareCap [.u8 i.number, .u32 ((s.fare.accrueAll m).legs.get i).fare] (closeFares m s) :=
  (announced_raiseCaps (s := { s with fare := s.fare.accrueAll m }) h hlast).later (closeFares_raises_after m s)
    (by simp)

theorem closeFares_noCap (h : ∀ j, capsNewly s.fare (s.fare.accrueAll m) j = false) :
    raisesOnly [.fareStep, .legState] s (closeFares m s) := by
  have hafter := closeFares_raises_after m s
  rw [raiseCaps_idle (s := { s with fare := s.fare.accrueAll m }) h] at hafter
  exact (withFare_raises s _).seq hafter

theorem closeFares_step (h : faresDiffer s.fare (s.fare.accrueAll m) = true) :
    announced .fareStep (fareStepPayload (s.fare.accrueAll m)) (closeFares m s) := by
  rw [closeFares_stages, raiseStep, raiseCaps_fare, if_pos h]
  have hraise := announced_raise .fareStep (fareStepPayload (s.fare.accrueAll m))
    (raiseCaps s.fare { s with fare := s.fare.accrueAll m })
  rw [raiseFareStep, raiseCaps_fare]
  exact hraise.later ((haltAll_raises _ _).seq (raiseLegStates_raises _ _)) (by simp)

theorem closeFares_noStep (h : faresDiffer s.fare (s.fare.accrueAll m) = false) :
    raisesOnly [.fareCap, .legState] s (closeFares m s) := by
  rw [closeFares_stages, raiseStep, raiseCaps_fare, if_neg (by simp [h])]
  exact (((withFare_raises s _).seq (raiseCaps_raises _ _)).seq (haltAll_raises _ _)).seq (raiseLegStates_raises _ _)

theorem raiseLegStates_cons (i : Slot) (rest : List Slot) (s : State) :
    announced .legState (legStatePayload i (raiseLegStates (i :: rest) s).fare) (raiseLegStates (i :: rest) s) :=
  announced_raise .legState (legStatePayload i s.fare) s

theorem closeFares_stop {i : Slot} {rest : List Slot} (h : s.fare.slotsIn .stopping = i :: rest) :
    announced .legState (legStatePayload i (closeFares m s).fare) (closeFares m s) := by
  rw [closeFares_stages, h]
  exact raiseLegStates_cons _ _ _

theorem closeFares_noStop (h : s.fare.slotsIn .stopping = []) : raisesOnly [.fareCap, .fareStep] s (closeFares m s) := by
  rw [closeFares_stages, h]
  exact (((withFare_raises s _).seq (raiseCaps_raises _ _)).seq (raiseStep_raises _ _)).seq (haltAll_raises _ _)

end

/-- The lowest slot in a state heads the slots in it. -/
theorem slotsIn_lowest {e : FareEngine} {x : LegState} {i : Slot} (h : (e.legs.get i).state = x)
    (hlow : ∀ j : Slot, j.number < i.number → (e.legs.get j).state ≠ x) : ∃ rest, e.slotsIn x = i :: rest := by
  have hne (j : Slot) (hj : j.number < i.number) : ((e.legs.get j).state == x) = false := by simpa using hlow j hj
  have heq : ((e.legs.get i).state == x) = true := by simpa using h
  unfold FareEngine.slotsIn Slot.all
  cases i with
  | s1 => simp [heq]
  | s2 => simp [heq, hne .s1 (by decide)]
  | s3 => simp [heq, hne .s1 (by decide), hne .s2 (by decide)]
  | s4 => simp [heq, hne .s1 (by decide), hne .s2 (by decide), hne .s3 (by decide)]

theorem slotsIn_none {e : FareEngine} {x : LegState} (h : ∀ j, (e.legs.get j).state ≠ x) : e.slotsIn x = [] :=
  List.filter_eq_nil_iff.mpr (fun j _ => by simpa using h j)

/-! ### A whole close -/

/-- What follows the fare engine's part of a close. -/
theorem closeInterval_raises_last (s : State) :
    raisesOnly [.motion] (closeFares (clampMetres (closingCount s)) (takeInterval (closingCount s) s))
      (closeInterval s) :=
  (addTotals_raises _ _).seq (closeOdometry_raises _ _ _)

/-- A kind the fare engine's part does not raise is not raised by the close. -/
theorem closeInterval_unraised {s : State} {kinds : List NoticeKind} {k : NoticeKind}
    (h : raisesOnly kinds (takeInterval (closingCount s) s)
      (closeFares (clampMetres (closingCount s)) (takeInterval (closingCount s) s)))
    (hk : k ∉ kinds) (hodo : k ≠ .sensorImplausible) (hmotion : k ≠ .motion) : unraised k s (closeInterval s) :=
  ((((takeInterval_raises _ s).seq h).seq (closeInterval_raises_last s))).unraised (by simp [hk, hodo, hmotion])

/-- A fare differs after the accrual. -/
theorem faresDiffer_iff (a b : FareEngine) :
    faresDiffer a b = true ↔ ∃ j, (b.legs.get j).fare ≠ (a.legs.get j).fare := by
  simp only [faresDiffer, Slot.all, List.any_eq_true, bne_iff_ne]
  refine ⟨fun ⟨j, _, h⟩ => ⟨j, h.symm⟩, fun ⟨j, h⟩ => ⟨j, ?_, h.symm⟩⟩
  cases j <;> simp

section
variable (s : State)

/-- The legs of a tick before the STOPPING ones stop. -/
def accrued (s : State) : FareEngine := s.fare.accrueAll (clampMetres (closingCount (atTick s)))

theorem leg_after_tick_accrued (i : Slot) :
    (closeInterval (atTick s)).leg i = ((accrued s).legs.get i).halt (nextCount s.clock.count) := by
  rw [leg_after_tick, accrued, accrueAll_get]
  rfl

theorem fare_after_tick (i : Slot) :
    ((closeInterval (atTick s)).leg i).fare = ((accrued s).legs.get i).fare
      ∧ ((closeInterval (atTick s)).leg i).capped = ((accrued s).legs.get i).capped
      ∧ ((closeInterval (atTick s)).leg i).extrasTotal = ((accrued s).legs.get i).extrasTotal := by
  rw [leg_after_tick_accrued, Leg.halt_eq]
  exact ⟨rfl, rfl, rfl⟩

theorem capsNewly_accrued (i : Slot) :
    capsNewly s.fare (accrued s) i = (((closeInterval (atTick s)).leg i).capped && !(s.leg i).capped) := by
  rw [(fare_after_tick s i).2.1]
  rfl

theorem faresDiffer_accrued :
    faresDiffer s.fare (accrued s) = true ↔ ∃ j, ((closeInterval (atTick s)).leg j).fare ≠ (s.leg j).fare := by
  rw [faresDiffer_iff]
  exact exists_congr (fun j => by rw [(fare_after_tick s j).1, State.leg])

theorem fareStepPayload_accrued :
    fareStepPayload (accrued s)
      = [Slot.s1, .s2, .s3, .s4].flatMap (fun j =>
          [.u8 (s.leg j).state.ctorIdx, .u32 ((closeInterval (atTick s)).leg j).fare,
            .u32 ((closeInterval (atTick s)).leg j).extrasTotal]) := by
  have hlist : (accrued s).legs.toList = [Slot.s1, .s2, .s3, .s4].map (accrued s).legs.get := rfl
  have hstate (j : Slot) : ((accrued s).legs.get j).state = (s.leg j).state := by
    rw [accrued, accrueAll_get]
    exact (accrueLeg_state _ _ _).1
  rw [fareStepPayload, hlist, List.flatMap_map]
  simp only [(fare_after_tick s _).1, (fare_after_tick s _).2.2, hstate]

end

/-- The figures of a leg that accrues, STOPPING or not. -/
theorem accrue_figures {l : Leg} {t : Tariff} (ht : t.inRange) (hfare : l.fare ≤ 99999999) (m : Nat) :
    let n := stepsDue (l.q + progress t m) t.stepWorth
    (l.accrue t m).q + (n * t.stepWorth : Nat) = l.q + progress t m ∧ (l.accrue t m).q < (t.stepWorth : Int)
      ∧ (n ≠ 0 → 0 ≤ (l.accrue t m).q)
      ∧ (l.accrue t m).fare = min 99999999 (l.fare + n * t.stepAmount) := by
  have hrest := stepsDue_rest (l.q + progress t m) (stepWorth_pos ht)
  refine ⟨?_, hrest.1, hrest.2, fare_add_rise hfare _ _⟩
  simp [Leg.accrue]

theorem accrue_segments {l : Leg} {t : Tariff} {m : Nat} {gs : List Segment} {g : Segment}
    (h : l.segments = gs ++ [g]) :
    (l.accrue t m).segments = gs ++
      [{ g with
        metres := min 4294967295 (g.metres + m), seconds := min 4294967295 (g.seconds + 1)
        fare := g.fare + ((l.accrue t m).fare - l.fare) }] := by
  have hrise : (l.accrue t m).fare - l.fare = fareRise l.fare (stepsDue (l.q + progress t m) t.stepWorth) t.stepAmount :=
    Nat.add_sub_cancel_left _ _
  rw [hrise]
  simp only [Leg.accrue, h, onLast_append]
  rfl

/-- Settles O25. -/
theorem aTickAccruesTheRunningLegs : Obligations.ATickAccruesTheRunningLegs := by
  intro s i hrun hlast
  have hm : clampMetres (closingCount (atTick s)) = min (if calibrated s = true then s.odo.intervalMetres else 0) 100 := by
    rw [clampMetres_eq, closingCount_atTick]
    simp only [calibrated_iff]
  have hfare : (takeInterval (closingCount (atTick s)) (atTick s)).fare = s.fare := by simp [atTick]
  refine ⟨_, exec_secondTick hrun, fun hh hs => ?_, fun hruns ht hcap => ?_, ⟨?_, ?_, ?_⟩, ?_, fun h => ?_, fun h => ?_,
    fun h h' hhigh => ?_, fun h => ?_, fun h hlow => ?_, fun h => ?_⟩
  · rw [leg_after_tick, accrueLeg_of_rests _ _ hh hs]
    exact if_neg hs
  · have hfigures := accrue_figures (l := s.leg i) ht hcap (clampMetres (closingCount (atTick s)))
    rw [leg_after_tick, accrueLeg_of_runs _ _ hruns, Leg.halt_eq, nextCount_below hlast]
    rw [hm] at hfigures ⊢
    simp only [progress_eq] at hfigures
    obtain ⟨hq, hlt, hpos, hf⟩ := hfigures
    refine ⟨_, hq, hlt, hpos, hf, rfl, rfl, ?_, rfl, rfl, rfl, fun hh => ?_, fun hs => ?_, rfl, rfl, rfl, rfl, rfl, rfl,
      rfl, fun gs g h => accrue_segments h⟩
    · exact congrArg ((s.leg i).capped || ·) (beq_eq_decide _ _)
    · have hne : (s.leg i).state ≠ .stopping := by simp [hh]
      exact ⟨(if_neg hne).trans hh, if_neg hne⟩
    · exact ⟨if_pos hs, if_pos hs⟩
  · simp [FareEngine.close, FareEngine.accrueAll, atTick]
  · simp [FareEngine.close, FareEngine.accrueAll, atTick]
  · simp [FareEngine.close, FareEngine.accrueAll, atTick]
  · simp [FareEngine.close, FareEngine.accrueAll, atTick]
  · have hstep := closeFares_step (m := clampMetres (closingCount (atTick s)))
      (s := takeInterval (closingCount (atTick s)) (atTick s))
    rw [hfare] at hstep
    rw [← fareStepPayload_accrued]
    exact (hstep ((faresDiffer_accrued s).mpr h)).later (closeInterval_raises_last _) (by simp)
  · have hno := closeFares_noStep (m := clampMetres (closingCount (atTick s)))
      (s := takeInterval (closingCount (atTick s)) (atTick s))
    rw [hfare] at hno
    have hsame : faresDiffer s.fare (accrued s) = false := by
      rw [← Bool.not_eq_true, faresDiffer_accrued]
      exact fun ⟨j, hj⟩ => hj (h j)
    exact closeInterval_unraised (s := atTick s) (hno hsame) (by simp) (by simp) (by simp)
  · have hcaps := closeFares_cap (i := i) (m := clampMetres (closingCount (atTick s)))
      (s := takeInterval (closingCount (atTick s)) (atTick s))
    rw [hfare] at hcaps
    rw [(fare_after_tick s i).1]
    refine (hcaps ?_ fun j hj => ?_).later (closeInterval_raises_last _) (by simp)
    · exact (capsNewly_accrued s i).trans (by rw [h, h']; rfl)
    · exact (capsNewly_accrued s j).trans (by rw [hhigh j hj, Bool.and_not_self])
  · have hno := closeFares_noCap (m := clampMetres (closingCount (atTick s)))
      (s := takeInterval (closingCount (atTick s)) (atTick s))
    rw [hfare] at hno
    refine closeInterval_unraised (s := atTick s) (hno fun j => ?_) (by simp) (by simp) (by simp)
    exact (capsNewly_accrued s j).trans (by rw [h j, Bool.and_not_self])
  · obtain ⟨rest, hrest⟩ := slotsIn_lowest (e := s.fare) h hlow
    have hstop := closeFares_stop (m := clampMetres (closingCount (atTick s)))
      (s := takeInterval (closingCount (atTick s)) (atTick s)) (by rw [hfare]; exact hrest)
    have hlater := hstop.later (closeInterval_raises_last _) (by simp)
    rwa [show (closeInterval (atTick s)).fare = _ from
      ((addTotals_acts _ _).seq (closeOdometry_acts _ _ _)).same .fare]
  · refine closeInterval_unraised (s := atTick s) (closeFares_noStop ?_) (by simp) (by simp) (by simp)
    rw [hfare]
    exact slotsIn_none h

end Sys2Proof.Machine
end

