-- ==== Sys2Proof/Proofs/BaseSteps.lean ====
section
/-!
PROOF. What the part does of itself on an empty queue: a due event, or one step of the 10 ms base.
-/

set_option Elab.async false

namespace Sys2Proof.Machine

theorem step_idle {s : State} (h : s.pending = []) : step s = .next (idle s) := by
  unfold step
  rw [h]

theorem idle_due {s : State} {c : Instr} {rest : List Instr} (h : dueEvents s = c :: rest) :
    idle s = { s with pending := [c] } := by rw [idle, h]

theorem idle_base {s : State} (h : dueEvents s = []) : idle s = baseStep s := by rw [idle, h]

theorem baseStep_running {s : State} (h : s.power = .running) :
    baseStep s = timersStep { s with clock := s.clock.baseStep } := whileRunning_running (by exact h) _

theorem baseStep_stopped {s : State} (h : s.power ≠ .running) : baseStep s = { s with clock := s.clock.baseStep } :=
  whileRunning_stopped (by exact h) _

theorem Clock.baseStep_eq (c : Clock) :
    c.baseStep = if c.period < 99 then { c with period := c.period + 1 }
      else { c with period := 0, secondDue := true } := by
  unfold Clock.baseStep
  split
  · next h => rw [if_neg (by omega)]
  · next h => rw [if_pos (by omega)]

theorem TenderLink.baseStep_eq (cts : Bool) (t : TenderLink) :
    t.baseStep cts =
      { t with
        heartbeat := t.heartbeat - 1, sendLeft := t.sendLeft - 1
        headStarted := if cts = true then
            min ((t.queue.head?.map (fun m => m.frame.length)).getD 0) (t.headStarted + 38)
          else t.headStarted
        sinceByte := t.sinceByte.map (fun n => min 6 (n + 1))
        sinceFrame := t.sinceFrame.map (fun n => min 6553500 (n + 1)) } := by
  rw [← TenderLink.headLength_eq]
  rfl

/-- The dark timer of a lamp after a base step (R133). -/
theorem Sign.darkStep_eq (g : Sign) (sense : LampSet) (x : Lamp) :
    (g.baseStep sense).dark.get x
      = if g.driver x = true ∧ sense.get x = false then min 5 (g.dark.get x + 1) else 0 := by
  have hget : (g.baseStep sense).dark.get x = g.darkStep sense x := by cases x <;> rfl
  rw [hget, Sign.darkStep]
  simp [Sign.isDark, satAdd]

theorem Sign.baseStep_generator (g : Sign) (sense : LampSet) (x : Lamp) :
    (g.baseStep sense).generator.get x
      = (let n := g.generator.get x
         match n.phase with
         | .on | .off => { n with left := n.left - 1 }
         | .gap =>
          if 0 < n.gapLow then { n with gapLow := n.gapLow - 1 }
          else if 0 < n.gapHigh then { n with gapLow := 255, gapHigh := n.gapHigh - 1 }
          else n
         | .rest => n) := by
  cases x <;> rfl

theorem Intercom.baseStep_vox (n : Intercom) (x : Side) : n.baseStep.vox.get x = (n.vox.get x).baseStep := by
  cases x <;> rfl

theorem Intercom.baseStep_press (n : Intercom) (x : Seat) : n.baseStep.press.get x = (n.press.get x).baseStep := by
  cases x <;> rfl

theorem Qualifier.baseStep_of_counted {q : Qualifier} (h : ∀ n, q ≠ .attack n) : q.baseStep = q := by
  cases q with
  | attack n => exact absurd rfl (h n)
  | low | qualified => rfl

theorem Press.baseStep_of_counted {q : Press} (h : ∀ n, q ≠ .pressing n) : q.baseStep = q := by
  cases q with
  | pressing n => exact absurd rfl (h n)
  | released | taken => rfl

/-- Settles O2. -/
theorem idleStepTakesADueEventOrABaseStep : Obligations.IdleStepTakesADueEventOrABaseStep := by
  intro s hempty
  refine ⟨fun c rest h => by rw [step_idle hempty, idle_due h], fun h => ⟨by rw [step_idle hempty, idle_base h], ?_, ?_,
    fun hrun => ?_⟩⟩
  · rw [← Clock.baseStep_eq]
    unfold baseStep whileRunning
    dsimp only
    split <;> rfl
  · intro hstop
    rw [baseStep_stopped hstop]
    exact (withClock_acts s _).frame
  · rw [baseStep_running hrun]
    refine ⟨?_, rfl, rfl, TenderLink.baseStep_eq _ _, rfl, fun x => ⟨Sign.darkStep_eq _ _ x, Sign.baseStep_generator _ _ x⟩,
      rfl, fun x n hx => ?_, fun x hx => ?_, fun x n hx => ?_, fun x hx => ?_, rfl, fun y => ?_⟩
    · simp [changesOnly, timersStep]
    · exact (Intercom.baseStep_vox _ x).trans (by rw [hx]; rfl)
    · exact (Intercom.baseStep_vox _ x).trans (Qualifier.baseStep_of_counted hx)
    · exact (Intercom.baseStep_press _ x).trans (by rw [hx]; rfl)
    · exact (Intercom.baseStep_press _ x).trans (Press.baseStep_of_counted hx)
    · cases y <;> rfl

end Sys2Proof.Machine
end

