-- ==== Sys2Proof/Proofs/Tables.lean ====
section
/-!
PROOF. The writes of the tariff table, the schedule and the extras kind table.
-/

set_option Elab.async false

namespace Sys2Proof.Machine

/-! ### The operand forms of the tables -/

theorem tariffIndex?_val (i : Fin 8) : tariffIndex? (i.val + 1) = some i := by
  rw [tariffIndex?, dif_pos (by omega)]
  rfl

theorem index12?_val (i : Fin 12) : index12? (i.val + 1) = some i := by
  rw [index12?, dif_pos (by omega)]
  rfl

theorem index12?_eq_none_iff (n : Nat) : index12? n = none ↔ n = 0 ∨ 12 < n := by
  unfold index12?
  split
  · simp; omega
  · simp; omega

theorem yesNo?_none {n : Nat} (h : 1 < n) : yesNo? n = none := by
  match n with
  | k + 2 => rfl

theorem yesNo?_code (b : Bool) : yesNo? (if b = true then 1 else 0) = some b := by cases b <;> rfl

theorem tariffMode?_none {n : Nat} (h : 1 < n) : tariffMode? n = none := by
  match n with
  | k + 2 => rfl

theorem tariffMode?_code (m : TariffMode) : tariffMode? (if m = .single then 0 else 1) = some m := by cases m <;> rfl

/-- A bit of a set byte as a number. -/
theorem bit_value (n i : Nat) : (if bit n i = true then 1 else 0) = n / 2 ^ i % 2 := by
  unfold bit
  rcases Nat.mod_two_eq_zero_or_one (n / 2 ^ i) with h | h <;> simp [h]

/-- A weekday set is the byte it was written as. -/
theorem weekdays?_bits {n : Nat} {w : Weekdays} (h : weekdays? n = some w) : w.bits = n := by
  unfold weekdays? at h
  split at h
  · obtain rfl := Option.some.inj h
    simp only [Weekdays.bits, bitsOf, bit_value]
    omega
  · cases h

theorem weekdays?_none {n : Nat} (h : 127 < n) : weekdays? n = none := if_neg (by omega)

/-! ### A calibration write (R166) -/

theorem countCalibration_retained (s : State) :
    (countCalibration s).retained = { s.retained with
      calCount := min 65535 (s.retained.calCount + 1), calStamp := s.clock.count } := rfl

@[simp] theorem countCalibration_fare (s : State) : (countCalibration s).fare = s.fare := rfl

/-! ### TARIFF_WRITE (R17) -/

theorem definedTariff?_stored {f : TariffFields} {d : Tariff} (hname : textWithin 12 f.name = true) (hd : d.inRange)
    (h : d = ⟨true, f.name, f.flagFall, f.stepAmount, f.distanceStep, f.timeStep, f.includedDistance, d.mode,
      d.sharePermitted, d.manualSelectable⟩)
    (hmode : f.mode = if d.mode = .single then 0 else 1)
    (hshare : f.sharePermitted = if d.sharePermitted = true then 1 else 0)
    (hmanual : f.manualSelectable = if d.manualSelectable = true then 1 else 0) : definedTariff? f = some d := by
  unfold definedTariff?
  rw [hmode, hshare, hmanual, tariffMode?_code, yesNo?_code, yesNo?_code]
  rw [h] at hd
  exact (if_pos ⟨hname, hd⟩).trans (congrArg some h.symm)

theorem definedTariff?_refused {f : TariffFields}
    (h : textWithin 12 f.name = false ∨ 99999 < f.flagFall ∨ f.stepAmount = 0 ∨ 9999 < f.stepAmount
      ∨ f.distanceStep = 0 ∨ 9999 < f.distanceStep ∨ f.timeStep = 0 ∨ 3600 < f.timeStep ∨ 65535 < f.includedDistance
      ∨ 1 < f.mode ∨ 1 < f.sharePermitted ∨ 1 < f.manualSelectable) : definedTariff? f = none := by
  unfold definedTariff?
  split
  · next mode share manual hmode hshare hmanual =>
    have hm : ¬1 < f.mode := fun hlt => by rw [tariffMode?_none hlt] at hmode; cases hmode
    have hs : ¬1 < f.sharePermitted := fun hlt => by rw [yesNo?_none hlt] at hshare; cases hshare
    have hl : ¬1 < f.manualSelectable := fun hlt => by rw [yesNo?_none hlt] at hmanual; cases hmanual
    refine if_neg ?_
    rintro ⟨hname, hrest⟩
    rw [hname] at h
    simp only [Bool.true_eq_false, false_or] at h
    omega
  · rfl

theorem takeTariffWrite_stored {s : State} (ho : calibrationOpen s = true) {f : TariffFields} {d : Tariff}
    (h : writtenTariff? f = some d) (i : Fin 8) :
    takeTariffWrite (i.val + 1) f s = (resign (countCalibration (storeTariff i d s)), .ok (tariffReply d)) := by
  rw [takeTariffWrite, if_neg (by simp [ho]), tariffIndex?_val, h]

theorem takeTariffWrite_refused {s : State} (ho : calibrationOpen s = true) {n : Nat} {f : TariffFields}
    (h : tariffIndex? n = none ∨ writtenTariff? f = none) : takeTariffWrite n f s = refuse .badValue s := by
  rw [takeTariffWrite, if_neg (by simp [ho])]
  rcases h with h | h
  · rw [h]
  · rw [h]
    cases tariffIndex? n <;> rfl

theorem writtenTariff?_undefined {f : TariffFields} (h : f.isDefined = 0) : writtenTariff? f = some Tariff.blank := by
  rw [writtenTariff?, h]
  rfl

theorem writtenTariff?_defined {f : TariffFields} (h : f.isDefined = 1) : writtenTariff? f = definedTariff? f := by
  rw [writtenTariff?, h]
  rfl

/-! ### SCHEDULE_WRITE (R30) -/

/-- The entry that a write stores, as its values say. -/
theorem storedEntry_eq {days : Nat} {w : Weekdays} (h : weekdays? days = some w) (minute tariff : Nat) :
    storedEntry ⟨w, minute, tariff⟩
      = if days = 0 ∨ tariff = 0 then ScheduleEntry.unused else ⟨w, minute, tariff⟩ := by
  simp only [storedEntry, ScheduleEntry.used, weekdays?_bits h]
  by_cases hd : days = 0 ∨ tariff = 0
  · rw [if_pos hd, if_neg (by simp; omega)]
  · rw [if_neg hd, if_pos (by simp; omega)]

theorem takeScheduleWrite_stored {s : State} (ho : calibrationOpen s = true) {days minute tariff : Nat} {w : Weekdays}
    (h : weekdays? days = some w) (hm : minute ≤ 1439) (ht : tariff ≤ 8) (i : Fin 12) :
    takeScheduleWrite (i.val + 1) days minute tariff s
      = (countCalibration { s with fare := { s.fare with
            schedule := s.fare.schedule.set i (storedEntry ⟨w, minute, tariff⟩) } },
          .ok (entryReply (storedEntry ⟨w, minute, tariff⟩))) := by
  rw [takeScheduleWrite, if_neg (by simp [ho]), index12?_val, h]
  exact if_neg (by omega)

theorem takeScheduleWrite_refused {s : State} (ho : calibrationOpen s = true) {n days minute tariff : Nat}
    (h : n = 0 ∨ 12 < n ∨ 127 < days ∨ 1439 < minute ∨ 8 < tariff) :
    takeScheduleWrite n days minute tariff s = refuse .badValue s := by
  rw [takeScheduleWrite, if_neg (by simp [ho])]
  split
  · next i d hi hd =>
    have hn : ¬(n = 0 ∨ 12 < n) := fun hn => by rw [(index12?_eq_none_iff n).mpr hn] at hi; cases hi
    have hdays : ¬127 < days := fun hlt => by rw [weekdays?_none hlt] at hd; cases hd
    exact if_pos (by omega)
  · rfl

/-! ### EXTRA_KIND_WRITE (R35) -/

theorem writtenKind?_stored {isDefined amount limit : Nat} {name : Text} {d : ExtraKind}
    (h : isDefined = 0 ∧ d = ⟨false, [], 0, 1⟩
      ∨ isDefined = 1 ∧ textWithin 12 name = true ∧ amount ≤ 99999 ∧ 1 ≤ limit ∧ limit ≤ 8
        ∧ d = ⟨true, name, amount, limit⟩) : writtenKind? isDefined name amount limit = some d := by
  rcases h with ⟨rfl, rfl⟩ | ⟨rfl, hname, hamount, hlow, hhigh, rfl⟩
  · rfl
  · exact if_pos ⟨hname, hamount, hlow, hhigh⟩

/-- A kind as its reply shows it. -/
theorem kindReply_stored {isDefined amount limit : Nat} {name : Text} {d : ExtraKind}
    (h : isDefined = 0 ∧ d = ⟨false, [], 0, 1⟩
      ∨ isDefined = 1 ∧ textWithin 12 name = true ∧ amount ≤ 99999 ∧ 1 ≤ limit ∧ limit ≤ 8
        ∧ d = ⟨true, name, amount, limit⟩) :
    kindReply d = [.u8 isDefined, .u8 d.name.length, .raw d.name, .u32 d.amount, .u8 d.limit] := by
  rcases h with ⟨rfl, rfl⟩ | ⟨rfl, _, _, _, _, rfl⟩ <;> rfl

theorem writtenKind?_refused {isDefined amount limit : Nat} {name : Text}
    (h : 1 < isDefined
      ∨ isDefined = 1 ∧ (textWithin 12 name = false ∨ 99999 < amount ∨ limit = 0 ∨ 8 < limit)) :
    writtenKind? isDefined name amount limit = none := by
  rcases h with h | ⟨rfl, h⟩
  · rw [writtenKind?, yesNo?_none h]
  · refine if_neg ?_
    rintro ⟨hname, hrest⟩
    rw [hname] at h
    simp only [Bool.true_eq_false, false_or] at h
    omega

theorem takeExtraKindWrite_stored {s : State} (ho : calibrationOpen s = true) {isDefined amount limit : Nat}
    {name : Text} {d : ExtraKind} (h : writtenKind? isDefined name amount limit = some d) (i : Fin 12) :
    takeExtraKindWrite (i.val + 1) isDefined name amount limit s
      = (countCalibration { s with fare := { s.fare with kinds := s.fare.kinds.set i d } }, .ok (kindReply d)) := by
  rw [takeExtraKindWrite, if_neg (by simp [ho]), index12?_val, h]

theorem takeExtraKindWrite_refused {s : State} (ho : calibrationOpen s = true) {n isDefined amount limit : Nat}
    {name : Text} (h : index12? n = none ∨ writtenKind? isDefined name amount limit = none) :
    takeExtraKindWrite n isDefined name amount limit s = refuse .badValue s := by
  rw [takeExtraKindWrite, if_neg (by simp [ho])]
  rcases h with h | h
  · rw [h]
  · rw [h]
    cases index12? n <;> rfl

/-- Settles O22. -/
theorem tableWritesStoreTheirEntry : Obligations.TableWritesStoreTheirEntry := by
  intro s hready ho
  refine ⟨fun i f d hd => ?_, fun n f h => ?_, fun i days minute tariff w hw hm ht => ?_, fun n days minute tariff h => ?_,
    fun i isDefined name amount limit d h => ?_, fun n isDefined name amount limit h => ?_⟩
  · have hwritten : writtenTariff? f = some d := by
      rcases hd with ⟨h0, rfl⟩ | ⟨h1, hname, hrange, hdef, hn, hflag, hstep, hdist, htime, hincl, hmode, hshare, hmanual⟩
      · exact writtenTariff?_undefined h0
      · rw [writtenTariff?_defined h1]
        refine definedTariff?_stored hname hrange ?_ hmode hshare hmanual
        rw [← hdef, ← hn, ← hflag, ← hstep, ← hdist, ← htime, ← hincl]
    refine ⟨_, exec_taken hready rfl (takeTariffWrite_stored ho hwritten i), ?_, by simp [answered, storeTariff],
      by simp [answered, storeTariff, countCalibration_retained], rfl⟩
    exact (((withFare_acts s _).seq (countCalibration_acts _)).seq (resign_acts _)).answered _ _ (by simp) (by simp)
  · refine exec_refused hready rfl (takeTariffWrite_refused ho ?_)
    rcases h with h | h | h | ⟨h1, h⟩
    · exact .inl ((tariffIndex?_eq_none_iff n).mpr (.inl h))
    · exact .inl ((tariffIndex?_eq_none_iff n).mpr (.inr h))
    · exact .inr (by rw [writtenTariff?, yesNo?_none h])
    · exact .inr (by rw [writtenTariff?_defined h1, definedTariff?_refused h])
  · refine ⟨_, exec_taken hready rfl (takeScheduleWrite_stored ho hw hm ht i), ?_, ⟨?_, ?_⟩, rfl⟩
    · exact ((withFare_acts s _).seq (countCalibration_acts _)).answered _ _ (by simp) (by simp)
    · rw [← storedEntry_eq hw]
      rfl
    · rw [← storedEntry_eq hw]
      rfl
  · exact exec_refused hready rfl (takeScheduleWrite_refused ho h)
  · refine ⟨_, exec_taken hready rfl (takeExtraKindWrite_stored ho (writtenKind?_stored h) i), ?_, rfl, rfl, ?_⟩
    · exact ((withFare_acts s _).seq (countCalibration_acts _)).answered _ _ (by simp) (by simp)
    · rw [kindReply_stored h]
      rfl
  · refine exec_refused hready rfl (takeExtraKindWrite_refused ho ?_)
    rcases h with h | h | h
    · exact .inl ((index12?_eq_none_iff n).mpr (.inl h))
    · exact .inl ((index12?_eq_none_iff n).mpr (.inr h))
    · exact .inr (writtenKind?_refused h)

end Sys2Proof.Machine
end

