-- ==== Sys2Proof/Proofs/LegRequests.lean ====
section
/-!
PROOF. The requests on one leg: stop, resume, void, tariff and extras, and a change of tariff on a leg.
-/

set_option Elab.async false

namespace Sys2Proof.Machine

/-! ### Slot numbers -/

@[simp] theorem slot?_number (i : Slot) : slot? i.number = some i := by cases i <;> rfl

theorem slot?_none {n : Nat} (h : n = 0 ∨ 4 < n) : slot? n = none := by
  match n with
  | 0 => rfl
  | 1 | 2 | 3 | 4 => omega
  | k + 5 => rfl

theorem replyIs_of_eq {a a' : Answer} (h : a' = a) (k : ReqKind) (s : State) : replyIs k a (answered k a' s) := by
  rw [h]
  exact replyIs_answered k a s

/-! ### A change of tariff on a leg (R26 to R28, R49) -/

theorem openSegment_eq (n : Nat) {gs : List Segment} (h : gs.length ≤ 4) :
    openSegment n gs = if gs.length < 4 then gs ++ [⟨n, 0, 0, 0⟩]
      else gs.take 3 ++ (gs.drop 3).map (fun g => { g with tariff := 0 }) := by
  unfold openSegment
  split
  · rfl
  · match gs with
    | [_, _, _, _] => rfl
    | [] | [_] | [_, _] | [_, _, _] => simp at *
    | _ :: _ :: _ :: _ :: _ :: _ => simp only [List.length_cons] at h; omega

theorem changeBarred_iff (l : Leg) (t : Tariff) (n : Nat) :
    changeBarred l t n = true
      ↔ ¬(n ≠ l.tariff ∧ t.isDefined = true ∧ (l.share = true → t.sharePermitted = true)) := by
  unfold changeBarred
  cases t.isDefined <;> cases t.sharePermitted <;> cases l.share <;> simp

theorem Leg.moved_eq {l : Leg} (h : l.segments.length ≤ 4) (s : State) (n : Nat) :
    l.moved s n = if changeBarred l (s.fare.tariff n) n = true then l
      else l.changeTariff (s.fare.tariff l.tariff) (s.fare.tariff n) n := by
  simp only [Leg.moved, changeBarred_iff, Leg.changeTariff, openSegment_eq n h, ite_not]

theorem changeTariff_barred {i : Slot} {n : Nat} {s : State} (h : changeBarred (s.leg i) (s.fare.tariff n) n = true) :
    changeTariff i n s = s := if_pos h

theorem changeTariff_leg_same {i : Slot} {s : State} (h : (s.leg i).segments.length ≤ 4) (n : Nat) :
    (changeTariff i n s).leg i = (s.leg i).moved s n := by
  rw [Leg.moved_eq h]
  by_cases hb : changeBarred (s.leg i) (s.fare.tariff n) n = true
  · rw [changeTariff_barred hb, if_pos hb]
  · have happlied : s.fare.changeTariff i n =
        { s.fare with
          legs := s.fare.legs.set
            ((s.leg i).changeTariff (s.fare.tariff (s.leg i).tariff) (s.fare.tariff n) n) i } := if_neg hb
    rw [if_neg hb, State.leg, changeTariff_fare, happlied]
    exact PerSlot.get_set_same _ _ _

theorem changeTariff_leg_other {i j : Slot} (h : j ≠ i) (n : Nat) (s : State) :
    (changeTariff i n s).leg j = s.leg j := by
  simp only [State.leg, changeTariff_fare, FareEngine.changeTariff]
  split
  · rfl
  · exact PerSlot.get_set_other _ _ h

theorem changeTariff_tables (i : Slot) (n : Nat) (s : State) :
    tablesKept s (changeTariff i n s) ∧ (changeTariff i n s).fare.seatMap = s.fare.seatMap := by
  simp only [tablesKept, changeTariff_fare, FareEngine.changeTariff]
  split <;> exact ⟨⟨rfl, rfl, rfl⟩, rfl⟩

theorem setLeg_otherLegsKept (i : Slot) (l : Leg) (s : State) : otherLegsKept i s (s.setLeg i l) :=
  fun _ hj => setLeg_leg_other s l hj

/-- A leg set anew and then moved: what a FIXED or a resumed leg goes through. -/
theorem changeTariff_setLeg {i : Slot} {l : Leg} {s t : State} (hfare : t.fare = (s.setLeg i l).fare)
    (hl : l.segments.length ≤ 4) (n : Nat) :
    (changeTariff i n t).leg i = l.moved s n ∧ otherLegsKept i s (changeTariff i n t)
      ∧ tablesKept s (changeTariff i n t) ∧ (changeTariff i n t).fare.seatMap = s.fare.seatMap := by
  have hleg (j : Slot) : t.leg j = (s.setLeg i l).leg j := by rw [State.leg, hfare]; rfl
  have hsame : t.leg i = l := (hleg i).trans (setLeg_leg_same s i l)
  obtain ⟨⟨h1, h2, h3⟩, h4⟩ := changeTariff_tables i n t
  rw [hfare] at h1 h2 h3 h4
  refine ⟨?_, fun j hj => ?_, ⟨h1, h2, h3⟩, h4⟩
  · rw [changeTariff_leg_same (by rw [hsame]; exact hl), hsame]
    simp only [Leg.moved, FareEngine.tariff, hfare]
    rfl
  · rw [changeTariff_leg_other hj, hleg, setLeg_leg_other s l hj]

/-! ### LEG_STOP (R44) -/

theorem takeLegStop_slot (i : Slot) (s : State) :
    takeLegStop i.number s
      = if (s.leg i).state = .paying then refuse .legLocked s
        else if (s.leg i).state = .hired then
          (raiseLegState i (s.setLeg i { s.leg i with state := .stopping }), .ok [.u8 2])
        else refuse .wrongState s := by
  simp only [takeLegStop, slot?_number]
  cases (s.leg i).state <;> rfl

/-- Settles O30. -/
theorem legStopBeginsAStop : Obligations.LegStopBeginsAStop := by
  intro s n hready
  refine ⟨fun h => exec_refused hready rfl (by rw [takeLegStop, slot?_none h]), ?_⟩
  rintro i rfl
  refine ⟨fun h => ?_, fun h h' => ?_, fun h => ?_⟩
  · exact exec_refused hready rfl (by rw [takeLegStop_slot, if_pos h])
  · exact exec_refused hready rfl (by rw [takeLegStop_slot, if_neg h, if_neg h'])
  · exact exec_taken hready rfl (by rw [takeLegStop_slot, if_neg (by simp [h]), if_pos h]; rfl)

/-! ### LEG_RESUME (R46, R33) -/

theorem takeLegResume_locked {i : Slot} {s : State} (h : (s.leg i).state = .paying) :
    takeLegResume i.number s = refuse .legLocked s := by
  simp only [takeLegResume, slot?_number, h]

theorem takeLegResume_wrong {i : Slot} {s : State} (h : (s.leg i).state = .free ∨ (s.leg i).state = .hired) :
    takeLegResume i.number s = refuse .wrongState s := by
  rcases h with h | h <;> simp only [takeLegResume, slot?_number, h]

theorem takeLegResume_stopping {i : Slot} {s : State} (h : (s.leg i).state = .stopping) :
    takeLegResume i.number s = resumed i (raiseLegState i (s.setLeg i { s.leg i with state := .hired })) := by
  simp only [takeLegResume, slot?_number, h]

/-- The state in which a resumed leg is brought up to the schedule. -/
def resumesLeg (i : Slot) (s : State) : State :=
  raiseLegState i (s.setLeg i { s.leg i with state := .hired, stopTime := none })

theorem takeLegResume_stopped {i : Slot} {s : State} (h : (s.leg i).state = .stopped) :
    takeLegResume i.number s = resumed i (catchUp i (resumesLeg i s)) := by
  simp only [takeLegResume, slot?_number, h]
  rfl

theorem scheduled_valid {s : State} (h : s.clock.valid = true) (count : Nat) :
    scheduled s count = s.fare.entryInForce count := if_pos h

theorem scheduled_none {s : State} {count : Nat} (h : s.clock.valid = false ∨ s.fare.entryInForce count = none) :
    scheduled s count = none := by
  unfold scheduled
  rcases h with h | h <;> simp [h]

theorem catchUp_scheduled {i : Slot} {s : State} {x : Numbered} (h : (s.leg i).selection = .scheduled)
    (hx : scheduled s s.clock.count = some x) : catchUp i s = changeTariff i x.entry.tariff s := by
  rw [catchUp, if_pos h, hx]

theorem catchUp_kept {i : Slot} {s : State}
    (h : (s.leg i).selection = .fixed ∨ scheduled s s.clock.count = none) : catchUp i s = s := by
  unfold catchUp
  split
  · next hsel =>
    rcases h with h | h
    · rw [hsel] at h; cases h
    · rw [h]
  · rfl

theorem resumesLeg_leg (i : Slot) (s : State) :
    (resumesLeg i s).leg i = { s.leg i with state := .hired, stopTime := none } := setLeg_leg_same s i _

/-- The entry in force is that of the state before. -/
theorem resumesLeg_scheduled (i : Slot) (s : State) :
    scheduled (resumesLeg i s) (resumesLeg i s).clock.count = scheduled s s.clock.count := rfl

/-- What the resumed leg comes to, and what stays. -/
theorem catchUp_resumed {i : Slot} {s : State} (hseg : (s.leg i).segments.length ≤ 4) :
    let l := { s.leg i with state := .hired, stopTime := none }
    let t := catchUp i (resumesLeg i s)
    otherLegsKept i s t ∧ tablesKept s t ∧ t.fare.seatMap = s.fare.seatMap
      ∧ (∀ x, l.selection = .scheduled → s.clock.valid = true → s.fare.entryInForce s.clock.count = some x →
          t.leg i = l.moved s x.entry.tariff)
      ∧ ((l.selection = .fixed ∨ s.clock.valid = false ∨ s.fare.entryInForce s.clock.count = none) → t.leg i = l) := by
  dsimp only
  have hfare : (resumesLeg i s).fare = (s.setLeg i { s.leg i with state := .hired, stopTime := none }).fare := rfl
  have hset := fun n => changeTariff_setLeg hfare hseg n
  have hkept : otherLegsKept i s (resumesLeg i s) := setLeg_otherLegsKept i _ s
  cases hx : scheduled s s.clock.count with
  | none =>
    rw [catchUp_kept (.inr ((resumesLeg_scheduled i s).trans hx))]
    refine ⟨hkept, ⟨rfl, rfl, rfl⟩, rfl, fun x _ hvalid he => ?_, fun _ => resumesLeg_leg i s⟩
    rw [scheduled_valid hvalid, he] at hx
    cases hx
  | some x =>
    by_cases hsel : (s.leg i).selection = .scheduled
    · rw [catchUp_scheduled ((congrArg Leg.selection (resumesLeg_leg i s)).trans hsel)
        ((resumesLeg_scheduled i s).trans hx)]
      obtain ⟨hleg, hother, htables, hmap⟩ := hset x.entry.tariff
      refine ⟨hother, htables, hmap, fun y _ hvalid hy => ?_, fun h => ?_⟩
      · rw [scheduled_valid hvalid, hy] at hx
        obtain rfl := Option.some.inj hx
        exact hleg
      · rcases h with h | h
        · rw [hsel] at h
          cases h
        · rw [scheduled_none h] at hx
          cases hx
    · have hfixed : (s.leg i).selection = .fixed := by
        cases h : (s.leg i).selection with
        | scheduled => exact absurd h hsel
        | fixed => rfl
      rw [catchUp_kept (.inl ((congrArg Leg.selection (resumesLeg_leg i s)).trans hfixed))]
      exact ⟨hkept, ⟨rfl, rfl, rfl⟩, rfl, fun _ h => absurd h hsel, fun _ => resumesLeg_leg i s⟩

theorem changeTariff_state (i : Slot) (n : Nat) (s : State) : ((changeTariff i n s).leg i).state = (s.leg i).state := by
  simp only [State.leg, changeTariff_fare, FareEngine.changeTariff]
  split
  · rfl
  · simp [Leg.changeTariff]

/-- Settles O31. -/
theorem legResumeRestartsTheMeter : Obligations.LegResumeRestartsTheMeter := by
  intro s i hready
  refine ⟨fun n h => exec_refused hready rfl (by rw [takeLegResume, slot?_none h]),
    fun h => exec_refused hready rfl (takeLegResume_locked h), fun h => exec_refused hready rfl (takeLegResume_wrong h),
    fun h => ?_, fun h l hl hseg => ?_⟩
  · refine exec_taken hready rfl ((takeLegResume_stopping h).trans ?_)
    simp [resumed, raiseLegState, State.leg, State.setLeg]
    rfl
  · subst hl
    obtain ⟨hother, htables, hmap, hmoved, hsame⟩ := catchUp_resumed (i := i) hseg
    refine ⟨_, exec_taken hready rfl (takeLegResume_stopped h), ?_, hother, htables, hmap, hmoved, hsame, rfl⟩
    exact (((setLeg_acts s i _).seq (raiseLegState_acts i _)).seq (catchUp_acts i _)).answered _ _ (by simp) (by simp)

/-! ### LEG_VOID (R47, R81) -/

theorem takeLegVoid_locked {i : Slot} {s : State} (h : (s.leg i).state = .paying) :
    takeLegVoid i.number s = refuse .legLocked s := by
  simp only [takeLegVoid, slot?_number, h]

theorem takeLegVoid_wrong {i : Slot} {s : State} (h : (s.leg i).state = .free ∨ (s.leg i).state = .stopping) :
    takeLegVoid i.number s = refuse .wrongState s := by
  rcases h with h | h <;> simp only [takeLegVoid, slot?_number, h]

theorem takeLegVoid_standing {i : Slot} {s : State} (h : (s.leg i).state = .hired ∨ (s.leg i).state = .stopped) :
    takeLegVoid i.number s
      = if (s.leg i).voidable = true then (voidsLeg i s, .ok [.u32 s.journal.next]) else refuse .wrongState s := by
  rcases h with h | h <;> simp only [takeLegVoid, slot?_number, h]

theorem voidable_iff (l : Leg) : l.voidable = true ↔ l.fare = l.flagFall ∧ l.extras = [] := by
  simp [Leg.voidable]

theorem voidsLeg_shifts (i : Slot) (s : State) : (voidsLeg i s).shifts = (addTotals Totals.addVoid s).shifts := by
  rw [voidsLeg]
  simp only [resign_rest, raiseLegState_rest]
  exact addTotals_shifts_congr (by simp) _

/-- A void leaves the leg blank, its seats free, and the rest of the fare engine as it was. -/
theorem voidsLeg_legs (i : Slot) (s : State) :
    (voidsLeg i s).leg i = Leg.blank ∧ otherLegsKept i s (voidsLeg i s) ∧ tablesKept s (voidsLeg i s)
      ∧ ∀ x, (voidsLeg i s).fare.seatMap.get x
          = if s.fare.seatMap.get x = some i then none else s.fare.seatMap.get x := by
  simp only [otherLegsKept, tablesKept, State.leg, voidsLeg_fare]
  exact ⟨(freeLeg_get _ i i).trans (if_pos rfl), fun j hj => (freeLeg_get _ i j).trans (if_neg hj), ⟨rfl, rfl, rfl⟩,
    fun x => freeSeats_get i _ x⟩

/-- Settles O32. -/
theorem legVoidWritesARecordAndFreesTheLeg : Obligations.LegVoidWritesARecordAndFreesTheLeg := by
  intro s i hready
  refine ⟨fun n h => exec_refused hready rfl (by rw [takeLegVoid, slot?_none h]),
    fun h => exec_refused hready rfl (takeLegVoid_locked h), fun h => exec_refused hready rfl (takeLegVoid_wrong h),
    fun h => ⟨fun hused => ?_, fun hfare hextras => ?_⟩⟩
  · refine exec_refused hready rfl ((takeLegVoid_standing h).trans (if_neg ?_))
    rw [voidable_iff]
    exact fun ⟨hf, he⟩ => hused.elim (fun hne => hne hf) (fun hne => hne he)
  · have hrule := (takeLegVoid_standing h).trans (if_pos ((voidable_iff _).mpr ⟨hfare, hextras⟩))
    obtain ⟨hblank, hother, htables, hseats⟩ := voidsLeg_legs i s
    refine ⟨_, exec_taken hready rfl hrule, (voidsLeg_acts i s).answered _ _ (by simp) (by simp), by simpa using hblank,
      by simpa using hother, by simpa using htables, by simpa using hseats, ?_, fun _ => ?_, ?_, fun ho => ?_, rfl⟩
    · exact congrArg Journal.next (voidsLeg_journal i s)
    · exact congrArg Journal.ring (voidsLeg_journal i s)
    · exact (congrArg ShiftAccounts.reports (voidsLeg_shifts i s)).trans (addTotals_reports _ s)
    · exact (congrArg ShiftAccounts.record (voidsLeg_shifts i s)).trans
        (congrArg ShiftAccounts.record (addTotals_open ho _))

/-! ### LEG_TARIFF (R48) -/

theorem takeLegTariff_outside {n m : Nat} (h : n = 0 ∨ 4 < n ∨ m = 0 ∨ 8 < m) (s : State) :
    takeLegTariff n m s = refuse .badValue s := by
  rw [takeLegTariff]
  split
  · next i k hi hk =>
    have hn : ¬(n = 0 ∨ 4 < n) := fun hn => by rw [slot?_none hn] at hi; cases hi
    have hm : ¬(m = 0 ∨ 8 < m) := fun hm => by rw [(tariffIndex?_eq_none_iff m).mpr hm] at hk; cases hk
    omega
  · rfl

theorem takeLegTariff_slot {k : Nat} (hlow : 1 ≤ k) (hhigh : k ≤ 8) (i : Slot) (s : State) :
    takeLegTariff i.number k s
      = if (s.leg i).state = .paying then refuse .legLocked s
        else if (s.leg i).state = .hired then
          if (s.fare.tariff k).isDefined = false ∨ (s.fare.tariff k).manualSelectable = false then refuse .badValue s
          else if (s.leg i).share = true ∧ (s.fare.tariff k).sharePermitted = false then refuse .wrongState s
          else (fixesTariff i k s, .ok [.u8 ((fixesTariff i k s).leg i).tariff,
            .u8 ((fixesTariff i k s).leg i).selection.ctorIdx, .i32 ((fixesTariff i k s).leg i).q])
        else refuse .wrongState s := by
  obtain ⟨x, hx⟩ := exists_tariffIndex? hlow hhigh
  simp only [takeLegTariff, slot?_number, hx, FareEngine.tariff_of_index hx]
  cases (s.leg i).state with
  | hired => simp
  | free | stopping | stopped | paying => rfl

theorem moved_tariff {l : Leg} {s : State} {k : Nat} (hdef : (s.fare.tariff k).isDefined = true)
    (hshare : l.share = true → (s.fare.tariff k).sharePermitted = true) :
    (l.moved s k).tariff = k ∧ (l.moved s k).selection = l.selection := by
  unfold Leg.moved
  split
  · exact ⟨rfl, rfl⟩
  · next h =>
    have hk : ¬k ≠ l.tariff := fun hne => h ⟨hne, hdef, hshare⟩
    exact ⟨(not_not.mp hk).symm, rfl⟩

theorem fixesTariff_same {i : Slot} {k : Nat} {s : State} (h : k = (s.leg i).tariff) :
    fixesTariff i k s = s.setLeg i { s.leg i with selection := .fixed } :=
  changeTariff_barred (by simp [changeBarred, h])

/-- Settles O33. -/
theorem legTariffFixesTheSelection : Obligations.LegTariffFixesTheSelection := by
  intro s hready
  refine ⟨fun n m h => exec_refused hready rfl (takeLegTariff_outside h s), fun i k hlow hhigh => ?_⟩
  have hrule := takeLegTariff_slot hlow hhigh i s
  refine ⟨fun h => exec_refused hready rfl (hrule.trans (if_pos h)), fun h h' => ?_, fun h => ?_⟩
  · exact exec_refused hready rfl (by rw [hrule, if_neg h, if_neg h'])
  · rw [if_neg (by simp [h]), if_pos h] at hrule
    refine ⟨fun hbad => exec_refused hready rfl (hrule.trans (if_pos hbad)), fun hdef hman => ?_⟩
    rw [if_neg (by simp [hdef, hman])] at hrule
    refine ⟨fun hshare => exec_refused hready rfl (hrule.trans (if_pos hshare)), fun hshare hseg => ?_⟩
    rw [if_neg (by simpa using hshare)] at hrule
    obtain ⟨hleg, hother, htables, hmap⟩ :=
      changeTariff_setLeg (i := i) (l := { s.leg i with selection := .fixed }) (s := s) rfl hseg k
    obtain ⟨htariff, hsel⟩ := moved_tariff (l := { s.leg i with selection := .fixed }) hdef hshare
    rw [← hleg] at htariff hsel
    refine ⟨_, exec_taken hready rfl hrule, (fixesTariff_acts i k s).answered _ _ (by simp) (by simp), hother, htables,
      hmap, hleg, htariff, fun hk => ?_, ?_⟩
    · rw [fixesTariff_same hk]
      exact ⟨rfl, rfl⟩
    · refine replyIs_of_eq (congrArg (Answer.mk ReplyCode.ok) ?_) _ _
      rw [show (fixesTariff i k s).leg i = _ from rfl, show ((fixesTariff i k s).leg i).tariff = k from htariff,
        show ((fixesTariff i k s).leg i).selection = .fixed from hsel]
      rfl

end Sys2Proof.Machine
end

