-- ==== Sys2Proof/Proofs/Extras.lean ====
section
/-!
PROOF. The requests on the extras of a leg, and the business settings.
-/

set_option Elab.async false

namespace Sys2Proof.Machine

/-! ### LEG_EXTRA_ADD (R50) -/

theorem askedAmount?_eq (k : ExtraKind) (a : Nat) :
    askedAmount? k a
      = if k.isDefined = false ∨ k.amount = 0 ∧ (a = 0 ∨ 99999 < a) then none
        else some (if k.amount = 0 then a else k.amount) := by
  unfold askedAmount?
  cases k.isDefined with
  | false => simp
  | true =>
    by_cases hk : k.amount = 0
    · by_cases ha : 1 ≤ a ∧ a ≤ 99999
      · have hin : ¬(a = 0 ∨ 99999 < a) := by omega
        simp [hk, ha, hin]
      · have hout : a = 0 ∨ 99999 < a := by omega
        simp [hk, ha, hout]
    · simp [hk]

theorem listFull_iff (l : Leg) (kind limit : Nat) :
    l.listFull kind limit = true
      ↔ 8 ≤ l.extras.length ∨ limit ≤ (l.extras.filter (fun e => e.kind = kind)).length := by
  simp [Leg.listFull, Bool.beq_eq_decide_eq]

theorem takeLegExtraAdd_outside {n k : Nat} (h : (n = 0 ∨ 4 < n) ∨ k = 0 ∨ 12 < k) (a : Nat) (s : State) :
    takeLegExtraAdd n k a s = refuse .badValue s := by
  rw [takeLegExtraAdd]
  split
  · next i x hi hx =>
    rcases h with h | h
    · rw [slot?_none h] at hi; cases hi
    · rw [(index12?_eq_none_iff k).mpr h] at hx; cases hx
  · rfl

theorem takeLegExtraAdd_slot (i : Slot) (x : Fin 12) (a : Nat) (s : State) :
    takeLegExtraAdd i.number (x.val + 1) a s
      = if (s.leg i).state = .paying then refuse .legLocked s
        else if (s.leg i).state = .free then refuse .wrongState s
        else addExtra i s.fare.kinds[x] (x.val + 1) a s := by
  simp only [takeLegExtraAdd, slot?_number, index12?_val]
  cases (s.leg i).state <;> rfl

/-- What LEG_EXTRA_ADD makes of an active leg, test by test. -/
theorem addExtra_eq (i : Slot) (d : ExtraKind) (k a : Nat) (s : State) :
    addExtra i d k a s
      = if d.isDefined = false ∨ d.amount = 0 ∧ (a = 0 ∨ 99999 < a) then refuse .badValue s
        else if 8 ≤ (s.leg i).extras.length ∨ d.limit ≤ ((s.leg i).extras.filter (fun e => e.kind = k)).length
            ∨ 999999 ≤ (s.leg i).extrasTotal then refuse .wrongState s
        else
          let asked := if d.amount = 0 then a else d.amount
          let used := min asked (999999 - (s.leg i).extrasTotal)
          (raiseFareStep (s.setLeg i ((s.leg i).addExtra k used)),
            ⟨if used = asked then .ok else .adjusted,
              [.u32 used, .u8 ((s.leg i).extras.length + 1), .u32 ((s.leg i).extrasTotal + used)]⟩) := by
  unfold addExtra
  rw [askedAmount?_eq]
  by_cases hbad : d.isDefined = false ∨ d.amount = 0 ∧ (a = 0 ∨ 99999 < a)
  · rw [if_pos hbad, if_pos hbad]
  · rw [if_neg hbad, if_neg hbad]
    generalize (if d.amount = 0 then a else d.amount) = asked
    dsimp only
    by_cases hfull : (s.leg i).listFull k d.limit = true
    · refine (if_pos hfull).trans (if_pos ?_).symm
      exact ((listFull_iff _ _ _).mp hfull).imp id .inl
    · refine (if_neg hfull).trans ?_
      rw [listFull_iff] at hfull
      by_cases htotal : 999999 ≤ (s.leg i).extrasTotal
      · exact (if_pos htotal).trans (if_pos (.inr (.inr htotal))).symm
      · refine ((if_neg htotal).trans ?_).trans (if_neg ?_).symm
        · by_cases hused : asked ≤ 999999 - (s.leg i).extrasTotal
          · simp [Answer.okOr, Leg.addExtra, extrasCeiling, hused]
          · simp [Answer.okOr, Leg.addExtra, extrasCeiling, hused]
        · tauto

/-! ### LEG_EXTRA_REMOVE (R51) -/

theorem takeLegExtraRemove_slot (i : Slot) (s : State) :
    takeLegExtraRemove i.number s
      = if (s.leg i).state = .paying then refuse .legLocked s
        else if (s.leg i).state = .free then refuse .wrongState s
        else removeExtra i s := by
  simp only [takeLegExtraRemove, slot?_number]
  cases (s.leg i).state <;> rfl

theorem removeExtra_none {i : Slot} {s : State} (h : (s.leg i).extras = []) : removeExtra i s = refuse .notFound s := by
  simp [removeExtra, h]

theorem removeExtra_last {i : Slot} {s : State} {es : List Extra} {e : Extra} (h : (s.leg i).extras = es ++ [e]) :
    removeExtra i s
      = (raiseFareStep (s.setLeg i { s.leg i with extras := es, extrasTotal := (s.leg i).extrasTotal - e.amount }),
          .ok [.u8 e.kind, .u32 e.amount, .u8 es.length, .u32 ((s.leg i).extrasTotal - e.amount)]) := by
  simp [removeExtra, h, Leg.dropExtra]

/-- Settles O34. -/
theorem extrasAreAddedAndRemovedAtTheEnd : Obligations.ExtrasAreAddedAndRemovedAtTheEnd := by
  intro s n k a hready
  refine ⟨fun h => ⟨?_, ?_⟩, fun h => ?_, ?_⟩
  · exact exec_refused hready rfl (takeLegExtraAdd_outside (.inl h) a s)
  · exact exec_refused hready rfl (by rw [takeLegExtraRemove, slot?_none h])
  · exact exec_refused hready rfl (takeLegExtraAdd_outside (.inr h) a s)
  · rintro i x rfl rfl
    have hadd := takeLegExtraAdd_slot i x a s
    have hremove := takeLegExtraRemove_slot i s
    refine ⟨fun h => ⟨exec_refused hready rfl (hadd.trans (if_pos h)), exec_refused hready rfl (hremove.trans (if_pos h))⟩,
      fun h => ?_, fun hp hf => ⟨?_, fun h => ?_, fun es e h => ?_⟩⟩
    · rw [if_neg (by simp [h]), if_pos h] at hadd hremove
      exact ⟨exec_refused hready rfl hadd, exec_refused hready rfl hremove⟩
    · rw [if_neg hp, if_neg hf, addExtra_eq] at hadd
      split
      · next hbad => exact exec_refused hready rfl (hadd.trans (if_pos hbad))
      · next hgood =>
        rw [if_neg hgood] at hadd
        split
        · next hfull => exact exec_refused hready rfl (hadd.trans (if_pos hfull))
        · next hroom => exact exec_taken hready rfl (hadd.trans (if_neg hroom))
    · rw [if_neg hp, if_neg hf, removeExtra_none h] at hremove
      exact exec_refused hready rfl hremove
    · rw [if_neg hp, if_neg hf, removeExtra_last h] at hremove
      exact exec_taken hready rfl hremove

/-! ### PAY_SETTINGS_WRITE (R61) -/

theorem currencyFits_iff (t : Text) :
    currencyFits t = true ↔ t = [] ∨ t.length = 3 ∧ ∀ b ∈ t, 65 ≤ b.toNat ∧ b.toNat ≤ 90 := by
  simp [currencyFits, capital]

theorem settingsClamped_iff (f : SettingsFields) :
    settingsClamped f (storedSettings f) = false
      ↔ f.feeBp ≤ 1000 ∧ 1 ≤ f.feeCap ∧ f.feeCap ≤ 99999 ∧ f.preset1 ≤ 50 ∧ f.preset2 ≤ 50 ∧ f.preset3 ≤ 50
        ∧ f.preset4 ≤ 50 ∧ f.ceiling ≤ 100 ∧ 100 ≤ f.limit ∧ f.limit ≤ 9999999 := by
  simp only [settingsClamped, storedSettings, clamp, Bool.or_eq_false_iff, bne_eq_false_iff_eq]
  omega

/-- Settles O35. -/
theorem paySettingsAreClampedAndStored : Obligations.PaySettingsAreClampedAndStored := by
  intro s f hready
  refine ⟨fun h => exec_refused hready rfl (if_pos h), fun h => ⟨fun hfits => ?_, fun hfits => ?_⟩⟩
  · refine exec_refused hready rfl ?_
    rw [takePaySettingsWrite, if_neg (by simp [h]), if_pos]
    rw [← currencyFits_iff] at hfits
    by_cases hc : currencyFits f.currency = true
    · have hunit : ¬f.cashUnit ∈ [1, 5, 10, 25, 50, 100] := fun hu => hfits ⟨hc, hu⟩
      simp [cashUnitAllowed, hunit]
    · simp [hc]
  · have hc : currencyFits f.currency = true := (currencyFits_iff _).mpr hfits.1
    have hu : cashUnitAllowed f.cashUnit = true := by simpa [cashUnitAllowed] using hfits.2
    have hrule : takePaySettingsWrite f s
        = ({ s with settle := { s.settle with settings := storedSettings f } },
            ⟨if settingsClamped f (storedSettings f) = true then .adjusted else .ok,
              settingsReply (storedSettings f)⟩) := by
      rw [takePaySettingsWrite, if_neg (by simp [h]), if_neg (by simp [hc, hu])]
      rfl
    have hclamp := settingsClamped_iff f
    refine ⟨storedSettings f, _, exec_taken hready rfl hrule, ?_, rfl, rfl, ?_, rfl, rfl, rfl, rfl, rfl, ?_, ?_, ?_⟩
    · simp [storedSettings]
    · simp only [storedSettings, clamp]
      omega
    · simp only [storedSettings, clamp]
      omega
    · cases settingsClamped f (storedSettings f) <;> simp
    · rw [← hclamp]
      cases settingsClamped f (storedSettings f) <;> simp

end Sys2Proof.Machine
end

