-- ==== Sys2Proof/Proofs/LegStarts.lean ====
section
/-!
PROOF. LEG_START: its tests in order, and what it fills.
-/

set_option Elab.async false

namespace Sys2Proof.Machine

/-! ### The operands -/

theorem seatSet?_some {n : Nat} (h : n ≤ 15) : ∃ set, seatSet? n = some set := ⟨_, if_pos (by omega)⟩

theorem seatSet?_none {n : Nat} (h : 15 < n) : seatSet? n = none := if_neg (by omega)

theorem seatSet?_le {n : Nat} {set : SeatSet} (h : seatSet? n = some set) : n ≤ 15 := by
  by_contra hn
  rw [seatSet?_none (by omega)] at h
  cases h

theorem tariffChoice?_none {n : Nat} (h : 8 < n) : tariffChoice? n = none := by
  rw [tariffChoice?, if_neg (by omega), (tariffIndex?_eq_none_iff n).mpr (.inr h)]
  rfl

/-- The choice that a tariff number of LEG_START stands for. -/
theorem tariffChoice?_some {n : Nat} (h : n ≤ 8) (s : State) :
    ∃ c, tariffChoice? n = some c ∧ startingTariff s c = (if n = 0 then scheduledTariff s else n)
      ∧ (namesUndefined s c = true ↔ n ≠ 0 ∧ (s.fare.tariff n).isDefined = false)
      ∧ c.selection = if n = 0 then .scheduled else .fixed := by
  by_cases hn : n = 0
  · subst hn
    exact ⟨.scheduled, rfl, rfl, by simp [namesUndefined], rfl⟩
  · obtain ⟨i, hi⟩ := exists_tariffIndex? (Nat.pos_of_ne_zero hn) h
    refine ⟨.named i, by rw [tariffChoice?, if_neg hn, hi]; rfl, ?_, ?_, by rw [if_neg hn]; rfl⟩
    · rw [if_neg hn]
      unfold tariffIndex? at hi
      split at hi
      · obtain rfl := Option.some.inj hi
        simp only [startingTariff]
        omega
      · cases hi
    · rw [FareEngine.tariff_of_index hi]
      simp [namesUndefined, hn]

theorem yesNo?_some {n : Nat} (h : n ≤ 1) : yesNo? n = some (decide (n = 1)) := by
  match n with
  | 0 | 1 => rfl
  | k + 2 => omega

/-! ### The tests -/

/-- The scheduled tariff of R33. -/
theorem scheduledTariff_inForce {s : State} {x : Numbered} (hvalid : s.clock.valid = true)
    (hx : s.fare.entryInForce s.clock.count = some x) :
    scheduledTariff s = if (s.fare.tariff x.entry.tariff).isDefined = true then x.entry.tariff else 1 := by
  rw [scheduledTariff, scheduled_valid hvalid, hx]

theorem scheduledTariff_none {s : State}
    (h : s.clock.valid = false ∨ s.fare.entryInForce s.clock.count = none) : scheduledTariff s = 1 := by
  rw [scheduledTariff, scheduled_none h]

theorem freeSlot_lowest {i : Slot} {s : State} (h : (s.leg i).state = .free)
    (hlow : ∀ j : Slot, j.number < i.number → (s.leg j).state ≠ .free) : freeSlot s = some i := by
  have hne (j : Slot) (hj : j.number < i.number) : ((s.leg j).state == .free) = false := by simpa using hlow j hj
  have heq : ((s.leg i).state == .free) = true := by simpa using h
  unfold freeSlot Slot.all
  cases i with
  | s1 => simp [heq]
  | s2 => simp [heq, hne .s1 (by decide)]
  | s3 => simp [heq, hne .s1 (by decide), hne .s2 (by decide)]
  | s4 => simp [heq, hne .s1 (by decide), hne .s2 (by decide), hne .s3 (by decide)]

theorem freeSlot_none {s : State} (h : ∀ i, (s.leg i).state ≠ .free) : freeSlot s = none := by
  simp [freeSlot, Slot.all, h]

theorem freeSlot_some {s : State} (h : ∃ i, (s.leg i).state = .free) : ∃ i, freeSlot s = some i := by
  obtain ⟨i, hi⟩ := h
  refine Option.isSome_iff_exists.mp (List.find?_isSome.mpr ⟨i, ?_, by simpa using hi⟩)
  cases i <;> decide

theorem seatTaken_iff (set : SeatSet) (s : State) :
    seatTaken set s = true ↔ ∃ x, set.get x = true ∧ s.fare.seatMap.get x ≠ none := by
  simp only [seatTaken, allSeats, List.any_eq_true, Bool.and_eq_true, Option.isSome_iff_ne_none]
  refine ⟨fun ⟨x, _, h⟩ => ⟨x, h⟩, fun ⟨x, h⟩ => ⟨x, ?_, h⟩⟩
  cases x <;> simp

theorem seatTaken_false_iff (set : SeatSet) (s : State) :
    seatTaken set s = false ↔ ∀ x, set.get x = true → s.fare.seatMap.get x = none := by
  rw [← Bool.not_eq_true, seatTaken_iff]
  simp

theorem allFree_iff (s : State) : allFree s = true ↔ ∀ j, (s.leg j).state = .free := by
  rw [allFree_eq, List.all_eq_true]
  unfold State.leg
  refine ⟨fun h j => ?_, fun h j _ => by simpa [Leg.active] using h j⟩
  have hj := h j (by cases j <;> decide)
  simpa [Leg.active] using hj

theorem anyUnshared_iff (s : State) :
    s.fare.legs.toList.any (fun l => l.active && !l.share) = true
      ↔ ∃ j, (s.leg j).state ≠ .free ∧ (s.leg j).share = false := by
  have hlist : s.fare.legs.toList = Slot.all.map s.leg := rfl
  rw [hlist, List.any_map, List.any_eq_true]
  simp only [Function.comp, Leg.active, Bool.and_eq_true, bne_iff_ne, Bool.not_eq_true']
  refine ⟨fun ⟨j, _, h⟩ => ⟨j, h⟩, fun ⟨j, h⟩ => ⟨j, ?_, h⟩⟩
  cases j <;> decide

/-- A share conflict (R41). -/
theorem shareConflict_iff {consent : Nat} (h : consent ≤ 1) (t : Tariff) (s : State) :
    shareConflict (decide (consent = 1)) t s = true
      ↔ consent = 1 ∧ (s.settle.sharing = false ∨ (∃ j, (s.leg j).state ≠ .free ∧ (s.leg j).share = false)
          ∨ t.sharePermitted = false)
        ∨ consent = 0 ∧ ∃ j, (s.leg j).state ≠ .free := by
  have hfree : allFree s = false ↔ ∃ j, (s.leg j).state ≠ .free := by
    rw [← Bool.not_eq_true, allFree_iff]
    simp
  unfold shareConflict
  match consent with
  | 0 => simp [hfree]
  | 1 =>
    simp only [decide_true, if_true, Bool.or_eq_true, Bool.not_eq_true', anyUnshared_iff, true_and, Nat.one_ne_zero,
      false_and, or_false, or_assoc]
  | k + 2 => omega

/-! ### The rule, test after test -/

theorem takeLegStart_bad {seats tariff consent : Nat} (h : 15 < seats ∨ seats = 0 ∨ 8 < tariff ∨ 1 < consent)
    (s : State) : takeLegStart seats tariff consent s = refuse .badValue s := by
  rw [takeLegStart]
  split
  · next set c share hset hc hshare =>
    have h1 : ¬15 < seats := fun hlt => by rw [seatSet?_none hlt] at hset; cases hset
    have h2 : ¬8 < tariff := fun hlt => by rw [tariffChoice?_none hlt] at hc; cases hc
    have h3 : ¬1 < consent := fun hlt => by rw [yesNo?_none hlt] at hshare; cases hshare
    exact if_pos (by omega)
  · rfl

/-- The tests of LEG_START after those of its operands. -/
theorem takeLegStart_good {seats tariff consent : Nat} {set : SeatSet} {c : TariffChoice}
    (hseats : seatSet? seats = some set) (hne : seats ≠ 0) (hc : tariffChoice? tariff = some c) (hshare : consent ≤ 1)
    (s : State) :
    takeLegStart seats tariff consent s
      = if calibrated s = false then refuse .uncalibrated s
        else if shiftOpen s = false then refuse .noShift s
        else match freeSlot s with
          | none => refuse .noSlot s
          | some i =>
            if seatTaken set s = true then refuse .seatTaken s
            else if namesUndefined s c = true then refuse .badValue s
            else if shareConflict (decide (consent = 1)) (s.fare.tariff (startingTariff s c)) s = true then
              refuse .wrongState s
            else if s.journal.room < activeLegs s + 1 then refuse .journalFull s
            else
              (startsLeg i (startedLeg (s.fare.tariff (startingTariff s c)) (startingTariff s c) c set
                  (decide (consent = 1)) s.clock.count) s,
                .ok [.u8 i.number, .u8 (startingTariff s c), .u8 c.selection.ctorIdx,
                  .u32 (s.fare.tariff (startingTariff s c)).flagFall]) := by
  rw [takeLegStart, hseats, hc, yesNo?_some hshare]
  dsimp only
  rw [if_neg hne]
  simp only [Bool.not_eq_true'] <;> rfl

/-! ### What a start leaves -/

theorem refreshLamps_shows (s : State) : s.sign.asBefore (refreshLamps s).sign := Sign.refresh_asBefore _ _

theorem derive_mode (s : State) : (derive s).sign.mode = s.sign.mode :=
  (refreshLamps_shows { s with sign := { s.sign with
    derived := derivedState s
    digit := derivedDigit s (derivedState s)
    testRunning := s.sign.testRunning && derivedState s == .offDuty } }).1

@[simp] theorem reportSign_sign (before : Sign) (s : State) : (reportSign before s).sign = s.sign :=
  (reportSign_acts before s).same .sign

theorem resignToAuto_mode (s : State) :
    (resignToAuto s).sign.mode = if s.sign.mode = .forceOnCall then .auto else s.sign.mode := by
  rw [resignToAuto, reportSign_sign, derive_mode]
  dsimp only
  split <;> rfl

theorem startsLeg_mode (i : Slot) (l : Leg) (s : State) :
    (startsLeg i l s).sign.mode = if s.sign.mode = .forceOnCall then .auto else s.sign.mode := by
  have hsign : (askTone .fareStart (raiseLegState i { s with fare := { s.fare with
      legs := s.fare.legs.set l i, seatMap := enterSeats l.seats i s.fare.seatMap } })).sign = s.sign :=
    ((raiseLegState_acts i _).seq (askTone_acts _ _)).same .sign
  rw [startsLeg, resignToAuto_mode, hsign]

/-- The leg is filled, its seats entered, the rest of the fare engine as it was. -/
theorem startsLeg_legs (i : Slot) (l : Leg) (s : State) :
    (startsLeg i l s).leg i = l ∧ otherLegsKept i s (startsLeg i l s) ∧ tablesKept s (startsLeg i l s)
      ∧ ∀ x, (startsLeg i l s).fare.seatMap.get x
          = if l.seats.get x = true then some i else s.fare.seatMap.get x := by
  simp only [otherLegsKept, tablesKept, State.leg, startsLeg_fare]
  exact ⟨(start_get _ i i l).trans (if_pos rfl), fun j hj => (start_get _ i j l).trans (if_neg hj), ⟨rfl, rfl, rfl⟩,
    fun x => enterSeats_get _ i _ x⟩

/-- Settles O29. -/
theorem legStartTakesTheLowestFreeSlot : Obligations.LegStartTakesTheLowestFreeSlot := by
  refine ⟨fun s i seats tariff consent n set hready hcal hshift hfree hlow hset hne hseats htariff hshare hroom => ?_,
    fun s => ⟨fun x hvalid hx => scheduledTariff_inForce hvalid hx, scheduledTariff_none⟩,
    fun s seats tariff consent hready => ?_⟩
  · have h8 : tariff ≤ 8 := by omega
    have h1 : consent ≤ 1 := by omega
    obtain ⟨c, hc, hn, hundef, hsel⟩ := tariffChoice?_some h8 s
    have hstart : startingTariff s c = n := by
      rw [hn]
      rcases htariff with ⟨h0, h⟩ | ⟨hlow, _, h, _⟩
      · rw [if_pos h0, h]
      · rw [if_neg (by omega), h]
    have hdef : ¬namesUndefined s c = true := by
      rw [hundef]
      rintro ⟨hne, hno⟩
      rcases htariff with ⟨h0, _⟩ | ⟨_, _, h, hyes⟩
      · exact hne h0
      · rw [h, hno] at hyes
        cases hyes
    have hconflict : ¬shareConflict (decide (consent = 1)) (s.fare.tariff n) s = true := by
      rw [shareConflict_iff h1]
      rcases hshare with ⟨h0, hall⟩ | ⟨h0, hshares, hpermit, hall⟩
      · simp [h0, hall]
      · simp only [h0, hshares, hpermit, true_and, Bool.true_eq_false, false_or, or_false, Nat.one_ne_zero, false_and]
        rintro ⟨j, hj, hno⟩
        rw [hall j hj] at hno
        cases hno
    have hrule := takeLegStart_good hset hne hc h1 s
    rw [if_neg (by simp [hcal]), if_neg (by simp [hshift]), freeSlot_lowest hfree hlow, hstart] at hrule
    dsimp only at hrule
    rw [if_neg (by rw [(seatTaken_false_iff set s).mpr hseats]; simp), if_neg hdef, if_neg hconflict,
      if_neg (by omega)] at hrule
    obtain ⟨hleg, hother, htables, hmap⟩ := startsLeg_legs i
      (startedLeg (s.fare.tariff n) n c set (decide (consent = 1)) s.clock.count) s
    refine ⟨_, exec_taken hready rfl hrule, (startsLeg_acts i _ s).answered _ _ (by simp) (by simp), hother, htables,
      ⟨?_, ?_⟩, hmap, startsLeg_mode i _ s⟩
    · rw [answered_leg, hleg, startedLeg, hsel]
    · refine replyIs_of_eq ?_ _ _
      rw [hsel]
      split <;> rfl
  · dsimp only
    refine ⟨fun h => exec_refused hready rfl (takeLegStart_bad h s), fun hgood => ?_⟩
    obtain ⟨h15, hne, h8, h1⟩ : seats ≤ 15 ∧ seats ≠ 0 ∧ tariff ≤ 8 ∧ consent ≤ 1 := by omega
    obtain ⟨c, hc, hn, hundef, -⟩ := tariffChoice?_some h8 s
    obtain ⟨set, hset⟩ := seatSet?_some h15
    have hrule := takeLegStart_good hset hne hc h1 s
    rw [hn] at hrule
    refine ⟨fun h => exec_refused hready rfl (hrule.trans (if_pos h)), fun hcal => ?_⟩
    rw [if_neg (by simp [hcal])] at hrule
    refine ⟨fun h => exec_refused hready rfl (hrule.trans (if_pos h)), fun hshift => ?_⟩
    rw [if_neg (by simp [hshift])] at hrule
    refine ⟨fun h => exec_refused hready rfl (by rw [hrule, freeSlot_none h]), fun hfree set' hset' => ?_⟩
    obtain rfl : set = set' := Option.some.inj (hset.symm.trans hset')
    obtain ⟨i, hi⟩ := freeSlot_some hfree
    rw [hi] at hrule
    refine ⟨fun h => exec_refused hready rfl (hrule.trans (if_pos ((seatTaken_iff set s).mpr h))), fun hseats => ?_⟩
    dsimp only at hrule
    rw [if_neg (by rw [(seatTaken_false_iff set s).mpr hseats]; simp)] at hrule
    refine ⟨fun h h' => exec_refused hready rfl (hrule.trans (if_pos (hundef.mpr ⟨h, h'⟩))), fun hdef => ?_⟩
    rw [if_neg (fun hu => by
      obtain ⟨ht, hno⟩ := hundef.mp hu
      rw [hdef ht] at hno
      cases hno)] at hrule
    have hconflict := shareConflict_iff h1 (s.fare.tariff (if tariff = 0 then scheduledTariff s else tariff)) s
    refine ⟨fun h => exec_refused hready rfl (hrule.trans (if_pos (hconflict.mpr h))), fun hno hroom => ?_⟩
    rw [if_neg (fun h => hno (hconflict.mp h))] at hrule
    exact exec_refused hready rfl (hrule.trans (if_pos hroom))

end Sys2Proof.Machine
end

