-- ==== Sys2Proof/Proofs/Schedules.lean ====
section
/-!
PROOF. The schedule: the entry in force, and the legs that a minute boundary moves.
-/

set_option Elab.async false

namespace Sys2Proof.Machine

/-! ### The latest start on a day -/

/-- An entry comes after another one: it starts later, or at the same minute with a higher number. -/
def Numbered.notBefore (b y : Numbered) : Prop :=
  y.entry.startMinute < b.entry.startMinute
    ∨ y.entry.startMinute = b.entry.startMinute ∧ y.number ≤ b.number

/-- The candidates taken in the order of their numbers leave the latest. -/
theorem foldl_laterStart {xs : List Numbered} (h : xs.Pairwise (fun a b => a.number < b.number)) :
    (xs.foldl laterStart none = none ↔ xs = [])
      ∧ ∀ b, xs.foldl laterStart none = some b → b ∈ xs ∧ ∀ y ∈ xs, b.notBefore y := by
  induction xs using List.reverseRecOn with
  | nil => simp
  | append_singleton xs x ih =>
    obtain ⟨hxs, -, hlast⟩ := List.pairwise_append.mp h
    obtain ⟨hnone, hsome⟩ := ih hxs
    rw [List.foldl_append, List.foldl_cons, List.foldl_nil]
    cases hfold : xs.foldl laterStart none with
    | none =>
      obtain rfl := hnone.mp hfold
      simp [laterStart, Numbered.notBefore]
    | some a =>
      obtain ⟨ha, hmax⟩ := hsome a hfold
      have hnum := hlast a ha x (by simp)
      simp only [laterStart]
      split
      · next hle =>
        refine ⟨by simp, fun b hb => ?_⟩
        obtain rfl := Option.some.inj hb
        refine ⟨by simp, fun y hy => ?_⟩
        rcases List.mem_append.mp hy with hy | hy
        · have := hmax y hy
          have := hlast y hy x (by simp)
          unfold Numbered.notBefore at *
          omega
        · obtain rfl := List.mem_singleton.mp hy
          exact .inr ⟨rfl, le_refl _⟩
      · next hlt =>
        refine ⟨by simp, fun b hb => ?_⟩
        obtain rfl := Option.some.inj hb
        refine ⟨by simp [ha], fun y hy => ?_⟩
        rcases List.mem_append.mp hy with hy | hy
        · exact hmax y hy
        · obtain rfl := List.mem_singleton.mp hy
          exact .inl (by omega)

theorem mem_entries_iff (e : FareEngine) (x : Numbered) :
    x ∈ e.entries ↔ ∃ i : Fin 12, x = ⟨i.val + 1, e.schedule[i]⟩ := by
  simp only [FareEngine.entries, List.mem_mapIdx, Vector.length_toList, Vector.getElem_toList]
  exact ⟨fun ⟨i, hi, hx⟩ => ⟨⟨i, hi⟩, hx.symm⟩, fun ⟨i, hx⟩ => ⟨i.val, i.isLt, hx.symm⟩⟩

theorem entries_sorted (e : FareEngine) : e.entries.Pairwise (fun a b => a.number < b.number) := by
  rw [FareEngine.entries, List.pairwise_iff_getElem]
  intro i j hi hj hij
  simpa using hij

/-- An entry starts on a day at a minute up to a bound. -/
def ScheduleEntry.startsOn (x : ScheduleEntry) (day bound : Nat) : Prop :=
  x.used = true ∧ x.days.holds day = true ∧ x.startMinute ≤ bound

/-- Whether an entry is a candidate for a day. -/
def candidate (day bound : Nat) (x : Numbered) : Bool :=
  x.entry.used && x.entry.days.holds day && x.entry.startMinute ≤ bound

theorem candidate_iff (day bound : Nat) (x : Numbered) :
    candidate day bound x = true ↔ x.entry.startsOn day bound := by
  simp [candidate, ScheduleEntry.startsOn, and_assoc]

theorem latestOn_eq (e : FareEngine) (day bound : Nat) :
    latestOn e.entries day bound = (e.entries.filter (candidate day bound)).foldl laterStart none := rfl

theorem candidates_sorted (e : FareEngine) (day bound : Nat) :
    (e.entries.filter (candidate day bound)).Pairwise (fun a b => a.number < b.number) := (entries_sorted e).filter _

theorem mem_candidates_iff (e : FareEngine) (day bound : Nat) (x : Numbered) :
    x ∈ e.entries.filter (candidate day bound)
      ↔ ∃ i : Fin 12, x = ⟨i.val + 1, e.schedule[i]⟩ ∧ (e.schedule[i]).startsOn day bound := by
  rw [List.mem_filter, mem_entries_iff, candidate_iff]
  exact ⟨fun ⟨⟨i, hx⟩, h⟩ => ⟨i, hx, by rw [hx] at h; exact h⟩, fun ⟨i, hx, h⟩ => ⟨⟨i, hx⟩, by rw [hx]; exact h⟩⟩

theorem latestOn_none_iff (e : FareEngine) (day bound : Nat) :
    latestOn e.entries day bound = none ↔ ∀ i : Fin 12, ¬(e.schedule[i]).startsOn day bound := by
  rw [latestOn_eq, (foldl_laterStart (candidates_sorted e day bound)).1, List.eq_nil_iff_forall_not_mem]
  simp only [mem_candidates_iff]
  exact ⟨fun h i hi => h _ ⟨i, rfl, hi⟩, fun h x ⟨i, _, hi⟩ => h i hi⟩

theorem latestOn_some {e : FareEngine} {day bound : Nat} {x : Numbered} (h : latestOn e.entries day bound = some x) :
    ∃ i : Fin 12, x = ⟨i.val + 1, e.schedule[i]⟩ ∧ (e.schedule[i]).startsOn day bound
      ∧ ∀ j : Fin 12, (e.schedule[j]).startsOn day bound →
          (e.schedule[j]).startMinute < (e.schedule[i]).startMinute
            ∨ (e.schedule[j]).startMinute = (e.schedule[i]).startMinute ∧ j ≤ i := by
  obtain ⟨hmem, hmax⟩ := (foldl_laterStart (candidates_sorted e day bound)).2 x h
  obtain ⟨i, rfl, hstarts⟩ := (mem_candidates_iff e day bound x).mp hmem
  refine ⟨i, rfl, hstarts, fun j hj => ?_⟩
  have hlater := hmax ⟨j.val + 1, e.schedule[j]⟩ ((mem_candidates_iff e day bound _).mpr ⟨j, rfl, hj⟩)
  simp only [Numbered.notBefore] at hlater
  rw [Fin.le_def]
  omega

/-! ### The entry in force (R31) -/

/-- The bound on the start of a day some days back. -/
def startBound (count back : Nat) : Nat := if back = 0 then minuteOfDay count else 1439

/-- The day of week some days back. -/
def dayBack (count back : Nat) : Nat := (dayOfWeek count + 7 - back) % 7

theorem dayBack_eq {count back : Nat} (h : back ≤ 7) : dayBack count back = (count / 86400 + 5 + 7 - back) % 7 := by
  unfold dayBack dayOfWeek
  omega

theorem entryInForce_eq (e : FareEngine) (count : Nat) :
    e.entryInForce count
      = [0, 1, 2, 3, 4, 5, 6, 7].findSome? (fun back =>
          latestOn e.entries (dayBack count back) (startBound count back)) := rfl

/-- The first of the days back that has a start decides. -/
theorem entryInForce_some {e : FareEngine} {count : Nat} {x : Numbered} (h : e.entryInForce count = some x) :
    ∃ back ≤ 7, latestOn e.entries (dayBack count back) (startBound count back) = some x
      ∧ ∀ b < back, latestOn e.entries (dayBack count b) (startBound count b) = none := by
  rw [entryInForce_eq, List.findSome?_eq_some_iff] at h
  obtain ⟨before, back, after, hlist, hx, hnone⟩ := h
  have hback : back ∈ [0, 1, 2, 3, 4, 5, 6, 7] := by rw [hlist]; simp
  have hsorted : ([0, 1, 2, 3, 4, 5, 6, 7] : List Nat).Pairwise (· < ·) := by decide
  have h7 : back ≤ 7 := by
    simp only [List.mem_cons, List.not_mem_nil, or_false] at hback
    omega
  refine ⟨back, h7, hx, fun b hb => hnone b ?_⟩
  have hmem : b ∈ before ++ back :: after := by
    rw [← hlist]
    simp only [List.mem_cons, List.not_mem_nil, or_false]
    omega
  rw [hlist, List.pairwise_append, List.pairwise_cons] at hsorted
  rcases List.mem_append.mp hmem with hm | hm
  · exact hm
  · rcases List.mem_cons.mp hm with rfl | hm
    · omega
    · have := hsorted.2.1.1 b hm
      omega

theorem bitsOf_lt (bs : List Bool) : bitsOf bs < 2 ^ bs.length := by
  induction bs with
  | nil => decide
  | cons b bs ih =>
    rw [bitsOf, List.length_cons, Nat.pow_succ]
    split <;> omega

/-- A weekday set that names a day holds one. -/
theorem Weekdays.holds_some {d : Weekdays} (h : d.bits ≠ 0) : ∃ day < 7, d.holds day = true := by
  have hlt : d.bits < 128 := bitsOf_lt _
  by_contra hnone
  have hzero (k : Nat) (hk : k < 7) : d.bits / 2 ^ k % 2 = 0 := by
    have hk' : ¬d.holds k = true := fun hd => hnone ⟨k, hk, hd⟩
    simp only [Weekdays.holds, bit, decide_eq_true_eq] at hk'
    omega
  have h0 := hzero 0 (by omega)
  have h1 := hzero 1 (by omega)
  have h2 := hzero 2 (by omega)
  have h3 := hzero 3 (by omega)
  have h4 := hzero 4 (by omega)
  have h5 := hzero 5 (by omega)
  have h6 := hzero 6 (by omega)
  omega

/-- An entry that is used starts on some day of the week before. -/
theorem startsOn_of_used {x : ScheduleEntry} (h : x.used = true) (hm : x.startMinute ≤ 1439) (count : Nat) :
    ∃ back, 1 ≤ back ∧ back ≤ 7 ∧ x.startsOn (dayBack count back) (startBound count back) := by
  have hbits : x.days.bits ≠ 0 := by
    simp only [ScheduleEntry.used, Bool.and_eq_true, bne_iff_ne] at h
    exact h.1
  obtain ⟨day, hday, hholds⟩ := Weekdays.holds_some hbits
  have hmod := Nat.mod_lt (count / 86400 + 5) (show 0 < 7 by omega)
  obtain ⟨back, hlow, hhigh, hback⟩ : ∃ back, 1 ≤ back ∧ back ≤ 7 ∧ dayBack count back = day := by
    unfold dayBack dayOfWeek
    by_cases hlt : day < (count / 86400 + 5) % 7
    · exact ⟨(count / 86400 + 5) % 7 - day, by omega, by omega, by omega⟩
    · exact ⟨(count / 86400 + 5) % 7 + 7 - day, by omega, by omega, by omega⟩
  refine ⟨back, hlow, hhigh, h, by rw [hback]; exact hholds, ?_⟩
  rw [startBound, if_neg (by omega)]
  exact hm

theorem entryInForce_none_iff (e : FareEngine) (count : Nat) (hm : ∀ i : Fin 12, e.schedule[i].startMinute ≤ 1439) :
    e.entryInForce count = none ↔ ∀ i : Fin 12, e.schedule[i].used = false := by
  rw [entryInForce_eq, List.findSome?_eq_none_iff]
  simp only [latestOn_none_iff]
  refine ⟨fun h i => ?_, fun h back _ i ⟨hused, _⟩ => by rw [h i] at hused; cases hused⟩
  by_contra hused
  obtain ⟨back, hlow, hhigh, hstarts⟩ := startsOn_of_used (by simpa using hused) (hm i) count
  refine h back ?_ i hstarts
  simp only [List.mem_cons, List.not_mem_nil, or_false]
  omega

/-- Starting on a day back, as the rule says it. -/
theorem startsOn_back_iff {x : ScheduleEntry} (hm : x.startMinute ≤ 1439) {count back : Nat} (h : back ≤ 7) :
    x.startsOn (dayBack count back) (startBound count back)
      ↔ x.used = true ∧ x.days.holds ((count / 86400 + 5 + 7 - back) % 7) = true
        ∧ (back = 0 → x.startMinute ≤ count % 86400 / 60) := by
  rw [ScheduleEntry.startsOn, dayBack_eq h, startBound, minuteOfDay]
  split
  · next h0 => simp [h0]
  · next h0 => simp [h0, hm]

/-! ### A minute boundary (R32) -/

theorem changeIfFollows_tables (n : Nat) (s : State) (i : Slot) :
    tablesKept s (changeIfFollows n s i) ∧ (changeIfFollows n s i).fare.seatMap = s.fare.seatMap := by
  unfold changeIfFollows
  split
  · exact changeTariff_tables i n s
  · exact ⟨⟨rfl, rfl, rfl⟩, rfl⟩

theorem changeIfFollows_leg_same {n : Nat} {s : State} {i : Slot} (h : (s.leg i).segments.length ≤ 4) :
    (changeIfFollows n s i).leg i = if (s.leg i).follows = true then (s.leg i).moved s n else s.leg i := by
  unfold changeIfFollows
  split
  · exact changeTariff_leg_same h n
  · rfl

theorem changeIfFollows_leg_other {n : Nat} {s : State} {i j : Slot} (h : j ≠ i) :
    (changeIfFollows n s i).leg j = s.leg j := by
  unfold changeIfFollows
  split
  · exact changeTariff_leg_other h n s
  · rfl

theorem Leg.moved_congr (l : Leg) {s t : State} (h : tablesKept s t) (n : Nat) : l.moved t n = l.moved s n := by
  have htariff (m : Nat) : t.fare.tariff m = s.fare.tariff m := by rw [FareEngine.tariff, FareEngine.tariff, h.1]
  simp only [Leg.moved, htariff]

/-- Legs that change at once, each by itself. -/
theorem foldl_changeIfFollows (n : Nat) {i : Slot} {slots : List Slot} (hn : slots.Nodup) :
    ∀ {s : State}, (s.leg i).segments.length ≤ 4 →
      tablesKept s (slots.foldl (changeIfFollows n) s)
        ∧ (slots.foldl (changeIfFollows n) s).fare.seatMap = s.fare.seatMap
        ∧ (slots.foldl (changeIfFollows n) s).leg i
            = if i ∈ slots ∧ (s.leg i).follows = true then (s.leg i).moved s n else s.leg i := by
  induction slots with
  | nil => exact fun _ => ⟨⟨rfl, rfl, rfl⟩, rfl, by simp⟩
  | cons j js ih =>
    intro s hseg
    obtain ⟨hj, hjs⟩ := List.nodup_cons.mp hn
    obtain ⟨htables, hmap⟩ := changeIfFollows_tables n s j
    rw [List.foldl_cons]
    have hrest := fun h => ih hjs (s := changeIfFollows n s j) h
    by_cases hij : i = j
    · subst hij
      have hstep := changeIfFollows_leg_same (n := n) hseg
      have hseg' : ((changeIfFollows n s i).leg i).segments.length ≤ 4 := by
        rw [hstep]
        split
        · rw [Leg.moved_eq hseg]
          split
          · exact hseg
          · unfold Leg.changeTariff openSegment
            dsimp only
            split
            · simp; omega
            · rw [onLast_length]; exact hseg
        · exact hseg
      obtain ⟨ht, hm, hl⟩ := hrest hseg'
      refine ⟨⟨ht.1.trans htables.1, ht.2.1.trans htables.2.1, ht.2.2.trans htables.2.2⟩, hm.trans hmap, ?_⟩
      rw [hl, if_neg (fun h => hj h.1), hstep]
      simp
    · have hsame := changeIfFollows_leg_other (n := n) (s := s) hij
      obtain ⟨ht, hm, hl⟩ := hrest (by rw [hsame]; exact hseg)
      refine ⟨⟨ht.1.trans htables.1, ht.2.1.trans htables.2.1, ht.2.2.trans htables.2.2⟩, hm.trans hmap, ?_⟩
      rw [hl, hsame, Leg.moved_congr _ htables]
      simp [hij]

theorem follows_iff (l : Leg) :
    l.follows = true ↔ l.selection = .scheduled ∧ (l.state = .hired ∨ l.state = .stopping) := by
  simp [Leg.follows, Leg.runs]

theorem slot_mem_all (i : Slot) : i ∈ Slot.all := by cases i <;> decide

/-- A boundary that has fallen is taken at the clock count. -/
theorem minuteBoundary_fallen {s : State} {x : Numbered} (hvalid : s.clock.valid = true)
    (hdue : s.clock.minuteDue = true) (hx : s.fare.entryInForce s.clock.count = some x) :
    minuteBoundary s
      = Slot.all.foldl (changeIfFollows x.entry.tariff) { s with clock := { s.clock with minuteDue := false } } := by
  have hscheduled : scheduled { s with clock := { s.clock with minuteDue := false } } s.clock.count = some x :=
    (scheduled_valid hvalid _).trans hx
  rw [minuteBoundary, hdue, if_neg (by simp), boundaryAt, hscheduled]

theorem exec_minuteBoundary {s : State} {x : Numbered} (h : s.power = .running) (hvalid : s.clock.valid = true)
    (hdue : s.clock.minuteDue = true) (hx : s.fare.entryInForce s.clock.count = some x) :
    exec .minuteBoundary s
      = .next (Slot.all.foldl (changeIfFollows x.entry.tariff) { s with clock := { s.clock with minuteDue := false } }) := by
  rw [exec_running h (g := minuteBoundary) rfl, minuteBoundary_fallen hvalid hdue hx]

/-- Settles O27. -/
theorem aMinuteBoundaryMovesScheduledLegs : Obligations.AMinuteBoundaryMovesScheduledLegs := by
  refine ⟨fun e count hm => ⟨entryInForce_none_iff e count hm, fun x hx => ?_⟩,
    fun s x i hrun hvalid hdue hx hseg => ?_⟩
  · obtain ⟨back, h7, hlatest, hearlier⟩ := entryInForce_some hx
    obtain ⟨i, hxi, hstarts, hmax⟩ := latestOn_some hlatest
    refine ⟨i, back, h7, hxi, (startsOn_back_iff (hm i) h7).mp hstarts, fun j b hb hs => ?_, fun j hs => ?_⟩
    · exact (latestOn_none_iff e _ _).mp (hearlier b hb) j ((startsOn_back_iff (hm j) (by omega)).mpr hs)
    · exact hmax j ((startsOn_back_iff (hm j) h7).mpr hs)
  · obtain ⟨htables, hmap, hleg⟩ := foldl_changeIfFollows x.entry.tariff (i := i) (slots := Slot.all) (by decide)
      (s := { s with clock := { s.clock with minuteDue := false } }) hseg
    have hacts := minuteBoundary_acts s
    rw [show minuteBoundary s = _ from minuteBoundary_fallen hvalid hdue hx] at hacts
    refine ⟨_, exec_minuteBoundary hrun hvalid hdue hx, hacts.frame, ?_, hmap, htables, ?_⟩
    · exact (foldl_acts (changeIfFollows_acts _) _ _).same .clock
    · rw [hleg]
      simp only [slot_mem_all, true_and, ← follows_iff]
      rfl

end Sys2Proof.Machine
end

