-- ==== Sys2Proof/Proofs/Readouts.lean ====
section
/-!
PROOF. The readouts: what each body holds.
-/

set_option Elab.async false

namespace Sys2Proof.Machine

/-! ### ODO_STATUS (R11) -/

theorem Polarity.ctorIdx_eq (p : Polarity) : p.ctorIdx = if p = .rising then 0 else 1 := by cases p <;> rfl

theorem takeOdoStatus_body (s : State) :
    takeOdoStatus s = (s, ⟨.ok,
      [.u16 (speedOf s.odo.lastMetres), .u8 s.odo.lastMetres, .u8 (if s.odo.motion = .moving then 0 else 1),
       .u32 s.odo.totalDistance, .u32 s.odo.hiredDistance, .u16 s.odo.r, .u16 s.odo.k,
       .u8 (if s.odo.polarity = .rising then 0 else 1), .u8 s.odo.window.ctorIdx,
       .u8 s.odo.measurement.ctorIdx, .u32 s.odo.measurePulses, .u32 s.odo.measureSeconds]⟩) := by
  rw [← Polarity.ctorIdx_eq, ← Motion.eq_moving_or]
  rfl

/-- The speed is 3.6 times the metres, rounded half up. -/
theorem speedOf_bounds {m : Nat} (h : m ≤ 100) :
    10 * speedOf m ≤ 36 * m + 5 ∧ 36 * m + 5 < 10 * speedOf m + 10 ∧ speedOf m ≤ 360 := by
  unfold speedOf
  omega

/-! ### PAY_STATUS (R82) -/

theorem optRef_eq (o : Option Ref) :
    optRef o = [.u16 ((o.map Ref.payment).getD 0), .u8 ((o.map Ref.attempt).getD 0)] := by
  cases o <;> rfl

theorem stageField_eq (o : Option Stage) : stageField o = (o.map (fun x => x.ctorIdx + 1)).getD 0 := by
  cases o with
  | none => rfl
  | some x => cases x <;> rfl

theorem slotBits_eq (slots : List Slot) :
    slotBits slots = bitsOf ([Slot.s1, .s2, .s3, .s4].map (fun i => slots.contains i)) := rfl

theorem countedList_eq {α : Type} (body : α → List Field) (xs : List α) :
    countedList body xs = .u8 xs.length :: xs.flatMap body := rfl

/-! ### JOURNAL_STATUS (R123) -/

theorem seqOrZero_eq (o : Option TripRecord) : seqOrZero o = (o.map TripRecord.seq).getD 0 := by
  cases o <;> rfl

/-! ### SPEAKER_STATUS (R159) -/

theorem servicePart_eq (o : Option Playing) :
    servicePart o = match o with
      | some t => [.u8 1, .u8 t.tone.kind.ctorIdx, .u8 t.tone.level.number, .u8 t.current,
          .u8 (if t.onPhase = true then 0 else 1), .u8 t.left]
      | none => [.u8 0, .u8 0, .u8 0, .u8 0, .u8 0, .u8 0] := by
  cases o <;> rfl

theorem SpeakerState.sounds_eq (p : SpeakerState) : p.sounds = p.service.any Playing.onPhase := by
  unfold SpeakerState.sounds
  cases p.service <;> rfl

theorem SpeakerState.level_eq (p : SpeakerState) :
    p.level = (p.service.map (fun t => t.tone.level.number)).getD 0 := by
  unfold SpeakerState.level
  cases p.service <;> rfl

/-- The speaker that holds TONE_OUT: of two that sound the one of the higher level, front first. -/
theorem toneOwner_eq (p : PerSpeaker SpeakerState) :
    toneOwner p
      = if p.front.sounds = true ∧ (p.rear.sounds = false ∨ p.rear.level ≤ p.front.level) then some .front
        else if p.rear.sounds = true then some .rear
        else none := by
  unfold toneOwner
  cases p.front.sounds with
  | false => cases p.rear.sounds <;> rfl
  | true =>
    cases p.rear.sounds with
    | false => rfl
    | true =>
      rcases Nat.lt_or_ge p.front.level p.rear.level with h | h
      · simp [h]
      · simp [h, Nat.not_lt.mpr h]

theorem routed_eq (p : PerSpeaker SpeakerState) (x : Speaker) : routed p x = decide (toneOwner p = some x) :=
  beq_eq_decide _ _

/-- Settles O28. -/
theorem readoutsChangeNothing : Obligations.ReadoutsChangeNothing := by
  intro s hready
  dsimp only
  refine ⟨?_, ?_, ?_, ?_, ?_, ?_, ?_, ?_, ?_, ?_, ?_, ?_, ?_, ?_, ?_, ?_, ?_, ?_, ?_⟩
  · intro h
    obtain ⟨h1, h2, h3⟩ := speedOf_bounds h
    exact ⟨_, h1, h2, h3, exec_taken hready rfl (takeOdoStatus_body s)⟩
  · exact ⟨_, exec_taken hready rfl (takeOdoStatus_body s)⟩
  · exact exec_taken hready rfl rfl
  · exact exec_taken hready rfl rfl
  · intro n h
    exact exec_refused hready rfl (by rw [takeExtraKindRead, (index12?_eq_none_iff n).mpr h])
  · intro i
    exact exec_taken hready rfl (by rw [takeExtraKindRead, index12?_val]; rfl)
  · intro n h
    exact exec_refused hready rfl (by rw [takeLegRead, slot?_none h])
  · intro i
    exact exec_taken hready rfl (by rw [takeLegRead, slot?_number]; rfl)
  · exact exec_taken hready rfl rfl
  · refine exec_taken hready (rule := takePayStatus) rfl ?_
    rw [takePayStatus, sessionFields, optRef_eq, stageField_eq]
    rfl
  · exact exec_taken hready rfl rfl
  · exact exec_taken hready rfl rfl
  · refine exec_taken hready (rule := takeJournalStatus) rfl ?_
    rw [takeJournalStatus]
    simp only [seqOrZero_eq]
    rfl
  · exact exec_taken hready rfl rfl
  · exact exec_taken hready rfl rfl
  · refine exec_taken hready (rule := takeSpeakerStatus) rfl ?_
    simp only [takeSpeakerStatus, speakerPart, routed_eq, toneOwner_eq, servicePart_eq, SpeakerState.sounds_eq,
      SpeakerState.level_eq, List.flatMap_cons, List.flatMap_nil, List.append_assoc]
    rfl
  · exact exec_taken hready rfl rfl
  · exact exec_taken hready rfl rfl
  · exact exec_taken hready rfl rfl

end Sys2Proof.Machine
end

