-- ==== Sys2Proof/Proofs/Payments.lean ====
section
/-!
PROOF. The payment session: what its entries and ends leave, in the terms of the statements.
-/

set_option Elab.async false

namespace Sys2Proof.Machine

/-! ### Shared parts of the payment events -/

theorem TenderLink.handedOver_eq (t : TenderLink) (m : TermMsg) :
    t.handedOver m = { t with handedOn := if t.handedOn = some m then none else t.handedOn } := by
  unfold TenderLink.handedOver
  split <;> rfl

/-- The state in which a message is taken: it is no longer handed on (R91). -/
def tookMessage (m : TermMsg) (s : State) : State := { s with tender := s.tender.handedOver m }

/-- A message acts on a running part. -/
theorem exec_message {c : Instr} {m : TermMsg} {g : State → State} {s : State} (h : s.power = .running)
    (hc : exec c s = .next (whileRunning (takesMessage m g) s)) : exec c s = .next (g (tookMessage m s)) := by
  rw [hc, whileRunning_running h]
  rfl

theorem raisePayment_announced {s t : State} (h : t = raisePayment s) :
    announced .paymentState (paymentPayload t.settle.session) t := by
  subst h
  exact announced_raise .paymentState (paymentPayload s.settle.session) s

/-- What a tone leaves at the speakers depends on the speakers alone. -/
theorem askTone_speakers_congr {s t : State} (h : t.speakers = s.speakers) (k : ToneKind) :
    (askTone k t).speakers = (askTone k s).speakers := by
  simp only [askTone, requestTone]
  rw [(raiseDropped_acts _ _ _).same .speakers, (raiseDropped_acts _ _ _).same .speakers]
  simp only [State.setSpeaker, h]

@[simp] theorem unlock_get (e : FareEngine) (p : Nat) (i : Slot) : (e.unlock p).legs.get i = (e.legs.get i).unlock p := by
  simp [FareEngine.unlock]

theorem Leg.unlock_eq (l : Leg) (p : Nat) :
    l.unlock p = if l.state = .paying ∧ l.paymentId = some p then { l with state := .stopped, paymentId := none }
      else l := by
  simp [Leg.unlock, Leg.paysUnder]

/-! ### Entering AUTHORISING and ABORTING (R70, R74 to R76) -/

/-- The session, given in any form, enters AUTHORISING. -/
theorem enterAuthorising_enters (g : Session → Session) (s : State) :
    entersAuthorising (g s.settle.session) s (enterAuthorising (setSession g s)) := by
  refine ⟨((setSession_acts g s).seq (enterAuthorising_acts _)).widen.frame, by simp [setSession], by simp [setSession], ?_,
    raisePayment_announced rfl⟩
  have hbefore : (enterAuthorising (setSession g s)).speakers
      = (askTone .paymentPrompt (sendFrame (.sale ⟨(g s.settle.session).paymentId, (g s.settle.session).attempt.getD 0⟩
          (g s.settle.session).total (s.settle.settings.currency.getD [])) s)).speakers := by
    simp only [enterAuthorising, raisePayment_rest]
    exact askTone_speakers_congr (by simp) _
  rw [hbefore]
  exact askTone_speakers_congr (by simp) _

theorem enterAborting_enters (cause : AbortCause) (r : Ref) (s : State) :
    entersAborting cause r s (enterAborting cause r s) :=
  ⟨(enterAborting_acts cause r s).frame, enterAborting_settle cause r s, enterAborting_tender cause r s,
    raisePayment_announced rfl⟩

/-! ### Closing without settlement (R54) -/

/-- A session closes unpaid; `s` may differ from the state it closes in where the statement does not look. -/
theorem closeUnpaid_closes {p : Session} {state : SessionState} {cause : CloseCause} {s u : State}
    (hfare : u.fare = s.fare) (hclock : u.clock = s.clock) (hid : u.settle.session.paymentId = p.paymentId)
    (hclose : u.settle.session.close state cause s.clock.count = p.close state cause s.clock.count) :
    closedUnpaid p state cause s (closeUnpaid state cause u) := by
  have hlegs : (closeUnpaid state cause u).fare = s.fare.unlock p.paymentId := by
    rw [closeUnpaid_fare, hfare, hid]
  refine ⟨?_, by simp, fun i => ?_, by rw [hlegs]; rfl, by rw [tablesKept, hlegs]; exact ⟨rfl, rfl, rfl⟩,
    raisePayment_announced rfl⟩
  · rw [closeUnpaid_settle, hclock]
    exact hclose
  · rw [State.leg, hlegs, unlock_get, Leg.unlock_eq]
    rfl

/-! ### An attempt that ends without approval (R73, R77) -/

/-- The same for the end of an attempt. -/
theorem endsUnapproved_ends {reason : DeclineReason} {s u : State} (hsession : u.settle.session = s.settle.session)
    (hfare : u.fare = s.fare) (hclock : u.clock = s.clock) (hspeakers : u.speakers = s.speakers)
    (hshifts : u.shifts = s.shifts) : attemptEnded reason s (endsUnapproved reason u) := by
  have hsame : (endsUnapproved reason u).speakers = (askTone .declined s).speakers
      ∧ (endsUnapproved reason u).shifts = (addTotals Totals.addDecline s).shifts
      ∧ announced .paymentState (paymentPayload (endsUnapproved reason u).settle.session) (endsUnapproved reason u) := by
    have htone (t : State) (ht : t.speakers = s.speakers) :
        (askTone .declined t).speakers = (askTone .declined s).speakers := askTone_speakers_congr ht _
    have htotals (t : State) (ht : t.shifts = s.shifts) :
        (addTotals Totals.addDecline t).shifts = (addTotals Totals.addDecline s).shifts := addTotals_shifts_congr ht _
    unfold endsUnapproved
    dsimp only
    split
    · refine ⟨?_, ?_, raisePayment_announced rfl⟩
      · rw [(enterRetryWait_acts _).same .speakers]
        exact htone _ (by simpa using hspeakers)
      · rw [(enterRetryWait_acts _).same .shifts]
        simpa using htotals _ (by simpa using hshifts)
    · refine ⟨?_, ?_, raisePayment_announced rfl⟩
      · rw [(closeUnpaid_acts _ _ _).same .speakers]
        exact htone _ (by simpa using hspeakers)
      · rw [(closeUnpaid_acts _ _ _).same .shifts]
        simpa using htotals _ (by simpa using hshifts)
  refine ⟨fun hlt => ?_, fun hge => ?_, hsame⟩
  · rw [endsUnapproved_settle, endsUnapproved_fare, hsession, if_pos hlt, if_pos hlt]
    refine ⟨?_, rfl, hfare⟩
    simp only [Session.unapproved]
    rw [if_pos hlt]
  · have hlt : ¬u.settle.session.attempt.getD 0 < 3 := by rw [hsession]; omega
    have hclosed : endsUnapproved reason u
        = closeUnpaid .failed .declines (askTone .declined (addTotals Totals.addDecline
            (setSession (fun p => { p with declineReason := some reason, outstanding := none }) u))) := if_neg hlt
    rw [hclosed]
    refine closeUnpaid_closes (by simpa using hfare) (by simpa using hclock) (by simp [hsession]) ?_
    simp [hsession, Session.close]

theorem abortEnds_cancel {reason : DeclineReason} {s : State} (h : s.settle.session.abortCause = some .cancel) :
    abortEnds reason s = closeUnpaid .cancelled .host s := by
  rw [abortEnds, h]

theorem abortEnds_other {reason : DeclineReason} {s : State} (h : s.settle.session.abortCause ≠ some .cancel) :
    abortEnds reason s = endsUnapproved reason s := by
  unfold abortEnds
  split
  · next hc => exact absurd hc h
  · rfl

/-- What an abort that is over leaves, by its cause (R76). -/
theorem abortEnds_ends {reason : DeclineReason} {s u : State} (hsession : u.settle.session = s.settle.session)
    (hfare : u.fare = s.fare) (hclock : u.clock = s.clock) (hspeakers : u.speakers = s.speakers)
    (hshifts : u.shifts = s.shifts) :
    (s.settle.session.abortCause = some .cancel →
        closedUnpaid s.settle.session .cancelled .host s (abortEnds reason u) ∧ (abortEnds reason u).shifts = s.shifts
          ∧ (abortEnds reason u).speakers = s.speakers)
      ∧ (s.settle.session.abortCause ≠ some .cancel → attemptEnded reason s (abortEnds reason u)) := by
  refine ⟨fun h => ?_, fun h => ?_⟩
  · rw [abortEnds_cancel (by rw [hsession]; exact h)]
    exact ⟨closeUnpaid_closes hfare hclock (by rw [hsession]) (by rw [hsession]),
      ((closeUnpaid_acts _ _ _).same .shifts).trans hshifts, ((closeUnpaid_acts _ _ _).same .speakers).trans hspeakers⟩
  · rw [abortEnds_other (by rw [hsession]; exact h)]
    exact endsUnapproved_ends hsession hfare hclock hspeakers hshifts

/-- The stale memory, the reversals and the tender link are as they were at the end of an attempt. -/
theorem abortEnds_rest (reason : DeclineReason) (s : State) :
    (abortEnds reason s).settle.stale = s.settle.stale ∧ (abortEnds reason s).settle.reversals = s.settle.reversals
      ∧ (abortEnds reason s).settle.unheld = s.settle.unheld ∧ (abortEnds reason s).tender = s.tender := by
  have htender := (abortEnds_acts reason s).same .tender
  by_cases h : s.settle.session.abortCause = some .cancel
  · rw [abortEnds_cancel h] at htender ⊢
    exact ⟨by simp, by simp, by simp, htender⟩
  · rw [abortEnds_other h] at htender ⊢
    exact ⟨by simp, by simp, by simp, htender⟩

end Sys2Proof.Machine
end

