-- ==== Sys2Proof/Proofs/Attempts.lean ====
section
/-!
PROOF. Progress, cancel, timeouts and the ends of an attempt without approval.
-/

set_option Elab.async false

namespace Sys2Proof.Machine

/-! ### Progress (R71) -/

theorem takesProgress_counts {r : Ref} {x : Stage} {s : State} (h : s.settle.session.state = .authorising)
    (hr : s.settle.session.outstanding = some r) :
    takesProgress r x s = raisePayment (setTimer (some ⟨.response, min 6000 s.settle.saleLeft⟩)
      (setSession (fun p => { p with stage := some x }) s)) := if_pos ⟨h, hr⟩

theorem takesProgress_ignored {r : Ref} {x : Stage} {s : State}
    (h : s.settle.session.state ≠ .authorising ∨ s.settle.session.outstanding ≠ some r) : takesProgress r x s = s :=
  if_neg (fun ⟨hs, hr⟩ => h.elim (fun hne => hne hs) (fun hne => hne hr))

/-! ### PAY_CANCEL (R75, Table 4-6) -/

theorem takePayCancel_authorising {s : State} {r : Ref} (h : s.settle.session.state = .authorising)
    (hr : s.settle.session.outstanding = some r) : takePayCancel s = (enterAborting .cancel r s, .ok []) := by
  simp only [takePayCancel, h, hr]

theorem takePayCancel_waiting {s : State}
    (h : s.settle.session.state = .tipWait ∨ s.settle.session.state = .retryWait) :
    takePayCancel s = (closeUnpaid .cancelled .host s, .ok []) := by
  rcases h with h | h <;> simp only [takePayCancel, h]

theorem takePayCancel_settled {s : State} (h : s.settle.session.state = .settled) :
    takePayCancel s = refuse .tooLate s := by
  simp only [takePayCancel, h]

theorem takePayCancel_wrong {s : State}
    (h : s.settle.session.state = .aborting ∨ s.settle.session.state = .failed ∨ s.settle.session.state = .cancelled
      ∨ s.settle.session.state = .none) : takePayCancel s = refuse .wrongState s := by
  rcases h with h | h | h | h <;> simp only [takePayCancel, h]

theorem responseExpires_aborts {s : State} {r : Ref} (h : s.settle.session.state = .authorising)
    (hr : s.settle.session.outstanding = some r) : responseExpires s = enterAborting .timeout r s := by
  simp only [responseExpires, h, hr]

theorem retryIdleExpires_closes {s : State} (h : s.settle.session.state = .retryWait) :
    retryIdleExpires s = closeUnpaid .cancelled .idle s := by
  simp only [retryIdleExpires, h]

/-- A session closed unpaid, in the state it closes in. -/
theorem closeUnpaid_here (state : SessionState) (cause : CloseCause) (s : State) :
    closedUnpaid s.settle.session state cause s (closeUnpaid state cause s) := closeUnpaid_closes rfl rfl rfl rfl

/-- Settles O40. -/
theorem cancelsAndTimeoutsByState : Obligations.CancelsAndTimeoutsByState := by
  rintro s p rfl
  refine ⟨fun hrun r x => ?_, fun hrun h r hr => ?_, fun hrun h => ?_, fun hready =>
    ⟨fun h r hr => ?_, fun h => ?_, fun h => ?_, fun h => ?_⟩⟩
  · refine ⟨_, exec_message hrun (g := takesProgress r x) rfl, ?_, ?_, fun h hr => ?_, fun h => ?_⟩
    · exact ((withTender_acts s _).seq (takesProgress_acts r x _)).widen.frame
    · exact ((takesProgress_acts r x _).same .tender).trans (TenderLink.handedOver_eq _ _)
    · rw [takesProgress_counts (s := tookMessage _ s) h hr]
      exact ⟨by simp [setTimer, setSession, tookMessage], raisePayment_announced rfl⟩
    · rw [takesProgress_ignored (s := tookMessage _ s) h]
      exact ⟨rfl, rfl⟩
  · rw [exec_running hrun (g := responseExpires) rfl, responseExpires_aborts h hr]
    exact ⟨_, rfl, enterAborting_enters .timeout r s⟩
  · rw [exec_running hrun (g := retryIdleExpires) rfl, retryIdleExpires_closes h]
    exact ⟨_, rfl, (closeUnpaid_acts _ _ s).frame, closeUnpaid_here _ _ s⟩
  · refine ⟨_, exec_taken hready rfl (takePayCancel_authorising h hr), ?_, replyIs_answered _ _ _⟩
    obtain ⟨-, hsettle, htender, hsaid⟩ := enterAborting_enters .cancel r s
    exact ⟨(enterAborting_acts .cancel r s).answered _ _ (by simp) (by simp), hsettle, htender, hsaid.answered _ _⟩
  · refine ⟨_, exec_taken hready rfl (takePayCancel_waiting h), ?_, ?_, replyIs_answered _ _ _⟩
    · exact (closeUnpaid_acts _ _ s).answered _ _ (by simp) (by simp)
    · obtain ⟨hsession, htimer, hlegs, hmap, htables, hsaid⟩ := closeUnpaid_here .cancelled .host s
      exact ⟨hsession, htimer, hlegs, hmap, htables, hsaid.answered _ _⟩
  · exact exec_refused hready rfl (takePayCancel_settled h)
  · exact exec_refused hready rfl (takePayCancel_wrong h)

/-! ### The ends of an attempt (R73, R76, R78) -/

theorem declines_authorising {r : Ref} {n : Nat} {s : State} (h : s.settle.session.state = .authorising)
    (hr : s.settle.session.outstanding = some r) : declines r n s = endsUnapproved (.terminal n) (removeStale r s) := by
  simp only [declines, hr, h, if_true]

theorem declines_aborting {r : Ref} {n : Nat} {s : State} (h : s.settle.session.state = .aborting)
    (hr : s.settle.session.outstanding = some r) : declines r n s = abortEnds .timeout (removeStale r s) := by
  simp only [declines, hr, h, if_true]

theorem confirmsAbort_authorising {r : Ref} {s : State} (h : s.settle.session.state = .authorising)
    (hr : s.settle.session.outstanding = some r) : confirmsAbort r s = s := by
  simp only [confirmsAbort, hr, h, if_true]

theorem confirmsAbort_aborting {r : Ref} {s : State} (h : s.settle.session.state = .aborting)
    (hr : s.settle.session.outstanding = some r) : confirmsAbort r s = abortEnds .timeout (removeStale r s) := by
  simp only [confirmsAbort, hr, h, if_true]

theorem abortExpires_aborting {s : State} {r : Ref} (h : s.settle.session.state = .aborting)
    (hr : s.settle.session.outstanding = some r) : abortExpires s = abortEnds .uncertain (enterStale r s) := by
  simp only [abortExpires, h, hr]

theorem filter_bne (r : Ref) (rs : List Ref) : rs.filter (· != r) = rs.filter (· ≠ r) :=
  List.filter_congr (fun x _ => by simp only [bne, beq_eq_decide, ne_eq, decide_not])

theorem removeStale_stale (r : Ref) (s : State) :
    (removeStale r s).settle.stale = s.settle.stale.filter (· ≠ r) := filter_bne r _

/-- A held reference becomes the newest one. -/
theorem staleAfter_room {r : Ref} {rs : List Ref} (h : rs.length < 8 ∨ rs.length = 8 ∧ r ∈ rs ∧ rs.Nodup) :
    staleAfter r rs = rs.filter (· ≠ r) ++ [r] := by
  have hlt : (rs.filter (· != r)).length < 8 := by
    rcases h with h | ⟨h, hmem, -⟩
    · exact lt_of_le_of_lt (List.length_filter_le _ _) h
    · exact h ▸ List.length_filter_lt_length_iff_exists.mpr ⟨r, hmem, by simp⟩
  rw [staleAfter, if_neg (by omega), filter_bne]

/-- A ninth reference drops the oldest. -/
theorem staleAfter_full {r : Ref} {rs : List Ref} (h : rs.length = 8) (hr : r ∉ rs) :
    staleAfter r rs = rs.drop 1 ++ [r] := by
  have hall : rs.filter (· != r) = rs :=
    List.filter_eq_self.mpr (fun x hx => by simpa using fun e : x = r => hr (e ▸ hx))
  rw [staleAfter, hall, if_pos (by omega)]

/-- A message that ends an ABORTING attempt, with its reference forgotten. -/
theorem abortMessage_ends {r : Ref} {m : TermMsg} (s : State) :
    let t := abortEnds .timeout (removeStale r (tookMessage m s))
    changesOnly [.settle, .fare, .tender, .shifts, .speakers, .link] s t
      ∧ (s.settle.session.abortCause = some .cancel →
          closedUnpaid s.settle.session .cancelled .host s t ∧ t.shifts = s.shifts ∧ t.speakers = s.speakers)
      ∧ (s.settle.session.abortCause ≠ some .cancel → attemptEnded .timeout s t)
      ∧ t.settle.stale = s.settle.stale.filter (· ≠ r)
      ∧ t.tender = { s.tender with handedOn := if s.tender.handedOn = some m then none else s.tender.handedOn } := by
  dsimp only
  obtain ⟨hcancel, hother⟩ := abortEnds_ends (reason := .timeout) (s := s) (u := removeStale r (tookMessage m s))
    rfl rfl rfl rfl rfl
  obtain ⟨hstale, -, -, htender⟩ := abortEnds_rest .timeout (removeStale r (tookMessage m s))
  refine ⟨?_, hcancel, hother, hstale.trans (removeStale_stale r _), htender.trans (TenderLink.handedOver_eq _ _)⟩
  exact (((withTender_acts s _).seq (removeStale_acts r _)).seq (abortEnds_acts _ _)).widen.frame

/-- Settles O41. -/
theorem attemptsEndWithoutApproval : Obligations.AttemptsEndWithoutApproval := by
  intro s r n hrun hr
  refine ⟨fun h => ⟨?_, ?_⟩, fun h => ⟨?_, ?_, ?_⟩⟩
  · rw [exec_message hrun (g := declines r n) (m := .declined r n) rfl, declines_authorising (s := tookMessage _ s) h hr]
    refine ⟨_, rfl, ?_, endsUnapproved_ends rfl rfl rfl rfl rfl, ?_, ?_⟩
    · exact (((withTender_acts s _).seq (removeStale_acts r _)).seq (endsUnapproved_acts _ _)).widen.frame
    · rw [endsUnapproved_settle]
      exact removeStale_stale r _
    · exact ((endsUnapproved_acts _ _).same .tender).trans (TenderLink.handedOver_eq _ _)
  · rw [exec_message hrun (g := confirmsAbort r) (m := .aborted r) rfl, confirmsAbort_authorising (s := tookMessage _ s) h hr, tookMessage,
      TenderLink.handedOver_eq]
  · rw [exec_message hrun (g := declines r n) (m := .declined r n) rfl, declines_aborting (s := tookMessage _ s) h hr]
    exact ⟨_, rfl, abortMessage_ends s⟩
  · rw [exec_message hrun (g := confirmsAbort r) (m := .aborted r) rfl, confirmsAbort_aborting (s := tookMessage _ s) h hr]
    exact ⟨_, rfl, abortMessage_ends s⟩
  · rw [exec_running hrun (g := abortExpires) rfl, abortExpires_aborting h hr]
    obtain ⟨hcancel, hother⟩ := abortEnds_ends (reason := .uncertain) (s := s) (u := enterStale r s) rfl rfl rfl rfl rfl
    have hstale := (abortEnds_rest .uncertain (enterStale r s)).1
    refine ⟨_, rfl, ((enterStale_acts r s).seq (abortEnds_acts _ _)).widen.frame, hcancel, hother, fun hroom => ?_,
      fun hfull hnot => ?_⟩
    · exact hstale.trans (staleAfter_room hroom)
    · exact hstale.trans (staleAfter_full hfull hnot)

end Sys2Proof.Machine
end

