-- ==== Sys2Proof/Proofs/PayBegins.lean ====
section
/-!
PROOF. PAY_BEGIN and the ways into AUTHORISING.
-/

set_option Elab.async false

namespace Sys2Proof.Machine

/-! ### PAY_BEGIN: its tests (R63) -/

theorem slotSet?_none {n : Nat} (h : 15 < n) : slotSet? n = none := if_neg (by omega)

theorem tender?_none {n : Nat} (h : 1 < n) : tender? n = none := by
  match n with
  | k + 2 => rfl

theorem tender?_some {n : Nat} (h : n ≤ 1) : tender? n = some (if n = 0 then .card else .cash) := by
  match n with
  | 0 | 1 => rfl
  | k + 2 => omega

theorem takePayBegin_bad {legs tender offer : Nat} (h : 15 < legs ∨ legs = 0 ∨ 1 < tender ∨ 1 < offer) (s : State) :
    takePayBegin legs tender offer s = refuse .badValue s := by
  rw [takePayBegin]
  split
  · next slots t o hslots ht ho =>
    have h1 : ¬15 < legs := fun hlt => by rw [slotSet?_none hlt] at hslots; cases hslots
    have h2 : ¬1 < tender := fun hlt => by rw [tender?_none hlt] at ht; cases ht
    have h3 : ¬1 < offer := fun hlt => by rw [yesNo?_none hlt] at ho; cases ho
    exact if_pos (by omega)
  · rfl

theorem takePayBegin_good {legs tender offer : Nat} {slots : List Slot} (hslots : slotSet? legs = some slots)
    (hne : legs ≠ 0) (ht : tender ≤ 1) (ho : offer ≤ 1) (s : State) :
    takePayBegin legs tender offer s
      = match beginRefusal slots (if tender = 0 then .card else .cash) s with
        | some code => refuse code s
        | none => beginsBy slots (decide (offer = 1)) s (if tender = 0 then .card else .cash) := by
  rw [takePayBegin, hslots, tender?_some ht, yesNo?_some ho]
  exact if_neg hne

theorem takePayBegin_refused {legs tender offer : Nat} {slots : List Slot} {code : ReplyCode} {s : State}
    (hslots : slotSet? legs = some slots) (hne : legs ≠ 0) (ht : tender ≤ 1) (ho : offer ≤ 1)
    (h : beginRefusal slots (if tender = 0 then .card else .cash) s = some code) :
    takePayBegin legs tender offer s = refuse code s := by
  rw [takePayBegin_good hslots hne ht ho, h]

/-- The tests of PAY_BEGIN in their order. -/
theorem beginRefusal_eq (slots : List Slot) (t : Tender) (s : State) :
    beginRefusal slots t s
      = if shiftOpen s = false then some .noShift
        else if s.odo.motion = .moving then some .moving
        else if slots.any (fun i => (s.leg i).state == .paying) = true then some .legLocked
        else if slots.any (fun i => (s.leg i).state != .stopped) = true then some .wrongState
        else if s.settle.session.state.isOpen = true then some .wrongState
        else match t with
          | .card => cardRefusal slots s
          | .cash => none := by
  unfold beginRefusal
  simp only [Bool.not_eq_true'] <;> rfl

theorem cardRefusal_eq (slots : List Slot) (s : State) :
    cardRefusal slots s
      = if s.settle.settings.currency = none then some .wrongState
        else if s.tender.up = false then some .terminalDown
        else if 4 ≤ s.settle.reversals.length then some .terminalBusy
        else if s.settle.settings.limit < sumDue slots s + feeOf s.settle.settings (sumDue slots s) then some .limit
        else none := by
  unfold cardRefusal
  simp only [Bool.not_eq_true', Option.isNone_iff_eq_none]

theorem anyPaying_iff (slots : List Slot) (s : State) :
    slots.any (fun i => (s.leg i).state == .paying) = true ↔ ∃ i ∈ slots, (s.leg i).state = .paying := by
  simp

theorem anyUnstopped_iff (slots : List Slot) (s : State) :
    slots.any (fun i => (s.leg i).state != .stopped) = true ↔ ∃ i ∈ slots, (s.leg i).state ≠ .stopped := by
  simp

theorem sumDue_eq (slots : List Slot) (s : State) :
    sumDue slots s = (slots.map (fun i => (s.leg i).fare + (s.leg i).extrasTotal)).sum := by
  simp [sumDue, legDues, Leg.due, Function.comp_def]

/-! ### A CARD payment begun (R64) -/

/-- What the begun payment leaves but for its session's entry to a state. -/
theorem beginsPayment_legs (slots : List Slot) (t : Tender) (offer : Bool) (s : State) (i : Slot) :
    (beginsPayment slots t offer s).leg i
      = if i ∈ slots then { s.leg i with state := .paying, paymentId := some s.settle.nextId } else s.leg i := by
  rw [State.leg, beginsPayment_fare, FareEngine.lock_get]
  rfl

theorem lock_tables (e : FareEngine) (p : Nat) (slots : List Slot) :
    (e.lock p slots).tariffs = e.tariffs ∧ (e.lock p slots).schedule = e.schedule ∧ (e.lock p slots).kinds = e.kinds
      ∧ (e.lock p slots).seatMap = e.seatMap := by
  unfold FareEngine.lock
  induction slots generalizing e with
  | nil => exact ⟨rfl, rfl, rfl, rfl⟩
  | cons i is ih => exact ih _

/-- The state a CARD PAY_BEGIN enters: TIP_WAIT where a tip is offered, else AUTHORISING. -/
def entersCard (offer : Bool) (s : State) : State := if offer then enterTipWait s else enterAuthorising s

theorem entersCard_acts (offer : Bool) (s : State) : acts [.settle, .tender, .speakers, .link] s (entersCard offer s) := by
  cases offer with
  | true => exact (enterTipWait_acts s).widen
  | false => exact enterAuthorising_acts s

theorem beginsCard_eq (slots : List Slot) (offer : Bool) (s : State) :
    beginsCard slots offer s
      = (entersCard offer (beginsPayment slots .card offer s),
          .ok [.u16 (entersCard offer (beginsPayment slots .card offer s)).settle.session.paymentId,
            .u8 (entersCard offer (beginsPayment slots .card offer s)).settle.session.state.ctorIdx,
            .u32 (entersCard offer (beginsPayment slots .card offer s)).settle.session.due,
            .u32 (entersCard offer (beginsPayment slots .card offer s)).settle.session.fee,
            .u32 (entersCard offer (beginsPayment slots .card offer s)).settle.session.total]) := rfl

theorem entersCard_announced (offer : Bool) (s : State) :
    announced .paymentState (paymentPayload (entersCard offer s).settle.session) (entersCard offer s) := by
  cases offer <;> exact raisePayment_announced rfl

/-- The session of a CARD payment that has begun. -/
def cardSession (slots : List Slot) (offer : Bool) (s : State) : Session :=
  { begunSession slots .card offer s with
    state := if offer = true then .tipWait else .authorising
    outstanding := if offer = true then none else some ⟨s.settle.nextId, 1⟩ }

theorem entersCard_settle (slots : List Slot) (offer : Bool) (s : State) :
    (entersCard offer (beginsPayment slots .card offer s)).settle.session = cardSession slots offer s
      ∧ (entersCard offer (beginsPayment slots .card offer s)).settle.nextId = nextPaymentId s.settle.nextId
      ∧ (entersCard offer (beginsPayment slots .card offer s)).settle.timer
          = some (if offer = true then ⟨.tip, 3000⟩ else ⟨.response, 6000⟩) := by
  cases offer with
  | true =>
    rw [show entersCard true (beginsPayment slots .card true s) = enterTipWait _ from rfl, enterTipWait_settle,
      beginsPayment_settle]
    exact ⟨rfl, rfl, rfl⟩
  | false =>
    rw [show entersCard false (beginsPayment slots .card false s) = enterAuthorising _ from rfl, enterAuthorising_settle,
      beginsPayment_settle]
    exact ⟨rfl, rfl, rfl⟩

theorem entersCard_tender (slots : List Slot) (offer : Bool) (s : State) :
    (entersCard offer (beginsPayment slots .card offer s)).tender
      = if offer = true then s.tender
        else (s.tender.give s.pins.cts (.sale ⟨s.settle.nextId, 1⟩
          (sumDue slots s + feeOf s.settle.settings (sumDue slots s)) (s.settle.settings.currency.getD []))).1 := by
  have hbegun : (beginsPayment slots .card offer s).tender = s.tender ∧ (beginsPayment slots .card offer s).pins = s.pins :=
    ⟨(beginsPayment_acts slots .card offer s).same .tender, (beginsPayment_acts slots .card offer s).same .pins⟩
  cases offer with
  | true => exact ((enterTipWait_acts _).same .tender).trans hbegun.1
  | false =>
    simp only [entersCard, Bool.false_eq_true, if_false, enterAuthorising_tender, beginsPayment_settle, hbegun]
    rfl

/-- Settles O38. -/
theorem aCardPaymentBegins : Obligations.ACardPaymentBegins := by
  refine ⟨fun s slots legs offer due fee hready hshift hmotion hslots hne hoffer hstopped hopen hcur hup hrev hdue hfee
    hlimit => ?_, fun s slots legs tender offer hready => ?_⟩
  · have ho : offer ≤ 1 := by omega
    rw [← sumDue_eq] at hdue
    subst hdue
    replace hfee : fee = feeOf s.settle.settings (sumDue slots s) := hfee
    subst hfee
    have hcard : cardRefusal slots s = none := by
      rw [cardRefusal_eq, if_neg (by simpa using Option.isSome_iff_ne_none.mp hcur), if_neg (by simp [hup]),
        if_neg (by omega), if_neg (by omega)]
    have hnone : beginRefusal slots .card s = none := by
      rw [beginRefusal_eq, if_neg (by simp [hshift]), if_neg (by simp [hmotion]), if_neg, if_neg, if_neg (by simp [hopen])]
      · exact hcard
      · rw [anyUnstopped_iff]
        exact fun ⟨i, hi, hx⟩ => hx (hstopped i hi)
      · rw [anyPaying_iff]
        rintro ⟨i, hi, hx⟩
        rw [hstopped i hi] at hx
        cases hx
    have hrule := takePayBegin_good hslots hne (Nat.zero_le 1) ho s
    rw [if_pos rfl, hnone] at hrule
    replace hrule := hrule.trans (beginsCard_eq slots (decide (offer = 1)) s)
    obtain ⟨hsession, hnext, htimer⟩ := entersCard_settle slots (decide (offer = 1)) s
    have htender := entersCard_tender slots (decide (offer = 1)) s
    have hfare : (entersCard (decide (offer = 1)) (beginsPayment slots .card (decide (offer = 1)) s)).fare
        = s.fare.lock s.settle.nextId slots :=
      ((entersCard_acts _ _).same .fare).trans (beginsPayment_fare slots .card _ s)
    obtain ⟨h1, h2, h3, h4⟩ := lock_tables s.fare s.settle.nextId slots
    simp only [decide_eq_true_eq] at htimer htender
    refine ⟨_, exec_taken hready rfl hrule, ?_, fun i => ?_, ?_, ⟨?_, ?_, ?_⟩, ?_, ?_, htimer, htender, ?_, ?_⟩
    · exact ((beginsPayment_acts slots .card _ s).seq (entersCard_acts _ _)).answered _ _ (by simp) (by simp)
    · rw [answered_leg, State.leg, hfare, FareEngine.lock_get]
      rfl
    · rw [answered_fare, hfare, h4]
    · rw [answered_fare, hfare, h1]
    · rw [answered_fare, hfare, h2]
    · rw [answered_fare, hfare, h3]
    · rw [answered_settle, hsession]
      simp only [cardSession, decide_eq_true_eq]
      rfl
    · rw [answered_settle, hnext, nextPaymentId]
      by_cases h : s.settle.nextId < 65535
      · rw [if_neg (by omega), if_pos h]
      · rw [if_pos (by omega), if_neg h]
    · exact (entersCard_announced _ _).answered _ _
    · refine replyIs_of_eq ?_ _ _
      rw [hsession]
      simp only [cardSession, decide_eq_true_eq]
      split <;> rfl
  · dsimp only
    refine ⟨fun h => exec_refused hready rfl (takePayBegin_bad h s), fun hgood hslots => ?_⟩
    obtain ⟨hne, ht, ho⟩ : legs ≠ 0 ∧ tender ≤ 1 ∧ offer ≤ 1 := by omega
    have hrefuse (code : ReplyCode) (h : beginRefusal slots (if tender = 0 then .card else .cash) s = some code) :
        exec (.payBegin legs tender offer) s = .next (refusedWith .payBegin code s) :=
      exec_refused hready rfl (takePayBegin_refused hslots hne ht ho h)
    obtain ⟨x, hx⟩ : ∃ x : Tender, (if tender = 0 then .card else .cash) = x := ⟨_, rfl⟩
    rw [hx] at hrefuse
    have htests := beginRefusal_eq slots x s
    refine ⟨fun h => hrefuse _ (htests.trans (if_pos h)), fun h => ?_⟩
    rw [if_neg (by simp [h])] at htests
    refine ⟨fun h => hrefuse _ (htests.trans (if_pos h)), fun h => ?_⟩
    rw [if_neg (by simp [h])] at htests
    refine ⟨fun h => hrefuse _ (htests.trans (if_pos ((anyPaying_iff _ _).mpr h))), fun h => ?_⟩
    rw [if_neg (by rw [anyPaying_iff]; exact fun ⟨i, hi, hx⟩ => h i hi hx)] at htests
    refine ⟨fun h => hrefuse _ (htests.trans (if_pos ((anyUnstopped_iff _ _).mpr h))), fun h => ?_⟩
    rw [if_neg (by rw [anyUnstopped_iff]; exact fun ⟨i, hi, hx⟩ => hx (h i hi))] at htests
    refine ⟨fun h => hrefuse _ (htests.trans (if_pos h)), fun h ht0 => ?_⟩
    rw [if_pos ht0] at hx
    subst hx
    rw [if_neg (by simp [h])] at htests
    replace htests := htests.trans (cardRefusal_eq slots s)
    refine ⟨fun h => hrefuse _ (htests.trans (if_pos h)), fun h => ?_⟩
    rw [if_neg (by simpa using Option.isSome_iff_ne_none.mp h)] at htests
    refine ⟨fun h => hrefuse _ (htests.trans (if_pos h)), fun h => ?_⟩
    rw [if_neg (by simp [h])] at htests
    refine ⟨fun h => hrefuse _ (htests.trans (if_pos h)), fun h hlimit => ?_⟩
    rw [if_neg (by omega)] at htests
    refine hrefuse _ (htests.trans (if_pos ?_))
    rw [sumDue_eq]
    exact hlimit

end Sys2Proof.Machine
end

