-- ==== Sys2Proof/Proofs/Tips.lean ====
section
/-!
PROOF. The three ways into AUTHORISING.
-/

set_option Elab.async false

namespace Sys2Proof.Machine

/-! ### PAY_TIP (R66, R69) -/

theorem askedTip?_preset {value : Nat} (h : value = 0 ∨ 4 < value) (s : State) : askedTip? 0 value s = none := by
  match value with
  | 0 => rfl
  | 1 | 2 | 3 | 4 => omega
  | n + 5 => rfl

/-- What a tip asks for by its selector. -/
theorem askedTip?_some {selector value asked : Nat} {s : State}
    (h : selector = 1 ∧ asked = value
      ∨ selector = 0 ∧ ∃ pct, (value = 1 ∧ pct = s.settle.settings.preset1
          ∨ value = 2 ∧ pct = s.settle.settings.preset2 ∨ value = 3 ∧ pct = s.settle.settings.preset3
          ∨ value = 4 ∧ pct = s.settle.settings.preset4) ∧ asked = (s.settle.session.due * pct + 50) / 100) :
    askedTip? selector value s = some asked := by
  rcases h with ⟨rfl, rfl⟩ | ⟨rfl, pct, hpct, rfl⟩
  · rfl
  · rcases hpct with ⟨rfl, rfl⟩ | ⟨rfl, rfl⟩ | ⟨rfl, rfl⟩ | ⟨rfl, rfl⟩ <;> rfl

theorem takePayTip_waiting {selector value : Nat} {s : State} (h : s.settle.session.state = .tipWait) :
    takePayTip selector value s = match askedTip? selector value s with
      | some asked => takesTip asked s
      | none => refuse .badValue s := by
  simp only [takePayTip, h] <;> rfl

theorem takePayTip_wrong {selector value : Nat} {s : State} (h : s.settle.session.state ≠ .tipWait) :
    takePayTip selector value s = refuse .wrongState s := by
  unfold takePayTip
  split
  · next ht => exact absurd ht h
  · rfl

theorem bitsOf_two (a b : Bool) :
    bitsOf [a, b] = (if a = true then 1 else 0) + if b = true then 2 else 0 := by
  cases a <;> cases b <;> rfl

/-- The tip after the limit, where due and fee are within it. -/
theorem finalTip_eq {g : Settings} {due fee asked : Nat} (h : due + fee ≤ g.limit) :
    finalTip g due fee asked
      = if g.limit < due + fee + ceiledTip g due asked then g.limit - due - fee else ceiledTip g due asked := by
  unfold finalTip
  split <;> omega

/-! ### PAY_AUTHORISE (R77) -/

theorem takePayAuthorise_retry {s : State} (h : s.settle.session.state = .retryWait) :
    takePayAuthorise s
      = if s.tender.up = false then refuse .terminalDown s
        else if 4 ≤ s.settle.reversals.length then refuse .terminalBusy s
        else (enterAuthorising (setSession (fun p => { p with attempt := some (s.settle.session.attempt.getD 0 + 1) }) s),
          .ok [.u8 (s.settle.session.attempt.getD 0 + 1)]) := by
  simp only [takePayAuthorise, h, Bool.not_eq_true']

theorem takePayAuthorise_wrong {s : State} (h : s.settle.session.state ≠ .retryWait) :
    takePayAuthorise s = refuse .wrongState s := by
  unfold takePayAuthorise
  split
  · next ht => exact absurd ht h
  · rfl

theorem tipExpires_waiting {s : State} (h : s.settle.session.state = .tipWait) :
    tipExpires s = enterAuthorising (setSession (fun p => p.withTip 0 false false) s) := by
  simp only [tipExpires, h]

/-- The entry of a taken request, with its answer placed. -/
theorem entersAuthorising_answered {p : Session} {s t : State} (h : entersAuthorising p s t) (k : ReqKind) (a : Answer) :
    entersAuthorising p s (answered k a t) := by
  obtain ⟨hframe, hsettle, htender, hspeakers, hsaid⟩ := h
  exact ⟨answered_changesOnly hframe k a (by simp), hsettle, htender, hspeakers, hsaid.answered k a⟩

/-- Settles O39. -/
theorem threeWaysIntoAuthorising : Obligations.ThreeWaysIntoAuthorising := by
  rintro s p rfl
  refine ⟨fun h hready selector value asked hasked hlimit => ?_, fun h hready value hv => ?_,
    fun h hready selector value => exec_refused hready rfl (takePayTip_wrong h), fun h hrun => ?_,
    fun h hready => ⟨fun hdown => ?_, fun hup hfull => ?_, fun hup hroom n hn => ?_⟩,
    fun h hready => exec_refused hready rfl (takePayAuthorise_wrong h)⟩
  · have hrule : takePayTip selector value s = takesTip asked s := by
      rw [takePayTip_waiting h, askedTip?_some hasked]
    refine ⟨_, decide (tipCeiling s.settle.settings s.settle.session.due < asked),
      decide (s.settle.settings.limit < s.settle.session.due + s.settle.session.fee
        + ceiledTip s.settle.settings s.settle.session.due asked),
      finalTip s.settle.settings s.settle.session.due s.settle.session.fee asked,
      exec_taken hready rfl (hrule.trans rfl),
      entersAuthorising_answered (enterAuthorising_enters (fun q => q.withTip _ _ _) s) _ _, decide_eq_true_iff,
      ⟨decide_eq_true_iff, ?_⟩, ?_⟩
    · rw [finalTip_eq hlimit]
      rfl
    · refine replyIs_of_eq ?_ _ _
      simp only [Answer.okOr, Bool.or_eq_true, bitsOf_two]
      rfl
  · refine exec_refused hready rfl ?_
    rw [takePayTip_waiting h, askedTip?_preset hv]
  · rw [exec_running hrun (g := tipExpires) rfl, tipExpires_waiting h]
    exact ⟨_, rfl, enterAuthorising_enters (fun q => q.withTip 0 false false) s⟩
  · exact exec_refused hready rfl ((takePayAuthorise_retry h).trans (if_pos hdown))
  · exact exec_refused hready rfl (by rw [takePayAuthorise_retry h, if_neg (by simp [hup]), if_pos hfull])
  · have hrule := takePayAuthorise_retry h
    rw [if_neg (by simp [hup]), if_neg (by omega), hn] at hrule
    exact ⟨_, exec_taken hready rfl hrule, entersAuthorising_answered (enterAuthorising_enters _ s) _ _,
      replyIs_answered _ _ _⟩

end Sys2Proof.Machine
end

