-- ==== Sys2Proof/Proofs/Settlements.lean ====
section
/-!
PROOF. Settlement: what a session that settles leaves, and the three ways to it.
-/

set_option Elab.async false

namespace Sys2Proof.Machine

/-! ### What a release leaves (R55) -/

theorem mem_slotsPaying (e : FareEngine) (p : Nat) (i : Slot) : i ∈ e.slotsPaying p ↔ (e.legs.get i).paysUnder p = true := by
  have hmem : i ∈ Slot.all := by cases i <;> simp [Slot.all]
  simp [FareEngine.slotsPaying, hmem]

theorem foldl_freeLeg_seatMap (slots : List Slot) (e : FareEngine) (x : Seat) :
    (slots.foldl FareEngine.freeLeg e).seatMap.get x
      = if ∃ i ∈ slots, e.seatMap.get x = some i then none else e.seatMap.get x := by
  induction slots generalizing e with
  | nil => simp
  | cons j js ih =>
    have hfree : (e.freeLeg j).seatMap.get x = if e.seatMap.get x = some j then none else e.seatMap.get x :=
      freeSeats_get j e.seatMap x
    rw [List.foldl_cons, ih, hfree]
    by_cases hj : e.seatMap.get x = some j <;> simp [hj]

theorem foldl_freeLeg_tables (slots : List Slot) (e : FareEngine) :
    (slots.foldl FareEngine.freeLeg e).tariffs = e.tariffs ∧ (slots.foldl FareEngine.freeLeg e).schedule = e.schedule
      ∧ (slots.foldl FareEngine.freeLeg e).kinds = e.kinds := by
  induction slots generalizing e with
  | nil => exact ⟨rfl, rfl, rfl⟩
  | cons j js ih => exact ih (e.freeLeg j)

/-! ### What a session that settles leaves (R80) -/

/-- `s` may differ from the state `u` the session settles in where the statement does not look, if the legs paid
are those PAYING under its id. -/
theorem settles_settledAs {close : Session → Session} {paid : List LegPaid} {s u : State}
    (hjournal : u.journal = s.journal) (hshifts : u.shifts = s.shifts) (hspeakers : u.speakers = s.speakers)
    (hmap : u.fare.seatMap = s.fare.seatMap) (htables : tablesKept s u)
    (htrips : ∀ x ∈ paid, settledTrip x u = settledTrip x s)
    (hpaid : ∀ i, (u.leg i).paysUnder u.settle.session.paymentId = true ↔ ∃ x ∈ paid, x.slot = i)
    (hothers : ∀ i, (¬∃ x ∈ paid, x.slot = i) → u.leg i = s.leg i)
    (hsign : oneSign (paid.map (fun x => settledTrip x s))) :
    settledAs (close u.settle.session) paid s (settles close paid u) := by
  have hrecords : paid.map (fun x => settledTrip x u) = paid.map (fun x => settledTrip x s) :=
    List.map_congr_left htrips
  have hsum : (settles close paid u).shifts
      = (addTotals (Totals.addTrips (paid.map (fun x => settledTrip x s))) s).shifts := by
    rw [settles_shifts, hrecords]
    exact addTotals_shifts_congr hshifts _
  have hfare := settles_fare close paid u
  obtain ⟨htariffs, hschedule, hkinds⟩ := foldl_freeLeg_tables (u.fare.slotsPaying u.settle.session.paymentId) u.fare
  refine ⟨by simp, by simp, by rw [settles_journal, hrecords, hjournal], fun hopen => ?_, fun hclosed => ?_, ?_,
    fun i => ?_, fun x => ?_, ⟨?_, ?_, ?_⟩, ?_, ?_⟩
  · rw [hsum, addTotals_open hopen]
    exact ⟨rfl, fun hrange => totalsAdded_addTrips hsign hrange⟩
  · rw [hsum, addTotals_closed hclosed]
  · rw [hsum]
    exact addTotals_reports _ s
  · have hleg : (settles close paid u).leg i
        = if (u.leg i).paysUnder u.settle.session.paymentId = true then Leg.blank else u.leg i := by
      rw [State.leg, hfare, FareEngine.release_get]
      rfl
    rw [hleg]
    by_cases h : ∃ x ∈ paid, x.slot = i
    · rw [if_pos h, if_pos ((hpaid i).mpr h)]
    · rw [if_neg h, if_neg (fun hp => h ((hpaid i).mp hp))]
      exact hothers i h
  · rw [hfare, FareEngine.release, foldl_freeLeg_seatMap, hmap]
    refine if_congr ?_ rfl rfl
    constructor
    · rintro ⟨i, hi, hx⟩
      obtain ⟨y, hy, rfl⟩ := (hpaid i).mp ((mem_slotsPaying _ _ _).mp hi)
      exact ⟨y, hy, hx⟩
    · rintro ⟨y, hy, hx⟩
      exact ⟨y.slot, (mem_slotsPaying _ _ _).mpr ((hpaid _).mpr ⟨y, hy, rfl⟩), hx⟩
  · rw [hfare]
    exact htariffs.trans htables.1
  · rw [hfare]
    exact hschedule.trans htables.2.1
  · rw [hfare]
    exact hkinds.trans htables.2.2
  · simp only [settles, raisePayment_rest]
    refine askTone_speakers_congr (Eq.trans ?_ hspeakers) _
    simp
  · have := raisePayment_announced (s := askTone .approved (releaseLegs u.settle.session.paymentId
      (recordsTrips (paid.map (fun x => settledTrip x u)) (setTimer none (setSession close u))))) rfl
    simpa [settles] using this

/-- The same for a request that was taken. -/
theorem settledAs.answered {p : Session} {paid : List LegPaid} {s t : State} (h : settledAs p paid s t) (k : ReqKind)
    (a : Answer) : settledAs p paid s (answered k a t) := by
  obtain ⟨hsession, htimer, hjournal, hopen, hclosed, hreports, hlegs, hmap, htables, hspeakers, hsaid⟩ := h
  exact ⟨hsession, htimer, hjournal, hopen, hclosed, hreports, hlegs, hmap, (tablesKept_answered k a s t).mpr htables, hspeakers,
    hsaid.answered k a⟩

/-! ### The legs of a session and their shares -/

theorem map_slot_zip {β : Type} (slots : List Slot) (ys : List β) (g : Slot × β → TripTender)
    (h : slots.length = ys.length) : ((slots.zip ys).map (fun x => (⟨x.1, g x⟩ : LegPaid))).map LegPaid.slot = slots := by
  rw [List.map_map]
  exact List.map_fst_zip (Nat.le_of_eq h)

theorem cardShares_slots (p : Session) (a : Text) : (cardShares p a).map LegPaid.slot = p.slots :=
  map_slot_zip _ _ _ (by simp [length_apportion, Session.slots, Session.dues])

theorem cashShares_slots (p : Session) (z : Int) : (cashShares p z).map LegPaid.slot = p.slots :=
  map_slot_zip _ _ _ (by simp [length_apportionSigned, Session.slots, Session.dues])

theorem paidSlot_iff {paid : List LegPaid} {slots : List Slot} (h : paid.map LegPaid.slot = slots) (i : Slot) :
    (∃ x ∈ paid, x.slot = i) ↔ i ∈ slots := by
  subst h
  simp

/-- The PAYING legs of an open session are those it names, under its id (R53). -/
theorem paysUnder_session {s : State} (h : sessionKept s) (hopen : s.settle.session.state.isOpen = true) (i : Slot) :
    (s.leg i).paysUnder s.settle.session.paymentId = true ↔ i ∈ s.settle.session.slots := by
  obtain ⟨hpaying, hid⟩ := ((sessionKept_iff s).mp h).2.2.2
  constructor
  · intro hp
    have hp' : (s.leg i).state = .paying ∧ (s.leg i).paymentId = some s.settle.session.paymentId := by
      simpa [Leg.paysUnder] using hp
    exact ((hpaying i).mp hp'.1).2
  · intro hi
    have hp : (s.leg i).state = .paying := (hpaying i).mpr ⟨hopen, hi⟩
    simp [Leg.paysUnder, hp, show (s.leg i).paymentId = _ from hid i hp]

/-! ### The shares are of one sign -/

theorem oneSign_card (p : Session) (a : Text) (s : State) : oneSign ((cardShares p a).map (fun x => settledTrip x s)) := by
  refine .inl (fun q hq => ?_)
  simp only [cardShares, List.map_map, List.mem_map] at hq
  obtain ⟨x, -, rfl⟩ := hq
  exact Int.le_refl 0

theorem apportionSigned_sign {z x : Int} {due : Nat} {dues : List Nat} (h : x ∈ apportionSigned z due dues) :
    (0 ≤ z → 0 ≤ x) ∧ (z < 0 → x ≤ 0) := by
  rcases Int.lt_or_le z 0 with hz | hz
  · rw [apportionSigned_neg hz, sharesAsInts_eq, List.map_map] at h
    obtain ⟨n, -, rfl⟩ := List.mem_map.mp h
    simp only [Function.comp_apply]
    omega
  · rw [apportionSigned_nonneg hz, sharesAsInts_eq, List.map_map] at h
    obtain ⟨n, -, rfl⟩ := List.mem_map.mp h
    simp only [Function.comp_apply]
    omega

theorem oneSign_cash (p : Session) (z : Int) (s : State) : oneSign ((cashShares p z).map (fun x => settledTrip x s)) := by
  have hshare : ∀ q ∈ (cashShares p z).map (fun x => settledTrip x s),
      q.tender.adjustment ∈ apportionSigned z p.due p.dues := by
    intro q hq
    simp only [cashShares, List.map_map, List.mem_map] at hq
    obtain ⟨x, hx, rfl⟩ := hq
    exact (List.of_mem_zip hx).2
  rcases Int.lt_or_le z 0 with hz | hz
  · exact .inr (fun q hq => (apportionSigned_sign (hshare q hq)).2 hz)
  · exact .inl (fun q hq => (apportionSigned_sign (hshare q hq)).1 hz)

/-! ### The three settlements -/

/-- The sequence numbers of `n` records from the next on, after their count. -/
def numbersFrom (next n : Nat) : List Field := .u8 n :: (List.range n).map (fun k => .u32 (next + k))

theorem sequenceFields_eq (s : State) : sequenceFields s = numbersFrom s.journal.next s.settle.session.legs.length := by
  rw [sequenceFields, countedList_eq, numbersFrom, List.length_range, List.map_eq_flatMap]

theorem takePayCash_retry {s : State} (h : s.settle.session.state = .retryWait) :
    takePayCash s = (settlesByCash s, .ok ([.u32 (settlesByCash s).settle.session.total,
      .i8 ((settlesByCash s).settle.session.cashAdjustment.getD 0)] ++ sequenceFields s)) := by
  simp only [takePayCash, h]

theorem takePayCash_wrong {s : State} (h : s.settle.session.state ≠ .retryWait) :
    takePayCash s = refuse .wrongState s := by
  unfold takePayCash
  split
  · next ht => exact absurd ht h
  · rfl

/-- An approval of the total. -/
theorem settlesByCard_settledAs {s : State} (h : sessionKept s) (hopen : s.settle.session.state.isOpen = true)
    (m : TermMsg) (r : Ref) (a : Text) :
    settledAs { s.settle.session.close .settled .approved s.clock.count with authCode := some a }
      (cardShares s.settle.session a) s (settlesByCard a (removeStale r (tookMessage m s))) :=
  settles_settledAs (u := removeStale r (tookMessage m s)) rfl rfl rfl rfl ⟨rfl, rfl, rfl⟩ (fun _ _ => rfl)
    (fun i => (paysUnder_session h hopen i).trans (paidSlot_iff (cardShares_slots _ a) i).symm) (fun _ _ => rfl)
    (oneSign_card _ a s)

/-- The open session in cash. -/
theorem settlesByCash_settledAs {s : State} (h : sessionKept s) (hopen : s.settle.session.state.isOpen = true) :
    settledAs (s.settle.session.paidCash s.settle.settings.cashUnit s.clock.count)
      (cashShares s.settle.session (cashDifference s.settle.settings.cashUnit s.settle.session.due)) s
      (settlesByCash s) :=
  settles_settledAs rfl rfl rfl rfl ⟨rfl, rfl, rfl⟩ (fun _ _ => rfl)
    (fun i => (paysUnder_session h hopen i).trans (paidSlot_iff (cashShares_slots _ _) i).symm) (fun _ _ => rfl)
    (oneSign_cash _ _ s)

/-- A payment begun in cash. -/
theorem beginsCash_settledAs {s : State} (h : sessionKept s) (hclosed : s.settle.session.state.isOpen = false)
    (slots : List Slot) (offer : Bool) :
    settledAs ((begunSession slots .cash offer s).paidCash s.settle.settings.cashUnit s.clock.count)
      (cashShares (begunSession slots .cash offer s)
        (cashDifference s.settle.settings.cashUnit (begunSession slots .cash offer s).due)) s
      (settlesByCash (beginsPayment slots .cash offer s)) := by
  have hacts := beginsPayment_acts slots .cash offer s
  obtain ⟨h1, h2, h3, h4⟩ := lock_tables s.fare s.settle.nextId slots
  have hfare := beginsPayment_fare slots .cash offer s
  have hslots : (begunSession slots .cash offer s).slots = slots := by
    simp [begunSession, Session.slots, legDues, Function.comp_def]
  have hpaid (z : Int) := paidSlot_iff ((cashShares_slots (begunSession slots .cash offer s) z).trans hslots)
  have hnone := FareEngine.nonePaying_of_closed ((sessionKept_iff s).mp h).2.2.2 hclosed
  have hsettled := settles_settledAs (close := fun p => p.paidCash s.settle.settings.cashUnit s.clock.count)
    (paid := cashShares (begunSession slots .cash offer s)
        (cashDifference s.settle.settings.cashUnit (begunSession slots .cash offer s).due))
    (s := s) (u := beginsPayment slots .cash offer s)
    (hacts.same .journal) (hacts.same .shifts) (hacts.same .speakers) (by rw [hfare, h4])
    (by rw [tablesKept, hfare]; exact ⟨h1, h2, h3⟩) (fun x _ => ?_) (fun i => ?_) (fun i hi => ?_) (oneSign_cash _ _ s)
  · rw [beginsPayment_settle] at hsettled
    have hclock : (beginsPayment slots .cash offer s).clock = s.clock := hacts.same .clock
    have hcash : settlesByCash (beginsPayment slots .cash offer s)
        = settles (fun p => p.paidCash s.settle.settings.cashUnit s.clock.count)
          (cashShares (begunSession slots .cash offer s)
            (cashDifference s.settle.settings.cashUnit (begunSession slots .cash offer s).due))
          (beginsPayment slots .cash offer s) := by
      simp only [settlesByCash, beginsPayment_settle, hclock]
    rw [hcash]
    exact hsettled
  · have hnumber : (beginsPayment slots .cash offer s).shifts = s.shifts := hacts.same .shifts
    have hclock : (beginsPayment slots .cash offer s).clock = s.clock := hacts.same .clock
    rw [settledTrip, settledTrip, beginsPayment_legs, hnumber, hclock]
    split <;> rfl
  · rw [hpaid, beginsPayment_legs, beginsPayment_settle]
    by_cases hi : i ∈ slots
    · rw [if_pos hi]
      exact iff_of_true (by simp [Leg.paysUnder, begunSession]) hi
    · rw [if_neg hi]
      have hidle : (s.leg i).state ≠ .paying := hnone i
      exact iff_of_false (by simp [Leg.paysUnder, hidle]) hi
  · rw [beginsPayment_legs, if_neg (fun h => hi ((hpaid _ i).mpr h))]

theorem beginsCash_eq (slots : List Slot) (offer : Bool) (s : State) :
    beginsCash slots offer s
      = (settlesByCash (beginsPayment slots .cash offer s),
          .ok ([.u16 s.settle.nextId, .u8 SessionState.settled.ctorIdx, .u32 (sumDue slots s),
            .u32 (roundedDue s.settle.settings.cashUnit (sumDue slots s)),
            .i8 (cashDifference s.settle.settings.cashUnit (sumDue slots s))]
            ++ numbersFrom s.journal.next slots.length)) := by
  have hacts := beginsPayment_acts slots .cash offer s
  have hclock : (beginsPayment slots .cash offer s).clock = s.clock := hacts.same .clock
  have hjournal : (beginsPayment slots .cash offer s).journal = s.journal := hacts.same .journal
  have hlegs : (begunSession slots .cash offer s).legs.length = slots.length := by simp [begunSession, legDues]
  have hsession : (settlesByCash (beginsPayment slots .cash offer s)).settle.session
      = (begunSession slots .cash offer s).paidCash s.settle.settings.cashUnit s.clock.count := by
    rw [settlesByCash, settles_settle, beginsPayment_settle, hclock]
  rw [beginsCash, sequenceFields_eq, beginsPayment_settle, hjournal, hlegs, hsession]
  rfl

/-- Settles O42. -/
theorem paymentsSettleInOneEvent : Obligations.PaymentsSettleInOneEvent := by
  intro s hsession _
  refine ⟨fun hrun hopen r a hr => ?_, fun hready hretry => ?_, fun hready h => exec_refused hready rfl (takePayCash_wrong h),
    fun hready slots legs offer due hshift hmotion hslots hne hoffer hstopped hclosed hdue => ?_⟩
  · have hexec := exec_message (c := .tApproved r s.settle.session.total a) hrun rfl
    have happroves : approves r s.settle.session.total a (tookMessage (.approved r s.settle.session.total a) s)
        = settlesByCard a (removeStale r (tookMessage (.approved r s.settle.session.total a) s)) := by
      rw [approves, if_pos (show (tookMessage _ s).settle.session.outstanding = some r from hr), takesApproval]
      exact if_pos rfl
    rw [happroves] at hexec
    refine ⟨_, hexec, ?_, settlesByCard_settledAs hsession hopen _ r a, ?_, ?_⟩
    · exact (((withTender_acts s _).seq (removeStale_acts r _)).seq (settles_acts _ _ _)).widen.frame
    · rw [settlesByCard, settles_settle, ← filter_bne]
      rfl
    · rw [settlesByCard, settles_settle]
      rfl
  · have hopen : s.settle.session.state.isOpen = true := by rw [hretry]; rfl
    refine ⟨_, exec_taken hready rfl (takePayCash_retry hretry), (settlesByCash_acts s).answered _ _ (by simp) (by simp),
      (settlesByCash_settledAs hsession hopen).answered _ _, replyIs_of_eq ?_ _ _⟩
    rw [sequenceFields_eq, settlesByCash, settles_settle]
    rfl
  · rw [← sumDue_eq] at hdue
    subst hdue
    have hnone : beginRefusal slots .cash s = none := by
      rw [beginRefusal_eq, if_neg (by simp [hshift]), if_neg (by simp [hmotion]), if_neg, if_neg, if_neg (by simp [hclosed])]
      · rw [anyUnstopped_iff]
        exact fun ⟨i, hi, hx⟩ => hx (hstopped i hi)
      · rw [anyPaying_iff]
        rintro ⟨i, hi, hx⟩
        rw [hstopped i hi] at hx
        cases hx
    have hrule := takePayBegin_good hslots hne (Nat.le_refl 1) (show offer ≤ 1 by omega) s
    rw [if_neg (by decide), hnone] at hrule
    have hsettled := beginsCash_settledAs hsession hclosed slots (decide (offer = 1))
    have hacts := beginsPayment_acts slots .cash (decide (offer = 1)) s
    replace hrule := hrule.trans (show beginsCash slots (decide (offer = 1)) s = _ from beginsCash_eq slots _ s)
    refine ⟨_, (begunSession slots .cash (decide (offer = 1)) s).paidCash s.settle.settings.cashUnit s.clock.count,
      exec_taken hready rfl hrule, ?_, hsettled.answered _ _, rfl, rfl, rfl, rfl, rfl, rfl, rfl, ?_, rfl, rfl, ?_,
      replyIs_of_eq ?_ _ _⟩
    · exact (hacts.seq (settlesByCash_acts _)).answered _ _ (by simp) (by simp)
    · simp [begunSession, Session.paidCash, Session.close, Session.slots, legDues, Function.comp_def]
    · rw [answered_settle, settlesByCash, settles_settle, beginsPayment_settle, nextPaymentId]
      by_cases h : s.settle.nextId < 65535
      · rw [if_neg (by omega), if_pos h]
      · rw [if_pos (by omega), if_neg h]
    · rfl

end Sys2Proof.Machine
end

