-- ==== Sys2Proof/Proofs/Reversals.lean ====
section
/-!
PROOF. Approvals that are reversed, and the reversal list.
-/

set_option Elab.async false

namespace Sys2Proof.Machine

/-! ### The reversal list (R79) -/

theorem dropReversal_eq (r : Ref) (es : List Reversal) : dropReversal r es = es.eraseP (fun e => e.ref = r) := by
  induction es with
  | nil => rfl
  | cons e es ih =>
    rw [dropReversal, List.eraseP_cons, ih]
    by_cases h : e.ref = r <;> simp [h]

/-- Only the entry named starts anew. -/
theorem restartResend_split (before after : List Reversal) (e : Reversal) :
    restartResend before.length (before ++ e :: after) = before ++ { e with left := 3000 } :: after := by
  refine List.ext_getElem (by simp [restartResend]) (fun i h1 h2 => ?_)
  simp only [restartResend, List.getElem_mapIdx]
  rcases Nat.lt_trichotomy i before.length with h | rfl | h
  · rw [if_neg (by omega), List.getElem_append_left h, List.getElem_append_left h]
  · simp
  · rw [if_neg (by omega), List.getElem_append_right (by omega), List.getElem_append_right (by omega),
      List.getElem_cons, List.getElem_cons, dif_neg (by omega), dif_neg (by omega)]

/-- The reversal list and the count of entries not held, by the room. -/
theorem makeReversal_placed (places : Nat) (r : Ref) (amount : Nat) (s : State) :
    (makeReversal places r amount s).settle
      = { s.settle with
          reversals := if s.settle.reversals.length < places then s.settle.reversals ++ [⟨r, amount, 3000⟩]
            else s.settle.reversals
          unheld := if s.settle.reversals.length < places then s.settle.unheld else min 255 (s.settle.unheld + 1) } := by
  rw [makeReversal_settle]
  by_cases h : s.settle.reversals.length < places
  · rw [if_pos (by simpa [reversalPlaced] using h), if_pos h, if_pos h]
  · rw [if_neg (by simpa [reversalPlaced] using h), if_neg h, if_neg h]
    rfl

theorem makeReversal_shifts (places : Nat) (r : Ref) (amount : Nat) (s : State) :
    (makeReversal places r amount s).shifts = (addTotals Totals.addReversal s).shifts := by
  refine addTotals_shifts_congr ?_ _
  exact (sendFrame_acts _ s).same .shifts

/-! ### Approvals -/

theorem approves_late {r : Ref} {n : Nat} {a : Text} {s : State} (h : s.settle.session.outstanding ≠ some r) :
    approves r n a s = takesLateApproval r n s := if_neg h

theorem approves_other {r : Ref} {n : Nat} {a : Text} {s : State} (h : s.settle.session.outstanding = some r)
    (hn : n ≠ s.settle.session.total) :
    approves r n a s = abortEnds .amountMismatch (makeReversal 4 r n (removeStale r s)) := by
  rw [approves, if_pos h, takesApproval]
  exact if_neg hn

theorem takesLateApproval_shifts (r : Ref) (n : Nat) (s : State) :
    (takesLateApproval r n s).shifts = (addTotals Totals.addLate (addTotals Totals.addReversal s)).shifts := by
  refine Eq.trans ((raise_acts _ _ _).same .shifts) (addTotals_shifts_congr ?_ _)
  exact makeReversal_shifts 5 r n s

theorem declines_late {r : Ref} {n : Nat} {s : State} (h : s.settle.session.outstanding ≠ some r) :
    declines r n s = removeStale r s := if_neg h

theorem confirmsAbort_late {r : Ref} {s : State} (h : s.settle.session.outstanding ≠ some r) :
    confirmsAbort r s = removeStale r s := if_neg h

/-- A late approval, told with whether its reference was remembered and its reversal found a place. -/
theorem takesLateApproval_announced (r : Ref) (n : Nat) (s : State) :
    announced .lateApproval (refFields r ++ [.u32 n, .u8 (if r ∈ s.settle.stale then 1 else 0),
      .u8 (if s.settle.reversals.length < 5 then 1 else 0)]) (takesLateApproval r n s) := by
  have hsaid := announced_raise .lateApproval
    (refFields r ++ [.u32 n, yesNo (s.settle.stale.contains r), yesNo (reversalPlaced 5 s)])
    (addTotals Totals.addLate (removeStale r (makeReversal 5 r n s)))
  have hheld : yesNo (s.settle.stale.contains r) = .u8 (if r ∈ s.settle.stale then 1 else 0) := by
    by_cases h : r ∈ s.settle.stale <;> simp [yesNo, h]
  have hplaced : yesNo (reversalPlaced 5 s) = .u8 (if s.settle.reversals.length < 5 then 1 else 0) := by
    by_cases h : s.settle.reversals.length < 5 <;> simp [yesNo, reversalPlaced, h]
  rw [takesLateApproval, hheld, hplaced]
  rw [hheld, hplaced] at hsaid
  exact hsaid

/-- What a mismatching approval of the reference outstanding leaves at the session, the shift and the speakers. -/
theorem mismatch_ends (m : TermMsg) (r : Ref) (n : Nat) (s : State) :
    let t := abortEnds .amountMismatch (makeReversal 4 r n (removeStale r (tookMessage m s)))
    (s.settle.session.abortCause = some .cancel →
        closedUnpaid s.settle.session .cancelled .host s t ∧ t.shifts = (addTotals Totals.addReversal s).shifts
          ∧ t.speakers = s.speakers)
      ∧ (s.settle.session.abortCause ≠ some .cancel →
        attemptEnded .amountMismatch { s with shifts := (addTotals Totals.addReversal s).shifts } t) := by
  have hacts := makeReversal_acts 4 r n (removeStale r (tookMessage m s))
  have htotals : (addTotals Totals.addReversal (removeStale r (tookMessage m s))).shifts
      = (addTotals Totals.addReversal s).shifts := addTotals_shifts_congr (by rfl) _
  exact abortEnds_ends (s := { s with shifts := (addTotals Totals.addReversal s).shifts })
    (makeReversal_session 4 r n _) (makeReversal_fare 4 r n _) (hacts.same .clock) (hacts.same .speakers)
    ((makeReversal_shifts 4 r n _).trans htotals)

/-- Settles O43. -/
theorem reversalsAreSentAndHeld : Obligations.ReversalsAreSentAndHeld := by
  intro s r hrun
  refine ⟨fun n a h => ?_, fun n a h _ hn => ?_, ?_, fun h n => ?_, fun before after e h => ?_⟩
  · have hexec := exec_message (c := .tApproved r n a) hrun rfl
    rw [approves_late (s := tookMessage _ s) h] at hexec
    refine ⟨_, hexec, ((withTender_acts s _).seq (takesLateApproval_acts r n _)).widen.frame, ?_, ?_, ?_,
      takesLateApproval_announced r n (tookMessage _ s)⟩
    · rw [takesLateApproval_settle, ← filter_bne]
      exact congrArg (fun u : Settlement => { u with stale := u.stale.filter (· != r) })
        (makeReversal_placed 5 r n (tookMessage _ s))
    · have htender : (takesLateApproval r n (tookMessage (.approved r n a) s)).tender
          = (makeReversal 5 r n (tookMessage (.approved r n a) s)).tender :=
        (((removeStale_acts r _).seq (addTotals_acts _ _)).seq (raise_acts _ _ _)).same .tender
      rw [htender, makeReversal_tender]
      exact congrArg (fun u : TenderLink => (u.give s.pins.cts (.reverse r n)).1) (TenderLink.handedOver_eq s.tender _)
    · exact (takesLateApproval_shifts r n _).trans (addTotals_shifts_congr (addTotals_shifts_congr (by rfl) _) _)
  · have hexec := exec_message (c := .tApproved r n a) hrun rfl
    rw [approves_other (s := tookMessage _ s) h hn] at hexec
    obtain ⟨hcancel, hother⟩ := mismatch_ends (.approved r n a) r n s
    obtain ⟨hstale, hreversals, hunheld, htender⟩ :=
      abortEnds_rest .amountMismatch (makeReversal 4 r n (removeStale r (tookMessage (.approved r n a) s)))
    rw [makeReversal_placed] at hstale hreversals hunheld
    refine ⟨_, hexec, ?_, hreversals, hunheld, hstale.trans (removeStale_stale r (tookMessage (.approved r n a) s)), ?_,
      fun hc => ?_, fun hc => ?_⟩
    · exact ((((withTender_acts s _).seq (removeStale_acts r _)).seq (makeReversal_acts 4 r n _)).seq
        (abortEnds_acts _ _)).widen.frame
    · rw [htender, makeReversal_tender]
      exact congrArg (fun u : TenderLink => (u.give s.pins.cts (.reverse r n)).1) (TenderLink.handedOver_eq s.tender _)
    · obtain ⟨hclosed, hshifts, hspeakers⟩ := hcancel hc
      exact ⟨hclosed, hspeakers, hshifts⟩
    · obtain ⟨hretry, hfailed, hspeakers, hshifts, hsaid⟩ := hother hc
      exact ⟨hshifts.trans (addTotals_shifts_congr (by rfl) _), hspeakers.trans (askTone_speakers_congr (by rfl) _), hsaid, hretry,
        hfailed⟩
  · refine ⟨_, exec_message (c := .tReversed r) hrun rfl, ?_, ?_, TenderLink.handedOver_eq _ _⟩
    · exact ((withTender_acts s _).seq (withSettle_acts _ _)).widen.frame
    · rw [← dropReversal_eq]
      rfl
  · have hdeclined := exec_message (c := .tDeclined r n) hrun rfl
    have haborted := exec_message (c := .tAborted r) hrun rfl
    rw [declines_late (s := tookMessage _ s) h] at hdeclined
    rw [confirmsAbort_late (s := tookMessage _ s) h] at haborted
    refine ⟨_, _, hdeclined, haborted, ((withTender_acts s _).seq (removeStale_acts r _)).widen.frame,
      ((withTender_acts s _).seq (removeStale_acts r _)).widen.frame, ?_, rfl, TenderLink.handedOver_eq _ _,
      TenderLink.handedOver_eq _ _⟩
    rw [← filter_bne]
    rfl
  · have hentry : s.settle.reversals[before.length]? = some e := by simp [h]
    have hresend : resendExpires before.length s
        = sendFrame (.reverse e.ref e.amount)
          { s with settle := { s.settle with reversals := before ++ { e with left := 3000 } :: after } } := by
      rw [resendExpires, hentry, h, restartResend_split]
    refine ⟨_, (exec_running hrun (g := resendExpires before.length) rfl).trans (congrArg _ hresend), ?_, by simp, by simp⟩
    exact ((withSettle_acts s _).seq (sendFrame_acts _ _)).widen.frame

end Sys2Proof.Machine
end

