-- ==== Sys2Proof/Proofs/TenderReads.lean ====
section
/-!
PROOF. The tender link's receiving side: the ring, the frame reader and the terminal status.
-/

set_option Elab.async false

namespace Sys2Proof.Machine

/-! ### Arriving bytes (R88 to R90) -/

theorem TenderLink.breakMark_eq (t : TenderLink) (gap : Bool) :
    t.breakMark gap = ((match t.sinceByte with
      | some n => decide (6 ≤ n) || gap
      | none => false) || t.dropSince) := by
  unfold TenderLink.breakMark
  cases t.sinceByte <;> rfl

theorem byteArrives_room {b : Byte} {gap : Bool} {s : State} (h : s.tender.ring.length < 256) :
    byteArrives b gap s = { s with tender := s.tender.enter b gap } := if_neg (by omega)

theorem byteArrives_full {b : Byte} {gap : Bool} {s : State} (h : 256 ≤ s.tender.ring.length) :
    byteArrives b gap s = setTender (!s.tender.overflow) s.tender.dropByte s := if_pos h

/-- Where the flag is set, the notice of the new tender link is raised. -/
theorem setTender_announced {c : Bool} (hc : c = true) (t : TenderLink) (s : State) :
    announced .terminalLink (terminalPayload (setTender c t s).tender) (setTender c t s) := by
  rw [setTender_tender]
  exact announced_raiseIf hc _ _ _

/-! ### The reader's bytes (R88, R91) -/

theorem readByte_hunting {b : RingByte} {s : State} (h : s.tender.reader = .hunting) :
    readByte b s = { s with tender := s.tender.hunt b.byte } := by
  simp only [readByte, h]

theorem readByte_broken {b : RingByte} {s : State} {taken : List Byte} (h : s.tender.reader = .assembling taken)
    (hb : b.broken = true) :
    readByte b s = { s with tender := { s.tender with gapDiscards := incU16 s.tender.gapDiscards }.hunt b.byte } := by
  simp only [readByte, h, hb, if_true]

theorem readByte_assembling {b : RingByte} {s : State} {taken : List Byte} (h : s.tender.reader = .assembling taken)
    (hb : b.broken = false) : readByte b s = assembleByte taken b.byte s := by
  simp only [readByte, h, hb, Bool.false_eq_true, if_false]

theorem assembleByte_short {n b : Byte} {rest : List Byte} {s : State} (h : rest.length < n.toNat) :
    assembleByte (n :: rest) b s
      = { s with tender := { s.tender with reader := .assembling (n :: rest ++ [b]) } } :=
  if_pos (by simpa using h)

theorem assembleByte_last {n b : Byte} {rest : List Byte} {s : State} (h : rest.length = n.toNat) :
    assembleByte (n :: rest) b s = checkFrame (n :: rest ++ [b]) s :=
  if_neg (by simp [h])

/-- The state in which a whole frame is judged: the reader hunts again. -/
def readerFreed (s : State) : State := { s with tender := { s.tender with reader := .hunting } }

/-- The check byte is the last one taken. -/
theorem checkFrame_append (covered : List Byte) (b : Byte) (s : State) :
    checkFrame (covered ++ [b]) s
      = if b = crc8 covered then frameComplete (covered.getD 1 0) (covered.drop 2) (readerFreed s)
        else { readerFreed s with
          tender := { (readerFreed s).tender with crcDiscards := incU16 (readerFreed s).tender.crcDiscards } } := by
  rw [checkFrame]
  simp only [List.dropLast_concat, List.getLast?_append, List.getLast?_singleton, Option.some_or, Option.some.injEq]
  rfl

theorem frameAlive_tender (s : State) : (frameAlive s).tender = s.tender.alive := setTender_tender _ _ s

theorem frameComplete_malformed {kind : Byte} {body : List Byte} {s : State} (h : termMsg? kind body = none) :
    (frameComplete kind body s).tender = { s.tender.alive with malformed := incU16 s.tender.malformed } := by
  simp only [frameComplete, h, frameAlive_tender]
  rfl

theorem frameComplete_status {kind : Byte} {body : List Byte} {x : Readiness} {n : Nat} {s : State}
    (h : termMsg? kind body = some (.status x n)) :
    (frameComplete kind body s).tender = { s.tender.alive with readiness := some x, lastAnswered := some n } := by
  simp only [frameComplete, h, takesStatus, setTender_tender, frameAlive_tender]

theorem frameComplete_handedOn {kind : Byte} {body : List Byte} {m : TermMsg} {s : State}
    (h : termMsg? kind body = some m) (hm : ∀ x n, m ≠ .status x n) :
    (frameComplete kind body s).tender = { s.tender.alive with handedOn := some m } := by
  rw [← frameAlive_tender]
  rw [frameComplete, h]
  cases m with
  | status x n => exact absurd rfl (hm x n)
  | progress | approved | declined | aborted | reversed => rfl

/-- The oldest byte has left the ring; the fill at 64 asserts TL_RTS (R89). -/
def byteTaken (bs : List RingByte) (s : State) : State :=
  { s with tender := { s.tender with ring := bs, rts := if bs.length = 64 then true else s.tender.rts } }

theorem readerTakes_next {b : RingByte} {bs : List RingByte} {s : State} (hm : s.tender.handedOn = none)
    (hring : s.tender.ring = b :: bs) :
    readerTakes s = readByte b (byteTaken bs s) := by
  simp only [readerTakes, hm, hring, byteTaken]

/-! ### T_STATUS (R95, R96) -/

theorem tStatus_tender (x : Readiness) (n : Nat) (s : State) :
    (takesStatus x n (frameAlive s)).tender
      = { s.tender with
          unanswered := 0
          answered := true
          up := true
          sinceFrame := some 0
          readiness := some x
          lastAnswered := some n } := by
  rw [takesStatus, setTender_tender, frameAlive_tender]
  rfl

/-- The terminal that comes up, or whose readiness changes, is told of. -/
theorem tStatus_announced {x : Readiness} {s : State} (n : Nat)
    (h : s.tender.up = false ∨ s.tender.readiness ≠ some x) :
    announced .terminalLink (terminalPayload (takesStatus x n (frameAlive s)).tender) (takesStatus x n (frameAlive s)) := by
  have hready : (frameAlive s).tender.readiness = s.tender.readiness := by
    rw [frameAlive_tender]
    rfl
  by_cases hx : s.tender.readiness = some x
  · have hup : s.tender.up = false := h.resolve_right (fun hne => hne hx)
    have hsaid : announced .terminalLink (terminalPayload (frameAlive s).tender) (frameAlive s) :=
      setTender_announced (by simp [hup]) _ s
    have hquiet : takesStatus x n (frameAlive s)
        = { frameAlive s with tender := { (frameAlive s).tender with readiness := some x, lastAnswered := some n } } := by
      rw [takesStatus, hready, hx, setTender]
      simp [raiseIf_false]
    have hpayload : terminalPayload (takesStatus x n (frameAlive s)).tender = terminalPayload (frameAlive s).tender := by
      rw [tStatus_tender, frameAlive_tender, terminalPayload, terminalPayload]
      simp [TenderLink.alive, hx]
    rw [hpayload, hquiet]
    exact hsaid
  · exact setTender_announced (by simpa [hready] using hx) _ _

theorem clears_overflow (c : Nat) (v : Bool) : (v && !bit c 0) = if c % 2 = 1 then false else v := by
  by_cases h : c % 2 = 1 <;> simp [bit, h]

theorem clears_stalled {c : Nat} (h : c < 4) (v : Bool) : (v && !bit c 1) = if 2 ≤ c then false else v := by
  have hbit : bit c 1 = decide (2 ≤ c) := by
    rw [bit, decide_eq_decide]
    omega
  by_cases hc : 2 ≤ c <;> simp [hbit, hc]

/-- Settles O44. -/
theorem bytesBecomeMessages : Obligations.BytesBecomeMessages := by
  intro s hrun
  refine ⟨fun b gap => ⟨fun h => ?_, fun h => ?_⟩, fun b bs hm hring => ?_, fun x n => ?_, fun hready c => ⟨fun h => ?_, fun h => ?_⟩⟩
  · refine ⟨_, exec_running hrun (g := byteArrives b gap) rfl, ?_, ?_⟩
    · rw [byteArrives_room h]
      exact (withTender_acts s _).frame
    · rw [byteArrives_room h]
      have hfill : s.tender.ring.length + 1 = 192 ↔ s.tender.ring.length = 191 := by omega
      simp only [TenderLink.enter, TenderLink.breakMark_eq, List.length_append, List.length_singleton, hfill] <;> rfl
  · refine ⟨_, exec_running hrun (g := byteArrives b gap) rfl, (byteArrives_acts b gap s).frame, ?_, fun ho => ?_⟩
    · rw [byteArrives_full h, setTender_tender]
      rfl
    · rw [byteArrives_full h]
      exact setTender_announced (by simp [ho]) _ s
  · refine ⟨_, exec_running hrun (g := readerTakes) rfl, (readerTakes_acts s).frame, ?_⟩
    rw [readerTakes_next hm hring]
    refine ⟨fun h => ?_, fun taken h => ⟨fun hb => ?_, fun hb => ⟨?_, fun n rest ht => ?_⟩⟩⟩
    · rw [readByte_hunting (s := byteTaken bs s) h]
      rfl
    · rw [readByte_broken (s := byteTaken bs s) h hb]
      rfl
    · rintro rfl
      rw [readByte_assembling (s := byteTaken bs s) h hb, assembleByte]
      split <;> rfl
    · subst ht
      rw [readByte_assembling (s := byteTaken bs s) h hb]
      refine ⟨fun hlt => ?_, fun hlen hne => ?_, ?_⟩
      · exact congrArg State.tender (assembleByte_short (s := byteTaken bs s) hlt)
      · rw [assembleByte_last hlen, checkFrame_append, if_neg hne]
        rfl
      · rintro kind body rfl hlen hcrc
        rw [assembleByte_last hlen, checkFrame_append, if_pos hcrc]
        refine ⟨fun hm => ?_, fun x k hm => ?_, fun m hm hne => ?_⟩
        · exact (frameComplete_malformed hm).trans rfl
        · exact (frameComplete_status hm).trans rfl
        · exact (frameComplete_handedOn hm hne).trans rfl
  · refine ⟨_, exec_running hrun (g := fun t => takesStatus x n (frameAlive t)) rfl, ?_, tStatus_tender x n s,
      tStatus_announced n⟩
    exact ((frameAlive_acts s).seq (takesStatus_acts x n _)).widen.frame
  · exact exec_refused hready rfl (if_pos h)
  · refine (exec_taken hready rfl (if_neg (show ¬4 ≤ c by omega))).trans ?_
    rw [clears_overflow, clears_stalled h]
    rfl

end Sys2Proof.Machine
end

