-- ==== Sys2Proof/Proofs/TenderSends.lean ====
section
/-!
PROOF. The tender link's sending side: the transmit queue, the heartbeat and the head frame.
-/

set_option Elab.async false

namespace Sys2Proof.Machine

/-! ### The head frame (R92 to R94) -/

/-- The next frame starts its send timer, where one waits. -/
theorem TenderLink.dropHead_eq (t : TenderLink) (cts : Bool) :
    t.dropHead cts
      = { t with
          queue := t.queue.drop 1
          headStarted := if 2 ≤ t.queue.length ∧ cts = true then 1 else 0
          sendLeft := if 2 ≤ t.queue.length then 200 else 0 } := by
  have hempty : (t.queue.drop 1).isEmpty = decide (t.queue.length < 2) := by
    rw [Bool.eq_iff_iff, List.isEmpty_iff_length_eq_zero, List.length_drop, decide_eq_true_iff]
    omega
  rw [TenderLink.dropHead, TenderLink.newHead]
  by_cases h : 2 ≤ t.queue.length
  · have hno : decide (t.queue.length < 2) = false := decide_eq_false (by omega)
    simp only [hempty, hno, h, Bool.false_eq_true, if_false, if_true, true_and]
  · have hyes : decide (t.queue.length < 2) = true := decide_eq_true (by omega)
    simp only [hempty, hyes, h, if_true, if_false, false_and]

/-! ### A frame given to the queue (R92) -/

theorem TenderLink.merged_none (t : TenderLink) {m : PartMsg} (h : ∀ n, m ≠ .statusAsk n) : t.merged m = none := by
  cases m with
  | statusAsk n => exact absurd rfl (h n)
  | sale | abort | reverse => rfl

theorem TenderLink.give_merged {t : TenderLink} {cts : Bool} {m : PartMsg} {q : List PartMsg} (h : t.merged m = some q) :
    t.give cts m = ({ t with queue := q }, false) := by
  rw [TenderLink.give, h]

theorem TenderLink.give_full {t : TenderLink} {cts : Bool} {m : PartMsg} (h : t.merged m = none)
    (hfull : 8 ≤ t.queue.length) : t.give cts m = (t.discardTx, !t.stalled) := by
  rw [TenderLink.give, h]
  exact if_pos hfull

theorem TenderLink.give_room {t : TenderLink} {cts : Bool} {m : PartMsg} (h : t.merged m = none)
    (hroom : t.queue.length < 8) :
    t.give cts m
      = (if t.queue.isEmpty = true then { t with queue := t.queue ++ [m] }.newHead cts
          else { t with queue := t.queue ++ [m] }, false) := by
  rw [TenderLink.give, h]
  exact if_neg (by omega)

theorem TenderLink.newHead_rest (t : TenderLink) (cts : Bool) :
    (t.newHead cts).queue = t.queue ∧ (t.newHead cts).stalled = t.stalled
      ∧ terminalPayload (t.newHead cts) = terminalPayload t := by
  unfold TenderLink.newHead
  split <;> exact ⟨rfl, rfl, rfl⟩

/-- The waiting ask takes the new number in its place. -/
theorem newAsk_split {a : List PartMsg} (b : List PartMsg) (k n : Nat) (h : ∀ j, .statusAsk j ∉ a) :
    newAsk n (a ++ .statusAsk k :: b) = some (a ++ .statusAsk n :: b) := by
  induction a with
  | nil => rfl
  | cons m ms ih =>
    have hrest := ih (fun j hj => h j (List.mem_cons_of_mem m hj))
    cases m with
    | statusAsk j => exact absurd List.mem_cons_self (h j)
    | sale | abort | reverse => rw [List.cons_append, newAsk, hrest] <;> simp

theorem TenderLink.mergeAsk_split {t : TenderLink} {a b : List PartMsg} {k : Nat} (n : Nat)
    (hq : t.queue = a ++ .statusAsk k :: b) (ha : ∀ j, .statusAsk j ∉ a) (hhead : 0 < t.headStarted → a ≠ []) :
    t.mergeAsk n = some (a ++ .statusAsk n :: b) := by
  have hall := newAsk_split b k n ha
  cases a with
  | nil =>
    rw [TenderLink.mergeAsk, hq]
    exact (if_neg (fun hlt => hhead hlt rfl)).trans hall
  | cons m ms =>
    rw [TenderLink.mergeAsk, hq, List.cons_append]
    dsimp only
    split
    · rw [newAsk_split b k n (fun j hj => ha j (List.mem_cons_of_mem m hj))]
      rfl
    · exact hall

/-- A frame given that raises nothing leaves the figures of TERMINAL_LINK. -/
theorem TenderLink.give_payload {t : TenderLink} {cts : Bool} {m : PartMsg} (h : (t.give cts m).2 = false) :
    terminalPayload (t.give cts m).1 = terminalPayload t := by
  cases hm : t.merged m with
  | some q =>
    rw [TenderLink.give_merged hm]
    rfl
  | none =>
    by_cases hfull : 8 ≤ t.queue.length
    · rw [TenderLink.give_full hm hfull] at h ⊢
      have hstalled : t.stalled = true := by simpa using h
      simp [terminalPayload, TenderLink.discardTx, hstalled]
    · rw [TenderLink.give_room hm (by omega)]
      dsimp only
      split
      · exact (TenderLink.newHead_rest _ cts).2.2
      · rfl

/-- What has been told of the terminal is told with the figures a frame given leaves. -/
theorem sendFrame_announced {s : State} (m : PartMsg) (h : announced .terminalLink (terminalPayload s.tender) s) :
    announced .terminalLink (terminalPayload (sendFrame m s).tender) (sendFrame m s) := by
  rw [sendFrame]
  cases hg : (s.tender.give s.pins.cts m).2 with
  | true => exact setTender_announced rfl _ s
  | false =>
    rw [setTender_tender, TenderLink.give_payload hg, setTender, raiseIf_false]
    exact h

/-! ### The heartbeat (R95) -/

theorem TenderLink.judged_eq (t : TenderLink) :
    t.judged = if t.answered = true then t.unanswered else min 3 (t.unanswered + 1) := rfl

theorem TenderLink.falls_iff (t : TenderLink) :
    t.falls = true ↔ (t.answered = false ∧ t.judged = 3) ∧ t.up = true := by
  simp [TenderLink.falls]

theorem TenderLink.beat_eq (t : TenderLink) :
    t.beat
      = { t with
          unanswered := t.judged
          up := if t.answered = false ∧ t.judged = 3 then false else t.up
          answered := false
          heartbeat := 1000
          askNumber := (t.askNumber + 1) % 256 } := by
  have hup : (t.up && !t.falls) = if t.answered = false ∧ t.judged = 3 then false else t.up := by
    have hf := t.falls_iff
    by_cases h : t.answered = false ∧ t.judged = 3
    · rw [if_pos h]
      cases hu : t.up with
      | false => rfl
      | true => rw [hf.mpr ⟨h, hu⟩]; rfl
    · rw [if_neg h]
      have hno : t.falls = false := by
        cases hfl : t.falls with
        | false => rfl
        | true => exact absurd (hf.mp hfl).1 h
      simp [hno]
  rw [TenderLink.beat, hup]

theorem heartbeatExpires_tender (s : State) :
    (heartbeatExpires s).tender = (s.tender.beat.give s.pins.cts (.statusAsk s.tender.beat.askNumber)).1 := by
  simp [heartbeatExpires]

theorem heartbeatExpires_announced {s : State} (h : s.tender.falls = true) :
    announced .terminalLink (terminalPayload (heartbeatExpires s).tender) (heartbeatExpires s) :=
  sendFrame_announced _ (setTender_announced h _ s)

/-! ### TL_CTS (R93) -/

theorem TenderLink.ctsChanges_eq (t : TenderLink) (was level : Bool) :
    t.ctsChanges was level
      = { t with headStarted := if level = true ∧ was = false then min t.headLength (t.headStarted + 1) else t.headStarted } := by
  unfold TenderLink.ctsChanges
  cases level <;> cases was <;> rfl

theorem TenderLink.maySend_iff (t : TenderLink) (cts : Bool) :
    t.maySend cts = true ↔ 0 < t.headStarted ∧ (cts = true ∨ t.headStarted = t.headLength) := by
  simp [TenderLink.maySend]

/-- Settles O45. -/
theorem framesAreQueuedSentAndDiscarded : Obligations.FramesAreQueuedSentAndDiscarded := by
  intro s hrun len begun
  have hlen : len = s.tender.headLength := s.tender.headLength_eq.symm
  refine ⟨fun m hm => ⟨fun h => ?_, fun h => ?_⟩, fun a b k n hq ha hhead => ?_, ?_, fun level => ?_, fun h => ?_,
    fun h0 h => ?_, fun h => ?_⟩
  · rw [TenderLink.give_room (s.tender.merged_none hm) h]
    dsimp only
    split
    · obtain ⟨hqueue, hstalled, -⟩ := TenderLink.newHead_rest { s.tender with queue := s.tender.queue ++ [m] } s.pins.cts
      exact ⟨hqueue, hstalled⟩
    · exact ⟨rfl, rfl⟩
  · rw [TenderLink.give_full (s.tender.merged_none hm) h]
    rfl
  · rw [TenderLink.give_merged (m := .statusAsk n) (s.tender.mergeAsk_split n hq ha hhead)]
  · refine ⟨_, exec_running hrun (g := heartbeatExpires) rfl, (heartbeatExpires_acts s).frame, ?_, fun hfalls hup => ?_⟩
    · rw [heartbeatExpires_tender, TenderLink.beat_eq]
      rfl
    · exact heartbeatExpires_announced (s.tender.falls_iff.mpr ⟨hfalls, hup⟩)
  · have hexec : exec (.tlCtsChange level) s
        = .next (whileRunning (fun t => { t with tender := t.tender.ctsChanges s.pins.cts level })
          { s with pins := { s.pins with cts := level } }) := rfl
    rw [hexec, whileRunning_running (s := { s with pins := { s.pins with cts := level } }) hrun, TenderLink.ctsChanges_eq, hlen]
  · rw [exec_running hrun (g := frameSent) rfl, frameSent, if_neg]
    rw [TenderLink.maySend_iff, ← hlen]
    rintro ⟨h0, hc | hall⟩
    · rcases h with h | ⟨h, -⟩
      · omega
      · simp [h] at hc
    · rcases h with h | ⟨-, h⟩
      · omega
      · exact h hall
  · refine ⟨_, exec_running hrun (g := frameSent) rfl, ?_⟩
    rw [frameSent, if_pos ((TenderLink.maySend_iff _ _).mpr ⟨h0, by rwa [← hlen]⟩)]
    exact ⟨(withTender_acts s _).frame, s.tender.dropHead_eq _⟩
  · refine ⟨_, exec_running hrun (g := sendTimerExpires) rfl, (sendTimerExpires_acts s).frame, ?_⟩
    rw [sendTimerExpires, if_neg (by simpa using h)]
    refine ⟨?_, fun hs => setTender_announced (by simp [hs]) _ s⟩
    rw [setTender_tender, TenderLink.dropHead_eq]
    rfl

end Sys2Proof.Machine
end

