-- ==== Sys2Proof/Proofs/ShiftRequests.lean ====
section
/-!
PROOF. SHIFT_OPEN and SHIFT_CLOSE.
-/

set_option Elab.async false

namespace Sys2Proof.Machine

theorem textWithin_iff (n : Nat) (d : Text) :
    textWithin n d = true ↔ d.length ≤ n ∧ ∀ b ∈ d, 32 ≤ b.toNat ∧ b.toNat ≤ 126 := by
  simp [textWithin, printable]

/-! ### SHIFT_OPEN (R101, R102) -/

theorem takeShiftOpen_eq (d : Text) (s : State) :
    takeShiftOpen d s
      = if ¬textWithin 8 d = true then refuse .badValue s
        else if shiftOpen s = true then refuse .wrongState s
        else if calibrated s = false then refuse .uncalibrated s
        else if s.clock.valid = false then refuse .wrongState s
        else (opensShift d s, .ok [.u16 (openedRecord d s).number, .u32 s.clock.count, .u32 s.odo.totalDistance,
          .u16 s.retained.calCount]) := by
  rw [takeShiftOpen]
  simp only [Bool.not_eq_true', Bool.not_eq_true]
  rfl

theorem Odometry.calibrationEnds_eq (o : Odometry) :
    o.calibrationEnds
      = if o.measurement = .starting then { o with measurement := .idle, measurePulses := 0, measureSeconds := 0 }
        else if o.measurement = .running then { o with measurement := .stopping }
        else o := by
  unfold Odometry.calibrationEnds
  split <;> simp_all

/-- The state of a shift that opens, before the sign follows. -/
def shiftBegun (d : Text) (s : State) : State :=
  { s with
    shifts := { s.shifts with record := openedRecord d s }
    settle := { s.settle with nextId := 1 }
    odo := if calibrationOpen s then s.odo.calibrationEnds else s.odo }

theorem opensShift_eq (d : Text) (s : State) : opensShift d s = raiseShiftState (resign (shiftBegun d s)) := rfl

theorem opensShift_begun (d : Text) (s : State) :
    (opensShift d s).shifts = (shiftBegun d s).shifts ∧ (opensShift d s).settle = (shiftBegun d s).settle
      ∧ (opensShift d s).odo = (shiftBegun d s).odo := by
  have hacts : acts [.sign, .link] (shiftBegun d s) (opensShift d s) :=
    ((resign_acts _).seq (raise_acts _ _ _)).widen
  exact ⟨hacts.same .shifts, hacts.same .settle, hacts.same .odo⟩

/-- SHIFT_STATE is raised with the accounts as they are. -/
theorem raiseShiftState_announced (s : State) :
    announced .shiftState (shiftPayload (raiseShiftState s).shifts) (raiseShiftState s) := by
  have hsame : (raiseShiftState s).shifts = s.shifts := (raise_acts _ _ s).same .shifts
  rw [hsame]
  exact announced_raise _ _ s

theorem nextShiftNumber_eq (n : Nat) : nextShiftNumber n = if n < 65535 then n + 1 else 1 := by
  unfold nextShiftNumber
  by_cases h : n < 65535
  · rw [if_neg (by omega), if_pos h]
  · rw [if_pos (by omega), if_neg h]

/-- A measurement in progress ends where calibration open does. -/
theorem shiftBegun_odo {s : State} (h : shiftOpen s = false) (d : Text) :
    (shiftBegun d s).odo
      = if s.pins.calen = true ∧ s.odo.measurement = .starting then
          { s.odo with measurement := .idle, measurePulses := 0, measureSeconds := 0 }
        else if s.pins.calen = true ∧ s.odo.measurement = .running then { s.odo with measurement := .stopping }
        else s.odo := by
  have hopen : (shiftBegun d s).odo = if calibrationOpen s = true then s.odo.calibrationEnds else s.odo := rfl
  rw [hopen]
  by_cases hcal : s.pins.calen = true
  · rw [if_pos ((calibrationOpen_iff s).mpr ⟨hcal, h⟩), Odometry.calibrationEnds_eq]
    simp only [hcal, true_and]
  · rw [if_neg (fun hc => hcal ((calibrationOpen_iff s).mp hc).1), if_neg (fun hc => hcal hc.1),
      if_neg (fun hc => hcal hc.1)]

/-! ### SHIFT_CLOSE (R107 to R109) -/

theorem dropOldestRead_eq (ps : List Report) : dropOldestRead ps = ps.eraseP (fun p => p.isRead) := by
  induction ps with
  | nil => rfl
  | cons p ps ih =>
    rw [dropOldestRead, List.eraseP_cons, ih]
    cases p.isRead <;> rfl

theorem unread_all (a : ShiftAccounts) :
    (a.unread == a.reports.length) = true ↔ ∀ p ∈ a.reports, p.isRead = false := by
  simp [ShiftAccounts.unread]

theorem takeShiftClose_eq (s : State) :
    takeShiftClose s
      = if shiftOpen s = false then refuse .wrongState s
        else if ¬allFree s = true then refuse .wrongState s
        else if s.settle.session.state.isOpen = true then refuse .wrongState s
        else if 8 ≤ s.shifts.reports.length ∧ (s.shifts.unread == s.shifts.reports.length) = true then
          refuse .reportsFull s
        else (closesShift s, .ok [.u16 s.shifts.record.number, .u32 s.clock.count, .u32 s.odo.totalDistance,
          .u8 (closesShift s).shifts.reports.length, .u8 (if 8 ≤ s.shifts.reports.length then 1 else 0)]) := by
  rw [takeShiftClose]
  simp only [ShiftAccounts.full, yesNo, Bool.not_eq_true', Bool.not_eq_true, Bool.and_eq_true, decide_eq_true_eq]

/-- The state of a shift that closes, before the sign follows. -/
def shiftEnded (s : State) : State :=
  { s with
    shifts := { record := closedRecord s, reports := s.shifts.addReport (closedRecord s) }
    journal := s.journal.markClosed }

theorem closesShift_eq (s : State) : closesShift s = raiseShiftState (resignToAuto (shiftEnded s)) := rfl

theorem closesShift_ended (s : State) :
    (closesShift s).shifts = (shiftEnded s).shifts ∧ (closesShift s).journal = (shiftEnded s).journal
      ∧ (closesShift s).sign = (resignToAuto (shiftEnded s)).sign := by
  have hacts : acts [.sign, .link] (shiftEnded s) (closesShift s) :=
    ((resignToAuto_acts _).seq (raise_acts _ _ _)).widen
  exact ⟨hacts.same .shifts, hacts.same .journal, (raise_acts _ _ _).same .sign⟩

theorem addReport_eq (a : ShiftAccounts) (r : ShiftRecord) :
    a.addReport r
      = (if 8 ≤ a.reports.length then a.reports.eraseP (fun p => p.isRead) else a.reports) ++ [⟨r, false⟩] := by
  rw [ShiftAccounts.addReport, dropOldestRead_eq]
  simp only [ShiftAccounts.full, decide_eq_true_eq]

/-- Settles O46. -/
theorem shiftsOpenAndClose : Obligations.ShiftsOpenAndClose := by
  intro s hready
  refine ⟨fun d => ?_, fun h => ?_, fun hopen hfree hclosed => ⟨fun hfull hunread => ?_, fun hroom => ?_⟩⟩
  · have heq := takeShiftOpen_eq d s
    refine ⟨fun h => exec_refused hready rfl (heq.trans (if_pos (fun ht => h ((textWithin_iff 8 d).mp ht)))),
      fun hfits h => ?_, fun hfits h hcal => ?_, fun hfits h hcal hvalid => ?_, fun hfits h hcal hvalid => ?_⟩
      <;> rw [if_neg (by rw [not_not]; exact (textWithin_iff 8 d).mpr hfits)] at heq
    · exact exec_refused hready rfl (heq.trans (if_pos h))
    · rw [if_neg (by simp [h])] at heq
      exact exec_refused hready rfl (heq.trans (if_pos hcal))
    · rw [if_neg (by simp [h]), if_neg (by simp [hcal])] at heq
      exact exec_refused hready rfl (heq.trans (if_pos hvalid))
    · rw [if_neg (by simp [h]), if_neg (by simp [hcal]), if_neg (by simp [hvalid])] at heq
      obtain ⟨hshifts, hsettle, hodo⟩ := opensShift_begun d s
      refine ⟨_, exec_taken hready rfl heq, (opensShift_acts d s).answered _ _ (by simp) (by simp), ⟨?_, ?_⟩, ?_, ?_,
        ?_⟩
      · rw [answered_shifts, hshifts, ← nextShiftNumber_eq]
        rfl
      · refine replyIs_of_eq ?_ _ _
        rw [← nextShiftNumber_eq]
        rfl
      · rw [answered_settle, hsettle]
        rfl
      · rw [answered_odo, hodo, shiftBegun_odo h]
      · exact (raiseShiftState_announced _).answered _ _
  · refine exec_refused hready rfl ?_
    rw [takeShiftClose_eq]
    by_cases hopen : shiftOpen s = false
    · exact if_pos hopen
    · rw [if_neg hopen]
      by_cases hfree : allFree s = true
      · rw [if_neg (not_not.mpr hfree)]
        rw [allFree_iff] at hfree
        exact if_pos ((h.resolve_left hopen).resolve_left (fun ⟨i, hi⟩ => hi (hfree i)))
      · exact if_pos hfree
  · have heq := takeShiftClose_eq s
    rw [if_neg (by simp [hopen]), if_neg (not_not.mpr ((allFree_iff s).mpr hfree)), if_neg (by simp [hclosed])] at heq
    exact exec_refused hready rfl (heq.trans (if_pos ⟨hfull, (unread_all _).mpr hunread⟩))
  · have heq := takeShiftClose_eq s
    rw [if_neg (by simp [hopen]), if_neg (not_not.mpr ((allFree_iff s).mpr hfree)), if_neg (by simp [hclosed]),
      if_neg] at heq
    · obtain ⟨hshifts, hjournal, hsign⟩ := closesShift_ended s
      refine ⟨_, exec_taken hready rfl heq, (closesShift_acts s).answered _ _ (by simp) (by simp), ?_, ?_, ?_, ?_, ?_,
        replyIs_answered _ _ _⟩
      · rw [answered_shifts, hshifts]
        rfl
      · rw [answered_shifts, hshifts, ← addReport_eq]
        rfl
      · rw [answered_journal, hjournal]
        rfl
      · rw [answered_sign, hsign, resignToAuto_mode]
        rfl
      · exact (raiseShiftState_announced _).answered _ _
    · rintro ⟨hfull, hunread⟩
      rw [unread_all] at hunread
      rcases hroom with hroom | ⟨p, hp, hread⟩
      · omega
      · rw [hunread p hp] at hread
        cases hread

end Sys2Proof.Machine
end

