-- ==== Sys2Proof/Proofs/Fetches.lean ====
section
/-!
PROOF. REPORT_READ, TRIP_READ and TRIP_NEXT_UNREAD.
-/

set_option Elab.async false

namespace Sys2Proof.Machine

/-- The first element that passes a test is the one that none before it passes. -/
theorem find?_split {α : Type} {p : α → Bool} {before : List α} {x : α} (after : List α) (hx : p x = true)
    (hbefore : ∀ y ∈ before, p y = false) : (before ++ x :: after).find? p = some x :=
  List.find?_eq_some_iff_append.mpr ⟨hx, before, after, rfl, fun y hy => by simp [hbefore y hy]⟩

/-! ### Reports (R110) -/

theorem unreadOf_eq_false {n : Nat} {p : Report} :
    (p.record.number == n && !p.isRead) = false ↔ (p.record.number = n → p.isRead = true) := by
  by_cases h : p.record.number = n <;> simp [h]

theorem chosenReport_none {n : Nat} {ps : List Report} (h : ∀ p ∈ ps, p.record.number ≠ n) :
    chosenReport n ps = none := by
  have hfirst : ps.find? (fun p => p.record.number == n && !p.isRead) = none :=
    List.find?_eq_none.mpr (fun p hp => by simp [h p hp])
  rw [chosenReport, hfirst]
  exact List.find?_eq_none.mpr (fun p hp => by simp [h p (List.mem_reverse.mp hp)])

/-- The oldest unread report with the number. -/
theorem chosenReport_unread {n : Nat} {before after : List Report} {p : Report} (hn : p.record.number = n)
    (hp : p.isRead = false) (hbefore : ∀ q ∈ before, q.record.number = n → q.isRead = true) :
    chosenReport n (before ++ p :: after) = some p := by
  have hfirst : (before ++ p :: after).find? (fun p => p.record.number == n && !p.isRead) = some p :=
    find?_split after (by simp [hn, hp]) (fun q hq => unreadOf_eq_false.mpr (hbefore q hq))
  rw [chosenReport, hfirst]

/-- Where every report with the number is read, the newest of them. -/
theorem chosenReport_newest {n : Nat} {before after : List Report} {p : Report} (hn : p.record.number = n)
    (hread : ∀ q ∈ before ++ p :: after, q.record.number = n → q.isRead = true)
    (hafter : ∀ q ∈ after, q.record.number ≠ n) : chosenReport n (before ++ p :: after) = some p := by
  have hfirst : (before ++ p :: after).find? (fun p => p.record.number == n && !p.isRead) = none :=
    List.find?_eq_none.mpr (fun q hq => by rw [unreadOf_eq_false.mpr (hread q hq)]; simp)
  have hreverse : (before ++ p :: after).reverse = after.reverse ++ p :: before.reverse := by simp
  rw [chosenReport, hfirst, hreverse]
  exact find?_split _ (by simp [hn]) (fun q hq => by simp [hafter q (List.mem_reverse.mp hq)])

/-- The read flag is set on the oldest unread report with the number alone. -/
theorem markRead_split {n : Nat} {before after : List Report} {p : Report} (hn : p.record.number = n)
    (hp : p.isRead = false) (hbefore : ∀ q ∈ before, q.record.number = n → q.isRead = true) :
    markRead n (before ++ p :: after) = before ++ { p with isRead := true } :: after := by
  induction before with
  | nil => exact if_pos ⟨hn, hp⟩
  | cons q qs ih =>
    have hq : ¬(q.record.number = n ∧ q.isRead = false) := fun ⟨h, hf⟩ => by
      rw [hbefore q List.mem_cons_self h] at hf
      cases hf
    rw [List.cons_append, markRead, if_neg hq, ih (fun r hr => hbefore r (List.mem_cons_of_mem q hr))]
    rfl

theorem markRead_read {n : Nat} {ps : List Report} (h : ∀ q ∈ ps, q.record.number = n → q.isRead = true) :
    markRead n ps = ps := by
  induction ps with
  | nil => rfl
  | cons q qs ih =>
    have hq : ¬(q.record.number = n ∧ q.isRead = false) := fun ⟨hn, hf⟩ => by
      rw [h q List.mem_cons_self hn] at hf
      cases hf
    rw [markRead, if_neg hq, ih (fun r hr => h r (List.mem_cons_of_mem q hr))]

theorem takeReportRead_found {n : Nat} {p : Report} {s : State} (hn : 0 < n)
    (h : chosenReport n s.shifts.reports = some p) :
    takeReportRead n s = ({ s with shifts := { s.shifts with reports := markRead n s.shifts.reports } },
      .ok (reportFields p.record p.isRead)) := by
  rw [takeReportRead, if_neg (by omega), h]

theorem takeReportRead_missing {n : Nat} {s : State} (hn : 0 < n) (h : chosenReport n s.shifts.reports = none) :
    takeReportRead n s = refuse .notFound s := by
  rw [takeReportRead, if_neg (by omega), h]

/-! ### Trip records (R121, R122) -/

/-- The read flag is set on the record of the number alone. -/
theorem setRead_split {j : Journal} {before after : List TripRecord} {r : TripRecord}
    (hring : j.ring = before ++ r :: after) (hothers : ∀ q ∈ before ++ after, q.seq ≠ r.seq) :
    j.setRead r.seq = { j with ring := before ++ { r with isRead := true } :: after } := by
  have hsame (qs : List TripRecord) (h : ∀ q ∈ qs, q.seq ≠ r.seq) :
      qs.map (fun q => if q.seq = r.seq then { q with isRead := true } else q) = qs :=
    (List.map_congr_left (fun q hq => if_neg (h q hq))).trans (List.map_id' qs)
  rw [Journal.setRead, hring, List.map_append, List.map_cons, if_pos rfl,
    hsame before (fun q hq => hothers q (List.mem_append_left _ hq)),
    hsame after (fun q hq => hothers q (List.mem_append_right _ hq))]

theorem takeTripRead_found {r : TripRecord} {s : State} (hn : 0 < r.seq)
    (h : s.journal.ring.find? (fun q => q.seq == r.seq) = some r) :
    takeTripRead r.seq s = ({ s with journal := s.journal.setRead r.seq }, .ok (tripFields r)) := by
  rw [takeTripRead, if_neg (by omega), h]
  rfl

theorem takeTripRead_missing {n : Nat} {s : State} (hn : 0 < n) (h : ∀ r ∈ s.journal.ring, r.seq ≠ n) :
    takeTripRead n s = refuse .notFound s := by
  have hnone : s.journal.ring.find? (fun r => r.seq == n) = none :=
    List.find?_eq_none.mpr (fun r hr => by simp [h r hr])
  rw [takeTripRead, if_neg (by omega), hnone]

theorem takeTripNextUnread_found {r : TripRecord} {s : State} (h : s.journal.oldestUnread = some r) :
    takeTripNextUnread s = ({ s with journal := s.journal.setRead r.seq }, .ok (tripFields r)) := by
  rw [takeTripNextUnread, h]
  rfl

theorem takeTripNextUnread_missing {s : State} (h : ∀ r ∈ s.journal.ring, r.isRead = true) :
    takeTripNextUnread s = refuse .notFound s := by
  have hnone : s.journal.oldestUnread = none := List.find?_eq_none.mpr (fun r hr => by simp [h r hr])
  rw [takeTripNextUnread, hnone]

/-- Settles O47. -/
theorem fetchesReturnARecordAndMarkItRead : Obligations.FetchesReturnARecordAndMarkItRead := by
  intro s hready
  refine ⟨exec_refused hready rfl rfl, exec_refused hready rfl rfl, fun n hn => ⟨fun h => ?_,
    fun before p after hlist hnum hp hbefore => ?_, fun before p after hlist hnum hread hafter => ?_, fun h => ?_⟩,
    fun before r after hring hn hothers => ⟨?_, fun hbefore hr => ?_⟩, fun h => ?_⟩
  · exact exec_refused hready rfl (takeReportRead_missing hn (chosenReport_none h))
  · have hchosen := chosenReport_unread (after := after) hnum hp hbefore
    rw [← hlist] at hchosen
    have hrule := takeReportRead_found hn hchosen
    rw [hlist, markRead_split hnum hp hbefore, hp] at hrule
    exact exec_taken hready rfl hrule
  · have hread' := hread p (by simp [hlist]) hnum
    have hchosen : chosenReport n s.shifts.reports = some p := by
      rw [hlist] at hread ⊢
      exact chosenReport_newest hnum hread hafter
    have hrule := takeReportRead_found hn hchosen
    rw [markRead_read hread, hread'] at hrule
    exact exec_taken hready rfl hrule
  · exact exec_refused hready rfl (takeTripRead_missing hn h)
  · have hfind : s.journal.ring.find? (fun q => q.seq == r.seq) = some r := by
      rw [hring]
      exact find?_split _ (by simp) (fun q hq => by simp [hothers q (List.mem_append_left _ hq)])
    have hrule := takeTripRead_found hn hfind
    rw [setRead_split hring hothers] at hrule
    exact exec_taken hready rfl hrule
  · have hfind : s.journal.oldestUnread = some r := by
      rw [Journal.oldestUnread, hring]
      exact find?_split _ (by simp [hr]) (fun q hq => by simp [hbefore q hq])
    have hrule := takeTripNextUnread_found hfind
    rw [setRead_split hring hothers] at hrule
    exact exec_taken hready rfl hrule
  · exact exec_refused hready rfl (takeTripNextUnread_missing h)

end Sys2Proof.Machine
end

