-- ==== Sys2Proof/Proofs/SignLamps.lean ====
section
/-!
PROOF. The roof sign: what setting the demands again and deriving anew leave, and the requests SIGN_MODE, SHARE_SET
and LAMP_TEST.
-/

set_option Elab.async false

namespace Sys2Proof.Machine

/-! ### Setting the demands again (R128, R130) -/

/-- The generator a lamp's new demand starts, or leaves in REST. -/
def Sign.generatorFor (g : Sign) : Demand → Generator
  | .pattern n => Generator.start (g.pattern n)
  | .off | .steady => Generator.atRest

theorem Sign.generatorFor_congr {g g' : Sign} (h : g'.pUser = g.pUser) (d : Demand) :
    g'.generatorFor d = g.generatorFor d := by
  cases d with
  | off | steady => rfl
  | pattern n => cases n <;> simp [generatorFor, Sign.pattern, h]

/-- A lamp's demand changes its demand and generator alone. -/
theorem Sign.setDemand_eq (g : Sign) (x : Lamp) (d : Demand) :
    g.setDemand x d
      = { g with
          demand := g.demand.set d x
          generator := if g.demand.get x = d then g.generator else g.generator.set (g.generatorFor d) x } := by
  have hdemand := g.setDemand_demand x d
  unfold setDemand at hdemand ⊢
  split
  · next h =>
    rw [if_pos h] at hdemand
    rw [← hdemand]
  · cases d <;> rfl

theorem Sign.setDemand_generator (g : Sign) (x y : Lamp) (d : Demand) :
    (g.setDemand x d).generator.get y
      = if y = x ∧ g.demand.get x ≠ d then g.generatorFor d else g.generator.get y := by
  have hset : (g.setDemand x d).generator
      = if g.demand.get x = d then g.generator else g.generator.set (g.generatorFor d) x := by
    rw [setDemand_eq]
  rw [hset]
  by_cases hd : g.demand.get x = d
  · rw [if_pos hd, if_neg (fun h => h.2 hd)]
  · rw [if_neg hd]
    by_cases hy : y = x
    · subst hy
      rw [if_pos ⟨rfl, hd⟩, PerLamp.get_set_same]
    · rw [if_neg (fun h => hy h.1), PerLamp.get_set_other _ _ hy]

theorem Sign.refresh_eq (g : Sign) (sense : LampSet) :
    g.refresh sense
      = { g with
          demand := g.demands
          generator := (g.refresh sense).generator
          dark := (g.refresh sense).dark } := by
  rw [← g.refresh_demand sense]
  rw [refresh]
  simp only [settleDark, setDemand_eq]

/-- A lamp whose demand stays keeps its generator, any other starts that of its demand. -/
theorem Sign.refresh_generator (g : Sign) (sense : LampSet) (x : Lamp) :
    (g.refresh sense).generator.get x
      = if g.demand.get x = g.demands.get x then g.generator.get x else g.generatorFor (g.demands.get x) := by
  have hsame : (g.refresh sense).generator
      = (((g.setDemand .free g.demands.free).setDemand .panel g.demands.panel).setDemand .share g.demands.share).generator :=
    rfl
  have hcongr (a : Sign) (y : Lamp) (d e : Demand) : (a.setDemand y d).generatorFor e = a.generatorFor e :=
    generatorFor_congr (by rw [setDemand_eq]) e
  rw [hsame]
  simp only [setDemand_generator, setDemand_demand, hcongr]
  cases x <;> simp [PerLamp.get, PerLamp.set] <;> exact if_congr Iff.rfl rfl rfl

/-! ### Deriving anew (R127) -/

/-- The sign with state and digit derived, before its demands are set again. -/
def derivedSign (s : State) : Sign :=
  { s.sign with
    derived := derivedState s
    digit := derivedDigit s (derivedState s)
    testRunning := s.sign.testRunning && derivedState s == .offDuty }

theorem derive_sign (s : State) : (derive s).sign = (derivedSign s).refresh s.pins.sense := rfl

theorem derive_eq (s : State) :
    (derive s).sign
      = { derivedSign s with
          demand := (derivedSign s).demands
          generator := (derive s).sign.generator
          dark := (derive s).sign.dark } := by
  rw [derive_sign]
  exact Sign.refresh_eq _ _

theorem reportSign_announced {before : Sign} {s : State} (h : before.differs s.sign = true) :
    announced .signState (signPayload (reportSign before s).sign) (reportSign before s) := by
  rw [reportSign_sign]
  exact announced_raiseIf h _ _ s

theorem Sign.differs_of {a b : Sign}
    (h : b.derived ≠ a.derived ∨ b.mode ≠ a.mode ∨ b.testRunning ≠ a.testRunning) : a.differs b = true := by
  unfold Sign.differs
  rcases h with h | h | h <;> simp [h.symm]

theorem Sign.demands_plain {g : Sign} (hactive : g.active = false) (htest : g.testRunning = false)
    (hfault : g.fault.free = false) : g.demands = tableDemands g.choice g.derived := by
  simp [Sign.demands, hactive, htest, hfault]

/-! ### Table 8-2 -/

theorem derivedState_offDuty {s : State}
    (h : shiftOpen s = false ∨ calibrated s = false ∨ s.sign.mode = .forceOffDuty) : derivedState s = .offDuty := by
  rw [derivedState]
  exact if_pos (by rcases h with h | h | h <;> simp [h])

theorem derivedState_onCall {s : State} (hopen : shiftOpen s = true) (hcal : calibrated s = true)
    (h : s.sign.mode = .forceOnCall) : derivedState s = .onCall := by
  simp [derivedState, hopen, hcal, h]

/-- With a shift in AUTO the legs decide. -/
theorem derivedState_auto {s : State} (hopen : shiftOpen s = true) (hcal : calibrated s = true) (h : s.sign.mode = .auto) :
    derivedState s
      = if allFree s = true then .free
        else if (s.settle.sharing && s.fare.legs.toList.all (fun l => !l.active || l.share) && 0 < unheldSeats s) = true
          then .share
        else .hired := by
  simp only [derivedState, hopen, hcal, h]
  rfl

/-- Sharing is on, every active leg has consent, and a seat is held by none. -/
theorem shares_iff (s : State) :
    (s.settle.sharing && s.fare.legs.toList.all (fun l => !l.active || l.share) && 0 < unheldSeats s) = true
      ↔ s.settle.sharing = true ∧ (∀ i, (s.leg i).state ≠ .free → (s.leg i).share = true)
        ∧ ∃ x, s.fare.seatMap.get x = none := by
  have hlegs : s.fare.legs.toList.all (fun l => !l.active || l.share) = true
      ↔ ∀ i, (s.leg i).state ≠ .free → (s.leg i).share = true := by
    have hlist : s.fare.legs.toList = Slot.all.map s.leg := rfl
    rw [hlist, List.all_map, List.all_eq_true]
    simp only [Function.comp, Leg.active, Bool.or_eq_true, Bool.not_eq_true', bne_eq_false_iff_eq]
    refine ⟨fun h i hi => (h i (by cases i <;> decide)).resolve_left hi, fun h i _ => ?_⟩
    exact Classical.or_iff_not_imp_left.mpr (h i)
  have hseats : 0 < unheldSeats s ↔ ∃ x, s.fare.seatMap.get x = none := by
    rw [unheldSeats, List.length_pos_iff_exists_mem]
    simp only [List.mem_filter, Option.isNone_iff_eq_none]
    refine ⟨fun ⟨x, _, h⟩ => ⟨x, h⟩, fun ⟨x, h⟩ => ⟨x, ?_, h⟩⟩
    cases x <;> decide
  rw [Bool.and_eq_true, Bool.and_eq_true, decide_eq_true_iff, hlegs, hseats, and_assoc]

theorem derivedDigit_eq (s : State) (x : SignState) :
    derivedDigit s x = if x = .share then some (unheldSeats s) else none := by
  cases x <;> rfl

/-! ### SIGN_MODE (R126) -/

/-- The mode and the pattern choice a SIGN_MODE names. -/
def modeNamed (m : Nat) : SignMode := if m = 0 then .auto else if m = 1 then .forceOffDuty else .forceOnCall
def choiceNamed (m c : Nat) : OnCallChoice := if m = 2 ∧ c = 1 then .user else .standard

/-- The state with the mode and choice set, before the derivation. -/
def withMode (m : SignMode) (c : OnCallChoice) (s : State) : State :=
  { s with sign := { s.sign with mode := m, choice := c } }

/-- The state after a taken SIGN_MODE. -/
def modeTaken (m : SignMode) (c : OnCallChoice) (s : State) : State := reportSign s.sign (derive (withMode m c s))

theorem modeTaken_acts (m : SignMode) (c : OnCallChoice) (s : State) : acts [.sign, .link] s (modeTaken m c s) :=
  (((withSign_acts s _).seq (derive_acts _)).seq (reportSign_acts _ _)).widen

theorem modeTaken_sign (m : SignMode) (c : OnCallChoice) (s : State) :
    (modeTaken m c s).sign = (derive (withMode m c s)).sign := reportSign_sign _ _

theorem onCallChoice?_some {c : Nat} (h : c ≤ 1) : onCallChoice? c = some (choiceNamed 2 c) := by
  match c with
  | 0 | 1 => rfl
  | n + 2 => omega

theorem takeSignMode_bad {m c : Nat} (h : 2 < m ∨ m = 2 ∧ 1 < c) (s : State) :
    takeSignMode m c s = refuse .badValue s := by
  match m, c with
  | 0, _ | 1, _ => omega
  | 2, 0 | 2, 1 => omega
  | 2, n + 2 => rfl
  | n + 3, _ => rfl

/-- FORCE_ON_CALL has its own tests. -/
theorem takeSignMode_onCall {c : Nat} (h : c ≤ 1) (s : State) :
    takeSignMode 2 c s
      = if shiftOpen s = false then refuse .noShift s
        else if allFree s = false then refuse .wrongState s
        else (modeTaken .forceOnCall (choiceNamed 2 c) s,
          .ok [.u8 (modeTaken .forceOnCall (choiceNamed 2 c) s).sign.mode.ctorIdx,
            .u8 (modeTaken .forceOnCall (choiceNamed 2 c) s).sign.choice.ctorIdx,
            .u8 (modeTaken .forceOnCall (choiceNamed 2 c) s).sign.derived.ctorIdx]) := by
  rw [takeSignMode]
  simp only [signMode?, onCallChoice?_some h, Bool.not_eq_true'] <;> rfl

/-- The answer of a taken SIGN_MODE, from the sign after it. -/
def modeAnswer (m : SignMode) (c : OnCallChoice) (s : State) : Taken :=
  (modeTaken m c s, .ok [.u8 (modeTaken m c s).sign.mode.ctorIdx, .u8 (modeTaken m c s).sign.choice.ctorIdx,
    .u8 (modeTaken m c s).sign.derived.ctorIdx])

theorem modeAnswer_eq (m : SignMode) (c : OnCallChoice) (s : State) :
    modeAnswer m c s
      = (modeTaken m c s, .ok [.u8 m.ctorIdx, .u8 c.ctorIdx, .u8 (modeTaken m c s).sign.derived.ctorIdx]) := by
  have hset : (modeTaken m c s).sign.mode = m ∧ (modeTaken m c s).sign.choice = c := by
    rw [modeTaken_sign, derive_eq]
    exact ⟨rfl, rfl⟩
  rw [modeAnswer, hset.1, hset.2]

theorem takeSignMode_taken {m c : Nat} {s : State}
    (h : m < 2 ∨ m = 2 ∧ c ≤ 1 ∧ shiftOpen s = true ∧ ∀ i, (s.leg i).state = .free) :
    takeSignMode m c s = modeAnswer (modeNamed m) (choiceNamed m c) s := by
  rcases h with h | ⟨rfl, hc, hopen, hfree⟩
  · have hstandard : choiceNamed m c = .standard := if_neg (by omega)
    rw [hstandard]
    match m with
    | 0 | 1 => rfl
    | n + 2 => omega
  · rw [takeSignMode_onCall hc, if_neg (by simp [hopen]), if_neg (by simp [(allFree_iff s).mpr hfree])]
    rfl

theorem named_codes {m c : Nat} (hm : m ≤ 2) (hc : m = 2 → c ≤ 1) :
    (modeNamed m).ctorIdx = m ∧ (choiceNamed m c).ctorIdx = if m = 2 then c else 0 := by
  match m, c with
  | 0, _ => exact ⟨rfl, rfl⟩
  | 1, _ => exact ⟨rfl, rfl⟩
  | 2, 0 | 2, 1 => exact ⟨rfl, rfl⟩
  | 2, n + 2 => omega
  | n + 3, _ => omega

theorem derivedState_mode {s : State} (h : derivedState s = .onCall) : s.sign.mode = .forceOnCall := by
  unfold derivedState at h
  split at h
  · cases h
  · split at h
    · next hm => simpa using hm
    · split at h
      · cases h
      · split at h <;> cases h

theorem modeNamed_onCall {m : Nat} (h : modeNamed m = .forceOnCall) : ¬m < 2 := by
  match m with
  | 0 | 1 => cases h
  | n + 2 => omega

/-- The demands of Table 8-3 with the choice a SIGN_MODE names. -/
theorem tableDemands_named (m c : Nat) (x : SignState) :
    (x = .onCall → m = 2) → tableDemands (choiceNamed m c) x
      = match x with
        | .offDuty | .hired => ⟨.off, .off, .off⟩
        | .free => ⟨.steady, .steady, .off⟩
        | .onCall => ⟨.pattern (if c = 1 then .user else .onCall), .steady, .off⟩
        | .share => ⟨.off, .steady, .steady⟩ := by
  intro h
  cases x with
  | offDuty | hired | free | share => rfl
  | onCall =>
    obtain rfl := h rfl
    by_cases hc : c = 1 <;> simp [choiceNamed, tableDemands, hc]

/-- What Table 8-2 gives after a SIGN_MODE. -/
theorem modeTaken_derived (m : SignMode) (c : OnCallChoice) (s : State) :
    (modeTaken m c s).sign.derived = derivedState (withMode m c s) := by
  rw [modeTaken_sign, derive_eq]
  rfl

/-! ### LAMP_TEST (R137) -/

theorem takeLampTest_taken {s : State} (hstate : s.sign.derived = .offDuty) (hactive : s.sign.active = false)
    (htest : s.sign.testRunning = false) :
    takeLampTest s
      = (reportSign s.sign (refreshLamps { s with sign := { s.sign with testRunning := true } }), .ok [.u16 350]) := by
  rw [takeLampTest, if_neg (by simp [hstate, hactive, htest])]
  rfl

/-- Every demand is that of the test. -/
theorem Sign.demands_test {g : Sign} (hactive : g.active = false) (htest : g.testRunning = true) (x : Lamp) :
    g.demands.get x = .pattern .lampTest := by
  cases x <;> simp [Sign.demands, hactive, htest, PerLamp.get]

theorem takeShareSet_taken {b : Nat} (h : b ≤ 1) (s : State) :
    takeShareSet b s
      = (resign { s with settle := { s.settle with sharing := decide (b = 1) } }, .ok [.u8 b]) := by
  match b with
  | 0 | 1 => rfl
  | n + 2 => omega

/-- Settles O48. -/
theorem signModesFollowTheTables : Obligations.SignModesFollowTheTables := by
  intro s hready
  refine ⟨fun m c h => exec_refused hready rfl (takeSignMode_bad h s), fun c hc h => ?_, fun c hc hopen h => ?_,
    fun m c h => ?_, fun b hb => ?_, fun b hb => ?_, fun h => ?_, fun hstate hactive htest hoff => ?_⟩
  · exact exec_refused hready rfl ((takeSignMode_onCall hc s).trans (if_pos h))
  · refine exec_refused hready rfl ((takeSignMode_onCall hc s).trans ?_)
    rw [if_neg (by simp [hopen])]
    refine if_pos ?_
    rw [← Bool.not_eq_true, allFree_iff]
    exact fun hall => h.elim (fun i hi => hi (hall i))
  · have heq : (modeTaken (modeNamed m) (choiceNamed m c) s).sign = _ :=
      (modeTaken_sign _ _ s).trans (derive_eq _)
    have hderived := modeTaken_derived (modeNamed m) (choiceNamed m c) s
    have hauto (hopen : shiftOpen s = true) (hcal : calibrated s = true) (hm : m = 0) :=
      derivedState_auto (s := withMode (modeNamed m) (choiceNamed m c) s) hopen hcal (if_pos hm)
    have hfreeOf : allFree (withMode (modeNamed m) (choiceNamed m c) s) = true ↔ ∀ i, (s.leg i).state = .free :=
      allFree_iff s
    have hsharesOf := shares_iff (withMode (modeNamed m) (choiceNamed m c) s)
    refine ⟨_, exec_taken hready rfl ((takeSignMode_taken h).trans (modeAnswer_eq _ _ s)),
      (modeTaken_acts _ _ s).answered _ _ (by simp) (by simp), ?_, ?_, fun h => ?_, fun hopen hcal hm => ?_,
      fun hopen hcal hm => ⟨fun hfree => ?_, fun ⟨i, hi⟩ => ⟨fun hshares => ?_, fun hshares => ?_⟩⟩, ?_, ?_, ?_, ?_,
      fun hactive htest hfault => ?_, fun hdiff => ?_, replyIs_of_eq ?_ _ _⟩
    · rw [answered_sign, heq]
      rfl
    · rw [answered_sign, heq]
      rfl
    · rw [answered_sign, hderived]
      refine derivedState_offDuty (h.imp_right (Or.imp_right fun hm => ?_))
      subst hm
      rfl
    · rw [answered_sign, hderived]
      subst hm
      exact derivedState_onCall hopen hcal rfl
    · rw [answered_sign, hderived, hauto hopen hcal hm]
      exact if_pos (hfreeOf.mpr hfree)
    · rw [answered_sign, hderived, hauto hopen hcal hm, if_neg (fun hall => hi (hfreeOf.mp hall i))]
      exact if_pos (hsharesOf.mpr hshares)
    · rw [answered_sign, hderived, hauto hopen hcal hm, if_neg (fun hall => hi (hfreeOf.mp hall i))]
      exact if_neg (fun hs => hshares (hsharesOf.mp hs))
    · have hdigit := derivedDigit_eq (withMode (modeNamed m) (choiceNamed m c) s)
        (derivedState (withMode (modeNamed m) (choiceNamed m c) s))
      rw [answered_sign, hderived]
      exact (congrArg Sign.digit heq).trans hdigit
    · rw [answered_sign, heq]
      rfl
    · rw [answered_sign, heq]
      rfl
    · rw [answered_sign, heq]
      rfl
    · rw [answered_sign] at htest ⊢
      have hplain := Sign.demands_plain (g := derivedSign (withMode (modeNamed m) (choiceNamed m c) s)) hactive
        ((congrArg Sign.testRunning heq).symm.trans htest) hfault
      rw [hderived, show (modeTaken (modeNamed m) (choiceNamed m c) s).sign.demand = _ from (congrArg Sign.demand heq).trans hplain]
      refine tableDemands_named m c (derivedState (withMode (modeNamed m) (choiceNamed m c) s)) (fun hon => ?_)
      have honCall := modeNamed_onCall (derivedState_mode hon)
      omega
    · exact reportSign_announced (Sign.differs_of (by
        rw [answered_sign, modeTaken_sign] at hdiff
        exact hdiff.imp_right Or.inl))
    · obtain ⟨hm, hc⟩ := named_codes (m := m) (c := c) (by omega) (by omega)
      rw [hm, hc]
      rfl
  · refine exec_refused hready rfl ?_
    rw [takeShareSet, yesNo?_none hb]
  · generalize hu : ({ s with settle := { s.settle with sharing := decide (b = 1) } } : State) = u
    have hrule := takeShareSet_taken hb s
    rw [hu] at hrule
    have hacts : acts [.settle] s u := hu ▸ withSettle_acts s _
    have hsettle : (resign u).settle = u.settle := (resign_acts u).same .settle
    have hmode : (resign u).sign.mode = s.sign.mode := by
      rw [resign, reportSign_sign, derive_mode, hacts.same .sign]
    have hpower : (resign u).power = .running :=
      ((resign_acts u).same .power).trans ((hacts.same .power).trans hready.1)
    refine ⟨_, exec_taken hready rfl hrule, (hacts.seq (resign_acts u)).answered _ _ (by simp) (by simp), ?_, ?_, ?_,
      replyIs_answered _ _ _⟩
    · rw [answered_settle, hsettle, ← hu]
    · exact (signKept_resign u hpower).1
    · rw [answered_sign, hmode]
  · refine exec_refused hready rfl (if_pos ?_)
    simpa [or_assoc] using h
  · generalize hu : ({ s with sign := { s.sign with testRunning := true } } : State) = u
    have hrule := takeLampTest_taken hstate hactive htest
    rw [hu] at hrule
    have hsign : u.sign = { s.sign with testRunning := true } := by rw [← hu]
    have hacts : acts [.sign, .link] s (reportSign s.sign (refreshLamps u)) :=
      ((hu ▸ withSign_acts s _ : acts [.sign] s u).seq (refreshLamps_acts u)).seq (reportSign_acts _ _) |>.widen
    have hshown : (reportSign s.sign (refreshLamps u)).sign = u.sign.refresh u.pins.sense := reportSign_sign _ _
    have hdemands (x : Lamp) : u.sign.demands.get x = .pattern .lampTest :=
      Sign.demands_test (by rw [hsign]; exact hactive) (by rw [hsign]) x
    have hrunning : (reportSign s.sign (refreshLamps u)).sign.testRunning = true := by
      rw [hshown, Sign.refresh_eq, hsign]
    refine ⟨_, exec_taken hready rfl hrule, hacts.answered _ _ (by simp) (by simp), hrunning, fun x => ⟨?_, ?_⟩, ?_,
      replyIs_answered _ _ _⟩
    · rw [answered_sign, hshown, Sign.refresh_demand, hdemands]
    · have hwas : u.sign.demand.get x ≠ .pattern .lampTest := by
        rw [hsign]
        exact fun h => by simp [hoff x] at h
      rw [answered_sign, hshown, Sign.refresh_generator, hdemands, if_neg hwas]
      rfl
    · refine (reportSign_announced (Sign.differs_of (.inr (.inr ?_)))).answered _ _
      rw [reportSign_sign] at hrunning
      rw [hrunning, htest]
      decide

end Sys2Proof.Machine
end

