-- ==== Sys2Proof/Proofs/SignPatterns.lean ====
section
/-!
PROOF. The roof sign: pattern generators, the end of a lamp test, lamp faults and P_USER.
-/

set_option Elab.async false

namespace Sys2Proof.Machine

/-! ### A generator's phases (R130, R131) -/

/-- The gap's two stages count down as one number. -/
theorem Generator.gap_counts {n : Generator} (h : n.phase = .gap) (hlow : n.gapLow ≤ 255)
    (hpos : 0 < n.gapLow + 256 * n.gapHigh) :
    n.countStep.gapLow + 256 * n.countStep.gapHigh + 1 = n.gapLow + 256 * n.gapHigh
      ∧ n.countStep.gapLow ≤ 255 ∧ n.countStep.phase = .gap := by
  have hstep : n.countStep = n.gapStep := by simp only [countStep, h]
  rw [hstep, gapStep]
  by_cases hl : 0 < n.gapLow
  · rw [if_pos hl]
    dsimp only
    exact ⟨by omega, by omega, h⟩
  · rw [if_neg hl, if_pos (by omega)]
    dsimp only
    exact ⟨by omega, by omega, h⟩

theorem Generator.phaseOver_gap {n : Generator} (h : n.phase = .gap) :
    n.phaseOver = true ↔ n.gapLow + 256 * n.gapHigh = 0 := by
  simp only [phaseOver, h, Bool.and_eq_true, beq_iff_eq]
  omega

/-- Where the phase that ends leads. -/
theorem Generator.endPhase_eq (n : Generator) :
    n.endPhase
      = (let p := n.loaded
         let onFlash (k : Nat) : Generator := ⟨.on, k, p.onUnits, 0, 0, p⟩
         let ended : Generator :=
          match p.mode with
          | .continuous => onFlash 1
          | .oneShot => ⟨.rest, n.flash, 0, 0, 0, p⟩
         match n.phase with
         | .on => { n with phase := .off, left := p.offUnits }
         | .off =>
          if n.flash < p.burst then onFlash (n.flash + 1)
          else if p.gap = 0 then ended
          else ⟨.gap, n.flash, 0, p.gap % 256, p.gap / 256, p⟩
         | .gap => ended
         | .rest => n) := by
  cases hp : n.phase <;> cases hm : n.loaded.mode <;>
    simp only [endPhase, endGap, enterOn, hp, hm] <;> rfl

theorem Sign.allRest_iff (g : Sign) : g.allRest = true ↔ ∀ y, (g.generator.get y).phase = .rest := by
  simp only [allRest, Bool.and_eq_true, beq_iff_eq]
  refine ⟨fun ⟨⟨h1, h2⟩, h3⟩ y => ?_, fun h => ⟨⟨h .free, h .panel⟩, h .share⟩⟩
  cases y <;> assumption

/-- The state in which a lamp's phase has ended, before a test that is over is finished. -/
def phaseEnded (x : Lamp) (s : State) : State :=
  { s with sign := { s.sign with
      generator := s.sign.generator.set (s.sign.generator.get x).endPhase x }.settleDark s.pins.sense }

theorem patternPhaseEnds_eq (x : Lamp) (s : State) : patternPhaseEnds x s = finishTest (phaseEnded x s) := rfl

theorem phaseEnded_generator (x y : Lamp) (s : State) :
    (phaseEnded x s).sign.generator.get y
      = if y = x then (s.sign.generator.get x).endPhase else s.sign.generator.get y := by
  have hset : (phaseEnded x s).sign.generator = s.sign.generator.set (s.sign.generator.get x).endPhase x := rfl
  rw [hset]
  by_cases hy : y = x
  · rw [if_pos hy, hy, PerLamp.get_set_same]
  · rw [if_neg hy, PerLamp.get_set_other _ _ hy]

theorem phaseEnded_allRest (x : Lamp) (s : State) :
    (phaseEnded x s).sign.allRest = true
      ↔ (s.sign.generator.get x).endPhase.phase = .rest ∧ ∀ y, y ≠ x → (s.sign.generator.get y).phase = .rest := by
  rw [Sign.allRest_iff]
  simp only [phaseEnded_generator]
  refine ⟨fun h => ⟨?_, fun y hy => ?_⟩, fun ⟨hx, hothers⟩ y => ?_⟩
  · simpa using h x
  · simpa [hy] using h y
  · by_cases hy : y = x
    · rw [if_pos hy]
      exact hx
    · rw [if_neg hy]
      exact hothers y hy

/-! ### The end of a lamp test (R137) -/

theorem finishTest_on {s : State} (h : s.sign.testRunning = false ∨ ¬s.sign.allRest = true) : finishTest s = s := by
  refine if_neg ?_
  rw [Bool.and_eq_true]
  rintro ⟨ht, hr⟩
  rcases h with h | h
  · simp [h] at ht
  · exact h hr

/-- The test no longer runs. -/
def testOver (s : State) : State := { s with sign := { s.sign with testRunning := false } }

theorem finishTest_over {s : State} (ht : s.sign.testRunning = true) (hr : s.sign.allRest = true) :
    finishTest s = reportSign s.sign (refreshLamps (testOver s)) :=
  if_pos (by rw [ht, hr]; rfl)

/-! ### Dark timers and faults (R133, R134) -/

theorem Sign.settleDark_dark (g : Sign) (sense : LampSet) (x : Lamp) :
    (g.settleDark sense).dark.get x = if g.driver x = true ∧ sense.get x = false then g.dark.get x else 0 := by
  cases x <;> simp [settleDark, PerLamp.get] <;> exact if_congr Iff.rfl rfl rfl

theorem Sign.refresh_dark_zero {g : Sign} {x : Lamp} (h : g.dark.get x = 0) (sense : LampSet) :
    (g.refresh sense).dark.get x = 0 := by
  rw [refresh, settleDark_dark]
  have hdark : (((g.setDemand .free g.demands.free).setDemand .panel g.demands.panel).setDemand .share
      g.demands.share).dark = g.dark := by simp only [setDemand_eq]
  rw [hdark, h]
  exact ite_self 0

theorem isDark_iff (g : Sign) (sense : LampSet) (x : Lamp) :
    g.isDark sense x = true ↔ g.driver x = true ∧ sense.get x = false := by
  simp [Sign.isDark]

theorem darkTimerExpires_quiet {x : Lamp} {s : State}
    (h : s.sign.driver x = false ∨ s.pins.sense.get x = true ∨ s.sign.fault.get x = true) :
    darkTimerExpires x s = s := by
  refine if_neg ?_
  rw [Bool.and_eq_true, isDark_iff]
  rintro ⟨⟨hd, hs⟩, hf⟩
  rcases h with h | h | h <;> simp_all

/-- The fault flag of a lamp latches. -/
def faultLatched (x : Lamp) (s : State) : State :=
  { s with sign := { s.sign with fault := s.sign.fault.set true x } }

theorem darkTimerExpires_latches {x : Lamp} {s : State} (hd : s.sign.driver x = true) (hs : s.pins.sense.get x = false)
    (hf : s.sign.fault.get x = false) :
    darkTimerExpires x s
      = refreshLamps (raise .lampFault (lampFaultPayload x (faultLatched x s).sign) (faultLatched x s)) :=
  if_pos (by rw [(isDark_iff _ _ _).mpr ⟨hd, hs⟩, hf]; rfl)

/-! ### P_USER (R132) -/

theorem Sign.restartUser_eq (g : Sign) (x : Lamp) :
    g.restartUser x = { g with generator := (g.restartUser x).generator } := by
  unfold restartUser
  split <;> rfl

theorem Sign.restartUser_generator (g : Sign) (x y : Lamp) :
    (g.restartUser x).generator.get y
      = if y = x ∧ g.demand.get y = .pattern .user ∧ (g.generator.get y).phase ≠ .rest then Generator.start g.pUser
        else g.generator.get y := by
  have hset : (g.restartUser x).generator
      = if g.demand.get x = .pattern .user ∧ (g.generator.get x).phase ≠ .rest then
          g.generator.set (Generator.start g.pUser) x
        else g.generator := by
    unfold restartUser
    split <;> rfl
  rw [hset]
  by_cases hy : y = x
  · subst hy
    by_cases h : g.demand.get y = .pattern .user ∧ (g.generator.get y).phase ≠ .rest
    · rw [if_pos h, if_pos ⟨rfl, h⟩, PerLamp.get_set_same]
    · rw [if_neg h, if_neg (fun hc => h hc.2)]
  · rw [if_neg (show ¬(y = x ∧ _) from fun hc => hy hc.1)]
    split
    · exact PerLamp.get_set_other _ _ hy
    · rfl

/-- Every lamp that runs P_USER starts it anew. -/
def Sign.restartAll (g : Sign) : Sign := ((g.restartUser .free).restartUser .panel).restartUser .share

theorem Sign.restartAll_eq (g : Sign) : g.restartAll = { g with generator := g.restartAll.generator } := by
  unfold restartAll
  rw [restartUser_eq, restartUser_eq, restartUser_eq]

theorem Sign.restartAll_generator (g : Sign) (y : Lamp) :
    g.restartAll.generator.get y
      = if g.demand.get y = .pattern .user ∧ (g.generator.get y).phase ≠ .rest then Generator.start g.pUser
        else g.generator.get y := by
  have hsame (a : Sign) (x : Lamp) : (a.restartUser x).demand = a.demand ∧ (a.restartUser x).pUser = a.pUser := by
    rw [restartUser_eq]
    exact ⟨rfl, rfl⟩
  unfold restartAll
  simp only [restartUser_generator, hsame]
  cases y <;> simp

theorem patternByte_eq (n : Nat) : patternByte n = max 1 (min 255 n) := by
  unfold patternByte clamp
  omega

theorem patternMode?_some {m : Nat} (h : m ≤ 1) :
    patternMode? m = some (if m = 0 then .continuous else .oneShot) := by
  match m with
  | 0 | 1 => rfl
  | n + 2 => omega

theorem patternMode?_none {m : Nat} (h : 1 < m) : patternMode? m = none := by
  match m with
  | 0 | 1 => omega
  | n + 2 => rfl

theorem takePatternWrite_bad {name m : Nat} (h : 6 ≤ name ∨ 1 < m) (a b c g : Nat) (s : State) :
    takePatternWrite name a b c g m s = refuse .badValue s := by
  by_cases hm : 1 < m
  · rw [takePatternWrite, patternMode?_none hm]
  · rw [takePatternWrite, patternMode?_some (by omega)]
    exact if_pos (h.resolve_right hm)

theorem takePatternWrite_fixed {name m : Nat} (h : name < 5) (hm : m ≤ 1) (a b c g : Nat) (s : State) :
    takePatternWrite name a b c g m s = refuse .notPermitted s := by
  rw [takePatternWrite, patternMode?_some hm]
  dsimp only
  rw [if_neg (by omega), if_pos (by omega)]

/-- The values of P_USER as stored, and the sign that runs it anew. -/
def storedPattern (a b c g m : Nat) : Pattern :=
  clampedPattern a b c g (if m = 0 then .continuous else .oneShot)

def userWritten (p : Pattern) (s : State) : State :=
  { s with sign := ({ s.sign with pUser := p }.restartAll).settleDark s.pins.sense }

theorem userWritten_sign (p : Pattern) (s : State) :
    (userWritten p s).sign.pUser = p ∧ (userWritten p s).sign.demand = s.sign.demand
      ∧ ∀ y, (userWritten p s).sign.generator.get y
          = if s.sign.demand.get y = .pattern .user ∧ (s.sign.generator.get y).phase ≠ .rest then Generator.start p
            else s.sign.generator.get y := by
  have hsign : (userWritten p s).sign = ({ s.sign with pUser := p }.restartAll).settleDark s.pins.sense := rfl
  refine ⟨?_, ?_, Sign.restartAll_generator { s.sign with pUser := p }⟩
  · rw [hsign, Sign.restartAll_eq]
    rfl
  · rw [hsign, Sign.restartAll_eq]
    rfl

theorem takePatternWrite_taken {m : Nat} (hm : m ≤ 1) (a b c g : Nat) (s : State) :
    takePatternWrite 5 a b c g m s
      = (userWritten (storedPattern a b c g m) s,
          .okOr ((storedPattern a b c g m).onUnits != a || (storedPattern a b c g m).offUnits != b
            || (storedPattern a b c g m).burst != c || (storedPattern a b c g m).gap != g)
            (patternFields (storedPattern a b c g m))) := by
  rw [takePatternWrite, patternMode?_some hm]
  rfl

/-- No value of P_USER was clamped. -/
theorem unclamped_iff (a b c g m : Nat) :
    ((storedPattern a b c g m).onUnits != a || (storedPattern a b c g m).offUnits != b
        || (storedPattern a b c g m).burst != c || (storedPattern a b c g m).gap != g) = false
      ↔ 1 ≤ a ∧ a ≤ 255 ∧ 1 ≤ b ∧ b ≤ 255 ∧ 1 ≤ c ∧ c ≤ 255 ∧ g ≤ 65535 := by
  simp only [storedPattern, clampedPattern, patternByte_eq, Bool.or_eq_false_iff, bne_eq_false_iff_eq]
  omega

/-! ### LAMP_FAULT_CLEAR (R134) -/

/-- The faults and dark timers named are cleared. -/
def faultsCleared (b : LampSet) (s : State) : State :=
  { s with sign := { s.sign with
      fault := lampsWithout s.sign.fault b
      dark := darkCleared s.sign.dark b } }

theorem takeLampFaultClear_taken {b : Nat} (h : b < 8) (s : State) :
    takeLampFaultClear b s
      = (refreshLamps (faultsCleared ⟨bit b 0, bit b 1, bit b 2⟩ s),
          .ok [.u8 (LampSet.bits s.sign.fault),
            .u8 (LampSet.bits (refreshLamps (faultsCleared ⟨bit b 0, bit b 1, bit b 2⟩ s)).sign.fault)]) := by
  rw [takeLampFaultClear, lampSet?, if_pos h]
  rfl

theorem lampsWithout_bits {b : Nat} (h : b < 8) (f : LampSet) :
    lampsWithout f ⟨bit b 0, bit b 1, bit b 2⟩
      = ⟨f.free && decide (b % 2 = 0), f.panel && decide (b / 2 % 2 = 0), f.share && decide (b / 4 = 0)⟩ := by
  have h0 : (!bit b 0) = decide (b % 2 = 0) := by
    rw [bit, ← decide_not, decide_eq_decide]
    omega
  have h1 : (!bit b 1) = decide (b / 2 % 2 = 0) := by
    rw [bit, ← decide_not, decide_eq_decide]
    omega
  have h2 : (!bit b 2) = decide (b / 4 = 0) := by
    rw [bit, ← decide_not, decide_eq_decide]
    omega
  rw [lampsWithout, h0, h1, h2]

/-! ### The pattern events and requests -/

/-- A phase that ends, but for the end of a lamp test. -/
theorem patternPhase_goesOn {s : State} {x : Lamp} (hrun : s.power = .running)
    (h : s.sign.testRunning = false ∨ ¬(phaseEnded x s).sign.allRest = true) :
    ∃ t, exec (.patternPhaseEnd x) s = .next t ∧ changesOnly [.sign] s t
      ∧ t.sign = { s.sign with generator := t.sign.generator, dark := t.sign.dark }
      ∧ t.sign.generator.get x = (s.sign.generator.get x).endPhase
      ∧ (∀ y, y ≠ x → t.sign.generator.get y = s.sign.generator.get y) := by
  refine ⟨phaseEnded x s, ?_, (withSign_acts s _).frame, rfl, ?_, fun y hy => ?_⟩
  · rw [exec_running hrun (g := patternPhaseEnds x) rfl, patternPhaseEnds_eq, finishTest_on (s := phaseEnded x s) h]
  · rw [phaseEnded_generator, if_pos rfl]
  · rw [phaseEnded_generator, if_neg hy]

/-- The last phase of a lamp test. -/
theorem patternPhase_endsTest {s : State} {x : Lamp} (hrun : s.power = .running) (ht : s.sign.testRunning = true)
    (h : (phaseEnded x s).sign.allRest = true) :
    ∃ t, exec (.patternPhaseEnd x) s = .next t ∧ changesOnly [.sign, .link] s t
      ∧ t.sign =
        { s.sign with
          testRunning := false, demand := { s.sign with testRunning := false }.demands
          generator := t.sign.generator, dark := t.sign.dark }
      ∧ (∀ y, t.sign.generator.get y
          = if s.sign.demand.get y = t.sign.demand.get y then (phaseEnded x s).sign.generator.get y
            else s.sign.generatorFor (t.sign.demand.get y))
      ∧ announced .signState (signPayload t.sign) t := by
  have hexec := exec_running (c := .patternPhaseEnd x) hrun (g := patternPhaseEnds x) rfl
  rw [patternPhaseEnds_eq, finishTest_over (s := phaseEnded x s) ht h] at hexec
  have hsign : (reportSign (phaseEnded x s).sign (refreshLamps (testOver (phaseEnded x s)))).sign
      = (testOver (phaseEnded x s)).sign.refresh s.pins.sense := reportSign_sign _ _
  have hdemands : (testOver (phaseEnded x s)).sign.demands = { s.sign with testRunning := false }.demands :=
    Sign.demands_congr ⟨rfl, rfl, rfl, rfl, rfl, rfl, rfl⟩
  have hrefresh := Sign.refresh_eq (testOver (phaseEnded x s)).sign s.pins.sense
  rw [hdemands, ← hsign] at hrefresh
  refine ⟨_, hexec, ?_, hrefresh, fun y => ?_, reportSign_announced (Sign.differs_of (.inr (.inr ?_)))⟩
  · exact (((withSign_acts s _ : acts [.sign] s (phaseEnded x s)).seq (withSign_acts _ _)).seq
      ((refreshLamps_acts (testOver (phaseEnded x s))).seq (reportSign_acts _ _))).widen.frame
  · rw [hsign, Sign.refresh_generator, Sign.refresh_demand]
    exact if_congr Iff.rfl rfl (Sign.generatorFor_congr rfl _)
  · have hover := congrArg Sign.testRunning hrefresh
    rw [reportSign_sign] at hover
    rw [hover]
    exact fun he => Bool.noConfusion (he.trans ht)

/-- Settles O49. -/
theorem patternsRunAndLampsFault : Obligations.PatternsRunAndLampsFault := by
  refine ⟨fun n hgap hlow hpos => ?_, fun s x hrun => ⟨fun next hnext => ⟨fun h => ?_, fun ht hall => ?_⟩, fun level => ?_,
    fun hd hs hf => ?_, fun h => ?_, fun hready b => ⟨fun h => ?_, fun h => ?_⟩, fun hready name a b c g m => ⟨fun h => ?_,
      fun h hm => ?_, ?_⟩⟩⟩
  · obtain ⟨hcount, hlow', hphase⟩ := Generator.gap_counts hgap hlow hpos
    refine ⟨hcount, hlow', hphase, ?_⟩
    rw [Generator.phaseOver_gap hphase]
    omega
  · obtain rfl : next = (s.sign.generator.get x).endPhase := hnext.trans (Generator.endPhase_eq _).symm
    refine patternPhase_goesOn hrun (h.imp_right (fun hn hrest => hn ((phaseEnded_allRest x s).mp hrest)))
  · obtain rfl : next = (s.sign.generator.get x).endPhase := hnext.trans (Generator.endPhase_eq _).symm
    obtain ⟨t, hexec, hframe, hsign, hgen, hsaid⟩ := patternPhase_endsTest hrun ht ((phaseEnded_allRest x s).mpr hall)
    refine ⟨t, hexec, hframe, hsign, fun y hy => ?_, fun y hy => ?_, hsaid⟩
    · rw [hgen, if_pos hy.symm, phaseEnded_generator]
    · rw [hgen, if_neg (Ne.symm hy)]
      cases t.sign.demand.get y <;> rfl
  · have hexec : exec (.lampSenseChange x level) s
        = .next (whileRunning (fun t => { t with sign := t.sign.settleDark t.pins.sense })
          { s with pins := { s.pins with sense := s.pins.sense.set level x } }) := rfl
    rw [whileRunning_running (s := { s with pins := { s.pins with sense := s.pins.sense.set level x } }) hrun] at hexec
    refine ⟨_, hexec, ((withPins_acts s _).seq (withSign_acts _ _)).widen.frame, rfl, rfl, rfl, fun hl => ?_⟩
    rw [Sign.settleDark_dark]
    exact if_neg (fun h => by simp [hl] at h)
  · have hexec := exec_running (c := .darkTimerExpiry x) hrun (g := darkTimerExpires x) rfl
    have hacts := darkTimerExpires_acts x s
    rw [darkTimerExpires_latches hd hs hf] at hexec hacts
    have hraised : (raise .lampFault (lampFaultPayload x (faultLatched x s).sign) (faultLatched x s)).sign
        = (faultLatched x s).sign := (raise_acts _ _ _).same .sign
    obtain ⟨-, -, hderived, -, hfault, -⟩ :=
      refreshLamps_shows (raise .lampFault (lampFaultPayload x (faultLatched x s).sign) (faultLatched x s))
    rw [hraised] at hderived hfault
    refine ⟨_, hexec, hacts.frame, hfault, hderived, ?_⟩
    rw [hfault]
    exact announced_raise .lampFault (lampFaultPayload x (faultLatched x s).sign) (faultLatched x s)
  · rw [exec_running hrun (g := darkTimerExpires x) rfl, darkTimerExpires_quiet h]
  · refine exec_refused hready rfl ?_
    rw [takeLampFaultClear, lampSet?, if_neg (by omega)]
  · obtain ⟨-, -, -, -, hfault, -⟩ := refreshLamps_shows (faultsCleared ⟨bit b 0, bit b 1, bit b 2⟩ s)
    have hdark (y : Lamp) (hy : (faultsCleared ⟨bit b 0, bit b 1, bit b 2⟩ s).sign.dark.get y = 0) :=
      Sign.refresh_dark_zero hy s.pins.sense
    refine ⟨_, exec_taken hready rfl (takeLampFaultClear_taken h s),
      ((withSign_acts s _).seq (refreshLamps_acts _)).answered _ _ (by simp) (by simp), ?_, fun hb => ?_, fun hb => ?_,
      fun hb => ?_, replyIs_answered _ _ _⟩
    · rw [answered_sign, hfault]
      exact lampsWithout_bits h _
    · exact hdark .free (if_pos (by simpa [bit] using hb))
    · exact hdark .panel (if_pos (by simpa [bit] using hb))
    · exact hdark .share (if_pos (decide_eq_true (by omega)))
  · exact exec_refused hready rfl (takePatternWrite_bad h a b c g s)
  · exact exec_refused hready rfl (takePatternWrite_fixed h hm a b c g s)
  · rintro rfl hm
    obtain ⟨clamped, hclamped⟩ : ∃ v, ((storedPattern a b c g m).onUnits != a || (storedPattern a b c g m).offUnits != b
      || (storedPattern a b c g m).burst != c || (storedPattern a b c g m).gap != g) = v := ⟨_, rfl⟩
    have hunclamped := unclamped_iff a b c g m
    have hrule := takePatternWrite_taken hm a b c g s
    rw [hclamped] at hunclamped hrule
    obtain ⟨huser, hdemand, hgenerator⟩ := userWritten_sign (storedPattern a b c g m) s
    refine ⟨_, if clamped = true then .adjusted else .ok, exec_taken hready rfl hrule,
      (withSign_acts s _).answered _ _ (by simp) (by simp), ?_, ?_, fun y => ?_, ?_, ?_, replyIs_of_eq ?_ _ _⟩
    · rw [answered_sign, huser, storedPattern, clampedPattern, patternByte_eq, patternByte_eq, patternByte_eq]
    · rw [answered_sign, hdemand]
    · rw [answered_sign, huser, hgenerator]
      rfl
    · cases clamped
      · exact .inl rfl
      · exact .inr rfl
    · rw [← hunclamped]
      cases clamped <;> decide
    · rw [answered_sign, huser]
      rfl

end Sys2Proof.Machine
end

