-- ==== Sys2Proof/Proofs/Emergencies.lean ====
section
/-!
PROOF. The emergency: raised by the host or a hold, cleared by a hold inside the clear window.
-/

set_option Elab.async false

namespace Sys2Proof.Machine

/-! ### What a rise and a clear leave (R135, R136) -/

/-- The sign of an emergency that becomes ACTIVE, before its demands are set again. -/
def raisedSign (c : EmergencyCause) (s : State) : Sign :=
  { s.sign with
    active := true
    cause := some c
    raiseTime := some s.clock.count
    clearWindow := none
    testRunning := false }

theorem emergencyRises_sign (c : EmergencyCause) (s : State) :
    (emergencyRises c s).sign = (raisedSign c s).refresh s.pins.sense :=
  (reportSign_sign _ _).trans ((raise_acts _ _ _).same .sign)

/-- The alarm shows on the panel while an emergency is ACTIVE, and never else. -/
theorem Sign.demands_panel (g : Sign) : g.demands.panel = .pattern .alarm ↔ g.active = true := by
  by_cases ha : g.active = true
  · exact iff_of_true (by simp [Sign.demands, ha]) ha
  · refine iff_of_false ?_ ha
    have htable : (tableDemands g.choice g.derived).panel ≠ .pattern .alarm := by
      cases g.derived with
      | onCall => cases g.choice <;> simp [tableDemands]
      | offDuty | free | share | hired => simp [tableDemands]
    simp only [Sign.demands, if_neg ha]
    by_cases htest : g.testRunning = true
    · simp [htest]
    · by_cases hfault : g.derived = .free ∧ g.fault.free = true
      · simp [htest, hfault]
      · rw [if_neg htest, if_neg hfault]
        exact htable

/-- What an emergency that becomes ACTIVE leaves. -/
theorem emergencyRises_raised (c : EmergencyCause) (s : State) :
    let t := emergencyRises c s
    t.sign.active = true ∧ t.sign.cause = some c ∧ t.sign.raiseTime = some s.clock.count ∧ t.sign.clearWindow = none
      ∧ t.sign.testRunning = false ∧ t.sign.demand.panel = .pattern .alarm ∧ t.sign.hold = s.sign.hold
      ∧ announced .emergency [.u8 1, .u8 1, .u8 c.ctorIdx, .u8 1, .u32 s.clock.count, .u8 0, .u32 0] t := by
  dsimp only
  have hpanel : (raisedSign c s).demands.panel = .pattern .alarm := (Sign.demands_panel _).mpr rfl
  have hsaid : announced .emergency [.u8 1, .u8 1, .u8 c.ctorIdx, .u8 1, .u32 s.clock.count, .u8 0, .u32 0]
      (emergencyRises c s) := by
    have hraised := announced_raise .emergency
      (emergencyPayload (refreshLamps { s with sign := raisedSign c s }).sign none)
      (refreshLamps { s with sign := raisedSign c s })
    have hpayload : emergencyPayload (refreshLamps { s with sign := raisedSign c s }).sign none
        = [.u8 1, .u8 1, .u8 c.ctorIdx, .u8 1, .u32 s.clock.count, .u8 0, .u32 0] := by
      rw [show (refreshLamps { s with sign := raisedSign c s }).sign = (raisedSign c s).refresh s.pins.sense from rfl,
        Sign.refresh_eq]
      rfl
    rw [hpayload] at hraised
    have hafter := hraised.later (reportSign_raises s.sign _) (by decide)
    rw [← hpayload] at hafter
    rw [← hpayload]
    exact hafter
  rw [emergencyRises_sign, Sign.refresh_eq]
  exact ⟨rfl, rfl, rfl, rfl, rfl, hpanel, rfl, hsaid⟩

/-- The sign of an emergency that clears, before its demands are set again. -/
def clearedSign (s : State) : Sign := { s.sign with active := false, clearWindow := none }

/-- What an emergency that clears leaves; its cause and raise time stay. -/
theorem emergencyClears_cleared (s : State) :
    let t := emergencyClears s
    t.sign.active = false ∧ t.sign.clearWindow = none ∧ t.sign.cause = s.sign.cause ∧ t.sign.raiseTime = s.sign.raiseTime
      ∧ t.sign.demand.panel ≠ .pattern .alarm
      ∧ announced .emergency
          (.u8 0 :: optU8 (s.sign.cause.map EmergencyCause.ctorIdx) ++ optU32 s.sign.raiseTime
            ++ [.u8 1, .u32 s.clock.count]) t := by
  dsimp only
  have hpanel : (clearedSign s).demands.panel ≠ .pattern .alarm :=
    fun h => Bool.noConfusion ((Sign.demands_panel (clearedSign s)).mp h)
  have hshown : (refreshLamps { s with sign := clearedSign s }).sign = (clearedSign s).refresh s.pins.sense := rfl
  have hsign : (emergencyClears s).sign = (clearedSign s).refresh s.pins.sense := (raise_acts _ _ _).same .sign
  have hsaid := announced_raise .emergency
    (emergencyPayload (refreshLamps { s with sign := clearedSign s }).sign (some s.clock.count))
    (refreshLamps { s with sign := clearedSign s })
  have hpayload : emergencyPayload (refreshLamps { s with sign := clearedSign s }).sign (some s.clock.count)
      = .u8 0 :: optU8 (s.sign.cause.map EmergencyCause.ctorIdx) ++ optU32 s.sign.raiseTime
        ++ [.u8 1, .u32 s.clock.count] := by
    rw [hshown, Sign.refresh_eq]
    rfl
  rw [hsign, Sign.refresh_eq]
  refine ⟨rfl, rfl, rfl, rfl, hpanel, ?_⟩
  rw [← hpayload]
  exact hsaid

/-! ### A hold that reaches 1 s (R135, R136) -/

/-- The hold in progress becomes `h`. -/
def withHold (h : Hold) (s : State) : State := { s with sign := { s.sign with hold := some h } }

section
variable {s : State} {h : Hold}

/-- What a hold that has not reached 1 s before does when it does. -/
theorem holdReaches_eq (hh : s.sign.hold = some h) (hr : h.reached = false) :
    holdReaches s
      = if (!s.sign.active) = true then
          if h.begunActive = true then withHold { h with held := 100, reached := true } s
          else emergencyRises .emerg (withHold { h with held := 100, reached := true, raising := true } s)
        else
          match s.sign.clearWindow with
          | none =>
            withHold { h with held := 100, reached := true } { s with sign := { s.sign with clearWindow := some 400 } }
          | some _ => emergencyClears (withHold { h with held := 100, reached := true } s) := by
  rw [holdReaches, hh]
  refine Eq.trans (if_neg (by simp [hr])) ?_
  rfl

theorem holdReaches_kept (hh : s.sign.hold = some h) (hr : h.reached = false) (ha : s.sign.active = false)
    (hb : h.begunActive = true) : holdReaches s = withHold { h with held := 100, reached := true } s := by
  rw [holdReaches_eq hh hr, if_pos (by simp [ha]), if_pos hb]

theorem holdReaches_raises (hh : s.sign.hold = some h) (hr : h.reached = false) (ha : s.sign.active = false)
    (hb : h.begunActive = false) :
    holdReaches s = emergencyRises .emerg (withHold { h with held := 100, reached := true, raising := true } s) := by
  rw [holdReaches_eq hh hr, if_pos (by simp [ha]), if_neg (by simp [hb])]

theorem holdReaches_opens (hh : s.sign.hold = some h) (hr : h.reached = false) (ha : s.sign.active = true)
    (hw : s.sign.clearWindow = none) :
    holdReaches s
      = withHold { h with held := 100, reached := true } { s with sign := { s.sign with clearWindow := some 400 } } := by
  rw [holdReaches_eq hh hr, if_neg (by simp [ha]), hw]

theorem holdReaches_clears (hh : s.sign.hold = some h) (hr : h.reached = false) (ha : s.sign.active = true) {n : Nat}
    (hw : s.sign.clearWindow = some n) :
    holdReaches s = emergencyClears (withHold { h with held := 100, reached := true } s) := by
  rw [holdReaches_eq hh hr, if_neg (by simp [ha]), hw]

end

/-- Settles O50. -/
theorem theEmergencyIsRaisedAndClearedByHolds : Obligations.TheEmergencyIsRaisedAndClearedByHolds := by
  intro s hrun
  refine ⟨fun hready => ⟨exec_refused hready rfl rfl, fun ha => ?_, fun ha => ?_⟩, fun level => ?_,
    fun h hh hr => ⟨fun ha hb => ?_, fun ha hb => ?_, fun ha hw => ?_, fun ha hw => ?_⟩,
    exec_running hrun (g := fun t => { t with sign := { t.sign with clearWindow := none } }) rfl⟩
  · exact exec_taken hready rfl (by rw [takeEmergencyRaise, if_pos ha]; rfl)
  · obtain ⟨h1, h2, h3, h4, h5, h6, -, hsaid⟩ := emergencyRises_raised .host s
    have hrule : takeEmergencyRaise s = (emergencyRises .host s, .ok [.u8 1]) := by
      rw [takeEmergencyRaise, if_neg (by simp [ha])]
    exact ⟨_, exec_taken hready rfl hrule, (emergencyRises_acts .host s).answered _ _ (by simp) (by simp), h1, h2, h3, h4, h5,
      h6, hsaid.answered _ _, replyIs_answered _ _ _⟩
  · have hexec : exec (.emergChange level) s
        = .next (if s.pins.emerg = level then s
          else whileRunning (fun t => { t with sign := { t.sign with hold := switchHold t.sign.active level } })
            { s with pins := { s.pins with emerg := level } }) := rfl
    rw [hexec, whileRunning_running (s := { s with pins := { s.pins with emerg := level } }) hrun]
    cases level <;> rfl
  · rw [exec_running hrun (g := holdReaches) rfl, holdReaches_kept hh hr ha hb]
    rfl
  · have hexec := exec_running (c := .emergHold1s) hrun (g := holdReaches) rfl
    have hacts := holdReaches_acts s
    rw [holdReaches_raises hh hr ha hb] at hexec hacts
    obtain ⟨h1, h2, h3, h4, h5, h6, h7, hsaid⟩ :=
      emergencyRises_raised .emerg (withHold { h with held := 100, reached := true, raising := true } s)
    exact ⟨_, hexec, hacts.frame, h1, h2, h3, h4, h5, h6, h7, hsaid⟩
  · rw [exec_running hrun (g := holdReaches) rfl, holdReaches_opens hh hr ha hw]
    rfl
  · obtain ⟨n, hn⟩ := Option.isSome_iff_exists.mp hw
    have hexec := exec_running (c := .emergHold1s) hrun (g := holdReaches) rfl
    have hacts := holdReaches_acts s
    rw [holdReaches_clears hh hr ha hn] at hexec hacts
    exact ⟨_, hexec, hacts.frame, emergencyClears_cleared (withHold { h with held := 100, reached := true } s)⟩

end Sys2Proof.Machine
end

