-- ==== Sys2Proof/Proofs/Turns.lean ====
section
/-!
PROOF. The intercom's channel: whose voice is active, the entry rule, and what each end of a turn leaves.
-/

set_option Elab.async false

namespace Sys2Proof.Machine

/-! ### Voices (R140, Table 9-2) -/

theorem frontVoice_iff (s : State) :
    frontVoice s = true ↔ s.intercom.mode ≠ .offMode
      ∧ (s.pins.ptt = true
        ∨ (s.intercom.mode = .openMode ∨ s.intercom.mode = .privateMode) ∧ s.intercom.vox.front = .qualified) := by
  unfold frontVoice
  cases s.intercom.mode <;> simp

theorem rearVoice_iff (s : State) :
    rearVoice s = true ↔ s.intercom.vox.rear = .qualified ∧ voxAllowed s.intercom .rear = true := by
  unfold rearVoice
  cases hm : s.intercom.mode <;> simp [voxAllowed, hm]

/-- A qualified VOX line is a voice where the mode lets its side speak by it. -/
theorem voice_of_qualified {s : State} {x : Side} (hq : s.intercom.vox.get x = .qualified)
    (ha : voxAllowed s.intercom x = true) : voice s x = true := by
  cases x with
  | front =>
    refine (frontVoice_iff s).mpr ?_
    have hmode : s.intercom.mode = .openMode ∨ s.intercom.mode = .privateMode := by simpa [voxAllowed] using ha
    exact ⟨by rcases hmode with h | h <;> simp [h], .inr ⟨hmode, hq⟩⟩
  | rear => exact (rearVoice_iff s).mpr ⟨hq, ha⟩

/-- Whether a side may take the channel looks at its own qualifier and hold-off, the mode, the window and PTT. -/
theorem mayTake_congr {s t : State} {x : Side} (hptt : x = .front → t.pins.ptt = s.pins.ptt)
    (hmode : t.intercom.mode = s.intercom.mode) (hvox : t.intercom.vox.get x = s.intercom.vox.get x)
    (hwindow : t.intercom.window = s.intercom.window)
    (hheld : t.intercom.heldOff.get x = s.intercom.heldOff.get x) : mayTake t x = mayTake s x := by
  cases x with
  | front =>
    have hvox' : t.intercom.vox.front = s.intercom.vox.front := hvox
    simp only [mayTake, voice, frontVoice, hptt rfl, hmode, hvox', hheld]
  | rear =>
    have hvox' : t.intercom.vox.rear = s.intercom.vox.rear := hvox
    simp only [mayTake, voice, rearVoice, hwindow, hmode, hvox', hheld]

theorem mayTake_iff (s : State) (x : Side) :
    mayTake s x = true ↔ voice s x = true ∧ s.intercom.heldOff.get x = false := by
  simp [mayTake]

/-! ### The entry rule (R142) -/

/-- A side's turn as it begins. -/
def Intercom.turnOf (n : Intercom) (x : Side) : Intercom :=
  { n with channel := talkState x, hangLeft := none, talk := some ⟨n.maxTalk * 100, n.maxTalk⟩ }

theorem raiseIntercom_announced {s t : State} (h : t = raiseIntercom s) :
    announced .intercomState (intercomPayload t.intercom) t := by
  subst h
  have hsame : (raiseIntercom s).intercom = s.intercom := (raiseIntercom_acts s).same .intercom
  rw [hsame]
  exact announced_raise _ _ s

theorem raiseIntercom_raises (s : State) : raisesOnly [.intercomState] s (raiseIntercom s) := raise_raises _ _ _

theorem takeChannel_held {s : State} (h : s.intercom.channel ≠ .quiet) : takeChannel s = s := by
  unfold takeChannel
  split
  · next hq => exact absurd hq h
  · rfl

theorem takeChannel_quiet {s : State} (h : s.intercom.channel = .quiet) :
    takeChannel s
      = if mayTake s .front = true then enterTalk .front s
        else if mayTake s .rear = true then enterTalk .rear s
        else s := by
  simp only [takeChannel, h]

theorem takeChannel_untaken {s : State} (hf : mayTake s .front = false) (hr : mayTake s .rear = false) :
    takeChannel s = s := by
  by_cases h : s.intercom.channel = .quiet
  · rw [takeChannel_quiet h, if_neg (by simp [hf]), if_neg (by simp [hr])]
  · exact takeChannel_held h

/-- Front first. -/
theorem takeChannel_intercom {s : State} (h : s.intercom.channel = .quiet) :
    (takeChannel s).intercom
      = if mayTake s .front = true then s.intercom.turnOf .front
        else if mayTake s .rear = true then s.intercom.turnOf .rear
        else s.intercom := by
  have henter (x : Side) : (enterTalk x s).intercom = s.intercom.turnOf x := by
    rw [enterTalk_intercom, beginTurn_intercom]
    rfl
  rw [takeChannel_quiet h]
  split
  · exact henter .front
  · split
    · exact henter .rear
    · rfl

/-- Taking the channel changes the channel and its timers alone. -/
theorem takeChannel_same (s : State) :
    (takeChannel s).intercom
      = { s.intercom with
          channel := (takeChannel s).intercom.channel
          hangLeft := (takeChannel s).intercom.hangLeft
          talk := (takeChannel s).intercom.talk } := by
  by_cases h : s.intercom.channel = .quiet
  · rw [takeChannel_intercom h]
    split
    · rfl
    · split <;> rfl
  · rw [takeChannel_held h]

/-- What has been told of the intercom is told of it with the channel taken. -/
theorem takeChannel_announced {s : State} (h : announced .intercomState (intercomPayload s.intercom) s) :
    announced .intercomState (intercomPayload (takeChannel s).intercom) (takeChannel s) := by
  by_cases hq : s.intercom.channel = .quiet
  · rw [takeChannel_quiet hq]
    split
    · exact raiseIntercom_announced rfl
    · split
      · exact raiseIntercom_announced rfl
      · exact h
  · rw [takeChannel_held hq]
    exact h

theorem takeChannel_raises (s : State) : raisesOnly [.toneDropped, .intercomState] s (takeChannel s) := by
  have henter (x : Side) : raisesOnly [.toneDropped, .intercomState] s (enterTalk x s) :=
    ((raisesOnly_of_acts (setIntercom_acts _ s) (by simp) []).seq
      ((pathOpens_raises (fedBy x) _).seq (raiseIntercom_raises _)))
  by_cases hq : s.intercom.channel = .quiet
  · rw [takeChannel_quiet hq]
    exact .ite (fun _ => henter .front) (fun _ => .ite (fun _ => henter .rear) (fun _ => raisesOnly_refl _ _))
  · rw [takeChannel_held hq]
    exact raisesOnly_refl _ _

/-! ### The ends of a turn (R143, R145) -/

theorem quietThenTake_intercom (s : State) :
    (quietThenTake s).intercom
      = if mayTake s .front = true then s.intercom.turnOf .front
        else if mayTake s .rear = true then s.intercom.turnOf .rear
        else { s.intercom with channel := .quiet, hangLeft := none, talk := none } := by
  have hquiet : (raiseIntercom (goQuiet s)).intercom
      = { s.intercom with channel := .quiet, hangLeft := none, talk := none } :=
    ((raiseIntercom_acts _).same .intercom).trans (goQuiet_intercom s)
  have hpins : (raiseIntercom (goQuiet s)).pins = s.pins := ((goQuiet_acts s).seq (raiseIntercom_acts _)).same .pins
  have hmay (x : Side) : mayTake (raiseIntercom (goQuiet s)) x = mayTake s x :=
    mayTake_congr (fun _ => by rw [hpins]) (by rw [hquiet]) (by rw [hquiet]) (by rw [hquiet]) (by rw [hquiet])
  rw [quietThenTake, takeChannel_intercom (by rw [hquiet]), hmay, hmay, hquiet]
  rfl

theorem hangIfSilent_kept {x : Side} {s : State} (h : s.intercom.channel.talks x = false ∨ voice s x = true) :
    hangIfSilent x s = s :=
  if_neg (by rcases h with h | h <;> simp [h])

theorem hangIfSilent_hangs {x : Side} {s : State} (ht : s.intercom.channel.talks x = true) (hv : voice s x = false) :
    hangIfSilent x s
      = raiseIntercom (setIntercom (fun n => { n with channel := hangState x, hangLeft := some (n.hang / 10) }) s) :=
  if_pos (by simp [ht, hv])

theorem endHoldOff_kept {x : Side} {s : State} (h : s.intercom.heldOff.get x = false ∨ sourceAsserted s x = true) :
    endHoldOff x s = s :=
  if_neg (by rcases h with h | h <;> simp [h])

theorem endHoldOff_ends {x : Side} {s : State} (hh : s.intercom.heldOff.get x = true) (hs : sourceAsserted s x = false) :
    endHoldOff x s = takeChannel (setIntercom (fun n => { n with heldOff := n.heldOff.set false x }) s) :=
  if_pos (by simp [hh, hs])

theorem Channel.talks_iff (c : Channel) (x : Side) : c.talks x = true ↔ c = talkState x := by
  cases x <;> simp [Channel.talks, talkState]

theorem Channel.hangs_iff (c : Channel) (x : Side) : c.hangs x = true ↔ c = hangState x := by
  cases x <;> simp [Channel.hangs, hangState]

theorem talkState_eq (x : Side) : talkState x = if x = .front then .frontTalk else .rearTalk := by cases x <;> rfl

theorem hangState_eq (x : Side) : hangState x = if x = .front then .hangFront else .hangRear := by cases x <;> rfl

end Sys2Proof.Machine
end

