-- ==== Sys2Proof/Proofs/Voices.lean ====
section
/-!
PROOF. Voices: the edges of the VOX lines and of PTT, the attack, the hang and the max talk.
-/

set_option Elab.async false

namespace Sys2Proof.Machine

/-! ### VOX lines -/

/-- The pins with a side's VOX line at a level. -/
def lineSet (x : Side) (level : Bool) (s : State) : State := { s with pins := setVoxLine s.pins level x }

theorem lineSet_ptt (x : Side) (level : Bool) (s : State) : (lineSet x level s).pins.ptt = s.pins.ptt := by
  cases x <;> rfl

theorem lineSet_acts (x : Side) (level : Bool) (s : State) : acts [.pins] s (lineSet x level s) := withPins_acts s _

theorem exec_voxChange {x : Side} {level : Bool} {s : State} (hrun : s.power = .running) (h : voxLine s.pins x ≠ level) :
    exec (.voxChange x level) s = .next ((if level = true then voxRises x else voxFalls x) (lineSet x level s)) := by
  have hexec : exec (.voxChange x level) s
      = .next (if voxLine s.pins x = level then s
        else whileRunning (if level = true then voxRises x else voxFalls x) (lineSet x level s)) := rfl
  rw [hexec, if_neg h, whileRunning_running (s := lineSet x level s) hrun]

theorem setQualifier_acts (x : Side) (q : Qualifier) (s : State) : acts [.intercom] s (setQualifier x q s) :=
  setIntercom_acts _ s

/-- A line that falls leaves its side without the voice it gave. -/
theorem voice_low {x : Side} {s : State} (h : s.intercom.vox.get x = .low) :
    voice s x = true ↔ x = .front ∧ s.intercom.mode ≠ .offMode ∧ s.pins.ptt = true := by
  cases x with
  | front =>
    have hlow : s.intercom.vox.front = .low := h
    simp [voice, frontVoice_iff, hlow]
  | rear =>
    have hlow : s.intercom.vox.rear = .low := h
    simp [voice, rearVoice_iff, hlow]

theorem setVoxLine_low (p : Pins) (x : Side) : voxLine (setVoxLine p false x) x = false := by cases x <;> rfl

/-- A line that is down leaves PTT as its side's only source. -/
theorem sourceAsserted_low {x : Side} {s : State} (h : voxLine s.pins x = false) :
    sourceAsserted s x = true ↔ x = .front ∧ s.pins.ptt = true := by
  cases x with
  | front =>
    have hlow : s.pins.voxF = false := h
    simp [sourceAsserted, hlow]
  | rear =>
    have hlow : s.pins.voxR = false := h
    simp [sourceAsserted, hlow]

/-- The state of a line that has fallen, with its qualifier. -/
def voxFell (x : Side) (s : State) : State := setQualifier x .low (lineSet x false s)

theorem voxFell_intercom (x : Side) (s : State) :
    (voxFell x s).intercom = { s.intercom with vox := s.intercom.vox.set .low x } := rfl

theorem voxFell_pins (x : Side) (s : State) : (voxFell x s).pins = setVoxLine s.pins false x := rfl

theorem voxFell_acts (x : Side) (s : State) : acts [.pins, .intercom] s (voxFell x s) :=
  ((lineSet_acts x false s).seq (setQualifier_acts x _ _)).widen

theorem voxFell_ptt (x : Side) (s : State) : (voxFell x s).pins.ptt = s.pins.ptt := lineSet_ptt x false s

theorem voxFell_voice (x : Side) (s : State) :
    voice (voxFell x s) x = true ↔ x = .front ∧ s.intercom.mode ≠ .offMode ∧ s.pins.ptt = true := by
  rw [voice_low (by rw [voxFell_intercom]; simp), voxFell_ptt]
  rfl

/-- A turn that its fallen line ends hangs, unless PTT holds it. -/
theorem voxFalls_turn {s : State} {x : Side} (hrun : s.power = .running) (hline : voxLine s.pins x = true)
    (hheld : s.intercom.heldOff.get x = false) :
    ∃ t, exec (.voxChange x false) s = .next t ∧ changesOnly [.pins, .intercom, .link] s t
      ∧ t.pins = setVoxLine s.pins false x ∧ t.intercom.vox = s.intercom.vox.set .low x
      ∧ t.intercom.talk = s.intercom.talk
      ∧ (if s.intercom.channel.talks x = true ∧ (x = .rear ∨ s.intercom.mode = .offMode
            ∨ s.pins.ptt = false) then
          t.intercom.channel = (if x = .front then .hangFront else .hangRear)
            ∧ t.intercom.hangLeft = some (s.intercom.hang / 10)
            ∧ announced .intercomState (intercomPayload t.intercom) t
        else t.intercom.channel = s.intercom.channel ∧ t.link = s.link) := by
  have hexec := exec_voxChange (x := x) (level := false) hrun (by rw [hline]; decide)
  have hfalls : voxFalls x (lineSet x false s) = endHoldOff x (hangIfSilent x (voxFell x s)) := rfl
  rw [if_neg (by decide), hfalls] at hexec
  by_cases h : s.intercom.channel.talks x = true ∧ (x = .rear ∨ s.intercom.mode = .offMode ∨ s.pins.ptt = false)
  · have hsilent : voice (voxFell x s) x = false := by
      rw [← Bool.not_eq_true, voxFell_voice]
      rintro ⟨rfl, hmode, hptt⟩
      rcases h.2 with h | h | h
      · cases h
      · exact hmode h
      · simp [h] at hptt
    have hacts := (voxFell_acts x s).seq (hangIfSilent_acts x (voxFell x s))
    rw [hangIfSilent_hangs (s := voxFell x s) h.1 hsilent] at hexec hacts
    generalize hu : setIntercom (fun n => { n with channel := hangState x, hangLeft := some (n.hang / 10) }) (voxFell x s) = u
      at hexec hacts
    have hui : u.intercom = { (voxFell x s).intercom with
        channel := hangState x, hangLeft := some (s.intercom.hang / 10) } := by rw [← hu]; rfl
    have hup : u.pins = setVoxLine s.pins false x := by rw [← hu]; rfl
    have hti : (raiseIntercom u).intercom = u.intercom := (raiseIntercom_acts u).same .intercom
    rw [endHoldOff_kept (.inl (by rw [hti, hui]; exact hheld))] at hexec
    refine ⟨_, hexec, hacts.widen.frame, ((raiseIntercom_acts u).same .pins).trans hup, by rw [hti, hui]; rfl,
      by rw [hti, hui]; rfl, ?_⟩
    rw [if_pos h]
    exact ⟨by rw [hti, hui]; exact hangState_eq x, by rw [hti, hui], raiseIntercom_announced rfl⟩
  · have hkept : hangIfSilent x (voxFell x s) = voxFell x s := by
      refine hangIfSilent_kept ?_
      by_cases ht : s.intercom.channel.talks x = true
      · refine .inr ((voxFell_voice x s).mpr ?_)
        have hno : ¬(x = .rear ∨ s.intercom.mode = .offMode ∨ s.pins.ptt = false) := fun hc => h ⟨ht, hc⟩
        rw [not_or, not_or] at hno
        obtain ⟨hx, hmode, hptt⟩ := hno
        refine ⟨?_, hmode, by simpa using hptt⟩
        cases x
        · rfl
        · exact absurd rfl hx
      · exact .inl ((Bool.not_eq_true _).mp ht)
    rw [hkept, endHoldOff_kept (s := voxFell x s) (.inl hheld)] at hexec
    refine ⟨_, hexec, (voxFell_acts x s).widen.frame, rfl, rfl, rfl, ?_⟩
    rw [if_neg h]
    exact ⟨rfl, rfl⟩

/-- The hold-off of a side has ended. -/
def holdOffOver (x : Side) (s : State) : State :=
  setIntercom (fun n => { n with heldOff := n.heldOff.set false x }) s

/-- What the end of a hold-off, or its going on, leaves of a state in which the channel is held or not to be taken. -/
theorem endHoldOff_leaves {x : Side} {s : State} (hheld : s.intercom.heldOff.get x = true) :
    let t := endHoldOff x s
    t.pins = s.pins ∧ t.intercom.vox = s.intercom.vox
      ∧ t.intercom.heldOff = (if sourceAsserted s x = true then s.intercom.heldOff else s.intercom.heldOff.set false x)
      ∧ (s.intercom.channel ≠ .quiet → t.intercom.channel = s.intercom.channel ∧ t.intercom.talk = s.intercom.talk)
      ∧ (s.intercom.channel = .quiet → (∀ y, y ≠ x → mayTake s y = false) →
          (sourceAsserted s x = false → voice s x = false) →
          t.intercom.channel = .quiet ∧ t.speakers = s.speakers ∧ t.link = s.link) := by
  dsimp only
  by_cases hs : sourceAsserted s x = true
  · rw [endHoldOff_kept (.inr hs), if_pos hs]
    exact ⟨rfl, rfl, rfl, fun _ => ⟨rfl, rfl⟩, fun hq _ _ => ⟨hq, rfl, rfl⟩⟩
  · have hoff := (Bool.not_eq_true _).mp hs
    have hends : endHoldOff x s = takeChannel (holdOffOver x s) := endHoldOff_ends hheld hoff
    have hsame := takeChannel_same (holdOffOver x s)
    rw [hends, if_neg hs]
    refine ⟨((setIntercom_acts _ s).seq (takeChannel_acts _)).same .pins, by rw [hsame]; rfl, by rw [hsame]; rfl,
      fun hch => ?_, fun hq hothers hsilent => ?_⟩
    · rw [takeChannel_held (s := holdOffOver x s) hch]
      exact ⟨rfl, rfl⟩
    · have hx : mayTake (holdOffOver x s) x = false := by
        rw [← Bool.not_eq_true, mayTake_iff]
        rintro ⟨hv, -⟩
        rw [show voice (holdOffOver x s) x = voice s x by cases x <;> rfl, hsilent hoff] at hv
        cases hv
      have hother (y : Side) (hy : y ≠ x) : mayTake (holdOffOver x s) y = false := by
        rw [mayTake_congr (s := s) (t := holdOffOver x s) (fun _ => rfl) rfl rfl rfl (PerSide.get_set_other _ _ hy)]
        exact hothers y hy
      have huntaken : takeChannel (holdOffOver x s) = holdOffOver x s := by
        cases x with
        | front => exact takeChannel_untaken hx (hother .rear (by decide))
        | rear => exact takeChannel_untaken (hother .front (by decide)) hx
      rw [huntaken]
      exact ⟨hq, rfl, rfl⟩

/-- The hold-off at the fall of its side's line. -/
theorem voxFalls_holdOff {s : State} {x : Side} (hrun : s.power = .running) (hline : voxLine s.pins x = true)
    (hheld : s.intercom.heldOff.get x = true) (htalks : s.intercom.channel.talks x = false) :
    ∃ t, exec (.voxChange x false) s = .next t ∧ changesOnly [.pins, .intercom, .speakers, .link] s t
      ∧ t.pins = setVoxLine s.pins false x ∧ t.intercom.vox = s.intercom.vox.set .low x
      ∧ t.intercom.heldOff = (if x = .front ∧ s.pins.ptt = true then s.intercom.heldOff
          else s.intercom.heldOff.set false x)
      ∧ (s.intercom.channel ≠ .quiet →
          t.intercom.channel = s.intercom.channel ∧ t.intercom.talk = s.intercom.talk)
      ∧ (s.intercom.channel = .quiet → (∀ y, y ≠ x → mayTake s y = false) →
          t.intercom.channel = .quiet ∧ t.speakers = s.speakers ∧ t.link = s.link) := by
  have hexec := exec_voxChange (x := x) (level := false) hrun (by rw [hline]; decide)
  have hfalls : voxFalls x (lineSet x false s) = endHoldOff x (hangIfSilent x (voxFell x s)) := rfl
  rw [if_neg (by decide), hfalls, hangIfSilent_kept (s := voxFell x s) (.inl htalks)] at hexec
  obtain ⟨hpins, hvox, hoff, hchannel, hquiet⟩ := endHoldOff_leaves (s := voxFell x s) hheld
  have hsource : sourceAsserted (voxFell x s) x = true ↔ x = .front ∧ s.pins.ptt = true := by
    rw [sourceAsserted_low (s := voxFell x s) (setVoxLine_low s.pins x), voxFell_ptt]
  refine ⟨_, hexec, ((voxFell_acts x s).seq (endHoldOff_acts x _)).widen.frame, hpins, hvox, ?_, hchannel,
    fun hq hothers => hquiet hq (fun y hy => ?_) (fun hs => ?_)⟩
  · rw [hoff]
    exact if_congr hsource rfl rfl
  · rw [mayTake_congr (s := s) (t := voxFell x s) (fun _ => voxFell_ptt x s) rfl (PerSide.get_set_other _ _ hy) rfl rfl]
    exact hothers y hy
  · rw [← Bool.not_eq_true, hsource] at hs
    rw [← Bool.not_eq_true, voxFell_voice]
    exact fun ⟨hx, _, hptt⟩ => hs ⟨hx, hptt⟩

/-! ### PTT -/

/-- The pins with PTT at a level. -/
def pttSet (level : Bool) (s : State) : State := { s with pins := { s.pins with ptt := level } }

theorem pttSet_acts (level : Bool) (s : State) : acts [.pins] s (pttSet level s) := withPins_acts s _

theorem exec_pttRelease {s : State} (hrun : s.power = .running) (h : s.pins.ptt = true) :
    exec .pttRelease s = .next (endHoldOff .front (hangIfSilent .front (pttSet false s))) := by
  have hexec : exec .pttRelease s
      = .next (if s.pins.ptt = true then
          whileRunning (fun t => endHoldOff .front (hangIfSilent .front t)) (pttSet false s)
        else s) := rfl
  rw [hexec, if_pos h, whileRunning_running (s := pttSet false s) hrun]

theorem exec_pttPress {s : State} (hrun : s.power = .running) (h : s.pins.ptt = false) :
    exec .pttPress s = .next (pttPresses (pttSet true s)) := by
  have hexec : exec .pttPress s
      = .next (if s.pins.ptt = true then s else whileRunning pttPresses (pttSet true s)) := rfl
  rw [hexec, if_neg (by simp [h]), whileRunning_running (s := pttSet true s) hrun]

/-- Without PTT the front speaks by its VOX line alone. -/
theorem frontVoice_released (s : State) :
    voice (pttSet false s) .front = true
      ↔ (s.intercom.mode = .openMode ∨ s.intercom.mode = .privateMode) ∧ s.intercom.vox.front = .qualified := by
  have hvoice := frontVoice_iff (pttSet false s)
  simp only [pttSet, Bool.false_eq_true, false_or] at hvoice
  refine hvoice.trans ⟨fun h => h.2, fun h => ⟨?_, h⟩⟩
  rcases h.1 with hm | hm <;> simp [hm]

theorem pttRelease_holdOff {s : State} (hrun : s.power = .running) (hptt : s.pins.ptt = true)
    (hheld : s.intercom.heldOff.front = true) (htalks : s.intercom.channel ≠ .frontTalk) :
    ∃ t, exec .pttRelease s = .next t ∧ changesOnly [.pins, .intercom, .speakers, .link] s t
      ∧ t.pins = { s.pins with ptt := false } ∧ t.intercom.vox = s.intercom.vox
      ∧ t.intercom.heldOff = (if s.pins.voxF = true then s.intercom.heldOff
          else s.intercom.heldOff.set false .front)
      ∧ (s.intercom.channel ≠ .quiet →
          t.intercom.channel = s.intercom.channel ∧ t.intercom.talk = s.intercom.talk)
      ∧ (s.intercom.channel = .quiet → (s.pins.voxF = false → s.intercom.vox.front = .low) →
          mayTake s .rear = false →
          t.intercom.channel = .quiet ∧ t.speakers = s.speakers ∧ t.link = s.link) := by
  have hexec := exec_pttRelease hrun hptt
  have hkept : (pttSet false s).intercom.channel.talks .front = false := by
    rw [← Bool.not_eq_true, Channel.talks_iff]
    exact htalks
  rw [hangIfSilent_kept (.inl hkept)] at hexec
  obtain ⟨hpins, hvox, hoff, hchannel, hquiet⟩ := endHoldOff_leaves (s := pttSet false s) (x := .front) hheld
  have hsource : sourceAsserted (pttSet false s) .front = s.pins.voxF := rfl
  rw [hsource] at hoff hquiet
  refine ⟨_, hexec, ((pttSet_acts false s).seq (endHoldOff_acts _ _)).widen.frame, hpins, hvox, hoff, hchannel,
    fun hq hlow hrear => hquiet hq (fun y hy => ?_) (fun hs => ?_)⟩
  · cases y with
    | front => exact absurd rfl hy
    | rear => exact (mayTake_congr (s := s) (fun h => by cases h) rfl rfl rfl rfl).trans hrear
  · rw [← Bool.not_eq_true, frontVoice_released]
    intro h
    rw [hlow hs] at h
    cases h.2

theorem pttRelease_turn {s : State} (hrun : s.power = .running) (hptt : s.pins.ptt = true)
    (hheld : s.intercom.heldOff.front = false) :
    ∃ t, exec .pttRelease s = .next t ∧ changesOnly [.pins, .intercom, .link] s t
      ∧ t.pins = { s.pins with ptt := false }
      ∧ t.intercom =
        (if s.intercom.channel = .frontTalk ∧ ¬((s.intercom.mode = .openMode
            ∨ s.intercom.mode = .privateMode) ∧ s.intercom.vox.front = .qualified) then
          { s.intercom with channel := .hangFront, hangLeft := some (s.intercom.hang / 10) }
        else s.intercom) := by
  have hexec := exec_pttRelease hrun hptt
  have hacts := (pttSet_acts false s).seq (hangIfSilent_acts .front (pttSet false s))
  have htalks : (pttSet false s).intercom.channel.talks .front = true ↔ s.intercom.channel = .frontTalk :=
    Channel.talks_iff _ .front
  by_cases h : s.intercom.channel = .frontTalk ∧ ¬((s.intercom.mode = .openMode
      ∨ s.intercom.mode = .privateMode) ∧ s.intercom.vox.front = .qualified)
  · have hsilent : voice (pttSet false s) .front = false := by
      rw [← Bool.not_eq_true, frontVoice_released]
      exact h.2
    rw [hangIfSilent_hangs (htalks.mpr h.1) hsilent] at hexec hacts
    generalize hu : setIntercom (fun n => { n with channel := hangState .front, hangLeft := some (n.hang / 10) })
      (pttSet false s) = u at hexec hacts
    have hui : u.intercom = { s.intercom with channel := .hangFront, hangLeft := some (s.intercom.hang / 10) } := by
      rw [← hu]; rfl
    have hup : u.pins = { s.pins with ptt := false } := by rw [← hu]; rfl
    have hti : (raiseIntercom u).intercom = u.intercom := (raiseIntercom_acts u).same .intercom
    rw [endHoldOff_kept (.inl (by rw [hti, hui]; exact hheld))] at hexec
    refine ⟨_, hexec, hacts.widen.frame, ((raiseIntercom_acts u).same .pins).trans hup, ?_⟩
    rw [if_pos h, hti, hui]
  · have hkept : hangIfSilent .front (pttSet false s) = pttSet false s := by
      refine hangIfSilent_kept ?_
      by_cases ht : s.intercom.channel = .frontTalk
      · exact .inr ((frontVoice_released s).mpr (not_not.mp (fun hv => h ⟨ht, hv⟩)))
      · exact .inl ((Bool.not_eq_true _).mp (fun hc => ht (htalks.mp hc)))
    rw [hkept, endHoldOff_kept (x := .front) (s := pttSet false s) (.inl hheld)] at hexec
    refine ⟨_, hexec, (pttSet_acts false s).widen.frame, rfl, ?_⟩
    rw [if_neg h]
    rfl

theorem pttPresses_off {s : State} (h : s.intercom.mode = .offMode ∨ s.intercom.heldOff.front = true) :
    pttPresses s = s := if_pos h

/-- A press with the front free to speak, by the channel's state (R144). -/
theorem pttPresses_on {s : State} (hmode : s.intercom.mode ≠ .offMode) (hheld : s.intercom.heldOff.front = false) :
    pttPresses s = match s.intercom.channel with
      | .quiet => takeChannel s
      | .frontTalk => s
      | .hangFront => returnToTalk .front s
      | .rearTalk | .hangRear => overrideRear s := by
  rw [pttPresses]
  refine (if_neg (by simp [hmode, hheld])).trans ?_
  cases s.intercom.channel <;> rfl

theorem overrideRear_intercom (s : State) : (overrideRear s).intercom = s.intercom.turnOf .front := by
  rw [overrideRear, (raiseIntercom_acts _).same .intercom, beginTurn_intercom, pathCloses_intercom]
  rfl

/-- PTT takes the channel, from the rear as well. -/
theorem pttPresses_takes {s : State} (hptt : s.pins.ptt = true) (hmode : s.intercom.mode ≠ .offMode)
    (hheld : s.intercom.heldOff.front = false) :
    (pttPresses s).intercom.channel = .frontTalk
      ∧ ((s.intercom.channel = .frontTalk ∨ s.intercom.channel = .hangFront) →
          (pttPresses s).intercom.talk = s.intercom.talk)
      ∧ ((s.intercom.channel = .quiet ∨ s.intercom.channel.side? = some .rear) →
          (pttPresses s).intercom.talk = some ⟨s.intercom.maxTalk * 100, s.intercom.maxTalk⟩) := by
  have hon := pttPresses_on hmode hheld
  have hmay : mayTake s .front = true := (mayTake_iff s .front).mpr ⟨(frontVoice_iff s).mpr ⟨hmode, .inl hptt⟩, hheld⟩
  cases hc : s.intercom.channel with
  | quiet =>
    have htake : (pttPresses s).intercom = s.intercom.turnOf .front := by
      simp only [hon, hc, takeChannel_intercom hc, hmay, if_true]
    rw [htake]
    exact ⟨rfl, fun h => by simp at h, fun _ => rfl⟩
  | frontTalk =>
    have hsame : pttPresses s = s := by simp only [hon, hc]
    rw [hsame]
    exact ⟨hc, fun _ => rfl, fun h => by simp [Channel.side?] at h⟩
  | hangFront =>
    have hback : pttPresses s = returnToTalk .front s := by simp only [hon, hc]
    rw [hback, returnToTalk_intercom]
    exact ⟨rfl, fun _ => rfl, fun h => by simp [Channel.side?] at h⟩
  | rearTalk | hangRear =>
    have hover : pttPresses s = overrideRear s := by simp only [hon, hc]
    rw [hover, overrideRear_intercom]
    exact ⟨rfl, fun h => by simp at h, fun _ => rfl⟩

/-! ### The attack, the hang and the max talk -/

/-- An attack that has run its time. -/
theorem attack_ends {s : State} {x : Side} {n : Nat} (hrun : s.power = .running) (ha : s.intercom.vox.get x = .attack n) :
    ∃ t, exec (.attackExpiry x) s = .next t
      ∧ changesOnly [.intercom, .speakers, .link] s t
      ∧ t.intercom.vox = s.intercom.vox.set .qualified x
      ∧ (voxAllowed s.intercom x = true → s.intercom.heldOff.get x = false →
        (x = .rear → mayTake s .front = false) → s.intercom.channel = .quiet →
        t.intercom.channel = (if x = .front then .frontTalk else .rearTalk)
          ∧ t.intercom.talk = some ⟨s.intercom.maxTalk * 100, s.intercom.maxTalk⟩
          ∧ announced .intercomState (intercomPayload t.intercom) t)
      ∧ (s.intercom.channel ≠ .quiet → s.intercom.channel.hangs x = false →
        t.intercom.channel = s.intercom.channel ∧ t.link = s.link ∧ t.speakers = s.speakers) := by
  have hexec := exec_running (c := .attackExpiry x) hrun (g := attackExpires x) rfl
  have hrises : attackExpires x s = voiceRises x (setQualifier x .qualified s) := by
    simp only [attackExpires, ha]
  generalize hu : setQualifier x .qualified s = u at hrises
  have hui : u.intercom = { s.intercom with vox := s.intercom.vox.set .qualified x } := by rw [← hu]; rfl
  have hul : u.link = s.link ∧ u.speakers = s.speakers ∧ u.pins = s.pins := by rw [← hu]; exact ⟨rfl, rfl, rfl⟩
  rw [hrises] at hexec
  refine ⟨_, hexec, ?_, ?_, fun hallowed hheld hfront hq => ?_, fun hq hhangs => ?_⟩
  · rw [← hrises]
    exact (attackExpires_acts x s).frame
  · unfold voiceRises
    split
    · rw [returnToTalk_intercom, hui]
    · rw [takeChannel_same, hui]
  · have huq : u.intercom.channel = .quiet := by rw [hui]; exact hq
    have hvoice : voice u x = true := voice_of_qualified (by rw [hui]; simp) (by
      rw [hui]
      cases x <;> exact hallowed)
    have hmay : mayTake u x = true := (mayTake_iff u x).mpr ⟨hvoice, by rw [hui]; exact hheld⟩
    have htake : voiceRises x u = enterTalk x u := by
      have hno : u.intercom.channel.hangs x = false := by
        rw [huq]
        cases x <;> rfl
      rw [voiceRises, hno, Bool.false_and, if_neg (by decide), takeChannel_quiet huq]
      cases x with
      | front => rw [if_pos hmay]
      | rear =>
        have hf : mayTake u .front = false := by
          rw [mayTake_congr (s := s) (fun _ => by rw [hul.2.2]) (by rw [hui]) (by rw [hui]; rfl) (by rw [hui]) (by rw [hui])]
          exact hfront rfl
        rw [if_neg (by simp [hf]), if_pos hmay]
    have hintercom : (enterTalk x u).intercom = u.intercom.turnOf x := by
      rw [enterTalk_intercom, beginTurn_intercom]
      rfl
    rw [htake]
    refine ⟨?_, ?_, raiseIntercom_announced rfl⟩
    · rw [hintercom, ← talkState_eq]
      rfl
    · rw [hintercom, hui]
      rfl
  · have hstay : voiceRises x u = u := by
      rw [voiceRises, hui]
      simp only [hhangs, Bool.false_and, Bool.false_eq_true, if_false]
      exact takeChannel_held (by rw [hui]; exact hq)
    rw [hstay, hui]
    exact ⟨rfl, hul.1, hul.2.1⟩

/-- A hang that ends hands the channel on. -/
theorem hang_ends {s : State} (hrun : s.power = .running)
    (h : s.intercom.channel = .hangFront ∨ s.intercom.channel = .hangRear) :
    ∃ t, exec .hangTimerExpiry s = .next t ∧ changesOnly [.intercom, .speakers, .link] s t
      ∧ t.intercom.channel =
        (if mayTake s .front = true then .frontTalk else if mayTake s .rear = true then .rearTalk
          else .quiet)
      ∧ t.intercom.hangLeft = none
      ∧ t.intercom.talk =
        (if mayTake s .front = true ∨ mayTake s .rear = true then
          some ⟨s.intercom.maxTalk * 100, s.intercom.maxTalk⟩ else none) := by
  have hends : hangExpires s = quietThenTake s := by
    rcases h with h | h <;> simp only [hangExpires, h]
  have hexec := exec_running (c := .hangTimerExpiry) hrun (g := hangExpires) rfl
  rw [hends] at hexec
  refine ⟨_, hexec, (quietThenTake_acts s).frame, ?_⟩
  rw [quietThenTake_intercom]
  by_cases hf : mayTake s .front = true
  · simp only [hf, if_true, true_or]
    exact ⟨rfl, rfl, rfl⟩
  · by_cases hr : mayTake s .rear = true
    · simp only [hf, hr, Bool.false_eq_true, if_false, if_true, or_true]
      exact ⟨rfl, rfl, rfl⟩
    · simp only [hf, hr, Bool.false_eq_true, if_false, or_self, and_self]

/-- The state a max-talk expiry leaves before the entry rule. -/
def turnCut (x : Side) (s : State) : State :=
  askTone .talkLimit (raise .talkLimit [.u8 x.ctorIdx, .u16 (talkSeconds s.intercom)]
    (raiseIntercom (holdOff x (goQuiet s))))

theorem turnCut_intercom (x : Side) (s : State) :
    (turnCut x s).intercom
      = { s.intercom with
          channel := .quiet, hangLeft := none, talk := none
          heldOff := s.intercom.heldOff.set (sourceAsserted s x) x } := by
  have hafter : (turnCut x s).intercom = (holdOff x (goQuiet s)).intercom :=
    (((raiseIntercom_acts (holdOff x (goQuiet s))).seq (raise_acts _ _ _)).seq (askTone_acts _ _)).same .intercom
  have hsource : sourceAsserted (goQuiet s) x = sourceAsserted s x := by
    have hpins : (goQuiet s).pins = s.pins := (goQuiet_acts s).same .pins
    cases x <;> simp only [sourceAsserted, hpins]
  rw [hafter, holdOff, setIntercom_intercom_eq, goQuiet_intercom, hsource]

/-- Max talk cuts the turn, holds off the side and tells of it. -/
theorem maxTalk_ends {s : State} {x : Side} (hrun : s.power = .running) (h : s.intercom.channel.side? = some x) :
    ∃ t, exec .maxTalkExpiry s = .next t
      ∧ changesOnly [.intercom, .speakers, .link] s t
      ∧ t.intercom.heldOff = s.intercom.heldOff.set (sourceAsserted s x) x
      ∧ (let free (y : Side) : Bool :=
          voice s y && !(s.intercom.heldOff.set (sourceAsserted s x) x).get y
         t.intercom.channel =
          if free .front = true then .frontTalk else if free .rear = true then .rearTalk else .quiet)
      ∧ announced .talkLimit [.u8 x.ctorIdx, .u16 (talkSeconds s.intercom)] t := by
  have hcut : maxTalkExpires s = takeChannel (turnCut x s) := by
    simp only [maxTalkExpires, h]
    rfl
  have hexec := exec_running (c := .maxTalkExpiry) hrun (g := maxTalkExpires) rfl
  have hframe := (maxTalkExpires_acts s).frame
  rw [hcut] at hexec hframe
  have hintercom := turnCut_intercom x s
  have hpins : (turnCut x s).pins = s.pins :=
    (((((goQuiet_acts s).seq (setIntercom_acts _ _)).seq (raiseIntercom_acts _)).seq (raise_acts _ _ _)).seq
      (askTone_acts _ _)).same .pins
  have hmay (y : Side) : mayTake (turnCut x s) y
      = (voice s y && !(s.intercom.heldOff.set (sourceAsserted s x) x).get y) := by
    have hvoice : voice (turnCut x s) y = voice s y := by
      cases y <;> simp only [voice, frontVoice, rearVoice, hintercom, hpins]
    rw [mayTake, hvoice, hintercom]
  have hquiet : (turnCut x s).intercom.channel = .quiet := by rw [hintercom]
  refine ⟨_, hexec, hframe, ?_, ?_, ?_⟩
  · rw [takeChannel_same, hintercom]
  · dsimp only
    rw [takeChannel_intercom hquiet, hmay, hmay]
    by_cases hf : (voice s .front && !(s.intercom.heldOff.set (sourceAsserted s x) x).get .front) = true
    · rw [if_pos hf, if_pos hf]
      rfl
    · rw [if_neg hf, if_neg hf]
      by_cases hr : (voice s .rear && !(s.intercom.heldOff.set (sourceAsserted s x) x).get .rear) = true
      · rw [if_pos hr, if_pos hr]
        rfl
      · rw [if_neg hr, if_neg hr]
        exact hquiet
  · have hsaid := announced_raise .talkLimit [.u8 x.ctorIdx, .u16 (talkSeconds s.intercom)]
      (raiseIntercom (holdOff x (goQuiet s)))
    exact (hsaid.later (askTone_raises .talkLimit _) (by decide)).later (takeChannel_raises _) (by decide)

/-- Settles O51. -/
theorem voicesTakeAndLeaveTheChannel : Obligations.VoicesTakeAndLeaveTheChannel := by
  intro s x hrun
  refine ⟨fun hline => ⟨fun h => ?_, fun h hallowed => ?_⟩, voxFalls_turn hrun, voxFalls_holdOff hrun,
    pttRelease_holdOff hrun, fun n => attack_ends hrun, fun hptt => ?_, pttRelease_turn hrun, hang_ends hrun,
    maxTalk_ends hrun⟩
  · have hrises : voxRises x (lineSet x true s) = setQualifier x (.attack (s.intercom.attack / 10)) (lineSet x true s) :=
      if_neg (by simp [show (lineSet x true s).intercom.channel.hangs x = false from h])
    rw [exec_voxChange hrun (by rw [hline]; decide), if_pos rfl, hrises]
    rfl
  · have hrises : voxRises x (lineSet x true s) = returnToTalk x (setQualifier x .qualified (lineSet x true s)) :=
      if_pos (by rw [Bool.and_eq_true]; exact ⟨h, hallowed⟩)
    have hexec := exec_voxChange (x := x) (level := true) hrun (by rw [hline]; decide)
    rw [if_pos rfl, hrises] at hexec
    refine ⟨_, hexec, ?_, ?_, raiseIntercom_announced rfl⟩
    · exact (((lineSet_acts x true s).seq (setQualifier_acts x _ _)).seq (returnToTalk_acts x _)).widen.frame
    · rw [returnToTalk_intercom, talkState_eq]
      rfl
  · refine ⟨_, exec_pttPress hrun hptt, ((pttSet_acts true s).seq (pttPresses_acts _)).widen.frame,
      (pttPresses_acts (pttSet true s)).same .pins, fun hoff => ?_, fun hmode hheld => ?_⟩
    · rw [pttPresses_off (s := pttSet true s) hoff]
      rfl
    · exact pttPresses_takes (s := pttSet true s) rfl hmode hheld

end Sys2Proof.Machine
end

