-- ==== Sys2Proof/Proofs/Calls.lean ====
section
/-!
PROOF. The intercom's mode and settings, the seat calls, their rotation and the call window.
-/

set_option Elab.async false

namespace Sys2Proof.Machine

/-! ### INTERCOM_MODE (R141) -/

theorem intercomMode?_code {m : Nat} (h : m ≤ 3) : ∃ x : IntercomMode, intercomMode? m = some x ∧ x.ctorIdx = m := by
  match m with
  | 0 => exact ⟨_, rfl, rfl⟩
  | 1 => exact ⟨_, rfl, rfl⟩
  | 2 => exact ⟨_, rfl, rfl⟩
  | 3 => exact ⟨_, rfl, rfl⟩
  | n + 4 => omega

theorem intercomMode?_none {m : Nat} (h : 3 < m) : intercomMode? m = none := by
  match m with
  | 0 | 1 | 2 | 3 => omega
  | n + 4 => rfl

theorem takeIntercomMode_named {m : Nat} {x : IntercomMode} (h : intercomMode? m = some x) (s : State) :
    takeIntercomMode m s
      = (if x = s.intercom.mode then s else changeMode x s,
          .ok [.u8 x.ctorIdx, .u8 (if x = s.intercom.mode then s else changeMode x s).intercom.channel.ctorIdx]) := by
  rw [takeIntercomMode, h]

/-- The state of a new mode before the entry rule. -/
def modeEntered (m : IntercomMode) (s : State) : State :=
  let s1 := setIntercom (fun n => { n with mode := m, window := none }) s
  raiseIntercom (if modeQuiets s1 then goQuiet s1 else s1)

theorem changeMode_eq (m : IntercomMode) (s : State) : changeMode m s = takeChannel (modeEntered m s) := rfl

/-- Of the intercom a new mode changes mode, window, channel and the channel's timers. -/
theorem modeEntered_intercom (m : IntercomMode) (s : State) :
    (modeEntered m s).intercom
      = { s.intercom with
          mode := m, window := none
          channel := (modeEntered m s).intercom.channel
          hangLeft := (modeEntered m s).intercom.hangLeft
          talk := (modeEntered m s).intercom.talk } := by
  have hsame : (modeEntered m s).intercom
      = (if modeQuiets (setIntercom (fun n => { n with mode := m, window := none }) s) = true then
          goQuiet (setIntercom (fun n => { n with mode := m, window := none }) s)
        else setIntercom (fun n => { n with mode := m, window := none }) s).intercom := (raiseIntercom_acts _).same .intercom
  rw [hsame]
  split
  · rw [goQuiet_intercom]
    rfl
  · rfl

/-- In OFF the channel is QUIET. -/
theorem modeEntered_off (s : State) : (modeEntered .offMode s).intercom.channel = .quiet := by
  have hsame : (modeEntered .offMode s).intercom
      = (if modeQuiets (setIntercom (fun n => { n with mode := .offMode, window := none }) s) = true then
          goQuiet (setIntercom (fun n => { n with mode := .offMode, window := none }) s)
        else setIntercom (fun n => { n with mode := .offMode, window := none }) s).intercom :=
    (raiseIntercom_acts _).same .intercom
  rw [hsame]
  split
  · rw [goQuiet_intercom]
  · next hno =>
    have hkept : modeQuiets (setIntercom (fun n => { n with mode := .offMode, window := none }) s) = false :=
      (Bool.not_eq_true _).mp hno
    revert hkept
    simp only [modeQuiets, setIntercom, frontVoice, rearVoice]
    cases s.intercom.channel <;> simp

theorem changeMode_intercom (m : IntercomMode) (s : State) :
    (changeMode m s).intercom
      = { s.intercom with
          mode := m, window := none
          channel := (changeMode m s).intercom.channel
          hangLeft := (changeMode m s).intercom.hangLeft
          talk := (changeMode m s).intercom.talk } := by
  rw [changeMode_eq, takeChannel_same, modeEntered_intercom]

theorem changeMode_off (s : State) : (changeMode .offMode s).intercom.channel = .quiet := by
  have hmode : (modeEntered .offMode s).intercom.mode = .offMode := by rw [modeEntered_intercom]
  have hsilent (x : Side) : mayTake (modeEntered .offMode s) x = false := by
    cases x <;> simp [mayTake, voice, frontVoice, rearVoice, hmode]
  rw [changeMode_eq, takeChannel_untaken (hsilent .front) (hsilent .rear)]
  exact modeEntered_off s

/-! ### Settings (R147) -/

theorem settle_eq (lo hi step n : Nat) (h : lo ≤ hi) : settle lo hi step n = max lo (min hi n) / step * step := by
  have hclamp : clamp lo hi n = max lo (min hi n) := by
    unfold clamp
    omega
  rw [settle, hclamp]

theorem storeTimes_intercom (a h m : Nat) (s : State) :
    (storeTimes a h m s).intercom = { s.intercom with attack := a, hang := h, maxTalk := m } := by
  unfold storeTimes
  dsimp only
  split
  · rfl
  · exact (raiseIntercom_acts _).same .intercom

/-- A change of the settings is told. -/
theorem storeTimes_announced (a h m : Nat) (s : State) :
    (storeTimes a h m s).intercom = s.intercom
      ∨ announced .intercomState (intercomPayload (storeTimes a h m s).intercom) (storeTimes a h m s) := by
  by_cases hsame : (s.intercom.attack == a && s.intercom.hang == h && s.intercom.maxTalk == m) = true
  · refine .inl ?_
    rw [storeTimes_intercom]
    simp only [Bool.and_eq_true, beq_iff_eq] at hsame
    obtain ⟨⟨rfl, rfl⟩, rfl⟩ := hsame
    rfl
  · refine .inr ?_
    have hraised : storeTimes a h m s
        = raiseIntercom (setIntercom (fun n => { n with attack := a, hang := h, maxTalk := m }) s) := if_neg hsame
    exact raiseIntercom_announced hraised

/-! ### Seat calls (R148, R149) -/

theorem nextCall_none {n : Intercom} (h : n.calls = SeatSet.empty) : n.nextCall = none := by
  rw [Intercom.nextCall, h]
  exact List.find?_eq_none.mpr (fun x _ => by cases x <;> decide)

/-- The rotation takes the first pending call from the pointer. -/
theorem nextCall_some {n : Intercom} {before after : List Seat} {x : Seat}
    (hcycle : cycleFrom n.pointer = before ++ x :: after) (hx : n.calls.get x = true)
    (hbefore : ∀ y ∈ before, n.calls.get y = false) : n.nextCall = some x := by
  rw [Intercom.nextCall, hcycle]
  exact find?_split after hx hbefore

/-- The state of an answered call before the entry rule. -/
def callTaken (x : Seat) (s : State) : State :=
  raiseIntercom (setIntercom (fun n => { n with
    calls := n.calls.set false x
    pointer := seatAfter x
    window := if n.mode = .privateMode then some 3000 else n.window }) s)

theorem answersCall_eq (x : Seat) (s : State) : answersCall x s = takeChannel (callTaken x s) := rfl

theorem answersCall_intercom (x : Seat) (s : State) :
    (answersCall x s).intercom
      = { s.intercom with
          calls := s.intercom.calls.set false x
          pointer := seatAfter x
          window := if s.intercom.mode = .privateMode then some 3000 else s.intercom.window
          channel := (answersCall x s).intercom.channel
          hangLeft := (answersCall x s).intercom.hangLeft
          talk := (answersCall x s).intercom.talk } := by
  have htaken : (callTaken x s).intercom = _ := (raiseIntercom_acts _).same .intercom
  rw [answersCall_eq, takeChannel_same, htaken]
  rfl

theorem seatSet_set_true {p : SeatSet} {x : Seat} (h : p.get x = true) : p.set true x = p := by
  cases x <;> exact congrArg (fun b => PerSeat.set p b _) h.symm

/-- The state of a press that is taken, before its call. -/
def pressMarked (x : Seat) (s : State) : State := setIntercom (fun n => { n with press := n.press.set .taken x }) s

theorem pressTaken_pending {x : Seat} {n : Nat} {s : State} (h : s.intercom.press.get x = .pressing n)
    (hc : s.intercom.calls.get x = true) : pressTaken x s = pressMarked x s := by
  simp only [pressTaken, h]
  exact if_pos hc

theorem pressTaken_new {x : Seat} {n : Nat} {s : State} (h : s.intercom.press.get x = .pressing n)
    (hc : s.intercom.calls.get x = false) : pressTaken x s = raiseCall x (pressMarked x s) := by
  simp only [pressTaken, h]
  exact if_neg (by rw [show (s.intercom.calls.get x) = false from hc]; decide)

/-- The state of a new call before its notice. -/
def callEntered (x : Seat) (s : State) : State := setIntercom (fun n => { n with calls := n.calls.set true x }) s

theorem raiseCall_eq (x : Seat) (s : State) :
    raiseCall x s
      = if s.intercom.mode = .offMode then raise .call (callPayload x (callEntered x s)) (callEntered x s)
        else askTone .callChime (raise .call (callPayload x (callEntered x s)) (callEntered x s)) := rfl

/-- A call from a seat that is not pending is told and, outside OFF, asked a chime for. -/
theorem raiseCall_leaves (x : Seat) (s : State) :
    (raiseCall x s).intercom = { s.intercom with calls := s.intercom.calls.set true x }
      ∧ announced .call (callPayload x (callEntered x s)) (raiseCall x s)
      ∧ (raiseCall x s).speakers = (if s.intercom.mode = .offMode then s else askTone .callChime s).speakers := by
  have hsaid := announced_raise .call (callPayload x (callEntered x s)) (callEntered x s)
  have hintercom : (raise .call (callPayload x (callEntered x s)) (callEntered x s)).intercom
      = { s.intercom with calls := s.intercom.calls.set true x } := (raise_acts _ _ _).same .intercom
  have hspeakers : (raise .call (callPayload x (callEntered x s)) (callEntered x s)).speakers = s.speakers :=
    (raise_acts _ _ _).same .speakers
  rw [raiseCall_eq]
  split
  · exact ⟨hintercom, hsaid, hspeakers⟩
  · exact ⟨((askTone_acts _ _).same .intercom).trans hintercom, hsaid.later (askTone_raises _ _) (by decide),
      askTone_speakers_congr hspeakers _⟩

/-! ### The call window's end (R149) -/

/-- The state of a call window that has closed, before the channel follows. -/
def windowClosed (s : State) : State := setIntercom (fun n => { n with window := none }) s

theorem windowEnds_other {s : State} (hw : s.intercom.window.isSome = true) (h : s.intercom.channel.side? ≠ some .rear) :
    windowEnds s = raiseIntercom (windowClosed s) := by
  obtain ⟨n, hn⟩ := Option.isSome_iff_exists.mp hw
  cases hc : s.intercom.channel with
  | quiet | frontTalk | hangFront => simp only [windowEnds, hn, hc] <;> rfl
  | rearTalk | hangRear => exact absurd (by rw [hc]; rfl) h

theorem windowEnds_rear {s : State} (hw : s.intercom.window.isSome = true) (h : s.intercom.channel.side? = some .rear) :
    windowEnds s = quietThenTake (windowClosed s) := by
  obtain ⟨n, hn⟩ := Option.isSome_iff_exists.mp hw
  cases hc : s.intercom.channel with
  | quiet | frontTalk | hangFront => rw [hc] at h; cases h
  | rearTalk | hangRear => simp only [windowEnds, hn, hc] <;> rfl

theorem quietThenTake_announced (s : State) :
    announced .intercomState (intercomPayload (quietThenTake s).intercom) (quietThenTake s) :=
  takeChannel_announced (raiseIntercom_announced rfl)

theorem quietThenTake_same (s : State) :
    (quietThenTake s).intercom
      = { s.intercom with
          channel := (quietThenTake s).intercom.channel
          hangLeft := (quietThenTake s).intercom.hangLeft
          talk := (quietThenTake s).intercom.talk } := by
  rw [quietThenTake_intercom]
  split
  · rfl
  · split <;> rfl

theorem windowEnds_leaves {s : State} (hrun : s.power = .running) (hw : s.intercom.window.isSome = true) :
    ∃ t, exec .callWindowEnd s = .next t
      ∧ changesOnly [.intercom, .speakers, .link] s t ∧ t.intercom.window = none
      ∧ t.intercom.calls = s.intercom.calls
      ∧ (s.intercom.channel.side? ≠ some .rear → t.intercom.channel = s.intercom.channel
        ∧ t.speakers = s.speakers)
      ∧ (s.intercom.channel.side? = some .rear → s.intercom.mode = .privateMode →
          t.intercom.channel = (if mayTake s .front = true then .frontTalk else .quiet))
      ∧ announced .intercomState (intercomPayload t.intercom) t := by
  have hexec := exec_running (c := .callWindowEnd) hrun (g := windowEnds) rfl
  have hframe := (windowEnds_acts s).frame
  by_cases h : s.intercom.channel.side? = some .rear
  · rw [windowEnds_rear hw h] at hexec hframe
    have hsame := quietThenTake_same (windowClosed s)
    refine ⟨_, hexec, hframe, by rw [hsame]; rfl, by rw [hsame]; rfl, fun hno => absurd h hno, fun _ hmode => ?_,
      quietThenTake_announced _⟩
    have hfront : mayTake (windowClosed s) .front = mayTake s .front := rfl
    have hrear : mayTake (windowClosed s) .rear = false := by
      rw [← Bool.not_eq_true, mayTake_iff]
      rintro ⟨hvoice, -⟩
      have hallowed := ((rearVoice_iff _).mp hvoice).2
      simp [voxAllowed, windowClosed, hmode] at hallowed
    rw [quietThenTake_intercom, hfront, hrear]
    by_cases hf : mayTake s .front = true
    · rw [if_pos hf, if_pos hf]
      rfl
    · rw [if_neg hf, if_neg hf]
      rfl
  · rw [windowEnds_other hw h] at hexec hframe
    have hintercom : (raiseIntercom (windowClosed s)).intercom = { s.intercom with window := none } :=
      (raiseIntercom_acts _).same .intercom
    exact ⟨_, hexec, hframe, by rw [hintercom], by rw [hintercom],
      fun _ => ⟨by rw [hintercom], (raiseIntercom_acts _).same .speakers⟩, fun hr _ => absurd hr h,
      raiseIntercom_announced rfl⟩

/-! ### The requests and events -/

theorem intercomMode_taken {s : State} (hready : ready s) {m : Nat} (hm : m ≤ 3) :
    ∃ t, exec (.intercomMode m) s = .next t
      ∧ changesOnly [.intercom, .speakers, .link] s t ∧ t.intercom.mode.ctorIdx = m
      ∧ (m = s.intercom.mode.ctorIdx → t.intercom = s.intercom ∧ t.speakers = s.speakers)
      ∧ (m ≠ s.intercom.mode.ctorIdx → t.intercom.window = none
        ∧ announced .intercomState (intercomPayload t.intercom) t)
      ∧ (m = 3 → s.intercom.mode ≠ .offMode → t.intercom.channel = .quiet)
      ∧ t.intercom.calls = s.intercom.calls ∧ t.intercom.pointer = s.intercom.pointer
      ∧ t.intercom.heldOff = s.intercom.heldOff
      ∧ replyIs .intercomMode ⟨.ok, [.u8 m, .u8 t.intercom.channel.ctorIdx]⟩ t := by
  obtain ⟨x, hx, rfl⟩ := intercomMode?_code hm
  have hrule := takeIntercomMode_named hx s
  have hinj (a b : IntercomMode) (h : a.ctorIdx = b.ctorIdx) : a = b := by
    cases a <;> cases b <;> simp_all [IntercomMode.ctorIdx]
  by_cases hsame : x = s.intercom.mode
  · rw [if_pos hsame] at hrule
    refine ⟨_, exec_taken hready rfl hrule, (acts_refl [.intercom, .speakers] s).answered _ _ (by simp) (by simp),
      by rw [hsame]; rfl, fun _ => ⟨rfl, rfl⟩, fun hne => absurd (by rw [hsame]) hne, fun h3 hno => ?_, rfl, rfl, rfl,
      replyIs_answered _ _ _⟩
    exact absurd (hsame.symm.trans (hinj x .offMode h3)) hno
  · rw [if_neg hsame] at hrule
    have hintercom := changeMode_intercom x s
    refine ⟨_, exec_taken hready rfl hrule, (changeMode_acts x s).answered _ _ (by simp) (by simp), ?_, fun h => ?_,
      fun _ => ⟨?_, ?_⟩, fun h3 _ => ?_, ?_, ?_, ?_, replyIs_answered _ _ _⟩
    · rw [answered_intercom, hintercom]
    · exact absurd (hinj _ _ h) hsame
    · rw [answered_intercom, hintercom]
    · exact (takeChannel_announced (raiseIntercom_announced rfl)).answered _ _
    · rw [hinj x .offMode h3]
      exact changeMode_off s
    · rw [answered_intercom, hintercom]
    · rw [answered_intercom, hintercom]
    · rw [answered_intercom, hintercom]

theorem intercomSettings_taken {s : State} (hready : ready s) (a h m : Nat) :
    ∃ (t : State) (code : ReplyCode), exec (.intercomSettings a h m) s = .next t
      ∧ changesOnly [.intercom, .link] s t
      ∧ t.intercom =
        { s.intercom with
          attack := max 20 (min 200 a) / 10 * 10, hang := max 300 (min 3000 h) / 100 * 100
          maxTalk := max 10 (min 300 m) }
      ∧ (code = .ok ∨ code = .adjusted)
      ∧ (code = .ok ↔ t.intercom.attack = a ∧ t.intercom.hang = h ∧ t.intercom.maxTalk = m)
      ∧ (t.intercom = s.intercom ∨ announced .intercomState (intercomPayload t.intercom) t)
      ∧ replyIs .intercomSettings
        ⟨code, [.u8 t.intercom.attack, .u16 t.intercom.hang, .u16 t.intercom.maxTalk]⟩ t := by
  have hrule : takeIntercomSettings a h m s
      = (storeTimes (settle 20 200 10 a) (settle 300 3000 100 h) (clamp 10 300 m) s,
          .okOr (settle 20 200 10 a != a || settle 300 3000 100 h != h || clamp 10 300 m != m)
            [.u8 (settle 20 200 10 a), .u16 (settle 300 3000 100 h), .u16 (clamp 10 300 m)]) := rfl
  obtain ⟨clamped, hclamped⟩ : ∃ v, (settle 20 200 10 a != a || settle 300 3000 100 h != h || clamp 10 300 m != m) = v :=
    ⟨_, rfl⟩
  have hstored := storeTimes_intercom (settle 20 200 10 a) (settle 300 3000 100 h) (clamp 10 300 m) s
  have hunclamped : clamped = false
      ↔ settle 20 200 10 a = a ∧ settle 300 3000 100 h = h ∧ clamp 10 300 m = m := by
    rw [← hclamped]
    simp only [Bool.or_eq_false_iff, bne_eq_false_iff_eq, and_assoc]
  rw [hclamped] at hrule
  refine ⟨_, if clamped = true then .adjusted else .ok, exec_taken hready rfl hrule,
    (storeTimes_acts _ _ _ s).answered _ _ (by simp) (by simp), ?_, ?_, ?_, ?_, replyIs_of_eq ?_ _ _⟩
  · rw [answered_intercom, hstored, settle_eq 20 200 10 a (by omega), settle_eq 300 3000 100 h (by omega),
      show clamp 10 300 m = max 10 (min 300 m) by unfold clamp; omega]
  · cases clamped
    · exact .inl rfl
    · exact .inr rfl
  · rw [answered_intercom, hstored]
    refine Iff.trans ?_ hunclamped
    cases clamped <;> decide
  · exact (storeTimes_announced _ _ _ s).imp id (fun hs => hs.answered _ _)
  · rw [answered_intercom, hstored]
    rfl

/-- Settles O52. -/
theorem modesSettingsAndSeatCalls : Obligations.ModesSettingsAndSeatCalls := by
  intro s hrun
  refine ⟨fun hready => ⟨fun m hm => ?_, fun m => intercomMode_taken hready, intercomSettings_taken hready, ?_, fun h => ?_,
      fun before x after hcycle hx hbefore => ?_, ?_⟩, fun x level => ?_, fun x n hpress => ?_, windowEnds_leaves hrun,
    fun hw => ?_⟩
  · refine exec_refused hready rfl ?_
    rw [takeIntercomMode, intercomMode?_none hm]
  · refine ⟨_, exec_taken hready (rule := takeIntercomDefaults) rfl rfl,
      (storeTimes_acts _ _ _ s).answered _ _ (by simp) (by simp), ?_, replyIs_answered _ _ _⟩
    rw [answered_intercom, storeTimes_intercom]
  · refine exec_refused hready rfl ?_
    rw [takeCallAnswer, nextCall_none h]
  · have hrule : takeCallAnswer s = (answersCall x s,
        .ok [.u8 x.ctorIdx, .u8 (holderNumber s x), .u8 (SeatSet.bits (answersCall x s).intercom.calls)]) := by
      rw [takeCallAnswer, nextCall_some hcycle hx hbefore]
    have hintercom := answersCall_intercom x s
    refine ⟨_, exec_taken hready rfl hrule, (answersCall_acts x s).answered _ _ (by simp) (by simp), ?_, ?_, ?_, ?_,
      replyIs_answered _ _ _⟩
    · rw [answered_intercom, hintercom]
    · rw [answered_intercom, hintercom]
    · rw [answered_intercom, hintercom]
    · exact (takeChannel_announced (raiseIntercom_announced rfl)).answered _ _
  · refine ⟨_, exec_taken hready (rule := takeCallClear) rfl rfl,
      ((setIntercom_acts _ s).seq (raiseIntercom_acts _)).answered _ _ (by simp) (by simp), ?_, replyIs_answered _ _ _⟩
    exact (raiseIntercom_acts _).same .intercom
  · have hexec : exec (.callButtonChange x level) s
        = .next (if s.pins.call.get x = level then s
          else whileRunning
            (setIntercom (fun n => { n with press := n.press.set (if level then .pressing 5 else .released) x }))
            { s with pins := { s.pins with call := s.pins.call.set level x } }) := rfl
    rw [hexec, whileRunning_running (s := { s with pins := { s.pins with call := s.pins.call.set level x } }) hrun]
    rfl
  · have hexec := exec_running (c := .callPressTaken x) hrun (g := pressTaken x) rfl
    have hframe := (pressTaken_acts x s).frame
    by_cases hc : s.intercom.calls.get x = true
    · rw [pressTaken_pending hpress hc] at hexec hframe
      refine ⟨_, hexec, hframe, ?_, fun _ => ⟨rfl, rfl⟩, fun hno => absurd (hc.symm.trans hno) (by decide)⟩
      rw [seatSet_set_true hc]
      rfl
    · have hc' := (Bool.not_eq_true _).mp hc
      rw [pressTaken_new hpress hc'] at hexec hframe
      obtain ⟨hintercom, hsaid, hspeakers⟩ := raiseCall_leaves x (pressMarked x s)
      refine ⟨_, hexec, hframe, hintercom, fun hno => absurd hno hc, fun _ => ⟨?_, hspeakers.trans ?_⟩⟩
      · rw [hintercom]
        exact hsaid
      · by_cases hoff : s.intercom.mode = .offMode
        · rw [if_pos (show (pressMarked x s).intercom.mode = .offMode from hoff), if_pos hoff]
          rfl
        · rw [if_neg (show ¬(pressMarked x s).intercom.mode = .offMode from hoff), if_neg hoff]
          exact askTone_speakers_congr (by rfl) _
  · rw [exec_running hrun (g := windowEnds) rfl, windowEnds, hw]

end Sys2Proof.Machine
end

