-- ==== Sys2Proof/Proofs/Tones.lean ====
section
/-!
PROOF. Speakers: what a host tone's request, a phase end and TONE_STOP leave.
-/

set_option Elab.async false

namespace Sys2Proof.Machine

/-! ### A host tone requested (R154, R157) -/

/-- A host tone waits in its slot, whatever the slot held. -/
theorem SpeakerState.wait_host (p : SpeakerState) {t : Tone} (h : t.kind = .host) :
    (p.wait t).1 = { p with hold := p.hold.set (some t) t.level } := by
  unfold wait
  split
  · rfl
  · simp [h]

theorem SpeakerState.serves_iff {p : SpeakerState} {old : Playing} (h : p.service = some old) (n : Nat) :
    p.serves n = true ↔ n ≤ old.tone.level.number := by
  simp [serves, h]

theorem SpeakerState.preempt_idle {p : SpeakerState} (t : Tone) (h : p.service = none) :
    p.preempt t = (p.enter t, .inService, none) := by
  simp only [preempt, h]

theorem SpeakerState.preempt_over {p : SpeakerState} (t : Tone) {old : Playing} (h : p.service = some old) :
    p.preempt t = ((p.putBack old.tone).1.enter t, .preEmpting, (p.putBack old.tone).2) := by
  simp only [preempt, h]

/-- The slot of the level holds what it held, or else the tone put back. -/
theorem SpeakerState.putBack_eq (p : SpeakerState) (t : Tone) :
    (p.putBack t).1 = { p with hold := p.hold.set (some ((p.hold.get t.level).getD t)) t.level } := by
  unfold putBack
  split
  · next h => rw [h]; rfl
  · next kept h =>
    have hsame : p.hold.set (some kept) t.level = p.hold := by
      rw [← h]
      cases t.level <;> rfl
    rw [h, Option.getD_some, hsame]

theorem SpeakerState.putBack_lost {p : SpeakerState} {t kept : Tone} (h : p.hold.get t.level = some kept) :
    (p.putBack t).2 = some ⟨t, .discarded⟩ := by
  simp only [putBack, h]

section
variable {p : SpeakerState} {t : Tone}

theorem SpeakerState.request_quiet (hs : p.speech = .none) :
    p.request t = if p.serves t.level.number = true then ((p.wait t).1, .held, (p.wait t).2) else p.preempt t := by
  simp only [request, hs]

theorem SpeakerState.request_speech (hs : p.speech ≠ .none) :
    p.request t
      = if t.level = .l3 ∧ p.serves 3 = false then
          ({ (p.preempt t).1 with speech := .muted }, (p.preempt t).2.1, (p.preempt t).2.2)
        else ((p.wait t).1, .held, (p.wait t).2) := by
  unfold request
  split
  · next h => exact absurd h hs
  · rfl

end

/-! ### Phase ends (R153, R155) -/

theorem SpeakerState.endPhase_off {p : SpeakerState} {t : Playing} (h : p.service = some t) (hon : t.onPhase = true)
    (hoff : t.tone.offTime ≠ 0) :
    p.endPhase = { p with service := some { t with onPhase := false, left := t.tone.offTime } } := by
  simp only [endPhase, h, hon, if_true]
  exact if_neg hoff

theorem SpeakerState.endPhase_next {p : SpeakerState} {t : Playing} (h : p.service = some t)
    (hend : t.onPhase = false ∨ t.tone.offTime = 0) : p.endPhase = p.endOff t := by
  simp only [endPhase, h]
  by_cases hon : t.onPhase = true
  · rw [if_pos hon]
    exact if_pos (hend.resolve_left (by simp [hon]))
  · rw [if_neg hon]

theorem SpeakerState.endOff_repeats {p : SpeakerState} {t : Playing} (h : t.current < t.tone.repeats) :
    p.endOff t = { p with service := some { t with current := t.current + 1, onPhase := true, left := t.tone.onTime } } :=
  if_pos h

theorem SpeakerState.endOff_done {p : SpeakerState} {t : Playing} (h : t.tone.repeats ≤ t.current) :
    p.endOff t = p.handOn := if_neg (by omega)

theorem SpeakerState.handOn_quiet {p : SpeakerState} (h : p.speech = .none) : p.handOn = p.promoteHighest := by
  simp only [handOn, h]

theorem SpeakerState.handOn_muted {p : SpeakerState} (h : p.speech = .muted) :
    p.handOn = if (p.hold.get .l3).isSome = true then p.promote .l3 else { p with service := none, speech := .speaking } := by
  simp only [handOn, h]

theorem SpeakerState.promote_held {p : SpeakerState} {v : Level} {t : Tone} (h : p.hold.get v = some t) :
    p.promote v = { p with hold := p.hold.set none v, service := some ⟨t, 1, true, t.onTime⟩ } := by
  simp only [promote, h]
  rfl

theorem SpeakerState.highestHeld_none {p : SpeakerState} (h : ∀ v, p.hold.get v = none) : p.highestHeld = none :=
  List.find?_eq_none.mpr (fun v _ => by simp [h v])

/-- The highest occupied slot. -/
theorem SpeakerState.highestHeld_some {p : SpeakerState} {v : Level} {t : Tone} (h : p.hold.get v = some t)
    (hhigher : ∀ w : Level, v.number < w.number → p.hold.get w = none) : p.highestHeld = some v := by
  have hv : (p.hold.get v).isSome = true := by rw [h]; rfl
  have hno (w : Level) (hw : v.number < w.number) : (p.hold.get w).isSome = false := by rw [hhigher w hw]; rfl
  cases v with
  | l3 => exact find?_split (before := ([] : List Level)) _ hv (by simp)
  | l2 => exact find?_split (before := [Level.l3]) _ hv (by simpa using hno .l3 (by decide))
  | l1 =>
    refine find?_split (before := [Level.l3, .l2]) _ hv (fun w hw => hno w ?_)
    rcases List.mem_pair.mp hw with rfl | rfl <;> decide
  | l0 =>
    refine find?_split (before := [Level.l3, .l2, .l1]) _ hv (fun w hw => hno w ?_)
    simp only [List.mem_cons, List.not_mem_nil, or_false] at hw
    rcases hw with rfl | rfl | rfl <;> decide

/-! ### Host tones ended (R158) -/

/-- No host tone is held, and none in service. -/
def SpeakerState.hostless (p : SpeakerState) : Prop :=
  (∀ v tone, p.hold.get v = some tone → tone.kind ≠ .host) ∧ ∀ t, p.service = some t → t.tone.kind ≠ .host

theorem SpeakerState.hostInService_iff (p : SpeakerState) :
    p.hostInService = true ↔ ∃ t, p.service = some t ∧ t.tone.kind = .host := by
  unfold hostInService
  cases p.service <;> simp

theorem dropHostTones_hostless (h : PerLevel (Option Tone)) {v : Level} {t : Tone} (ht : (dropHostTones h).get v = some t) :
    t.kind ≠ .host ∧ h.get v = some t := by
  rw [dropHostTones_get] at ht
  obtain ⟨hv, hk⟩ := Option.filter_eq_some_iff.mp ht
  exact ⟨by simpa using hk, hv⟩

theorem dropHostTones_same {h : PerLevel (Option Tone)} (hno : ∀ v tone, h.get v = some tone → tone.kind ≠ .host) :
    dropHostTones h = h := by
  have hkeep (v : Level) : (h.get v).filter (fun t => t.kind != .host) = h.get v := by
    cases hv : h.get v with
    | none => rfl
    | some t => simp [hno v t hv]
  have h0 := hkeep .l0
  have h1 := hkeep .l1
  have h2 := hkeep .l2
  have h3 := hkeep .l3
  cases h
  simp only [PerLevel.get] at h0 h1 h2 h3
  simp only [dropHostTones, h0, h1, h2, h3]

/-- A speaker handed on with no host tone held serves none. -/
theorem SpeakerState.handOn_hostless {p : SpeakerState} (h : ∀ v tone, p.hold.get v = some tone → tone.kind ≠ .host) :
    p.handOn.hostless := by
  have hpromote (v : Level) : (p.promote v).hostless := by
    cases hv : p.hold.get v with
    | none =>
      simp only [promote, hv]
      exact ⟨h, fun t ht => by cases ht⟩
    | some t =>
      rw [promote_held hv]
      refine ⟨fun w tone hw => ?_, fun q hq => ?_⟩
      · by_cases hwv : w = v
        · subst hwv
          simp at hw
        · rw [PerLevel.get_set_other _ _ hwv] at hw
          exact h w tone hw
      · obtain rfl := Option.some.inj hq
        exact h v t hv
  have hidle (s : Speech) : ({ p with service := none, speech := s } : SpeakerState).hostless :=
    ⟨h, fun t ht => by cases ht⟩
  unfold handOn promoteHighest
  cases p.speech with
  | none =>
    cases p.highestHeld with
    | none => exact ⟨h, fun t ht => by cases ht⟩
    | some v => exact hpromote v
  | muted =>
    dsimp only
    split
    · exact hpromote .l3
    · exact hidle _
  | speaking => exact ⟨h, fun t ht => by cases ht⟩

theorem SpeakerState.stopHost_hostless (p : SpeakerState) : p.stopHost.1.hostless := by
  have hheld : ∀ v tone, (dropHostTones p.hold).get v = some tone → tone.kind ≠ .host :=
    fun v tone ht => (dropHostTones_hostless p.hold ht).1
  unfold stopHost
  dsimp only
  split
  · exact handOn_hostless (p := { p with hold := dropHostTones p.hold }) hheld
  · next hno =>
    refine ⟨hheld, fun t ht hk => hno ((hostInService_iff p).mpr ⟨t, ht, hk⟩)⟩

theorem SpeakerState.stopHost_same {p : SpeakerState} (h : p.hostless) : p.stopHost.1 = p := by
  have hno : ¬p.hostInService = true := by
    rw [hostInService_iff]
    exact fun ⟨t, ht, hk⟩ => h.2 t ht hk
  unfold stopHost
  dsimp only
  rw [if_neg hno, dropHostTones_same h.1]

/-! ### TONE_PLAY (R158) -/

theorem speaker?_some (x : Speaker) : speaker? x.ctorIdx = some x := by cases x <;> rfl

theorem level?_some (v : Level) : level? v.number = some v := by cases v <;> rfl

theorem takeTonePlay_bad {y n : Nat} (h : 1 < y ∨ 3 < n) (p a : Nat) (b : Int) (r : Nat) (s : State) :
    takeTonePlay y n p a b r s = refuse .badValue s := by
  have hnone : speaker? y = none ∨ level? n = none := by
    refine h.imp (fun hy => ?_) (fun hn => ?_)
    · match y with
      | 0 | 1 => omega
      | k + 2 => rfl
    · match n with
      | 0 | 1 | 2 | 3 => omega
      | k + 4 => rfl
  rw [takeTonePlay]
  rcases hnone with h | h
  · rw [h]
  · rw [h]
    cases speaker? y <;> rfl

/-- Some value of a host tone was clamped or rounded. -/
def toneClamped (t : Tone) (p a : Nat) (b : Int) (r : Nat) : Bool :=
  t.pitch != p || t.onTime * 10 != a || ((t.offTime * 10 : Nat) : Int) != b || t.repeats != r

theorem takeTonePlay_taken (x : Speaker) (v : Level) (p a : Nat) (b : Int) (r : Nat) (s : State) :
    takeTonePlay x.ctorIdx v.number p a b r s
      = ((requestTone x (hostTone v p a b r) s).1,
          .okOr (toneClamped (hostTone v p a b r) p a b r)
            [.u8 x.ctorIdx, .u8 v.number, .u16 (hostTone v p a b r).pitch, .u16 ((hostTone v p a b r).onTime * 10),
              .u16 ((hostTone v p a b r).offTime * 10), .u8 (hostTone v p a b r).repeats,
              .u8 (requestTone x (hostTone v p a b r) s).2.ctorIdx]) := by
  rw [takeTonePlay, speaker?_some, level?_some]
  rfl

theorem hostTone_eq (v : Level) (p a : Nat) (b : Int) (r : Nat) :
    (hostTone v p a b r).pitch = max 200 (min 4000 p) ∧ (hostTone v p a b r).onTime = max 10 (min 2550 a) / 10
      ∧ (hostTone v p a b r).offTime = min 2550 b.toNat / 10 ∧ (hostTone v p a b r).repeats = max 1 (min 255 r) := by
  refine ⟨?_, ?_, rfl, ?_⟩ <;> simp only [hostTone, clamp] <;> omega

theorem toneClamped_iff (v : Level) (p a : Nat) (b : Int) (r : Nat) :
    toneClamped (hostTone v p a b r) p a b r = false
      ↔ 200 ≤ p ∧ p ≤ 4000 ∧ 10 ≤ a ∧ a ≤ 2550 ∧ a % 10 = 0 ∧ 0 ≤ b ∧ b ≤ 2550
        ∧ b % 10 = 0 ∧ 1 ≤ r ∧ r ≤ 255 := by
  obtain ⟨hp, ha, hb, hr⟩ := hostTone_eq v p a b r
  simp only [toneClamped, hp, ha, hb, hr, Bool.or_eq_false_iff, bne_eq_false_iff_eq]
  omega

/-- What a request leaves at the speakers. -/
theorem requestTone_speakers (x : Speaker) (t : Tone) (s : State) :
    (requestTone x t s).1.speakers.get x = ((s.speakers.get x).request t).1
      ∧ (∀ z, z ≠ x → (requestTone x t s).1.speakers.get z = s.speakers.get z)
      ∧ (requestTone x t s).2 = ((s.speakers.get x).request t).2.1 := by
  have hset : (requestTone x t s).1.speakers = s.speakers.set ((s.speakers.get x).request t).1 x :=
    (raiseDropped_acts _ _ _).same .speakers
  refine ⟨by rw [hset, PerSpeaker.get_set_same], fun z hz => ?_, rfl⟩
  rw [hset, PerSpeaker.get_set_other _ _ hz]

/-- A tone that is lost is told. -/
theorem requestTone_announced {x : Speaker} {t : Tone} {s : State} {d : Dropped}
    (h : ((s.speakers.get x).request t).2.2 = some d) :
    announced .toneDropped (droppedPayload x d) (requestTone x t s).1 := by
  have hraised : (requestTone x t s).1
      = raise .toneDropped (droppedPayload x d) (s.setSpeaker x ((s.speakers.get x).request t).1) := by
    simp only [requestTone, h, raiseDropped]
  rw [hraised]
  exact announced_raise _ _ _

/-- What a host tone of a level finds and does at a speaker, by its speech and its tone in service. -/
theorem request_host {q : SpeakerState} {tone : Tone} {v : Level} (hk : tone.kind = .host) (hv : tone.level = v) :
    (q.speech = .none → q.service = none →
        (q.request tone).2.1.ctorIdx = 0
          ∧ (q.request tone).1 = { q with service := some ⟨tone, 1, true, tone.onTime⟩ })
      ∧ (∀ old, q.speech = .none → q.service = some old →
        (v.number ≤ old.tone.level.number →
          (q.request tone).2.1.ctorIdx = 1 ∧ (q.request tone).1 = { q with hold := q.hold.set (some tone) v })
        ∧ (old.tone.level.number < v.number → (q.request tone).2.1.ctorIdx = 2
          ∧ (q.request tone).1.service = some ⟨tone, 1, true, tone.onTime⟩
          ∧ (q.request tone).1.hold.get old.tone.level = some ((q.hold.get old.tone.level).getD old.tone)))
      ∧ (q.speechFits → q.speech = .speaking → v = .l3 →
        (q.request tone).2.1.ctorIdx = 0
          ∧ (q.request tone).1 = { q with service := some ⟨tone, 1, true, tone.onTime⟩, speech := .muted })
      ∧ (∀ old, q.speech = .muted → q.service = some old → v = .l3 →
        (old.tone.level = .l3 →
          (q.request tone).2.1.ctorIdx = 1 ∧ (q.request tone).1 = { q with hold := q.hold.set (some tone) v })
        ∧ (old.tone.level = .l2 → (q.request tone).2.1.ctorIdx = 2
          ∧ (q.request tone).1 =
            { q with
              service := some ⟨tone, 1, true, tone.onTime⟩
              hold := q.hold.set (some ((q.hold.get .l2).getD old.tone)) .l2 }
          ∧ ∀ kept, q.hold.get .l2 = some kept → (q.request tone).2.2 = some ⟨old.tone, .discarded⟩))
      ∧ (q.speech ≠ .none → v ≠ .l3 →
        (q.request tone).2.1.ctorIdx = 1 ∧ (q.request tone).1 = { q with hold := q.hold.set (some tone) v }) := by
  subst hv
  have hwait := q.wait_host hk
  refine ⟨fun hs hservice => ?_, fun old hs hservice => ⟨fun hle => ?_, fun hlt => ?_⟩, fun hfits hs hl => ?_,
    fun old hs hservice hl => ⟨fun h3 => ?_, fun h2 => ?_⟩, fun hs hl => ?_⟩
  · have hidle : q.serves tone.level.number = false := by simp [SpeakerState.serves, hservice]
    rw [SpeakerState.request_quiet hs, if_neg (by simp [hidle]), SpeakerState.preempt_idle tone hservice]
    exact ⟨rfl, rfl⟩
  · rw [SpeakerState.request_quiet hs, if_pos ((SpeakerState.serves_iff hservice _).mpr hle), hwait]
    exact ⟨rfl, rfl⟩
  · rw [SpeakerState.request_quiet hs, if_neg (by rw [SpeakerState.serves_iff hservice]; omega),
      SpeakerState.preempt_over tone hservice, SpeakerState.putBack_eq]
    exact ⟨rfl, rfl, PerLevel.get_set_same _ _ _⟩
  · have hservice : q.service = none := by simpa [SpeakerState.speechFits, hs] using hfits
    have hidle : q.serves 3 = false := by simp [SpeakerState.serves, hservice]
    rw [SpeakerState.request_speech (by rw [hs]; decide), if_pos ⟨hl, hidle⟩, SpeakerState.preempt_idle tone hservice]
    exact ⟨rfl, rfl⟩
  · have hserves : q.serves 3 = true := (SpeakerState.serves_iff hservice 3).mpr (by rw [h3]; decide)
    rw [SpeakerState.request_speech (by rw [hs]; decide), if_neg (by simp [hserves]), hwait]
    exact ⟨rfl, rfl⟩
  · have hserves : q.serves 3 = false := by
      rw [← Bool.not_eq_true, SpeakerState.serves_iff hservice, h2]
      decide
    rw [SpeakerState.request_speech (by rw [hs]; decide), if_pos ⟨hl, hserves⟩, SpeakerState.preempt_over tone hservice,
      SpeakerState.putBack_eq, h2]
    refine ⟨rfl, ?_, fun kept hkept => SpeakerState.putBack_lost (by rw [h2]; exact hkept)⟩
    rw [← hs]
    rfl
  · rw [SpeakerState.request_speech hs, if_neg (fun h => hl h.1), hwait]
    exact ⟨rfl, rfl⟩

/-! ### TONE_STOP (R158) -/

theorem stopHostOn_speakers (x : Speaker) (s : State) :
    (stopHostOn x s).1.speakers = s.speakers.set (s.speakers.get x).stopHost.1 x := rfl

/-- The state after a TONE_STOP, and how many tones it ended. -/
def tonesStopped (w : Nat) (s : State) : State × Nat :=
  match w with
  | 0 => stopHostOn .front s
  | 1 => stopHostOn .rear s
  | _ => ((stopHostOn .rear (stopHostOn .front s).1).1,
      (stopHostOn .front s).2 + (stopHostOn .rear (stopHostOn .front s).1).2)

theorem takeToneStop_taken {w : Nat} (h : w ≤ 2) (s : State) :
    takeToneStop w s = ((tonesStopped w s).1, .ok [.u8 (tonesStopped w s).2]) := by
  match w with
  | 0 | 1 | 2 => simp [takeToneStop, speakers?, tonesStopped]
  | n + 3 => omega

theorem tonesStopped_acts (w : Nat) (s : State) : acts [.speakers] s (tonesStopped w s).1 := by
  unfold tonesStopped
  split
  · exact stopHostOn_acts .front s
  · exact stopHostOn_acts .rear s
  · exact ((stopHostOn_acts .front s).seq (stopHostOn_acts .rear _)).widen

/-- Each speaker named ends its host tones, any other stays as it was. -/
theorem tonesStopped_get {w : Nat} (h : w ≤ 2) (x : Speaker) (s : State) :
    (tonesStopped w s).1.speakers.get x
      = if x.ctorIdx = w ∨ w = 2 then (s.speakers.get x).stopHost.1 else s.speakers.get x := by
  match w with
  | 0 => cases x <;> rfl
  | 1 => cases x <;> rfl
  | 2 => cases x <;> rfl
  | n + 3 => omega

/-- A phase end on a muted or quiet speaker whose tone has completed. -/
theorem handOn_leaves (q : SpeakerState) :
    (q.speech = .none →
        ((∀ v, q.hold.get v = none) → q.handOn.service = none)
        ∧ ∀ v tone, q.hold.get v = some tone → (∀ w : Level, v.number < w.number → q.hold.get w = none) →
          q.handOn = { q with hold := q.hold.set none v, service := some ⟨tone, 1, true, tone.onTime⟩ })
      ∧ (q.speech = .muted →
        (∀ tone, q.hold.get .l3 = some tone →
          q.handOn = { q with hold := q.hold.set none .l3, service := some ⟨tone, 1, true, tone.onTime⟩ })
        ∧ (q.hold.get .l3 = none → q.handOn = { q with service := none, speech := .speaking })) := by
  refine ⟨fun hs => ⟨fun hnone => ?_, fun v tone hv hhigher => ?_⟩, fun hs => ⟨fun tone ht => ?_, fun hnone => ?_⟩⟩
  · rw [SpeakerState.handOn_quiet hs, SpeakerState.promoteHighest, SpeakerState.highestHeld_none hnone]
  · rw [SpeakerState.handOn_quiet hs, SpeakerState.promoteHighest, SpeakerState.highestHeld_some hv hhigher]
    exact SpeakerState.promote_held hv
  · rw [SpeakerState.handOn_muted hs, if_pos (by rw [ht]; rfl), SpeakerState.promote_held ht]
  · rw [SpeakerState.handOn_muted hs, if_neg (by rw [hnone]; decide)]

/-- Settles O53. -/
theorem tonesEnterWaitAndHandOn : Obligations.TonesEnterWaitAndHandOn := by
  intro s hrun
  refine ⟨fun hready y n p a r b => ⟨fun h => exec_refused hready rfl (takeTonePlay_bad h p a b r s), ?_⟩,
    fun x p hservice => ?_, fun hready => ⟨fun w hw => ?_, fun w hw => ?_⟩⟩
  · rintro x v rfl rfl
    obtain ⟨hpitch, honTime, hoffTime, hrepeats⟩ := hostTone_eq v p a b r
    have hunclamped := toneClamped_iff v p a b r
    have hrule := takeTonePlay_taken x v p a b r s
    obtain ⟨clamped, hclamped⟩ : ∃ c, toneClamped (hostTone v p a b r) p a b r = c := ⟨_, rfl⟩
    obtain ⟨hget, hothers, hout⟩ := requestTone_speakers x (hostTone v p a b r) s
    obtain ⟨hidle, hquiet, hspeaking, hmuted, hlow⟩ :=
      request_host (q := s.speakers.get x) (tone := hostTone v p a b r) (v := v) rfl rfl
    rw [hclamped] at hunclamped hrule
    rw [← hget, ← hout] at hidle hquiet hspeaking hmuted hlow
    refine ⟨_, if clamped = true then .adjusted else .ok, hostTone v p a b r, _, exec_taken hready rfl hrule,
      (requestTone_acts x _ s).answered _ _ (by simp) (by simp), hothers, rfl, rfl, hpitch, honTime, hoffTime, hrepeats,
      ?_, ?_, replyIs_of_eq rfl _ _, hidle, hquiet, hspeaking, fun old hs hservice hl => ⟨(hmuted old hs hservice hl).1,
        fun h2 => ?_⟩, hlow⟩
    · cases clamped
      · exact .inl rfl
      · exact .inr rfl
    · rw [← hunclamped]
      cases clamped <;> decide
    · obtain ⟨houtcome, hleft, hlost⟩ := (hmuted old hs hservice hl).2 h2
      refine ⟨houtcome, hleft, fun kept hkept => ?_⟩
      have hsaid := requestTone_announced (hlost kept hkept)
      rw [droppedPayload, h2] at hsaid
      exact hsaid.answered _ _
  · have hexec := exec_running (c := .tonePhaseEnd x) hrun (g := tonePhaseEnds x) rfl
    have hget : (tonePhaseEnds x s).speakers.get x = (s.speakers.get x).endPhase := PerSpeaker.get_set_same _ _ _
    refine ⟨_, hexec, (setSpeaker_acts s x _).frame, fun z hz => PerSpeaker.get_set_other _ _ hz, fun hon hoff => ?_,
      fun hend => ?_⟩
    · rw [hget, SpeakerState.endPhase_off hservice hon hoff]
    · rw [hget, SpeakerState.endPhase_next hservice hend]
      refine ⟨fun hlt => SpeakerState.endOff_repeats hlt, fun hle => ?_⟩
      rw [SpeakerState.endOff_done hle]
      exact handOn_leaves _
  · refine exec_refused hready rfl ?_
    match w with
    | 0 | 1 | 2 => omega
    | k + 3 => rfl
  · have hget (x : Speaker) := tonesStopped_get hw x s
    refine ⟨_, _, exec_taken hready rfl (takeToneStop_taken hw s),
      (tonesStopped_acts w s).answered _ _ (by simp) (by simp), replyIs_answered _ _ _, fun x hx h2 => ?_, fun x hx => ?_⟩
    · rw [answered_speakers, hget, if_neg (by rintro (h | h); exacts [hx h, h2 h])]
    · rw [answered_speakers, hget, if_pos hx]
      obtain ⟨hheld, hserved⟩ := SpeakerState.stopHost_hostless (s.speakers.get x)
      exact ⟨hheld, hserved, fun h1 h2 => SpeakerState.stopHost_same ⟨h1, h2⟩⟩

end Sys2Proof.Machine
end

