-- ==== Sys2Proof/Proofs/Calendars.lean ====
section
/-!
PROOF. The calendar: the date of a count inverts the count of a date, and what CLOCK_SET, the last count and a tick of
a stopped part do.
-/

set_option Elab.async false

namespace Sys2Proof.Machine

/-! ### Dates (R162, R163) -/

/-- The months before the `k`th taken away, the rest of the days is in the `k`th. -/
theorem monthDay_take (lengths : List Nat) (month d : Nat) :
    ∀ k : Nat, d < lengths.getD k 0 →
      monthDay lengths month ((lengths.take k).sum + d) = (month + k, d + 1) := by
  induction lengths generalizing month with
  | nil =>
    intro k h
    simp at h
  | cons n ns ih =>
    intro k h
    cases k with
    | zero =>
      have hin : d < n := by simpa using h
      rw [List.take_zero, List.sum_nil, Nat.zero_add, monthDay, if_pos hin]
      rfl
    | succ k =>
      have hrest := ih (month + 1) k (by simpa using h)
      have hout : ¬ n + (ns.take k).sum + d < n := by omega
      rw [List.take_succ_cons, List.sum_cons, monthDay, if_neg hout,
        show n + (ns.take k).sum + d - n = (ns.take k).sum + d by omega, hrest]
      congr 1
      omega

/-- The year of a day in it: four years hold 1461 days. -/
theorem yearOf_daysToYear {year d : Nat} (hyear : 2000 ≤ year) (hd : d < 365 + (if isLeap year then 1 else 0)) :
    yearOf (daysToYear year + d) = year := by
  simp only [isLeap, beq_iff_eq] at hd
  obtain ⟨a, b, hb, rfl⟩ : ∃ a b, b < 4 ∧ year = 2000 + 4 * a + b :=
    ⟨(year - 2000) / 4, (year - 2000) % 4, by omega, by omega⟩
  have hdays : daysToYear (2000 + 4 * a + b) + d = 1461 * a + (365 * b + (b + 3) / 4 + d) := by
    rw [daysToYear]
    omega
  have hrest : 365 * b + (b + 3) / 4 + d < 1461 := by split at hd <;> omega
  have hdiv : (daysToYear (2000 + 4 * a + b) + d) / 1461 = a := by omega
  have hmod : (daysToYear (2000 + 4 * a + b) + d) % 1461 = 365 * b + (b + 3) / 4 + d := by omega
  simp only [yearOf, hdiv, hmod]
  split <;> split at hd <;> omega

theorem monthLength_bounds {year month : Nat} (h : 1 ≤ monthLength year month) : 1 ≤ month ∧ month ≤ 12 := by
  cases month with
  | zero => simp [monthLength] at h
  | succ m =>
    refine ⟨by omega, ?_⟩
    by_contra hm
    rw [monthLength, List.getD_eq_default _ _ (by simp [monthLengths]; omega)] at h
    omega

/-- The length of a month, as R162 gives it. -/
theorem monthLength_eq (year : Nat) {month : Nat} (hlow : 1 ≤ month) (hhigh : month ≤ 12) :
    monthLength year month
      = if month = 2 then (if year % 4 = 0 then 29 else 28) else if month ∈ [4, 6, 9, 11] then 30 else 31 := by
  interval_cases month <;> simp [monthLength, monthLengths, isLeap]

/-- The date of the count of a date is that date. -/
theorem dateOf_count {t : DateTime} (h : t.exists = true) : dateOf t.count = t := by
  simp only [DateTime.exists, Bool.and_eq_true, decide_eq_true_eq] at h
  obtain ⟨⟨⟨⟨⟨⟨hlow, hhigh⟩, hday⟩, hmonth⟩, hhour⟩, hminute⟩, hsecond⟩ := h
  obtain ⟨hfirst, hlast⟩ := monthLength_bounds (by omega : 1 ≤ monthLength t.year t.month)
  have hyear := monthLengths_take_add_le t.year (month := t.month) (by omega)
  have hlen : t.day - 1 < (monthLengths t.year).getD (t.month - 1) 0 := by
    have hm : monthLength t.year t.month = (monthLengths t.year).getD (t.month - 1) 0 := by
      obtain ⟨m, hm⟩ : ∃ m, t.month = m + 1 := ⟨t.month - 1, by omega⟩
      rw [hm]
      rfl
    omega
  have hdays : t.count / 86400
      = daysToYear t.year + (((monthLengths t.year).take (t.month - 1)).sum + (t.day - 1)) := by
    rw [DateTime.count]
    omega
  have hyearOf : yearOf (t.count / 86400) = t.year := by
    rw [hdays]
    exact yearOf_daysToYear hlow (by omega)
  have hmonthDay : monthDay (monthLengths t.year) 1 (t.count / 86400 - daysToYear t.year) = (t.month, t.day) := by
    rw [hdays, Nat.add_sub_cancel_left, monthDay_take _ _ _ _ hlen]
    congr 1 <;> omega
  have htime : t.count % 86400 / 3600 = t.hour ∧ t.count % 3600 / 60 = t.minute ∧ t.count % 60 = t.second := by
    rw [DateTime.count]
    omega
  obtain ⟨hh, hmi, hs⟩ := htime
  simp only [dateOf, hyearOf, hmonthDay, hh, hmi, hs]

/-- The dates of the calendar with a time of day, as R163 gives them. -/
theorem exists_iff (y mo d h mi sec : Nat) :
    (DateTime.mk y mo d h mi sec).exists = true ↔
      2000 ≤ y ∧ y ≤ 2099 ∧ 1 ≤ mo ∧ mo ≤ 12 ∧ 1 ≤ d
        ∧ d ≤ (if mo = 2 then (if y % 4 = 0 then 29 else 28) else if mo ∈ [4, 6, 9, 11] then 30 else 31)
        ∧ h ≤ 23 ∧ mi ≤ 59 ∧ sec ≤ 59 := by
  simp only [DateTime.exists, Bool.and_eq_true, decide_eq_true_eq]
  constructor
  · rintro ⟨⟨⟨⟨⟨⟨hlow, hhigh⟩, hday⟩, hmonth⟩, hhour⟩, hminute⟩, hsecond⟩
    obtain ⟨hfirst, hlast⟩ := monthLength_bounds (by omega : 1 ≤ monthLength y mo)
    rw [monthLength_eq y hfirst hlast] at hmonth
    exact ⟨hlow, hhigh, hfirst, hlast, hday, hmonth, hhour, hminute, hsecond⟩
  · rintro ⟨hlow, hhigh, hfirst, hlast, hday, hmonth, hhour, hminute, hsecond⟩
    rw [← monthLength_eq y hfirst hlast] at hmonth
    exact ⟨⟨⟨⟨⟨⟨hlow, hhigh⟩, hday⟩, hmonth⟩, hhour⟩, hminute⟩, hsecond⟩

/-! ### CLOCK_SET (R163) -/

theorem takeClockSet_unreal {t : DateTime} (h : t.exists = false) (s : State) :
    takeClockSet t s = refuse .badValue s := by
  simp [takeClockSet, h]

theorem takeClockSet_inHand {t : DateTime} (h : t.exists = true) {s : State}
    (hbusy : (∃ i, (s.leg i).state ≠ .free) ∨ s.settle.session.state.isOpen = true) :
    takeClockSet t s = refuse .wrongState s := by
  rw [takeClockSet, if_neg (by simp [h]), if_pos]
  rw [Bool.or_eq_true, Bool.not_eq_true', ← Bool.not_eq_true, allFree_iff]
  exact hbusy.imp (fun ⟨i, hi⟩ hall => hi (hall i)) id

theorem takeClockSet_set {t : DateTime} (h : t.exists = true) {s : State} (hfree : ∀ i, (s.leg i).state = .free)
    (hclosed : s.settle.session.state.isOpen = false) :
    takeClockSet t s = ({ s with clock := { s.clock with count := t.count, valid := true, minuteTaken := false } },
      .ok (clockFields t.count)) := by
  rw [takeClockSet, if_neg (by simp [h]), if_neg]
  simp [(allFree_iff s).mpr hfree, hclosed]

/-! ### Ticks at the last count and at a stopped part (R162, R164) -/

theorem ticks_stopped {s : State} (h : s.power ≠ .running) :
    ticks s = { s with clock := s.clock.tick false } := by
  have hr : running s = false := by simp [running, h]
  rw [ticks, hr]
  exact whileRunning_stopped (s := { s with clock := s.clock.tick false }) h _

theorem ticks_clock (s : State) : (ticks s).clock = s.clock.tick (running s) := by
  unfold ticks whileRunning
  split
  · exact (closeInterval_acts _).same .clock
  · rfl

theorem closeInterval_intervalMetres (s : State) : (closeInterval s).odo.intervalMetres = 0 := by
  rw [closeInterval_odo, Odometry.judgeMotion_eq]
  rfl

/-- Settles O54. -/
theorem theClockIsSetWrapsAndRunsWhileStopped : Obligations.TheClockIsSetWrapsAndRunsWhileStopped := by
  intro s
  refine ⟨fun hlast => ?_, fun hstop => ?_, fun hready y mo d h mi sec => ?_⟩
  · have hwrap : ¬ s.clock.count < lastCount := by omega
    refine ⟨ticks s, congrArg _ (if_neg hwrap), rfl, ?_, ?_, fun hrun => ?_⟩
    · rw [ticks_clock]
      exact if_neg hwrap
    · simp [ticks_clock, Clock.tick, hwrap]
    · rw [ticks_running hrun]
      exact closeInterval_intervalMetres _
  · have hframe := (withClock_acts s (s.clock.tick false)).frame
    rw [← ticks_stopped hstop] at hframe
    refine ⟨ticks s, rfl, hframe, ?_⟩
    rw [ticks_clock]
    rfl
  · have hthere := exists_iff y mo d h mi sec
    refine ⟨fun hno => exec_refused hready rfl (takeClockSet_unreal ?_ s),
      fun hyes hbusy => exec_refused hready rfl (takeClockSet_inHand (hthere.mpr hyes) hbusy), fun hyes hfree hclosed => ?_⟩
    · rwa [← Bool.not_eq_true, hthere]
    · have hreal := hthere.mpr hyes
      have hdate := dateOf_count hreal
      refine ⟨(DateTime.mk y mo d h mi sec).count, _, exec_taken hready rfl (takeClockSet_set hreal hfree hclosed),
        (withClock_acts _ _).answered _ _ (by simp) (by simp), DateTime.count_le hreal, hdate, rfl, ?_⟩
      refine replyIs_of_eq ?_ _ _
      rw [clockFields, hdate]
      rfl

end Sys2Proof.Machine
end

