-- ==== Sys2Proof/Proofs/Supplies.lean ====
section
/-!
PROOF. Supply fail, RESETn and a battery failure: the part stops, and what retained memory holds stays.
-/

set_option Elab.async false

namespace Sys2Proof.Machine

/-- SUPPLY_FAIL stops a part that has its supply, and records the clock count (R164). -/
theorem exec_supplyFail {s : State} (h : s.power ≠ .supplyFailed) :
    exec .supplyFail s = .next { stopBlocks (recordFail s) with power := .supplyFailed } := by
  show execSupplyFail s = _
  unfold execSupplyFail
  split
  · rfl
  · rfl
  · next hp => exact absurd hp h

theorem exec_supplyFail_again {s : State} (h : s.power = .supplyFailed) : exec .supplyFail s = .next s := by
  show execSupplyFail s = _
  rw [execSupplyFail, h]

theorem exec_resetnAssert {s : State} (h : s.power = .running) :
    exec .resetnAssert s = .next { stopBlocks s with power := .resetHeld } := by
  show execResetnAssert s = _
  rw [execResetnAssert, h]

theorem exec_resetnAssert_stopped {s : State} (h : s.power ≠ .running) : exec .resetnAssert s = .next s := by
  show execResetnAssert s = _
  unfold execResetnAssert
  split
  · next hp => exact absurd hp h
  · rfl
  · rfl

theorem exec_batteryFail_supplied {s : State} (h : s.power ≠ .supplyFailed) : exec .batteryFail s = .next s := by
  show execBatteryFail s = _
  unfold execBatteryFail
  split
  · next hp => exact absurd hp h
  · rfl
  · rfl

/-- The state after a battery failure with the supply absent (R164): the check value can only be spoilt. -/
def batteryFailed (s : State) : State :=
  { s with
    clock := { s.clock with batteryFail := true }
    retained := { s.retained with
      checkAgrees := s.retained.checkAgrees && Config.batteryLossSpares s.freeCount }
    freeCount := s.freeCount + 1 }

theorem exec_batteryFail {s : State} (h : s.power = .supplyFailed) :
    exec .batteryFail s = .next (batteryFailed s) := by
  show execBatteryFail s = _
  unfold execBatteryFail
  split
  · rfl
  · next hp => exact absurd (h.symm.trans hp) (by decide)
  · next hp => exact absurd (h.symm.trans hp) (by decide)

/-- Settles O55. -/
theorem stoppingKeepsRetainedMemory : Obligations.StoppingKeepsRetainedMemory := by
  intro s
  refine ⟨fun hsupply => ⟨_, exec_supplyFail hsupply, rfl, ?_, rfl, rfl, rfl, rfl, rfl, rfl, rfl, rfl, rfl, rfl, rfl⟩,
    exec_supplyFail_again, fun hrun => ⟨_, _, exec_resetnAssert hrun, exec_supplyFail (by rw [hrun]; decide), rfl⟩,
    exec_resetnAssert_stopped, fun hfailed => ⟨_, exec_batteryFail hfailed, ?_, rfl, rfl, fun h => ?_⟩,
    exec_batteryFail_supplied⟩
  · simp [changesOnly, stopBlocks, recordFail]
  · simp [changesOnly, batteryFailed]
  · exact (Bool.and_eq_true_iff.mp h).1

end Sys2Proof.Machine
end

