-- ==== Sys2Proof/Proofs/Restarts.lean ====
section
/-!
PROOF. Restart and factory clear: what the blocks of a restart leave, the frames it gives and the notices it raises.
-/

set_option Elab.async false

namespace Sys2Proof.Machine

/-! ### Operations that touch the link only by raising notices -/

/-- Rate and handling place of the link are as they were. -/
def linkStands (s t : State) : Prop := t.link.rate = s.link.rate ∧ t.link.handling = s.link.handling

theorem linkStands_refl (s : State) : linkStands s s := ⟨rfl, rfl⟩

theorem linkStands.trans {s t u : State} (h : linkStands s t) (h' : linkStands t u) : linkStands s u :=
  ⟨h'.1.trans h.1, h'.2.trans h.2⟩

theorem linkStands_of_acts {parts : List Block} {s t : State} (h : acts parts s t) (hlink : Block.link ∉ parts) :
    linkStands s t := by
  have hsame := (h.frame).2.2.2.2.2.2.2.2.2.2.2.2.2.1.resolve_left hlink
  exact ⟨by rw [hsame], by rw [hsame]⟩

theorem raise_stands (k : NoticeKind) (payload : List Field) (s : State) : linkStands s (raise k payload s) := by
  unfold linkStands raise ControlLink.raise
  dsimp only
  split <;> exact ⟨rfl, rfl⟩

theorem raiseIf_stands (c : Bool) (k : NoticeKind) (payload : List Field) (s : State) :
    linkStands s (raiseIf c k payload s) := by
  cases c
  · exact linkStands_refl s
  · exact raise_stands k payload s

theorem sendFrame_stands (m : PartMsg) (s : State) : linkStands s (sendFrame m s) :=
  raiseIf_stands _ _ _ { s with tender := (s.tender.give s.pins.cts m).1 }

theorem restoreSession_stands (s : State) : linkStands s (restoreSession s) := by
  simp only [restoreSession]
  split
  · exact ⟨rfl, rfl⟩
  · exact sendFrame_stands _ s
  · exact sendFrame_stands _ s
  · exact ⟨rfl, rfl⟩
  · exact linkStands_refl s

theorem resendAll_stands (s : State) : linkStands s (resendAll s) := by
  unfold resendAll
  refine List.foldlRecOn (motive := linkStands s) _ _ ⟨rfl, rfl⟩ (fun u hu e _ => hu.trans (sendFrame_stands _ u))

theorem pathOpens_stands (x : Speaker) (s : State) : linkStands s (pathOpens x s) := by
  unfold pathOpens raiseDropped
  dsimp only
  split
  · exact raise_stands _ _ (s.setSpeaker x (s.speakers.get x).openPath.1)
  · exact ⟨rfl, rfl⟩

theorem restartIntercom_stands (s : State) : linkStands s (restartIntercom s) := by
  unfold restartIntercom
  dsimp only
  split
  · exact pathOpens_stands _ (setIntercom _ { s with intercom := Intercom.atRestart s.pins })
  · exact ⟨rfl, rfl⟩

theorem raiseLegStates_stands (changed : List Slot) (s : State) : linkStands s (raiseLegStates changed s) := by
  unfold raiseLegStates
  split
  · exact raise_stands _ _ s
  · exact linkStands_refl s

theorem restartNotices_stands (e : FareEngine) (was : SessionState) (valid : Bool) (gap : Option Nat) (s : State) :
    linkStands s (restartNotices e was valid gap s) := by
  have hlegs := raiseLegStates_stands (changedSlots e s.fare) s
  have hpay : linkStands (raiseLegStates (changedSlots e s.fare) s)
      (reportPayment was (raiseLegStates (changedSlots e s.fare) s)) := by
    unfold reportPayment
    split
    · exact linkStands_refl _
    · exact raise_stands _ _ _
  exact (hlegs.trans hpay).trans ((raiseIf_stands _ _ _ _).trans (raise_stands _ _ _))

/-! ### The frames of a restart (R84, R99) -/

theorem sendFrame_queue {m : PartMsg} {s : State} (hm : ∀ n, m ≠ .statusAsk n) (hroom : s.tender.queue.length < 8) :
    (sendFrame m s).tender.queue = s.tender.queue ++ [m] := by
  rw [sendFrame_tender, TenderLink.give_room (s.tender.merged_none hm) hroom]
  dsimp only
  split
  · exact (TenderLink.newHead_rest _ _).1
  · rfl

theorem newAsk_none {n : Nat} {ms : List PartMsg} (h : ∀ k, .statusAsk k ∉ ms) : newAsk n ms = none := by
  induction ms with
  | nil => rfl
  | cons m ms ih =>
    have hrest := ih (fun k hk => h k (List.mem_cons_of_mem m hk))
    cases m with
    | statusAsk k => exact absurd List.mem_cons_self (h k)
    | sale | abort | reverse => rw [newAsk, hrest] <;> simp

/-- An ask goes to the end of a queue in which none waits. -/
theorem sendFrame_queue_ask {n : Nat} {s : State} (hnone : ∀ k, .statusAsk k ∉ s.tender.queue)
    (hroom : s.tender.queue.length < 8) :
    (sendFrame (.statusAsk n) s).tender.queue = s.tender.queue ++ [.statusAsk n] := by
  have hmerge : s.tender.merged (.statusAsk n) = none := by
    show s.tender.mergeAsk n = none
    unfold TenderLink.mergeAsk
    split
    · rfl
    · next m ms hq =>
      rw [hq] at hnone
      rw [newAsk_none hnone, newAsk_none (fun k hk => hnone k (List.mem_cons_of_mem m hk))]
      simp
  rw [sendFrame_tender, TenderLink.give_room hmerge hroom]
  dsimp only
  split
  · exact (TenderLink.newHead_rest _ _).1
  · rfl

theorem newAsk_keeps {n : Nat} {ms q : List PartMsg} {x : PartMsg} (hx : ∀ k, x ≠ .statusAsk k) (hmem : x ∈ ms)
    (h : newAsk n ms = some q) : x ∈ q := by
  induction ms generalizing q with
  | nil => simp at hmem
  | cons m ms ih =>
    have hmap (hq : (newAsk n ms).map (m :: ·) = some q) : x ∈ q := by
      obtain ⟨q', hq', rfl⟩ := Option.map_eq_some_iff.mp hq
      rcases List.mem_cons.mp hmem with rfl | hrest
      · exact List.mem_cons_self
      · exact List.mem_cons_of_mem m (ih hrest hq')
    cases m with
    | statusAsk k =>
      cases h
      rcases List.mem_cons.mp hmem with rfl | hrest
      · exact absurd rfl (hx k)
      · exact List.mem_cons_of_mem _ hrest
    | sale | abort | reverse => exact hmap h

/-- A frame that waits is still in the queue after another is given, unless it is an ask. -/
theorem sendFrame_keeps {m x : PartMsg} {s : State} (hx : ∀ k, x ≠ .statusAsk k) (hmem : x ∈ s.tender.queue) :
    x ∈ (sendFrame m s).tender.queue := by
  rw [sendFrame_tender]
  cases hm : s.tender.merged m with
  | some q =>
    rw [TenderLink.give_merged hm]
    cases m with
    | sale | abort | reverse => cases hm
    | statusAsk n =>
      have hask : s.tender.mergeAsk n = some q := hm
      unfold TenderLink.mergeAsk at hask
      split at hask
      · cases hask
      · next y ys hq =>
        rw [hq] at hmem
        split at hask
        · obtain ⟨q', hq', rfl⟩ := Option.map_eq_some_iff.mp hask
          rcases List.mem_cons.mp hmem with rfl | hrest
          · exact List.mem_cons_self
          · exact List.mem_cons_of_mem y (newAsk_keeps hx hrest hq')
        · exact newAsk_keeps hx hmem hask
  | none =>
    by_cases hfull : 8 ≤ s.tender.queue.length
    · rw [TenderLink.give_full hm hfull]
      exact hmem
    · rw [TenderLink.give_room hm (by omega)]
      dsimp only
      split
      · rw [(TenderLink.newHead_rest _ _).1]
        exact List.mem_append_left _ hmem
      · exact List.mem_append_left _ hmem

/-- The frames of the held reversals, one after another. -/
theorem resends_queue (es : List Reversal) (s : State) (hroom : s.tender.queue.length + es.length ≤ 8) :
    (es.foldl (fun t e => sendFrame (.reverse e.ref e.amount) t) s).tender.queue
      = s.tender.queue ++ es.map (fun e => .reverse e.ref e.amount) := by
  induction es generalizing s with
  | nil => simp
  | cons e es ih =>
    rw [List.length_cons] at hroom
    have hsent : (sendFrame (.reverse e.ref e.amount) s).tender.queue = s.tender.queue ++ [.reverse e.ref e.amount] :=
      sendFrame_queue (by simp) (by omega)
    rw [List.foldl_cons, ih _ (by rw [hsent, List.length_append, List.length_singleton]; omega), hsent]
    simp

/-- The T_ABORT that a restart gives for the session it finds (R84). -/
def restartAborts (p : Session) : List PartMsg :=
  match p.state, p.outstanding with
  | .authorising, some r => [.abort r]
  | .aborting, some r => [.abort r]
  | _, _ => []

theorem restoreSession_queue {s : State} (h : s.tender.queue = []) :
    (restoreSession s).tender.queue = restartAborts s.settle.session := by
  have hsent (r : Ref) : (sendFrame (.abort r) s).tender.queue = [.abort r] := by
    rw [sendFrame_queue (by simp) (by rw [h]; decide), h]
    rfl
  simp only [restoreSession]
  split
  · next _ hstate => simpa [restartAborts, hstate, setSession] using h
  · next r hstate hout => simpa [restartAborts, hstate, hout, setSession, setTimer] using hsent r
  · next r hstate hout => simpa [restartAborts, hstate, hout, setTimer] using hsent r
  · next _ hstate => simpa [restartAborts, hstate, setTimer] using h
  · next hauth habort =>
    rw [h, restartAborts]
    split
    · next r hstate hout => exact (hauth r hstate hout).elim
    · next r hstate hout => exact (habort r hstate hout).elim
    · rfl

/-! ### The blocks of a restart (R165) -/

/-- The state whose session a restart restores: volatile state afresh, the running legs stopped. -/
def legsRestored (s : State) : State :=
  { restartVolatile s with fare := s.fare.restored (restoreTime s.retained s.clock.count) }

theorem restoreSession_tipWait {s : State} (h : s.settle.session.state = .tipWait) :
    restoreSession s
      = { s with
          fare := s.fare.unlock s.settle.session.paymentId
          settle := { s.settle with session := s.settle.session.close .cancelled .tipRestart s.clock.count } } := by
  simp [restoreSession, h, setSession]

theorem restoreSession_authorising {s : State} {r : Ref} (h : s.settle.session.state = .authorising)
    (hr : s.settle.session.outstanding = some r) :
    (restoreSession s).settle
        = { s.settle with
            session := { s.settle.session with state := .aborting, abortCause := some .restart }
            timer := some ⟨.abort, 1000⟩ }
      ∧ (restoreSession s).tender = (sendFrame (.abort r) s).tender := by
  simp [restoreSession, h, hr, setSession, setTimer]

theorem restoreSession_aborting {s : State} {r : Ref} (h : s.settle.session.state = .aborting)
    (hr : s.settle.session.outstanding = some r) :
    (restoreSession s).settle = { s.settle with timer := some ⟨.abort, 1000⟩ }
      ∧ (restoreSession s).tender = (sendFrame (.abort r) s).tender := by
  simp [restoreSession, h, hr, setTimer]

theorem restoreSession_retryWait {s : State} (h : s.settle.session.state = .retryWait) :
    (restoreSession s).settle = { s.settle with timer := some ⟨.retryIdle, 12000⟩ } := by
  simp [restoreSession, h, setTimer]

theorem restoreSession_closed {s : State} (h : s.settle.session.state.isOpen = false) : restoreSession s = s := by
  cases hs : s.settle.session.state <;> simp_all [restoreSession, SessionState.isOpen]

/-- The session restored leaves the rest of the settlement unit but the session timer. -/
theorem restoreSession_settle (s : State) :
    (restoreSession s).settle
      = { s.settle with session := (restoreSession s).settle.session, timer := (restoreSession s).settle.timer } := by
  simp only [restoreSession]
  split <;> simp [setSession, setTimer]

/-- Legs stay as restored unless a TIP_WAIT session closes. -/
theorem restoreSession_legs (s : State) :
    (restoreSession s).fare
      = if s.settle.session.state = .tipWait then s.fare.unlock s.settle.session.paymentId else s.fare := by
  by_cases h : s.settle.session.state = .tipWait
  · rw [if_pos h, restoreSession_tipWait h]
  · rw [if_neg h]
    simp only [restoreSession]
    split
    · next htip => exact absurd htip h
    all_goals simp

theorem restartBlocks_tender (s : State) :
    (restartBlocks s).tender = (sendFrame (.statusAsk 0) (resendAll (restoreSession (legsRestored s)))).tender :=
  ((restartSign_acts _).seq (restartIntercom_acts _)).same .tender

theorem restartBlocks_odo (s : State) : (restartBlocks s).odo = s.odo.restarted s.pins.dpulse :=
  (((restoreMoney_acts _).seq (restartSign_acts _)).seq (restartIntercom_acts _)).same .odo

/-- The sign of a restart is the retained one, derived anew. -/
theorem restartBlocks_sign (s : State) :
    ∃ g : Sign, (restartBlocks s).sign
      = { s.sign.retainedOnly with
          derived := g.derived, digit := g.digit, demand := g.demand, generator := g.generator, dark := g.dark, hold := g.hold } := by
  have hsign : (restartBlocks s).sign = (restartSign (restoreMoney (restartVolatile s))).sign :=
    (restartIntercom_acts _).same .sign
  have hmoney : (restoreMoney (restartVolatile s)).sign = s.sign := (restoreMoney_acts _).same .sign
  refine ⟨(restartBlocks s).sign, ?_⟩
  rw [hsign, restartSign, derive_eq, hmoney]
  rfl

theorem restartBlocks_mode (s : State) : (restartBlocks s).intercom.mode = .driverPtt := by
  rw [restartBlocks, restartIntercom]
  split
  · rw [beginTurn_intercom]
    rfl
  · rfl

theorem restartBlocks_stands (s : State) : linkStands (restartVolatile s) (restartBlocks s) := by
  have hlegs : linkStands (restartVolatile s)
      { restartVolatile s with
        fare := (restartVolatile s).fare.restored
          (restoreTime (restartVolatile s).retained (restartVolatile s).clock.count) } := ⟨rfl, rfl⟩
  have hmoney : linkStands (restartVolatile s) (restoreMoney (restartVolatile s)) :=
    ((hlegs.trans (restoreSession_stands _)).trans (resendAll_stands _)).trans (sendFrame_stands _ _)
  exact (hmoney.trans (linkStands_of_acts (restartSign_acts _) (by simp))).trans (restartIntercom_stands _)

theorem restartAborts_length (p : Session) : (restartAborts p).length ≤ 1 := by
  unfold restartAborts
  split <;> simp

theorem restartAborts_noAsk (p : Session) (k : Nat) : .statusAsk k ∉ restartAborts p := by
  unfold restartAborts
  split <;> simp

theorem resendAll_queue {s : State} (hroom : s.tender.queue.length + s.settle.reversals.length ≤ 8) :
    (resendAll s).tender.queue = s.tender.queue ++ s.settle.reversals.map (fun e => .reverse e.ref e.amount) :=
  resends_queue s.settle.reversals { s with settle := _ } hroom

theorem resendAll_keeps {x : PartMsg} {s : State} (hx : ∀ k, x ≠ .statusAsk k) (hmem : x ∈ s.tender.queue) :
    x ∈ (resendAll s).tender.queue := by
  unfold resendAll
  exact List.foldlRecOn (motive := fun t : State => x ∈ t.tender.queue) _ _ hmem (fun t ht e _ => sendFrame_keeps hx ht)

/-- The frames of a restart in their order (R84, R99). -/
theorem restartBlocks_queue {s : State} (h : s.settle.reversals.length ≤ 5) :
    (restartBlocks s).tender.queue
      = restartAborts s.settle.session ++ s.settle.reversals.map (fun e => .reverse e.ref e.amount) ++ [.statusAsk 0] := by
  have haborts : (restoreSession (legsRestored s)).tender.queue = restartAborts s.settle.session :=
    restoreSession_queue (s := legsRestored s) rfl
  have hreversals : (restoreSession (legsRestored s)).settle.reversals = s.settle.reversals := by
    rw [restoreSession_settle]
    rfl
  have hlength := restartAborts_length s.settle.session
  have hresent := resendAll_queue (s := restoreSession (legsRestored s)) (by rw [haborts, hreversals]; omega)
  rw [haborts, hreversals] at hresent
  rw [restartBlocks_tender, sendFrame_queue_ask, hresent]
  · rw [hresent]
    intro k hk
    rcases List.mem_append.mp hk with hk | hk
    · exact restartAborts_noAsk _ k hk
    · simp at hk
  · rw [hresent, List.length_append, List.length_map]
    omega

theorem restartBlocks_abort {s : State} {r : Ref} (h : .abort r ∈ restartAborts s.settle.session) :
    .abort r ∈ (restartBlocks s).tender.queue := by
  rw [restartBlocks_tender]
  refine sendFrame_keeps (by simp) (resendAll_keeps (by simp) ?_)
  rw [restoreSession_queue (s := legsRestored s) rfl]
  exact h

/-! ### The notices of a restart (R56, R83, R165) -/

theorem restartNotices_restored (e : FareEngine) (was : SessionState) (valid : Bool) (gap : Option Nat) (s : State) :
    announced .powerRestored (gapFields gap ++ [yesNo valid, firstWhen s.clock.valid])
      (restartNotices e was valid gap s) := announced_raise _ _ _

theorem restartNotices_lost (e : FareEngine) (was : SessionState) (gap : Option Nat) (s : State) :
    announced .storeLost [] (restartNotices e was false gap s) :=
  (announced_raiseIf rfl .storeLost [] _).later (raise_raises _ _ _) (by simp)

theorem restartNotices_payment {e : FareEngine} {was : SessionState} {s : State} (h : was ≠ s.settle.session.state)
    (valid : Bool) (gap : Option Nat) :
    announced .paymentState (paymentPayload s.settle.session) (restartNotices e was valid gap s) := by
  have hraised : announced .paymentState (paymentPayload s.settle.session)
      (reportPayment was (raiseLegStates (changedSlots e s.fare) s)) := by
    have hsettle : (raiseLegStates (changedSlots e s.fare) s).settle = s.settle := by simp
    rw [reportPayment, hsettle, if_neg h, raisePayment, hsettle]
    exact announced_raise _ _ _
  exact hraised.later ((raiseIf_raises _ _ _ _).seq (raise_raises _ _ _)) (by simp)

theorem reportPayment_raises (was : SessionState) (s : State) : raisesOnly [.paymentState] s (reportPayment was s) :=
  .ite (fun _ => raisesOnly_refl _ _) (fun _ => raise_raises _ _ _)

theorem restartNotices_legs {e : FareEngine} {s : State} {i : Slot} {rest : List Slot}
    (h : changedSlots e s.fare = i :: rest) (was : SessionState) (valid : Bool) (gap : Option Nat) :
    announced .legState (legStatePayload i s.fare) (restartNotices e was valid gap s) := by
  have hraised : announced .legState (legStatePayload i s.fare) (raiseLegStates (changedSlots e s.fare) s) := by
    rw [h]
    exact announced_raise _ _ s
  exact hraised.later (((reportPayment_raises _ _).seq (raiseIf_raises _ _ _ _)).seq (raise_raises _ _ _)) (by simp)

/-- Of the slots chosen in order, the lowest comes first. -/
theorem filter_slots_lowest {p : Slot → Bool} {i : Slot} (hi : p i = true)
    (hlower : ∀ j : Slot, j.number < i.number → p j = false) : ∃ rest, Slot.all.filter p = i :: rest := by
  cases i with
  | s1 => simp [Slot.all, hi]
  | s2 => simp [Slot.all, hi, hlower .s1 (by decide)]
  | s3 => simp [Slot.all, hi, hlower .s1 (by decide), hlower .s2 (by decide)]
  | s4 => simp [Slot.all, hi, hlower .s1 (by decide), hlower .s2 (by decide), hlower .s3 (by decide)]

theorem changedSlots_lowest {a b : FareEngine} {i : Slot} (hi : (b.legs.get i).state ≠ (a.legs.get i).state)
    (hlower : ∀ j : Slot, j.number < i.number → (b.legs.get j).state = (a.legs.get j).state) :
    ∃ rest, changedSlots a b = i :: rest :=
  filter_slots_lowest (by simpa using hi.symm) (fun j hj => by simpa using (hlower j hj).symm)

end Sys2Proof.Machine
end

