-- ==== Sys2Proof/Proofs/PowerUps.lean ====
section
/-!
PROOF. What a restart makes of a stopped part, with its memory valid or not, and FACTORY_CLEAR.
-/

set_option Elab.async false

namespace Sys2Proof.Machine

/-! ### The memory a restart starts from (R165) -/

theorem Retained.isValid_iff (r : Retained) : r.isValid = true ↔ r.checkAgrees = true ∧ r.formatVersion = 1 := by
  simp [Retained.isValid]

/-- The part runs again, its clock read. -/
def powered (s : State) : State := { s with power := .running, clock := s.clock.atRestart }

theorem restartMemory_valid {s : State} (h : s.retained.isValid = true) : restartMemory s = powered s := if_pos h

theorem restartMemory_invalid {s : State} (h : s.retained.isValid = false) :
    restartMemory s = clearRetained (powered s) :=
  if_neg (by rw [h]; decide)

@[simp] theorem restartMemory_rest (s : State) :
    (restartMemory s).power = .running ∧ (restartMemory s).pins = s.pins ∧ (restartMemory s).clock = s.clock.atRestart := by
  cases h : s.retained.isValid with
  | true =>
    rw [restartMemory_valid h]
    exact ⟨rfl, rfl, rfl⟩
  | false =>
    rw [restartMemory_invalid h]
    exact ⟨rfl, rfl, rfl⟩

/-- What the restart notes of itself. -/
def notedMemory (s : State) : Retained :=
  { (restartMemory s).retained with
    recorded := false, lastValid := s.retained.isValid, lastBattery := s.clock.batteryFail
    lastGap := gapOf (restartMemory s).retained s.clock.batteryFail s.clock.atRestart.count }

/-- The state of a restart before its notices. -/
def startedPart (s : State) : State := { restartBlocks (restartMemory s) with retained := notedMemory s }

theorem restarts_eq (s : State) :
    restarts s = restartNotices (restartMemory s).fare s.settle.session.state s.retained.isValid (notedMemory s).lastGap
      (startedPart s) := by
  have hretained := (restartBlocks_rest (restartMemory s)).2.2.2.2.2
  have hclock := (restartMemory_rest s).2.2
  have hshape : restarts s = restartNotices (restartMemory s).fare s.settle.session.state s.retained.isValid
      (gapOf (restartMemory s).retained s.clock.batteryFail (restartMemory s).clock.count)
      { restartBlocks (restartMemory s) with
        retained := { (restartBlocks (restartMemory s)).retained with
          recorded := false, lastValid := s.retained.isValid, lastBattery := s.clock.batteryFail
          lastGap := gapOf (restartMemory s).retained s.clock.batteryFail (restartMemory s).clock.count } } := rfl
  rw [hshape, hretained, hclock]
  rfl

theorem restarts_retained (s : State) : (restarts s).retained = notedMemory s := by
  rw [restarts_eq, (restartNotices_acts _ _ _ _ _).same .retained]
  rfl

theorem restarts_clock (s : State) : (restarts s).clock = s.clock.atRestart := by
  rw [(restarts_rest s).2.2.2.2.2.2.2.2.2.2, (restartBlocks_rest _).2.2.2.2.1, (restartMemory_rest s).2.2]

theorem restarts_odo (s : State) : (restarts s).odo = (restartMemory s).odo.restarted s.pins.dpulse := by
  rw [(restarts_rest s).2.1, restartBlocks_odo, (restartMemory_rest s).2.1]

theorem restarts_settle (s : State) :
    (restarts s).settle
      = { (restoreSession (legsRestored (restartMemory s))).settle with
          reversals := (restoreSession (legsRestored (restartMemory s))).settle.reversals.map
            (fun e => { e with left := 3000 }) } := by
  rw [(restarts_rest s).2.2.2.1, restartBlocks_settle]
  exact resendAll_settle _

theorem restarts_fare (s : State) : (restarts s).fare = (restoreSession (legsRestored (restartMemory s))).fare := by
  rw [(restarts_rest s).2.2.1, restartBlocks_fare_eq]
  rfl

theorem restarts_stands (s : State) : (restarts s).link.rate = 57600 ∧ (restarts s).link.handling = none := by
  have hblocks := restartBlocks_stands (restartMemory s)
  have hstarted : linkStands (restartBlocks (restartMemory s)) (startedPart s) := ⟨rfl, rfl⟩
  rw [restarts_eq]
  exact (hblocks.trans hstarted).trans (restartNotices_stands _ _ _ _ _)

/-! ### The notices -/

theorem restarts_settle_started (s : State) : (restarts s).settle = (startedPart s).settle := by
  rw [restarts_eq, (restartNotices_acts _ _ _ _ _).same .settle]

theorem restarts_powerRestored (s : State) :
    announced .powerRestored
      (gapFields (restarts s).retained.lastGap ++ [yesNo s.retained.isValid, firstWhen (restarts s).clock.valid])
      (restarts s) := by
  have hclock : (restarts s).clock = (startedPart s).clock := by
    rw [restarts_eq, (restartNotices_acts _ _ _ _ _).same .clock]
  rw [restarts_retained, hclock, restarts_eq]
  exact restartNotices_restored _ _ _ _ _

theorem restarts_storeLost {s : State} (h : s.retained.isValid = false) : announced .storeLost [] (restarts s) := by
  rw [restarts_eq, h]
  exact restartNotices_lost _ _ _ _

theorem restarts_payment {s : State} (h : (restarts s).settle.session.state ≠ s.settle.session.state) :
    announced .paymentState (paymentPayload (restarts s).settle.session) (restarts s) := by
  rw [restarts_settle_started] at h ⊢
  rw [restarts_eq]
  exact restartNotices_payment h.symm _ _

theorem restarts_legState {s : State} {i : Slot} (hi : ((restarts s).leg i).state ≠ ((restartMemory s).leg i).state)
    (hlower : ∀ j : Slot, j.number < i.number → ((restarts s).leg j).state = ((restartMemory s).leg j).state) :
    announced .legState (legStatePayload i (restarts s).fare) (restarts s) := by
  have hfare : (restarts s).fare = (startedPart s).fare := by
    rw [restarts_eq, (restartNotices_acts _ _ _ _ _).same .fare]
  obtain ⟨rest, hrest⟩ := changedSlots_lowest hi hlower
  rw [hfare] at hrest ⊢
  rw [restarts_eq]
  exact restartNotices_legs hrest _ _ _

/-! ### Memory found valid -/

theorem restarts_tender (s : State) : (restarts s).tender = (restartBlocks (restartMemory s)).tender :=
  (restarts_rest s).2.2.2.2.1

theorem gapOf_eq (r : Retained) (lost : Bool) (count : Nat) :
    gapOf r lost count
      = if r.recorded = false then some 0
        else match r.failCount with
          | some c => if lost = false ∧ c ≤ count then some (count - c) else none
          | none => none := by
  unfold gapOf
  cases r.recorded <;> cases r.failCount <;> simp

theorem gapFields_eq (g : Option Nat) : gapFields g = [.u32 (g.getD 0), .u8 (if g = none then 1 else 0)] := by
  cases g <;> rfl

theorem firstWhen_eq (b : Bool) : firstWhen b = .u8 (if b = true then 0 else 1) := by
  cases b <;> rfl

theorem restoreTime_eq (r : Retained) (count : Nat) :
    restoreTime r count = if r.recorded = true ∧ r.failCount.isSome = true then r.failCount.getD 0 else count := by
  unfold restoreTime
  cases r.recorded <;> cases r.failCount <;> simp

/-- The legs that a restart from valid memory starts from. -/
theorem restored_get (e : FareEngine) (n : Nat) (i : Slot) : (e.restored n).legs.get i = (e.legs.get i).restored n := by
  cases i <;> rfl

theorem Leg.restored_runs {l : Leg} (h : l.state = .hired ∨ l.state = .stopping) (n : Nat) :
    l.restored n = { l with state := .stopped, powerGap := true, stopTime := some n } := by
  rcases h with h | h <;> simp [Leg.restored, Leg.runs, h]

theorem Leg.restored_rests {l : Leg} (h : ¬(l.state = .hired ∨ l.state = .stopping)) (n : Nat) : l.restored n = l := by
  have hrun : l.runs = false := by
    rw [not_or] at h
    simp [Leg.runs, h]
  simp [Leg.restored, hrun]

theorem restarts_leg {s : State} (h : s.retained.isValid = true) (i : Slot) :
    (restarts s).leg i
      = if s.settle.session.state = .tipWait then
          ((s.leg i).restored (restoreTime s.retained s.clock.atRestart.count)).unlock s.settle.session.paymentId
        else (s.leg i).restored (restoreTime s.retained s.clock.atRestart.count) := by
  show (restarts s).fare.legs.get i = _
  rw [restarts_fare, restoreSession_legs, restartMemory_valid h]
  by_cases htip : s.settle.session.state = .tipWait
  · rw [if_pos (show (legsRestored (powered s)).settle.session.state = .tipWait from htip), if_pos htip, unlock_get]
    exact congrArg (Leg.unlock s.settle.session.paymentId) (restored_get _ _ i)
  · rw [if_neg (show ¬(legsRestored (powered s)).settle.session.state = .tipWait from htip), if_neg htip]
    exact restored_get _ _ i

theorem Leg.unlock_rests {l : Leg} (h : l.state ≠ .paying) (p : Nat) : l.unlock p = l := by
  rw [Leg.unlock_eq, if_neg (fun hp => h hp.1)]

theorem restarts_leg_quiet {s : State} (h : s.retained.isValid = true) {i : Slot}
    (hq : (s.leg i).state = .free ∨ (s.leg i).state = .stopped) : (restarts s).leg i = s.leg i := by
  rw [restarts_leg h, Leg.restored_rests (by rcases hq with hq | hq <;> simp [hq]),
    Leg.unlock_rests (by rcases hq with hq | hq <;> simp [hq]), ite_self]

theorem restarts_leg_runs {s : State} (h : s.retained.isValid = true) {i : Slot}
    (hr : (s.leg i).state = .hired ∨ (s.leg i).state = .stopping) :
    (restarts s).leg i
      = { s.leg i with
          state := .stopped, powerGap := true
          stopTime := some (restoreTime s.retained s.clock.atRestart.count) } := by
  rw [restarts_leg h, Leg.unlock_rests (by simp [Leg.restored_runs hr]), ite_self, Leg.restored_runs hr]

theorem restarts_leg_paying {s : State} (h : s.retained.isValid = true) {i : Slot} (hp : (s.leg i).state = .paying) :
    (restarts s).leg i
      = if s.settle.session.state = .tipWait ∧ (s.leg i).paymentId = some s.settle.session.paymentId then
          { s.leg i with state := .stopped, paymentId := none }
        else s.leg i := by
  rw [restarts_leg h, Leg.restored_rests (by simp [hp]), Leg.unlock_eq]
  by_cases htip : s.settle.session.state = .tipWait
  · simp only [htip, hp, true_and, if_true]
  · simp only [htip, false_and, if_false]

theorem restoreSession_tables (s : State) :
    tablesKept s (restoreSession s) ∧ (restoreSession s).fare.seatMap = s.fare.seatMap := by
  unfold tablesKept
  rw [restoreSession_legs]
  split <;> exact ⟨⟨rfl, rfl, rfl⟩, rfl⟩

theorem restarts_tables {s : State} (h : s.retained.isValid = true) :
    tablesKept s (restarts s) ∧ (restarts s).fare.seatMap = s.fare.seatMap := by
  have hsession := restoreSession_tables (legsRestored (restartMemory s))
  unfold tablesKept at hsession ⊢
  rw [restarts_fare]
  rw [restartMemory_valid h] at hsession ⊢
  exact hsession

/-- Of the settlement unit a restart from valid memory restores the session and its timer. -/
theorem restarts_settle_valid {s : State} (h : s.retained.isValid = true) :
    (restarts s).settle
      = { s.settle with
          session := (restarts s).settle.session
          timer := (restarts s).settle.timer
          reversals := s.settle.reversals.map (fun e => { e with left := 3000 }) } := by
  rw [restarts_settle, restoreSession_settle, restartMemory_valid h]
  rfl

theorem restarts_session (s : State) :
    (restarts s).settle.session = (restoreSession (legsRestored (restartMemory s))).settle.session
      ∧ (restarts s).settle.timer = (restoreSession (legsRestored (restartMemory s))).settle.timer := by
  rw [restarts_settle]
  exact ⟨rfl, rfl⟩

theorem restarts_tipWait {s : State} (h : s.retained.isValid = true) (hs : s.settle.session.state = .tipWait) :
    (restarts s).settle.session = s.settle.session.close .cancelled .tipRestart s.clock.atRestart.count
      ∧ (restarts s).settle.timer = s.settle.timer := by
  obtain ⟨hsession, htimer⟩ := restarts_session s
  rw [restartMemory_valid h, restoreSession_tipWait (s := legsRestored (powered s)) hs] at hsession htimer
  exact ⟨hsession, htimer⟩

theorem restarts_authorising {s : State} (h : s.retained.isValid = true) (hs : s.settle.session.state = .authorising)
    {r : Ref} (hr : s.settle.session.outstanding = some r) :
    (restarts s).settle.session = { s.settle.session with state := .aborting, abortCause := some .restart }
      ∧ (restarts s).settle.timer = some ⟨.abort, 1000⟩ := by
  obtain ⟨hsession, htimer⟩ := restarts_session s
  rw [restartMemory_valid h, (restoreSession_authorising (s := legsRestored (powered s)) hs hr).1] at hsession htimer
  exact ⟨hsession, htimer⟩

theorem restarts_aborting {s : State} (h : s.retained.isValid = true) (hs : s.settle.session.state = .aborting)
    {r : Ref} (hr : s.settle.session.outstanding = some r) :
    (restarts s).settle.session = s.settle.session ∧ (restarts s).settle.timer = some ⟨.abort, 1000⟩ := by
  obtain ⟨hsession, htimer⟩ := restarts_session s
  rw [restartMemory_valid h, (restoreSession_aborting (s := legsRestored (powered s)) hs hr).1] at hsession htimer
  exact ⟨hsession, htimer⟩

theorem restarts_retryWait {s : State} (h : s.retained.isValid = true) (hs : s.settle.session.state = .retryWait) :
    (restarts s).settle.session = s.settle.session ∧ (restarts s).settle.timer = some ⟨.retryIdle, 12000⟩ := by
  obtain ⟨hsession, htimer⟩ := restarts_session s
  rw [restartMemory_valid h, restoreSession_retryWait (s := legsRestored (powered s)) hs] at hsession htimer
  exact ⟨hsession, htimer⟩

theorem restarts_closed {s : State} (h : s.retained.isValid = true) (hs : s.settle.session.state.isOpen = false) :
    (restarts s).settle.session = s.settle.session := by
  obtain ⟨hsession, -⟩ := restarts_session s
  rw [restartMemory_valid h, restoreSession_closed (s := legsRestored (powered s)) hs] at hsession
  exact hsession

theorem restarts_abort {s : State} (h : s.retained.isValid = true) {r : Ref}
    (hr : .abort r ∈ restartAborts s.settle.session) : .abort r ∈ (restarts s).tender.queue := by
  rw [restarts_tender]
  refine restartBlocks_abort ?_
  rw [restartMemory_valid h]
  exact hr

theorem restarts_queue {s : State} (h : s.retained.isValid = true) (hroom : s.settle.reversals.length ≤ 5) :
    (restarts s).tender.queue
      = restartAborts s.settle.session ++ s.settle.reversals.map (fun e => .reverse e.ref e.amount) ++ [.statusAsk 0] := by
  rw [restarts_tender, restartMemory_valid h]
  exact restartBlocks_queue hroom

/-! ### Memory found invalid -/

theorem restarts_invalid {s : State} (h : s.retained.isValid = false) :
    (restarts s).fare = FareEngine.cleared ∧ (restarts s).settle = Settlement.cleared := by
  have hrestored : restoreSession (legsRestored (restartMemory s)) = legsRestored (restartMemory s) := by
    rw [restartMemory_invalid h]
    exact restoreSession_closed rfl
  rw [restarts_fare, restarts_settle, hrestored, restartMemory_invalid h]
  exact ⟨rfl, rfl⟩

/-! ### FACTORY_CLEAR (R167) -/

/-- The state of a FACTORY_CLEAR before the sign follows. -/
def clearedPart (s : State) : State := clearRetained { s with odo := s.odo.factoryCleared s.pins.dpulse }

/-- Before PAYMENT_STATE the sign has followed and the shift and the emergency have been told. -/
def clearedTold (s : State) : State :=
  raiseIf s.sign.active .emergency (emergencyPayload (raiseShiftState (resign (clearedPart s))).sign (some s.clock.count))
    (raiseShiftState (resign (clearedPart s)))

theorem factoryClears_eq (s : State) : factoryClears s = reportPayment s.settle.session.state (clearedTold s) := rfl

theorem clearedTold_settle (s : State) : (clearedTold s).settle = Settlement.cleared :=
  (((resign_acts (clearedPart s)).seq (raiseShiftState_acts _)).seq (raiseIf_acts _ _ _ _)).same .settle

/-- What stays of the cleared part: the sign follows and notices are raised. -/
theorem factoryClears_acts_cleared (s : State) : acts [.sign, .link] (clearedPart s) (factoryClears s) :=
  ((((resign_acts (clearedPart s)).seq (raiseShiftState_acts _)).seq (raiseIf_acts _ _ _ _)).seq
    (reportPayment_acts _ _)).widen

theorem factoryClears_sign (s : State) :
    (factoryClears s).sign = (raiseShiftState (resign (clearedPart s))).sign
      ∧ (factoryClears s).sign = (derive (clearedPart s)).sign := by
  have hsign : (factoryClears s).sign = (raiseShiftState (resign (clearedPart s))).sign :=
    ((raiseIf_acts _ _ _ _).seq (reportPayment_acts _ _)).same .sign
  exact ⟨hsign, hsign.trans (((raiseShiftState_acts _).same .sign).trans (reportSign_sign _ _))⟩

theorem factoryClears_payment {s : State} (h : s.settle.session.state ≠ .none) :
    announced .paymentState (paymentPayload Session.blank) (factoryClears s) := by
  have hdiffers : ¬ s.settle.session.state = (clearedTold s).settle.session.state := by
    rw [clearedTold_settle]
    exact h
  rw [factoryClears_eq, reportPayment, if_neg hdiffers, raisePayment, clearedTold_settle]
  exact announced_raise _ _ _

theorem clearedTold_raises (s : State) : raisesOnly [.signState, .shiftState, .emergency] s (clearedTold s) :=
  ((raisesOnly_of_link (s := s) (t := clearedPart s) rfl []).seq (resign_raises _)).seq
    (raise_raises .shiftState _ _) |>.seq (raiseIf_raises _ _ _ _)

theorem factoryClears_quiet {s : State} (h : s.settle.session.state = .none) :
    unraised .paymentState s (factoryClears s) := by
  have hsame : s.settle.session.state = (clearedTold s).settle.session.state := by
    rw [clearedTold_settle]
    exact h
  rw [factoryClears_eq, reportPayment, if_pos hsame]
  exact (clearedTold_raises s).unraised (by simp)

theorem factoryClears_emergency {s : State} (h : s.sign.active = true) :
    announced .emergency (emergencyPayload (factoryClears s).sign (some s.clock.count)) (factoryClears s) := by
  rw [(factoryClears_sign s).1, factoryClears_eq]
  exact (announced_raiseIf h _ _ _).later (reportPayment_raises _ _) (by simp)

theorem factoryClears_shift (s : State) :
    announced .shiftState (shiftPayload (factoryClears s).shifts) (factoryClears s) := by
  have hshifts : (factoryClears s).shifts = (resign (clearedPart s)).shifts :=
    (((raiseShiftState_acts _).seq (raiseIf_acts _ _ _ _)).seq (reportPayment_acts _ _)).same .shifts
  rw [hshifts, factoryClears_eq]
  exact (announced_raise .shiftState _ _).later ((raiseIf_raises _ _ _ _).seq (reportPayment_raises _ _)) (by simp)

/-! ### The exec rows -/

theorem exec_restart_running {s : State} (h : s.power = .running) : exec .restart s = .next s := by
  show execRestart s = _
  rw [execRestart, h]

theorem exec_restart_stopped {s : State} (h : s.power ≠ .running) : exec .restart s = .next (restarts s) := by
  show execRestart s = _
  unfold execRestart
  split
  · rfl
  · rfl
  · next hp => exact absurd hp h

theorem exec_factoryClear {s : State} (hready : ready s) (h : calibrationOpen s = true) :
    exec .factoryClear s = .next (answered .factoryClear ⟨.ok, []⟩ (factoryClears s)) :=
  exec_taken hready (rule := takeFactoryClear) rfl (if_neg (by simp [h]))

end Sys2Proof.Machine
end

