-- ==== Sys2Proof/Proofs/Clears.lean ====
section
/-!
PROOF. A restart restores or clears, and FACTORY_CLEAR clears: the obligation assembled.
-/

set_option Elab.async false

namespace Sys2Proof.Machine

/-- What a restart leaves of a part, its memory valid or not. -/
theorem restarts_sign (s : State) :
    ∃ g : Sign, (restarts s).sign
      = { (restartMemory s).sign.retainedOnly with
          derived := g.derived, digit := g.digit, demand := g.demand, generator := g.generator, dark := g.dark
          hold := g.hold } := by
  rw [(restarts_rest s).2.2.2.2.2.2.2.1]
  exact restartBlocks_sign _

theorem restarts_mode (s : State) : (restarts s).intercom.mode = .driverPtt := by
  rw [(restarts_rest s).2.2.2.2.2.2.2.2.1]
  exact restartBlocks_mode _

theorem restarts_shifts (s : State) : (restarts s).shifts = (restartMemory s).shifts := by
  rw [(restarts_rest s).2.2.2.2.2.1, (restartBlocks_rest _).2.2.1]

theorem restarts_journal (s : State) : (restarts s).journal = (restartMemory s).journal := by
  rw [(restarts_rest s).2.2.2.2.2.2.1, (restartBlocks_rest _).2.2.2.1]

/-- Settles O56. -/
theorem aRestartRestoresOrClears : Obligations.ARestartRestoresOrClears := by
  intro s
  refine ⟨exec_restart_running, fun hstop => ⟨restarts s, exec_restart_stopped hstop, ?_⟩, fun hready hopen =>
    ⟨_, exec_factoryClear hready hopen, ?_⟩⟩
  · obtain ⟨g, hsign⟩ := restarts_sign s
    have hclock := restarts_clock s
    have hodo := restarts_odo s
    have hretained := restarts_retained s
    have hshifts := restarts_shifts s
    have hjournal := restarts_journal s
    obtain ⟨hrate, hhandling⟩ := restarts_stands s
    have hrestored := restarts_powerRestored s
    rw [gapFields_eq, firstWhen_eq] at hrestored
    refine ⟨(restarts_rest s).1.trans ((restartBlocks_rest _).1.trans (restartMemory_rest s).1),
      (restarts_acts s).same .pins, (restarts_acts s).same .pending, (restarts_acts s).same .freeCount,
      fun hb => ?_, fun hb => ?_, by rw [hretained]; rfl, hrate, hhandling, restarts_mode s, ?_⟩
    · rw [hclock, Clock.atRestart, if_pos hb]
      exact ⟨rfl, rfl, rfl⟩
    · rw [hclock, Clock.atRestart, if_neg (by rw [hb]; decide)]
      exact ⟨rfl, rfl⟩
    · have hafresh : (restarts s).sign.mode = .auto ∧ (restarts s).sign.choice = .standard
          ∧ (restarts s).sign.fault = ⟨false, false, false⟩ ∧ (restarts s).sign.pUser = Pattern.userDefault
          ∧ (restarts s).sign.testRunning = false ∧ (restarts s).sign.clearWindow = none := by
        rw [hsign]
        exact ⟨rfl, rfl, rfl, rfl, rfl, rfl⟩
      obtain ⟨hmode, hchoice, hfault, huser, htest, hwindow⟩ := hafresh
      refine ⟨hmode, hchoice, hfault, huser, htest, hwindow, by rw [hodo]; rfl, by rw [hretained]; rfl, fun hinvalid => ?_,
        fun hagrees hversion => ?_⟩
      · have hvalid : s.retained.isValid = false := by rwa [← Bool.not_eq_true, Retained.isValid_iff]
        obtain ⟨hfare, hsettle⟩ := restarts_invalid hvalid
        have hmemory := restartMemory_invalid hvalid
        rw [hmemory] at hodo hsign hshifts hjournal
        rw [notedMemory, hmemory, hvalid] at hretained
        rw [hretained, hvalid] at hrestored
        rw [hodo, hsign, hshifts, hjournal, hretained]
        refine ⟨hfare, rfl, rfl, hsettle, rfl, rfl, rfl, rfl, rfl, rfl, rfl, rfl, rfl, rfl, rfl, rfl, rfl, rfl, fun hs => ?_,
          restarts_storeLost hvalid, hrestored⟩
        have hpayment := restarts_payment (s := s) (by rw [hsettle]; exact hs.symm)
        rwa [hsettle] at hpayment
      · have hvalid := s.retained.isValid_iff.mpr ⟨hagrees, hversion⟩
        have hmemory := restartMemory_valid hvalid
        have hlegs (j : Slot) : (restartMemory s).leg j = s.leg j := by rw [hmemory]; rfl
        have hsettle := restarts_settle_valid hvalid
        have hgap : (restarts s).retained.lastGap = gapOf s.retained s.clock.batteryFail (restarts s).clock.count := by
          rw [hretained, notedMemory, hmemory, hclock]
          rfl
        have hnoted : (restarts s).retained
            = { s.retained with
                recorded := false, lastValid := true, lastBattery := s.clock.batteryFail
                lastGap := (restarts s).retained.lastGap } := by
          rw [hretained, notedMemory, hmemory, hvalid]
          rfl
        obtain ⟨htables, hseats⟩ := restarts_tables hvalid
        rw [hmemory] at hodo hsign hshifts hjournal
        rw [hvalid] at hrestored
        rw [hodo, hsign, hshifts, hjournal]
        refine ⟨rfl, rfl, rfl, rfl, rfl, rfl, rfl, htables, hseats, by rw [hsettle], by rw [hsettle], by rw [hsettle],
          by rw [hsettle], by rw [hsettle], by rw [hsettle], rfl, rfl, rfl, hnoted, hgap.trans (gapOf_eq _ _ _), hrestored,
          restarts_queue hvalid, fun i => ⟨restarts_leg_quiet hvalid, fun hr => ?_, restarts_leg_paying hvalid⟩,
          fun i hi hlower => restarts_legState (by rwa [hlegs]) (fun j hj => (hlower j hj).trans (by rw [hlegs])),
          fun hs => ?_, fun hs r hr => ?_, fun hs r hr => ?_, restarts_retryWait hvalid, restarts_closed hvalid⟩
        · rw [restarts_leg_runs hvalid hr, restoreTime_eq, hclock]
        · obtain ⟨hsession, htimer⟩ := restarts_tipWait hvalid hs
          refine ⟨?_, fun hnone => htimer.trans hnone, restarts_payment ?_⟩
          · rw [hsession, hclock]
            rfl
          · rw [hsession, hs]
            exact (by decide : SessionState.cancelled ≠ .tipWait)
        · obtain ⟨hsession, htimer⟩ := restarts_authorising hvalid hs hr
          refine ⟨hsession, htimer, restarts_abort hvalid (by simp [restartAborts, hs, hr]), restarts_payment ?_⟩
          rw [hsession, hs]
          exact (by decide : SessionState.aborting ≠ .authorising)
        · obtain ⟨hsession, htimer⟩ := restarts_aborting hvalid hs hr
          exact ⟨hsession, htimer, restarts_abort hvalid (by simp [restartAborts, hs, hr])⟩
  · have hkept := factoryClears_acts_cleared s
    have hsign := (factoryClears_sign s).2
    have hretained := hkept.same .retained
    rw [derive_eq] at hsign
    refine ⟨(factoryClears_acts s).answered _ _ (by simp) (by simp), hkept.same .fare, hkept.same .settle, hkept.same .shifts,
      hkept.same .journal, hkept.same .odo, ?_⟩
    rw [answered_retained, answered_sign, hsign, hretained]
    exact ⟨rfl, rfl, rfl, rfl, rfl, rfl, rfl, Bool.and_true _, fun h => (factoryClears_payment h).answered _ _,
      fun h => factoryClears_quiet h, fun h => hsign ▸ (factoryClears_emergency h).answered _ _, rfl, rfl, rfl, rfl,
      (factoryClears_shift s).answered _ _, replyIs_answered _ _ _⟩

end Sys2Proof.Machine
end

