-- ==== Sys2Proof/Proofs/Requests.lean ====
section
/-!
PROOF. Request frames and commands spell each other: numbers and their bytes, the fields of a body, and the command of
a kind and its values.
-/

set_option Elab.async false

namespace Sys2Proof.Machine

/-! ### Numbers as bytes (R177) -/

@[simp] theorem numberOf_append (bs : List Byte) (b : Byte) : numberOf (bs ++ [b]) = numberOf bs * 256 + b.toNat := by
  simp [numberOf]

@[simp] theorem bytesOf_length (w n : Nat) : (bytesOf w n).length = w := by
  induction w generalizing n with
  | zero => rfl
  | succ w ih => simp [bytesOf, ih]

theorem numberOf_bytesOf {w n : Nat} (h : n < 256 ^ w) : numberOf (bytesOf w n) = n := by
  induction w generalizing n with
  | zero =>
    have hzero : n = 0 := by omega
    subst hzero
    rfl
  | succ w ih =>
    have hhigh : n / 256 < 256 ^ w := by
      rw [Nat.pow_succ] at h
      omega
    rw [bytesOf, numberOf_append, ih hhigh, BitVec.toNat_ofNat]
    omega

theorem numberOf_lt (bs : List Byte) : numberOf bs < 256 ^ bs.length := by
  induction bs using List.reverseRecOn with
  | nil => decide
  | append_singleton bs b ih =>
    have hb := b.isLt
    rw [numberOf_append, List.length_append, List.length_singleton, Nat.pow_succ]
    omega

theorem bytesOf_numberOf (bs : List Byte) : bytesOf bs.length (numberOf bs) = bs := by
  induction bs using List.reverseRecOn with
  | nil => rfl
  | append_singleton bs b ih =>
    have hb := b.isLt
    have hhigh : (numberOf bs * 256 + b.toNat) / 256 = numberOf bs := by omega
    have hlow : BitVec.ofNat 8 (numberOf bs * 256 + b.toNat) = b := by
      apply BitVec.eq_of_toNat_eq
      rw [BitVec.toNat_ofNat]
      omega
    rw [numberOf_append, List.length_append, List.length_singleton, bytesOf, hhigh, ih, hlow]

theorem signedOf_unsignedOf {z : Int} (hlow : -32768 ≤ z) (hhigh : z < 32768) : signedOf (unsignedOf z) = z := by
  unfold signedOf unsignedOf
  split <;> omega

theorem unsignedOf_lt (z : Int) : unsignedOf z < 256 ^ 2 := by
  unfold unsignedOf
  omega

theorem unsignedOf_signedOf {n : Nat} (h : n < 256 ^ 2) : unsignedOf (signedOf n) = n := by
  unfold signedOf unsignedOf
  split <;> omega

/-! ### The fields of a body -/

/-- A field that fits is read back, with what follows it left. -/
theorem readVal_valBytes {l : Lay} {v : Val} (h : l.fits v = true) (rest : List Byte) :
    readVal l (valBytes l v ++ rest) = some (v, rest) := by
  cases l <;> cases v <;> try cases h
  case num.num w n =>
    have hlen := bytesOf_length w n
    have hroom : w ≤ (bytesOf w n ++ rest).length := by simp
    have hfits : n < 256 ^ w := by simpa [Lay.fits] using h
    rw [valBytes, readVal, if_pos hroom, List.take_left' hlen, List.drop_left' hlen, numberOf_bytesOf hfits]
  case signed.signed z =>
    have hlen := bytesOf_length 2 (unsignedOf z)
    have hroom : 2 ≤ (bytesOf 2 (unsignedOf z) ++ rest).length := by simp
    have hfits : -32768 ≤ z ∧ z < 32768 := by simpa [Lay.fits] using h
    rw [valBytes, readVal, if_pos hroom, List.take_left' hlen, List.drop_left' hlen, numberOf_bytesOf (unsignedOf_lt z),
      signedOf_unsignedOf hfits.1 hfits.2]
  case text.text t =>
    have hfits : t.length < 256 := by simpa [Lay.fits] using h
    have hcount : (BitVec.ofNat 8 t.length).toNat = t.length := by
      rw [BitVec.toNat_ofNat]
      omega
    show readVal .text (BitVec.ofNat 8 t.length :: (t ++ rest)) = _
    rw [readVal, hcount, if_pos (by simp), List.take_left' rfl, List.drop_left' rfl]

theorem readVals_valsBytes {ls : List Lay} {vs : List Val} (h : layoutFits ls vs = true) :
    readVals ls (valsBytes ls vs) = some vs := by
  induction ls generalizing vs with
  | nil =>
    cases vs with
    | nil => rfl
    | cons v vs => cases h
  | cons l ls ih =>
    cases vs with
    | nil => cases h
    | cons v vs =>
      obtain ⟨hv, hvs⟩ := Bool.and_eq_true_iff.mp h
      rw [valsBytes, readVals, readVal_valBytes hv]
      simp [ih hvs]

/-- A field read spells the bytes it was read from. -/
theorem valBytes_readVal {l : Lay} {bs rest : List Byte} {v : Val} (h : readVal l bs = some (v, rest)) :
    valBytes l v ++ rest = bs := by
  cases l with
  | num w =>
    rw [readVal] at h
    split at h
    · next hroom =>
      cases h
      have hback := bytesOf_numberOf (bs.take w)
      rw [List.length_take, Nat.min_eq_left hroom] at hback
      rw [valBytes, hback, List.take_append_drop]
    · cases h
  | signed =>
    rw [readVal] at h
    split at h
    · next hroom =>
      cases h
      have hlength : (bs.take 2).length = 2 := by rw [List.length_take, Nat.min_eq_left hroom]
      have hback := bytesOf_numberOf (bs.take 2)
      have hsmall := numberOf_lt (bs.take 2)
      rw [hlength] at hback hsmall
      rw [valBytes, unsignedOf_signedOf hsmall, hback, List.take_append_drop]
    · cases h
  | text =>
    cases bs with
    | nil => cases h
    | cons n bs =>
      rw [readVal] at h
      split at h
      · next hroom =>
        cases h
        have hcount : (bs.take n.toNat).length = n.toNat := by rw [List.length_take, Nat.min_eq_left hroom]
        show BitVec.ofNat 8 (bs.take n.toNat).length :: (bs.take n.toNat ++ bs.drop n.toNat) = n :: bs
        rw [hcount, BitVec.ofNat_toNat, List.take_append_drop]
        simp
      · cases h

theorem valsBytes_readVals {ls : List Lay} {bs : List Byte} {vs : List Val} (h : readVals ls bs = some vs) :
    valsBytes ls vs = bs := by
  induction ls generalizing bs vs with
  | nil =>
    cases bs with
    | nil =>
      cases h
      rfl
    | cons b bs => cases h
  | cons l ls ih =>
    rw [readVals] at h
    split at h
    · next v rest hv =>
      obtain ⟨vs', hvs', rfl⟩ := Option.map_eq_some_iff.mp h
      rw [valsBytes, ih hvs', valBytes_readVal hv]
    · cases h

/-! ### Kinds and commands (Table 12-3) -/

theorem reqKind?_code (k : ReqKind) : reqKind? k.code = some k := by
  cases k <;> decide

theorem code_lt (k : ReqKind) : k.code < 256 := by
  cases k <;> decide

/-- A kind is found by its code alone. -/
theorem code_of_reqKind? {n : Nat} {k : ReqKind} (h : reqKind? n = some k) : k.code = n := by
  simpa using List.find?_some h

theorem command_of_parts {c : Instr} {k : ReqKind} {vs : List Val} (h : requestParts c = some (k, vs)) :
    k.command vs = some c := by
  cases c <;> cases h <;> rfl

section
variable {vs : List Val} {c : Instr}

theorem of0_some {x : Instr} (h : of0 x vs = some c) : vs = [] ∧ x = c := by
  unfold of0 at h
  split at h
  · exact ⟨rfl, Option.some.inj h⟩
  · cases h

theorem of1_some {f : Nat → Instr} (h : of1 f vs = some c) : ∃ a, vs = [.num a] ∧ f a = c := by
  unfold of1 at h
  split at h
  · exact ⟨_, rfl, Option.some.inj h⟩
  · cases h

theorem of2_some {f : Nat → Nat → Instr} (h : of2 f vs = some c) : ∃ a b, vs = [.num a, .num b] ∧ f a b = c := by
  unfold of2 at h
  split at h
  · exact ⟨_, _, rfl, Option.some.inj h⟩
  · cases h

theorem of3_some {f : Nat → Nat → Nat → Instr} (h : of3 f vs = some c) :
    ∃ a b d, vs = [.num a, .num b, .num d] ∧ f a b d = c := by
  unfold of3 at h
  split at h
  · exact ⟨_, _, _, rfl, Option.some.inj h⟩
  · cases h

theorem of4_some {f : Nat → Nat → Nat → Nat → Instr} (h : of4 f vs = some c) :
    ∃ a b d e, vs = [.num a, .num b, .num d, .num e] ∧ f a b d e = c := by
  unfold of4 at h
  split at h
  · exact ⟨_, _, _, _, rfl, Option.some.inj h⟩
  · cases h

theorem of6_some {f : Nat → Nat → Nat → Nat → Nat → Nat → Instr} (h : of6 f vs = some c) :
    ∃ a b d e g i, vs = [.num a, .num b, .num d, .num e, .num g, .num i] ∧ f a b d e g i = c := by
  unfold of6 at h
  split at h
  · exact ⟨_, _, _, _, _, _, rfl, Option.some.inj h⟩
  · cases h

theorem ofText_some {f : Text → Instr} (h : ofText f vs = some c) : ∃ t, vs = [.text t] ∧ f t = c := by
  unfold ofText at h
  split at h
  · exact ⟨_, rfl, Option.some.inj h⟩
  · cases h

end

/-- The command of a kind and its values is the one that these are the parts of. -/
theorem parts_of_command {k : ReqKind} {vs : List Val} {c : Instr} (h : k.command vs = some c) :
    requestParts c = some (k, vs) := by
  cases k
  case dpulseConfig | legTariff | payTip | signMode | noticeMask =>
    obtain ⟨a, b, rfl, rfl⟩ := of2_some h
    rfl
  case calSetK | tariffRead | extraKindRead | legStop | legResume | legVoid | legExtraRemove | legRead | shareSet
      | terminalStatus | reportRead | tripRead | lampFaultClear | intercomMode | toneStop | linkConfig | linkStatus
      | noticeMode =>
    obtain ⟨a, rfl, rfl⟩ := of1_some h
    rfl
  case legStart | legExtraAdd | payBegin | intercomSettings =>
    obtain ⟨a, b, d, rfl, rfl⟩ := of3_some h
    rfl
  case scheduleWrite =>
    obtain ⟨a, b, d, e, rfl, rfl⟩ := of4_some h
    rfl
  case patternWrite | clockSet =>
    obtain ⟨a, b, d, e, g, i, rfl, rfl⟩ := of6_some h
    rfl
  case shiftOpen =>
    obtain ⟨t, rfl, rfl⟩ := ofText_some h
    rfl
  case tariffWrite | extraKindWrite | paySettingsWrite | tonePlay =>
    simp only [ReqKind.command, ofTariff, ofKind, ofSettings, ofTone] at h
    split at h
    · cases h
      rfl
    · cases h
  all_goals
    obtain ⟨rfl, rfl⟩ := of0_some h
    rfl

/-! ### Frames -/

/-- A frame decodes to a request exactly where its kind and body are the request's parts. -/
theorem decodeRequest_iff (kind : Byte) (body : List Byte) (c : Instr) :
    decodeRequest kind body = .request c
      ↔ ∃ k vs, reqKind? kind.toNat = some k ∧ readVals k.layout body = some vs ∧ requestParts c = some (k, vs) := by
  constructor
  · intro h
    unfold decodeRequest at h
    split at h
    · cases h
    · next k hk =>
      split at h
      · next d hd =>
        cases h
        obtain ⟨vs, hvs, hc⟩ := Option.bind_eq_some_iff.mp hd
        exact ⟨k, vs, hk, hvs, parts_of_command hc⟩
      · cases h
  · rintro ⟨k, vs, hk, hvs, hparts⟩
    simp only [decodeRequest, hk, hvs, Option.bind_some, command_of_parts hparts]

/-- Settles O60. -/
theorem requestFramesSpellTheirCommands : Obligations.RequestFramesSpellTheirCommands := by
  refine ⟨fun c tag hwell hrequest => ?_, fun f c hdecoded => ?_⟩
  · obtain ⟨⟨k, vs⟩, hparts⟩ := Option.isSome_iff_exists.mp hrequest
    rw [Instr.wellFormed, hparts] at hwell
    obtain ⟨hlayout, hlength⟩ := Bool.and_eq_true_iff.mp hwell
    refine ⟨⟨BitVec.ofNat 8 k.code, tag, valsBytes k.layout vs⟩, by rw [encodeRequest, hparts], rfl, by simpa using hlength,
      (decodeRequest_iff _ _ _).mpr ⟨k, vs, ?_, readVals_valsBytes hlayout, hparts⟩⟩
    have hcode : (BitVec.ofNat 8 k.code).toNat = k.code := Nat.mod_eq_of_lt (code_lt k)
    rw [hcode]
    exact reqKind?_code k
  · obtain ⟨k, vs, hkind, hvals, hparts⟩ := (decodeRequest_iff _ _ _).mp hdecoded
    simp only [encodeRequest, hparts, code_of_reqKind? hkind, valsBytes_readVals hvals, BitVec.ofNat_toNat,
      BitVec.setWidth_eq]

end Sys2Proof.Machine
end

