-- ==== Sys2Proof/Proofs/LinkFrames.lean ====
section
/-!
PROOF. Frames on the control link: how one is taken from the handling place, where a sound frame is placed, and the
reply that goes.
-/

set_option Elab.async false

namespace Sys2Proof.Machine

/-! ### Taking a frame (R170, R171, R175) -/

theorem echoes_iff (l : ControlLink) (kind : Byte) : echoes l kind.toNat = true ↔ l.echo = true ∧ kind ≠ 0x67#8 := by
  have hcode : echoOffCode = (0x67#8 : Byte).toNat := rfl
  rw [echoes, hcode, Bool.and_eq_true, bne_iff_ne, Ne, BitVec.toNat_inj]

theorem handle_echoes {kind : Nat} {s : State} (h : echoes s.link kind = true) (frame : Option Sys2Proof.Frame)
    (rule : State → Taken) : handle kind frame rule s = occupy ⟨kind, frame, .echo⟩ s := if_pos h

theorem handle_takes {kind : Nat} {s : State} (h : echoes s.link kind = false) (frame : Option Sys2Proof.Frame)
    (rule : State → Taken) :
    handle kind frame rule s = occupy ⟨kind, frame, .answer (rule s).2⟩ (rule s).1 := if_neg (by rw [h]; decide)

theorem not_echoes {l : ControlLink} (h : l.echo = false) (kind : Nat) : echoes l kind = false := by
  rw [echoes, h, Bool.false_and]

theorem takeEchoOff_taken {s : State} (h : s.link.echo = true) :
    takeEchoOff s = ({ s with link := { s.link with echo := false } }, .ok []) := if_pos h

/-- A frame in the handling place is taken as R170, R171 and R175 say. -/
theorem takeFrame_takenAs (f : Sys2Proof.Frame) {s : State} (hrun : s.power = .running)
    (hfree : s.link.handling = none) : takenAs f s (takeFrame f s) := by
  refine ⟨fun hecho => ?_, fun hecho => ⟨fun hkind => ?_, fun hkind => ?_⟩⟩
  · have htaken : takeFrame f s = occupy ⟨f.kind.toNat, some f, .answer (takeDecoded (decodeRequest f.kind f.body) s).2⟩
        (takeDecoded (decodeRequest f.kind f.body) s).1 := by
      have hbody : takeBody f s = takeDecoded (decodeRequest f.kind f.body) s := if_neg (by rw [hecho]; decide)
      rw [takeFrame, handle_takes (not_echoes hecho _), hbody]
    refine ⟨fun hunknown => ?_, fun hlength => ?_, fun c k vs hrequest hparts => ?_⟩
    · rw [htaken, hunknown]
      rfl
    · rw [htaken, hlength]
      rfl
    · obtain ⟨rule, hrule, hexec⟩ := rule_of_parts hparts
      obtain ⟨k', vs', hkind, -, hparts'⟩ := (decodeRequest_iff _ _ _).mp hrequest
      rw [hparts] at hparts'
      cases hparts'
      refine ⟨_, _, exec_ready ⟨hrun, hfree, hecho⟩ (hexec s), (code_of_reqKind? hkind).symm, ?_⟩
      have hdecoded : takeDecoded (decodeRequest f.kind f.body) s = rule s := by
        rw [hrequest, takeDecoded, hrule]
      rw [htaken, hdecoded]
      rfl
  · exact handle_echoes ((echoes_iff _ _).mpr ⟨hecho, hkind⟩) _ _
  · have hechoes : echoes s.link f.kind.toNat = false := by
      rw [← Bool.not_eq_true, echoes_iff]
      exact fun h => h.2 hkind
    have hbody : takeBody f s = ({ s with link := { s.link with echo := false } }, .ok []) :=
      (if_pos hecho).trans (takeEchoOff_taken hecho)
    rw [takeFrame, handle_takes hechoes, hbody]
    rfl

/-! ### Placing a frame (R170) -/

theorem ControlLink.settleGap_receives (l : ControlLink) : l.settleGap.receives .hunting = l.heard := by
  obtain ⟨rate, receiver, quiet, handling, waiting, after, queue, enabled, stream, echo, overrun, gapCount, lengthCount,
    crcCount, overrunCount, noticeFrame⟩ := l
  cases receiver with
  | hunting => rfl
  | assembling bytes =>
    by_cases hq : 3 ≤ quiet <;>
      simp [settleGap, gapOver, gap, receives, heard, hq, incU16, satAdd]

/-- What a sound frame leaves when it is placed. -/
def frameHeard (s : State) : State := { s with link := s.link.heard }

theorem frameArrives_eq (f : Sys2Proof.Frame) (s : State) : frameArrives f s = placeFrame f (frameHeard s) := by
  rw [frameArrives, frameHeard, ← ControlLink.settleGap_receives]
  rfl

theorem exec_controlFrameReceived {s : State} (h : s.power = .running) (f : Sys2Proof.Frame) :
    exec (.controlFrameReceived f) s = .next (placeFrame f (frameHeard s)) := by
  rw [← frameArrives_eq]
  exact exec_running h rfl

theorem placeFrame_free {s : State} (h : s.link.handling = none) (f : Sys2Proof.Frame) : placeFrame f s = takeFrame f s := by
  rw [placeFrame, h]

theorem placeFrame_waits {s : State} (h : s.link.handling.isSome = true) (hw : s.link.waiting = none)
    (f : Sys2Proof.Frame) : placeFrame f s = { s with link := { s.link with waiting := some f } } := by
  unfold placeFrame
  split
  · next hx => simp [hx] at h
  · rfl
  · next hy => simp [hw] at hy

theorem placeFrame_overruns {s : State} (h : s.link.handling.isSome = true) (hw : s.link.waiting.isSome = true)
    (f : Sys2Proof.Frame) : placeFrame f s = { s with link := s.link.overruns } := by
  unfold placeFrame
  split
  · next hx => simp [hx] at h
  · next hy => simp [hy] at hw
  · rfl

/-! ### The reply goes (R170) -/

theorem ControlLink.sendsReply_iff (l : ControlLink) :
    l.sendsReply = true ↔ l.handling.isSome = true ∧ l.noticeFrame = none := by
  rw [sendsReply, Bool.and_eq_true, Option.isNone_iff_eq_none]

theorem exec_replySent {s : State} (h : s.power = .running) (hs : s.link.sendsReply = true) :
    exec .replySent s = .next (finishReply s) := by
  rw [exec_running h (g := replyIsSent) rfl, replyIsSent, if_pos hs]

/-- The state in which the waiting frame is looked at, where nothing was to follow the reply. -/
def replyDone (s : State) : State := { s with link := { s.link with handling := none } }

theorem finishReply_plain {s : State} (h : s.link.after = .nothing) : finishReply s = takeWaiting (replyDone s) := by
  have hgone (b : Bool) : s.link.replyGone b = { s.link with handling := none } := by
    rw [ControlLink.replyGone, h, ControlLink.follow, ← h]
  have hkeeps : s.link.mayLoseByte = false := by
    rw [ControlLink.mayLoseByte, h]
    rfl
  simp only [finishReply, hkeeps, setLink, hgone]
  rfl

theorem takeWaiting_none {s : State} (h : s.link.waiting = none) : takeWaiting s = s := by
  rw [takeWaiting, h]

theorem takeWaiting_some {s : State} {f : Sys2Proof.Frame} (h : s.link.waiting = some f) :
    takeWaiting s = takeFrame f { s with link := { s.link with waiting := none } } := by
  rw [takeWaiting, h]
  rfl

theorem repliesGone_free {s : State} (h : s.link.handling = none) : repliesGone s = s := by
  rw [repliesGone, h]

/-- Settles O57. -/
theorem framesAreHeldInTwoPlaces : Obligations.FramesAreHeldInTwoPlaces := by
  intro s f hrun
  refine ⟨fun hfree => ?_, fun hheld hw => ?_, fun hheld hw => ?_, fun hidle => ?_, fun hheld hline hafter =>
    ⟨fun hw => ?_, fun hw => ?_⟩, fun hecho hfree => ⟨fun hkind => ?_, ?_⟩, fun hready kind hkind => ?_⟩
  · refine ⟨_, exec_controlFrameReceived hrun f, ?_⟩
    rw [placeFrame_free (s := frameHeard s) hfree]
    exact takeFrame_takenAs f hrun hfree
  · rw [exec_controlFrameReceived hrun, placeFrame_waits (s := frameHeard s) hheld hw]
    rfl
  · rw [exec_controlFrameReceived hrun, placeFrame_overruns (s := frameHeard s) hheld hw]
    rfl
  · have hnone : ¬ s.link.sendsReply = true := by
      rw [ControlLink.sendsReply_iff]
      rintro ⟨hheld, hline⟩
      rcases hidle with h | h
      · simp [h] at hheld
      · simp [hline] at h
    rw [exec_running hrun (g := replyIsSent) rfl, replyIsSent, if_neg hnone]
  · rw [exec_replySent hrun (s.link.sendsReply_iff.mpr ⟨hheld, hline⟩), finishReply_plain hafter,
      takeWaiting_none (s := replyDone s) hw]
    rfl
  · refine ⟨_, exec_replySent hrun (s.link.sendsReply_iff.mpr ⟨hheld, hline⟩), ?_⟩
    rw [finishReply_plain hafter, takeWaiting_some (s := replyDone s) hw]
    exact takeFrame_takenAs f hrun rfl
  · have hechoes := (echoes_iff s.link f.kind).mpr ⟨hecho, hkind⟩
    rw [exec_running hrun (g := echoFrame f) rfl, echoFrame, repliesGone_free hfree, if_pos hechoes]
    rfl
  · have hkeeps : echoes s.link 0x67 = false := by
      rw [echoes, Bool.and_eq_false_iff]
      exact .inr rfl
    have hexec : exec .echoOff s = .next (whileRunning (fun t => handle 0x67 none takeEchoOff (repliesGone t)) s) := rfl
    rw [hexec, whileRunning_running hrun, repliesGone_free hfree, handle_takes hkeeps, takeEchoOff_taken hecho]
    rfl
  · obtain ⟨-, hfree, hecho⟩ := hready
    rw [exec_running hrun (g := unlisted kind) rfl, unlisted, hkind, repliesGone_free hfree,
      handle_takes (not_echoes hecho _)]
    rfl

end Sys2Proof.Machine
end

