-- ==== Sys2Proof/Proofs/LinkChanges.lean ====
section
/-!
PROOF. The control link's own requests and what follows their replies, breaks and gaps, and the receiver byte by byte.
-/

set_option Elab.async false

namespace Sys2Proof.Machine

/-! ### The link's own requests (R168, R175, R176) -/

theorem rateAllowed_iff (r : Nat) : rateAllowed r = true ↔ r ∈ [9600, 19200, 38400, 57600, 115200] :=
  List.contains_iff_mem

theorem takeLinkConfig_bad {r : Nat} (h : r ∉ [9600, 19200, 38400, 57600, 115200]) (s : State) :
    takeLinkConfig r s = refuse .badValue s := by
  rw [← rateAllowed_iff, Bool.not_eq_true] at h
  rw [takeLinkConfig, h]
  rfl

theorem takeLinkConfig_taken {r : Nat} (h : r ∈ [9600, 19200, 38400, 57600, 115200]) (s : State) :
    takeLinkConfig r s
      = (if r = s.link.rate then s else { s with link := { s.link with after := .rateSwitch r } }, .ok [.u32 r]) := by
  rw [← rateAllowed_iff] at h
  rw [takeLinkConfig, h]
  by_cases hr : r = s.link.rate
  · rw [if_pos hr, if_pos hr]
    rfl
  · rw [if_neg hr, if_neg hr]
    rfl

theorem takeLinkStatus_taken {c : Nat} (h : c ≤ 1) (s : State) :
    takeLinkStatus c s
      = ({ s with link := { s.link with overrun := if c = 1 then false else s.link.overrun } }, .ok (linkFields s.link)) := by
  have hflag : (s.link.overrun && !decide (c = 1)) = if c = 1 then false else s.link.overrun := by
    by_cases hc : c = 1 <;> simp [hc]
  rw [takeLinkStatus, yesNo?_some h, ← hflag]
  rfl

/-! ### What follows a reply (R168, R175, R176) -/

/-- Where no frame waits, the reply goes and what was to follow it takes place. -/
theorem finishReply_alone {s : State} {l : ControlLink} (h : s.link.replyGone (Config.byteBeingReceived s.freeCount) = l)
    (hw : l.waiting = none) :
    finishReply s
      = { s with link := l, freeCount := if s.link.mayLoseByte = true then s.freeCount + 1 else s.freeCount } := by
  subst h
  cases hlose : s.link.mayLoseByte with
  | true =>
    simp only [finishReply, hlose, if_true]
    exact takeWaiting_none (s := { s with link := s.link.replyGone _, freeCount := s.freeCount + 1 }) hw
  | false =>
    simp only [finishReply, hlose]
    exact takeWaiting_none (s := { s with link := s.link.replyGone _ }) hw

/-- The link after a reply that nothing follows. -/
def ControlLink.replied (l : ControlLink) : ControlLink := { l with handling := none, after := .nothing }

theorem ControlLink.replyGone_eq (l : ControlLink) (receiving : Bool) :
    l.replyGone receiving = l.replied.follow receiving l.after := rfl

theorem ControlLink.losesByte_hunting {l : ControlLink} (h : l.receiver = .hunting) (receiving : Bool) :
    l.losesByte receiving = l := by
  rw [losesByte, h]

theorem ControlLink.losesByte_assembling {l : ControlLink} (h : l.receiver ≠ .hunting) (receiving : Bool) :
    l.losesByte receiving
      = if receiving = true then { l with receiver := .hunting, gapCount := min 65535 (l.gapCount + 1) } else l := by
  unfold losesByte
  split
  · next hr => exact absurd hr h
  · rw [gap_eq, if_neg h]
    rfl

theorem finishReply_rate {s : State} {r : Nat} (h : s.link.after = .rateSwitch r) (hw : s.link.waiting = none) :
    (s.link.receiver = .hunting → finishReply s = { s with link := { s.link.replied with rate := r } })
      ∧ (s.link.receiver ≠ .hunting → finishReply s =
        { s with
          freeCount := s.freeCount + 1
          link := if Config.byteBeingReceived s.freeCount = true then
              { s.link.replied with rate := r, receiver := .hunting, gapCount := min 65535 (s.link.gapCount + 1) }
            else { s.link.replied with rate := r } }) := by
  refine ⟨fun hhunts => ?_, fun hassembles => ?_⟩
  · have hgone : s.link.replyGone (Config.byteBeingReceived s.freeCount) = { s.link.replied with rate := r } := by
      rw [ControlLink.replyGone_eq, h, ControlLink.follow,
        ControlLink.losesByte_hunting (l := s.link.replied) hhunts]
    have hkeeps : s.link.mayLoseByte = false := by simp [ControlLink.mayLoseByte, hhunts]
    rw [finishReply_alone hgone hw, hkeeps]
    rfl
  · have hgone : s.link.replyGone (Config.byteBeingReceived s.freeCount)
        = if Config.byteBeingReceived s.freeCount = true then
            { s.link.replied with rate := r, receiver := .hunting, gapCount := min 65535 (s.link.gapCount + 1) }
          else { s.link.replied with rate := r } := by
      rw [ControlLink.replyGone_eq, h, ControlLink.follow,
        ControlLink.losesByte_assembling (l := s.link.replied) hassembles]
      split <;> rfl
    have hloses : s.link.mayLoseByte = true := by
      simp [ControlLink.mayLoseByte, h, AfterReply.isRate, hassembles]
    rw [finishReply_alone hgone (by split <;> exact hw), hloses]
    rfl

theorem finishReply_echo {s : State} (h : s.link.after = .echoBegin) (hw : s.link.waiting = none) :
    finishReply s = { s with link := { s.link.replied with echo := true } } := by
  have hgone : s.link.replyGone (Config.byteBeingReceived s.freeCount) = { s.link.replied with echo := true } := by
    rw [ControlLink.replyGone_eq, h, ControlLink.follow]
  have hkeeps : s.link.mayLoseByte = false := by
    rw [ControlLink.mayLoseByte, h]
    rfl
  rw [finishReply_alone hgone hw, hkeeps]
  rfl

theorem finishReply_reset {s : State} (h : s.link.after = .linkReset) :
    finishReply s = { s with link := s.link.replied.reset } := by
  have hgone : s.link.replyGone (Config.byteBeingReceived s.freeCount) = s.link.replied.reset := by
    rw [ControlLink.replyGone_eq, h, ControlLink.follow]
  have hkeeps : s.link.mayLoseByte = false := by
    rw [ControlLink.mayLoseByte, h]
    rfl
  rw [finishReply_alone hgone rfl, hkeeps]
  rfl

theorem replyIsSent_sent {s : State} (h : s.link.sendsReply = true) : replyIsSent s = finishReply s := if_pos h

theorem exec_linkRateSwitch {s : State} (hrun : s.power = .running) :
    exec .linkRateSwitch s = .next (if s.link.after.isRate = true then replyIsSent s else s) :=
  exec_running hrun (g := fun t => if t.link.after.isRate then replyIsSent t else t) rfl

theorem exec_linkResetApply {s : State} (hrun : s.power = .running) :
    exec .linkResetApply s = .next (if s.link.after = .linkReset then replyIsSent s else s) :=
  exec_running hrun (g := fun t => if t.link.after = .linkReset then replyIsSent t else t) rfl

theorem exec_echoModeBegin {s : State} (hrun : s.power = .running) :
    exec .echoModeBegin s = .next (if s.link.after = .echoBegin then replyIsSent s else s) :=
  exec_running hrun (g := fun t => if t.link.after = .echoBegin then replyIsSent t else t) rfl

/-! ### Breaks (R176) -/

theorem ControlLink.breaks_eq (l : ControlLink) (mid : Bool) :
    l.breaks mid
      = { l with
          receiver := .hunting, handling := none, waiting := none, after := .nothing, queue := [], overrun := false
          stream := false, echo := false, enabled := BitVec.allOnes 20, noticeFrame := none
          gapCount := if mid = true ∨ l.receiver ≠ .hunting then min 65535 (l.gapCount + 1) else l.gapCount } := by
  rw [breaks, gap_eq, midFrame]
  cases hr : l.receiver with
  | hunting => cases mid <;> simp [reset, hr, incU16, satAdd]
  | assembling bytes => cases mid <;> simp [reset, hr, incU16, satAdd]

/-! ### The receiver (R170) -/

theorem ControlLink.settleGap_quiet {l : ControlLink} (h : l.quiet < 3) : l.settleGap = l := by
  have hno : l.gapOver = false := by
    unfold gapOver
    split
    · rfl
    · exact decide_eq_false (by omega)
  rw [settleGap, hno]
  rfl

theorem ControlLink.settleGap_hunts {l : ControlLink} (h : l.receiver = .hunting ∨ 3 ≤ l.quiet) :
    l.settleGap.receiver = .hunting := by
  unfold settleGap
  split
  · rw [gap_eq]
  · next hno =>
    rcases h with hr | hq
    · exact hr
    · unfold gapOver at hno
      split at hno
      · assumption
      · exact absurd (decide_eq_true hq) hno

/-- The receiver hunts, or a gap has passed in a frame. -/
theorem controlByte_hunts {s : State} (h : s.link.receiver = .hunting ∨ 3 ≤ s.link.quiet) (b : Byte) :
    controlByte s b
      = { s with link := { s.link.heard with receiver := if b = 0xA5#8 then .assembling [] else .hunting } } := by
  have hhunts : (setLink ControlLink.settleGap s).link.receiver = .hunting := ControlLink.settleGap_hunts h
  simp only [controlByte, hhunts]
  rw [← ControlLink.settleGap_receives]
  rfl

theorem controlByte_assembles {s : State} {bytes : List Byte} (hq : s.link.quiet < 3)
    (h : s.link.receiver = .assembling bytes) (b : Byte) : controlByte s b = assembleControl bytes b s := by
  have hsame : setLink ControlLink.settleGap s = s := by
    rw [setLink, ControlLink.settleGap_quiet hq]
  simp only [controlByte, hsame, h]

theorem assembleControl_length (b : Byte) (s : State) :
    assembleControl [] b s = { s with link :=
      if 2 ≤ b.toNat ∧ b.toNat ≤ 250 then { s.link with receiver := .assembling [b], quiet := 0 }
      else
        { s.link with
          receiver := .hunting, quiet := 0, lengthCount := min 65535 (s.link.lengthCount + 1) } } := by
  rw [assembleControl]
  by_cases h : 2 ≤ b.toNat ∧ b.toNat ≤ 250
  · rw [if_pos h, if_pos h]
    rfl
  · rw [if_neg h, if_neg h]
    rfl

theorem assembleControl_short {n : Byte} {rest : List Byte} (h : rest.length ≤ n.toNat) (b : Byte) (s : State) :
    assembleControl (n :: rest) b s
      = { s with link := { s.link with receiver := .assembling (n :: rest ++ [b]), quiet := 0 } } := by
  rw [assembleControl, if_pos (by rw [List.length_cons]; omega)]
  rfl

theorem assembleControl_ends {n : Byte} {rest : List Byte} (h : rest.length = n.toNat + 1) (b : Byte) (s : State) :
    assembleControl (n :: rest) b s = frameEnds (n :: rest ++ [b]) s := by
  rw [assembleControl, if_neg (by rw [List.length_cons]; omega)]

section
variable (n kind tag hi b : Byte) (body : List Byte)

/-- The bytes from the length to the CRC. -/
def lineBytes : List Byte := n :: kind :: tag :: body ++ [hi, b]

theorem lineBytes_length : (lineBytes n kind tag hi b body).length = (n :: kind :: tag :: body).length + 2 := by
  simp [lineBytes]

theorem crcMatches_lineBytes :
    crcMatches (lineBytes n kind tag hi b body) = true
      ↔ hi.toNat * 256 + b.toNat = (crc16 (n :: kind :: tag :: body)).toNat := by
  have hsplit : lineBytes n kind tag hi b body = (n :: kind :: tag :: body) ++ [hi, b] := by simp [lineBytes]
  have hcount : (lineBytes n kind tag hi b body).length - 2 = (n :: kind :: tag :: body).length := by
    rw [lineBytes_length, Nat.add_sub_cancel]
  have hnumber : numberOf [hi, b] = hi.toNat * 256 + b.toNat := by simp [numberOf]
  rw [crcMatches, hcount, hsplit, List.drop_left, List.take_left, hnumber, beq_iff_eq]

theorem frameOf_lineBytes : frameOf (lineBytes n kind tag hi b body) = ⟨kind, tag, body⟩ := by
  have hcount : (lineBytes n kind tag hi b body).length - 5 = body.length := by
    rw [lineBytes_length]
    simp
  have hdrop : (lineBytes n kind tag hi b body).drop 3 = body ++ [hi, b] := rfl
  rw [frameOf, hcount, hdrop, List.take_left]
  rfl

end

theorem frameEnds_unsound {bytes : List Byte} (h : ¬ crcMatches bytes = true) (s : State) :
    frameEnds bytes s
      = { s with link :=
          { s.link with receiver := .hunting, quiet := 0, crcCount := min 65535 (s.link.crcCount + 1) } } := by
  rw [frameEnds, if_neg h]
  rfl

theorem frameEnds_sound {bytes : List Byte} (h : crcMatches bytes = true) {s : State} (hq : s.link.quiet < 3) :
    frameEnds bytes s = frameArrives (frameOf bytes) s := by
  rw [frameEnds, if_pos h, frameArrives, setLink, setLink, ControlLink.settleGap_quiet hq]

/-- A byte leaves the part running. -/
theorem controlByte_power {s : State} (h : s.power = .running) (b : Byte) : (controlByte s b).power = .running := by
  have hall : keptByTakings (fun _ : State => True) :=
    ⟨fun _ _ _ _ => trivial, fun _ _ _ => trivial, fun _ _ _ _ _ _ => trivial⟩
  exact (hall.controlByte_on b ⟨trivial, h⟩).2

theorem exec_controlFrameDiscard {s : State} (h : s.power = .running) (bytes : List Byte) :
    exec (.controlFrameDiscard bytes) s = .next (bytes.foldl controlByte s) :=
  exec_running h (g := fun t => bytes.foldl controlByte t) rfl

/-- Settles O58. -/
theorem linkChangesFollowTheReply : Obligations.LinkChangesFollowTheReply := by
  intro s hrun
  refine ⟨fun hready => ⟨fun r hr => exec_refused hready rfl (takeLinkConfig_bad hr s),
      fun r hr => exec_taken hready rfl (takeLinkConfig_taken hr s), exec_taken hready (rule := takeLinkReset) rfl rfl,
      exec_taken hready (rule := takeEchoOn) rfl rfl, ?_, fun c hc => ?_, fun c hc =>
        exec_taken hready rfl (takeLinkStatus_taken hc s)⟩,
    fun hheld hline hw => ?_, fun hnothing => ?_, fun mid => ?_, ?_, exec_controlFrameDiscard hrun [], fun b bs => ?_⟩
  · refine exec_refused hready (rule := takeEchoOff) rfl ?_
    rw [takeEchoOff, hready.2.2]
    rfl
  · refine exec_refused hready rfl ?_
    rw [takeLinkStatus, yesNo?_none hc]
  · have hsends := s.link.sendsReply_iff.mpr ⟨hheld, hline⟩
    have hreply := exec_replySent hrun hsends
    refine ⟨fun r hr => ?_, fun he => ?_, fun hr => ?_⟩
    · have hexec : exec .linkRateSwitch s = .next (finishReply s) := by
        rw [exec_linkRateSwitch hrun, hr, AfterReply.isRate, if_pos rfl, replyIsSent_sent hsends]
      obtain ⟨hhunts, hassembles⟩ := finishReply_rate hr hw
      exact ⟨fun h => by rw [hexec, hhunts h]; rfl, fun h => by rw [hexec, hassembles h]; rfl, hreply.trans hexec.symm⟩
    · have hexec : exec .echoModeBegin s = .next (finishReply s) := by
        rw [exec_echoModeBegin hrun, if_pos he, replyIsSent_sent hsends]
      exact ⟨by rw [hexec, finishReply_echo he hw]; rfl, hreply.trans hexec.symm⟩
    · have hexec : exec .linkResetApply s = .next (finishReply s) := by
        rw [exec_linkResetApply hrun, if_pos hr, replyIsSent_sent hsends]
      refine ⟨?_, hreply.trans hexec.symm⟩
      rw [hexec, finishReply_reset hr, ControlLink.reset, ControlLink.replied, hline, hw]
  · rw [exec_linkRateSwitch hrun, exec_linkResetApply hrun, exec_echoModeBegin hrun, hnothing]
    exact ⟨rfl, rfl, rfl⟩
  · rw [exec_running hrun (g := setLink (fun l => l.breaks mid)) rfl, setLink, ControlLink.breaks_eq]
  · rw [exec_running hrun (g := setLink ControlLink.gap) rfl, setLink, ControlLink.gap_eq]
    rfl
  · have hone : exec (.controlFrameDiscard [b]) s = .next (controlByte s b) := exec_controlFrameDiscard hrun [b]
    refine ⟨⟨controlByte s b, hone, ?_⟩, fun h => ?_, fun hq => ⟨fun hr => ?_, fun n rest hr => ⟨fun hshort => ?_,
      fun kind tag hi body hrest hlength => ?_⟩⟩⟩
    · rw [exec_controlFrameDiscard hrun, exec_controlFrameDiscard (controlByte_power hrun b), List.foldl_cons]
    · rw [hone, controlByte_hunts h]
    · rw [hone, controlByte_assembles hq hr, assembleControl_length]
    · rw [hone, controlByte_assembles hq hr, assembleControl_short hshort]
    · have hends : exec (.controlFrameDiscard [b]) s = .next (frameEnds (lineBytes n kind tag hi b body) s) := by
        have hbytes : n :: rest ++ [b] = lineBytes n kind tag hi b body := by simp [hrest, lineBytes]
        rw [hone, controlByte_assembles hq hr, assembleControl_ends hlength, hbytes]
      have hcrc := crcMatches_lineBytes n kind tag hi b body
      refine ⟨fun hno => ?_, fun hyes => ?_⟩
      · rw [hends, frameEnds_unsound (fun h => hno (hcrc.mp h))]
      · rw [hends, frameEnds_sound (hcrc.mpr hyes) hq, frameOf_lineBytes]
        exact (exec_running hrun rfl).symm

end Sys2Proof.Machine
end

