-- ==== Sys2Proof/Proofs/Masks.lean ====
section
/-!
PROOF. Notices: the enabled set, delivery, fetching and streaming, and what a raise leaves in the queue.
-/

set_option Elab.async false

namespace Sys2Proof.Machine

/-! ### The enabled set (R173) -/

theorem code_pred_lt (k : NoticeKind) : k.code - 1 < 20 := by
  cases k <;> decide

theorem bit_ofNat (set : Nat) {i : Nat} (h : i < 20) : (BitVec.ofNat 20 set).getLsbD i = bit set i := by
  rw [BitVec.getLsbD_ofNat, decide_eq_true h, Bool.true_and, Nat.testBit_eq_decide_div_mod_eq, bit]

theorem maskAfter?_none {op : Nat} (h : 3 < op) (now given : BitVec 20) : maskAfter? op now given = none := by
  match op with
  | k + 4 => rfl

/-- The enabled set after an operation, place by place. -/
theorem maskAfter?_some {op : Nat} (h : op ≤ 3) (now : BitVec 20) (set : Nat) :
    ∃ after, maskAfter? op now (BitVec.ofNat 20 set) = some after ∧ ∀ i < 20, after.getLsbD i
      = if op = 0 then bit set i
        else if op = 1 then now.getLsbD i || bit set i
        else if op = 2 then now.getLsbD i && !bit set i
        else xor (now.getLsbD i) (bit set i) := by
  match op with
  | 0 => exact ⟨_, rfl, fun i hi => bit_ofNat set hi⟩
  | 1 => exact ⟨_, rfl, fun i hi => by rw [BitVec.getLsbD_or, bit_ofNat set hi]; rfl⟩
  | 2 => exact ⟨_, rfl, fun i hi => by
      rw [BitVec.getLsbD_and, BitVec.getLsbD_not, bit_ofNat set hi, decide_eq_true hi, Bool.true_and]; rfl⟩
  | 3 => exact ⟨_, rfl, fun i hi => by rw [BitVec.getLsbD_xor, bit_ofNat set hi]; rfl⟩
  | k + 4 => omega

theorem takeNoticeMask_bad {op set : Nat} (h : 3 < op ∨ 1048576 ≤ set) (s : State) :
    takeNoticeMask op set s = refuse .badValue s := by
  unfold takeNoticeMask
  split
  · rfl
  · next hset => rw [maskAfter?_none (h.resolve_right hset)]

theorem takeNoticeMask_taken {op set : Nat} (hset : set < 1048576) {s : State} {after : BitVec 20}
    (h : maskAfter? op s.link.enabled (BitVec.ofNat 20 set) = some after) :
    takeNoticeMask op set s = ({ s with link := s.link.enable after }, .ok [.u32 after.toNat]) := by
  rw [takeNoticeMask, if_neg (by omega), h]
  rfl

/-! ### A raise in the queue (R172) -/

theorem putNotice_new {n : Notice} {q : List Notice} (h : ∀ m ∈ q, m.kind ≠ n.kind) : putNotice n q = q ++ [n] := by
  induction q with
  | nil => rfl
  | cons m ms ih =>
    rw [putNotice, if_neg (h m List.mem_cons_self), ih (fun x hx => h x (List.mem_cons_of_mem m hx)), List.cons_append]

theorem putNotice_queued {n m : Notice} {before after : List Notice} (hm : m.kind = n.kind)
    (h : ∀ x ∈ before, x.kind ≠ n.kind) : putNotice n (before ++ m :: after) = before ++ n :: after := by
  induction before with
  | nil => rw [List.nil_append, putNotice, if_pos hm, List.nil_append]
  | cons x xs ih =>
    rw [List.cons_append, putNotice, if_neg (h x List.mem_cons_self), ih (fun y hy => h y (List.mem_cons_of_mem x hy)),
      List.cons_append]

/-- Where no two notices have one kind, none before a notice has its kind. -/
theorem kinds_before {before after : List Notice} {n : Notice} (h : ((before ++ n :: after).map Notice.kind).Nodup) :
    ∀ x ∈ before, x.kind ≠ n.kind := by
  intro x hx hkind
  rw [List.map_append, List.map_cons, List.nodup_append] at h
  exact h.2.2 _ (List.mem_map_of_mem hx) _ List.mem_cons_self hkind

/-! ### Streaming (R174) -/

theorem ControlLink.mayStream_iff (l : ControlLink) :
    l.mayStream = true
      ↔ l.stream = true ∧ l.handling = none ∧ l.echo = false ∧ l.noticeFrame = none ∧ l.queue ≠ [] := by
  simp [mayStream, and_assoc]

theorem exec_noticeFrameStart {s : State} (h : s.power = .running) :
    exec .noticeFrameStart s = .next { s with link := s.link.beginNotice } :=
  exec_running h (g := setLink ControlLink.beginNotice) rfl

/-- Settles O59. -/
theorem noticesAreMaskedFetchedAndStreamed : Obligations.NoticesAreMaskedFetchedAndStreamed := by
  intro s hrun
  refine ⟨fun hready op set => ⟨fun hbad => exec_refused hready rfl (takeNoticeMask_bad hbad s), fun hop hset => ?_⟩,
    fun hready m => ⟨fun hm => ?_, fun hm => ?_⟩, fun hready hempty => ?_, fun n ns hq => ⟨fun hready => ?_,
      fun hstream hfree hecho hline => ?_⟩, fun hno => ?_,
      exec_running hrun (g := setLink (fun l => { l with noticeFrame := none })) rfl, fun k p l hnodup => ⟨fun hoff => ?_,
      fun hon hnew => ?_, fun hon before n after hq hn => ?_⟩⟩
  · obtain ⟨after, hafter, hbits⟩ := maskAfter?_some hop s.link.enabled set
    refine ⟨_, exec_taken hready rfl (takeNoticeMask_taken hset hafter), ?_, fun k => hbits _ (code_pred_lt k), rfl, rfl⟩
    simp [changesOnly, answered]
  · refine exec_refused hready rfl ?_
    rw [takeNoticeMode, yesNo?_none hm]
  · refine exec_taken hready rfl ?_
    rw [takeNoticeMode, yesNo?_some hm]
    match m with
    | 0 | 1 => rfl
    | j + 2 => omega
  · refine exec_refused hready (rule := takeNoticeFetch) rfl ?_
    rw [takeNoticeFetch, hempty]
  · refine exec_taken hready (rule := takeNoticeFetch) rfl ?_
    rw [takeNoticeFetch, hq]
    rfl
  · have hmay := s.link.mayStream_iff.mpr ⟨hstream, hfree, hecho, hline, by simp [hq]⟩
    rw [exec_noticeFrameStart hrun, ControlLink.beginNotice, if_pos hmay, hq]
    rfl
  · have hnot : ¬ s.link.mayStream = true := by
      rw [ControlLink.mayStream_iff]
      rintro ⟨hstream, hfree, hecho, hline, hqueue⟩
      simp [hstream, hfree, hecho, hline, hqueue] at hno
    rw [exec_noticeFrameStart hrun, ControlLink.beginNotice, if_neg hnot]
  · exact if_neg (by rw [hoff]; decide)
  · rw [ControlLink.raise, if_pos hon, putNotice_new hnew]
  · rw [hq] at hnodup
    have hbefore := kinds_before hnodup
    rw [ControlLink.raise, if_pos hon, hq, putNotice_queued hn (fun x hx => hn ▸ hbefore x hx)]

end Sys2Proof.Machine
end
